-- ==== Sys2Proof/Word.lean ====
section
/-!
DEFINITION. The byte, and lists of one value per port: the plainest data of the model.
-/

namespace Sys2Proof

/-- A byte of a frame, a reply or a chip record (R164, R187). -/
abbrev Byte := BitVec 8

/-- The byte holding the low eight bits of `n`. -/
abbrev Byte.of (n : Nat) : Byte := BitVec.ofNat 8 n

end Sys2Proof
end

