-- ==== Sys2Proof/Config.lean ====
section
/-!
DEFINITION. What the part fixes once and for all: capacities of its tables and queues and the fixed time limits of the
spec, and the one free value of the model.
-/

namespace Sys2Proof.Config

/-- Sub-tank capacity in nL (R1). -/
def subTankMax : Nat := 30000000
/-- Sub-tank estimate at the float's HIGH mark (R1, R18). -/
def floatHighMark : Nat := 27000000
/-- Sub-tank estimate at the float's LOW mark (R1, R18). -/
def floatLowMark : Nat := 8000000
/-- Drawn or added ink at which a write-back falls due (R21, R39). -/
def writeBackStep : Nat := 1000000
/-- Capacity of the cartridge bus queue (R20). -/
def busDepth : Nat := 16
/-- Attempts of a bus transaction (R20). -/
def busAttempts : Nat := 4
/-- Units of 0.0001 pL in one nL (R29). -/
def residueUnit : Nat := 10000000
/-- Largest drop count of a USAGE report (R27). -/
def dropCountMax : Nat := 268435455
/-- Entries of the admission table (R41). -/
def pageDepth : Nat := 4
/-- Longest media length (R41, R142). -/
def mediaMax : Nat := 200000000
/-- Largest reserved ink of a channel in µL (R44). -/
def reserveInkMax : Nat := 100000
/-- Motion timer and stall limit in ms (R58, R59). -/
def motionLimit : Nat := 1500
/-- Capacity of the order queue (R78). -/
def orderDepth : Nat := 16
/-- Escalated cycles allowed in one session (R110). -/
def escalationLimit : Nat := 3
/-- Capacity of the posted queue (R169). -/
def postedDepth : Nat := 8
/-- Longest frame body (R164). -/
def bodyMax : Nat := 128
/-- Longest single motion in µm (R151, R160). -/
def motionMax : Nat := 200000
/-- One encoder count in units of the feed residue (R147). -/
def feedUnit : Nat := 1000000000000
/-- Largest values of unsigned fields of 1, 2 and 4 bytes. -/
def u8Max : Nat := 255
def u16Max : Nat := 65535
def u32Max : Nat := 4294967295
/-- Limits of a signed 4-byte field. -/
def i32Min : Int := -2147483648
def i32Max : Int := 2147483647
/-- FREE VALUE: the encoder's counts when the part's own timer ends a feed motion (R148), which no command brings; the
n-th such timeout reads `freeCounts n` (log entry 38, DESIGN CHOICE). -/
opaque freeCounts : Nat → BitVec 32
/-- Bound on the chain of consequences followed within one command (log entry 8). -/
def cascadeLimit : Nat := 400

end Sys2Proof.Config
end

