-- ==== Sys2Proof/Syntax.lean ====
section
/-!
DEFINITION. The commands the part takes: one constructor per row of spec/opcode_table.json, with the names their
operands use. Choices stand in the order in which the spec names them, since R180 codes a choice by its position.
-/

namespace Sys2Proof

/-- The three links (R162, R166). -/
inductive Port where
  | job | raster | panel
  deriving DecidableEq, Repr

/-- The float's three readings (R1). -/
inductive FloatLevel where
  | low | mid | high
  deriving DecidableEq, Repr

/-- The media sources (R142). -/
inductive Source where
  | roll1 | roll2 | sheet
  deriving DecidableEq, Repr

/-- The edge of FIRE_SYNC (R91, R170). -/
inductive Edge where
  | rising | falling
  deriving DecidableEq, Repr

/-- The four raw end sensors of the station (R58, R75). -/
inductive EndSensor where
  | sledDown | sledUp | wiperRetracted | wiperRaised
  deriving DecidableEq, Repr

/-- What the sensors read when a device reset ends (R1, R4, R34, R57, R143, R174). -/
structure Readings where
  presence : Vector Bool 12
  wastePresence : Bool
  floats : Vector FloatLevel 6
  home : Bool
  sledDown : Bool
  sledUp : Bool
  wiperRetracted : Bool
  wiperRaised : Bool
  leadingEdge : Bool
  pathEntry : Bool
  coverOpen : Bool
  sheetPresent : Bool
  rollEnd1 : Bool
  rollEnd2 : Bool
  deriving DecidableEq, Repr

/-- The commands. A frame command stands for one whole transaction that carries a well-formed frame of its kind on
port `p` with the body bytes `body` (R162, R164). Operands named `counts` and `encoder` are the encoder counts of the
running motion at that moment (R148). -/
inductive Instr where
  | resetNAssert
  | deviceReset (r : Readings)
  | statusPoll (p : Port)
  | frameError (p : Port) (bytes : List Byte)
  | readReply (p : Port) (body : List Byte)
  | linkReset (p : Port) (body : List Byte)
  | readEvents (p : Port) (body : List Byte)
  | clearEvents (p : Port) (body : List Byte)
  | setEventEnable (p : Port) (body : List Byte)
  | getParam (p : Port) (body : List Byte)
  | setParam (p : Port) (body : List Byte)
  | setDate (p : Port) (body : List Byte)
  | readChannel (p : Port) (body : List Byte)
  | readBay (p : Port) (body : List Byte)
  | confirmCartridge (p : Port) (body : List Byte)
  | rejectCartridge (p : Port) (body : List Byte)
  | clearRefillFault (p : Port) (body : List Byte)
  | readWaste (p : Port) (body : List Byte)
  | readTotals (p : Port) (body : List Byte)
  | usage (p : Port) (body : List Byte)
  | fence (p : Port) (body : List Byte)
  | admitPage (p : Port) (body : List Byte)
  | endPage (p : Port) (body : List Byte)
  | listPages (p : Port) (body : List Byte)
  | zoneRequest (p : Port) (body : List Byte)
  | zoneRelease (p : Port) (body : List Byte)
  | readStation (p : Port) (body : List Byte)
  | stationRetry (p : Port) (body : List Byte)
  | fetchOrder (p : Port) (body : List Byte)
  | orderDone (p : Port) (body : List Byte)
  | clean (p : Port) (body : List Byte)
  | cancelClean (p : Port) (body : List Byte)
  | checkNozzles (p : Port) (body : List Byte)
  | calibrateDetector (p : Port) (body : List Byte)
  | readHealth (p : Port) (body : List Byte)
  | clearDegraded (p : Port) (body : List Byte)
  | rest (p : Port) (body : List Byte)
  | loadMedia (p : Port) (body : List Byte)
  | unloadMedia (p : Port) (body : List Byte)
  | advance (p : Port) (body : List Byte)
  | cut (p : Port) (body : List Byte)
  | manualFeed (p : Port) (body : List Byte)
  | releaseHold (p : Port) (body : List Byte)
  | readFeed (p : Port) (body : List Byte) (encoder : Nat)
  | usageApply
  | fenceRelease
  | busTransactionStart
  | busAttemptUnacknowledged
  | chipReadDone (record : Vector Byte 18)
  | chipReadFail
  | wasteReadDone (record : Vector Byte 6)
  | wasteReadFail
  | chipWriteDone
  | chipWriteFail
  | bayPresenceClose (b : Fin 12)
  | bayPresenceOpen (b : Fin 12)
  | wastePresenceClose
  | wastePresenceOpen
  | strokeComplete (c : Fin 6) (ink : Bool)
  | floatChange (c : Fin 6) (reading : FloatLevel)
  | waitInkEnd
  | sledMotionDone
  | wiperMotionDone
  | sledMotionTimeout
  | wiperMotionTimeout
  | endSensorChangeIdle (e : EndSensor) (reading : Bool)
  | pumpRevolution
  | pumpStall
  | homeSensorChange (reading : Bool)
  | parkTimerExpiry
  | idleCapExpiry
  | grantHoldExpiry
  | orderTimerExpiry
  | waitingPlacementEntry
  | fireSyncStrobe (edge : Edge)
  | detectorSample (interrupted : Bool)
  | exposureExpiry (h : Fin 3)
  | arbiterServe
  | loadMotionDone
  | unloadMotionDone (counts : Nat)
  | advanceDone
  | cutAdvanceDone
  | manualFeedDone
  | feedMotionTimeout (counts : Nat)
  | leadingEdgeChange (media : Bool) (counts : Nat)
  | pathEntryChange (media : Bool) (counts : Nat)
  | sourceEndSensor (src : Source)
  | coverSensorOpen (counts : Nat)
  | coverSensorClose
  | sourceEndSensorClear (src : Source)
  | replyShiftedOut (p : Port)
  deriving DecidableEq, Repr

end Sys2Proof
end

