-- ==== Sys2Proof/Machine/State.lean ====
section
/-!
DEFINITION. The state of the part as plain data: one structure per block, as the chapters name them, the state after
reset, and the reasons a step can stop. Choices stand in the order in which their rules name them (R180 codes a choice by
its position).
-/

namespace Sys2Proof.Machine

/-- One value per port. -/
structure PerPort (α : Type) where
  job : α
  raster : α
  panel : α
  deriving DecidableEq, Repr

/-- One value per media source. -/
structure PerSource (α : Type) where
  roll1 : α
  roll2 : α
  sheet : α
  deriving DecidableEq, Repr

/-! ### Supply Unit and cartridge bus (chapter 1) -/

/-- The A or B bay of a channel. -/
inductive Side where
  | a | b
  deriving DecidableEq, Repr

/-- Refill state (R1). -/
inductive RefillState where
  | idle | refilling | fault
  deriving DecidableEq, Repr

/-- Stroke in flight (R1). -/
inductive Stroke where
  | none | a | b | lost
  deriving DecidableEq, Repr

/-- Supply state (R2), in the order of R1's list, which owns the field that READ_CHANNEL shows (log entry 39, DESIGN
CHOICE: R2's own table lists STARVED before DRY_SUPPLY). -/
inductive SupplyState where
  | supplied | drySupply | starved
  deriving DecidableEq, Repr

/-- Channel supply record (R1). -/
structure Channel where
  estimate : Nat
  float : FloatLevel
  drift : Int
  active : Option Side
  refill : RefillState
  strokes : Nat
  stroke : Stroke
  supply : SupplyState
  deriving DecidableEq, Repr

/-- Bay state (R4). -/
inductive BayState where
  | empty | reading | awaitConfirm | standby | active | out | rejected | fault
  deriving DecidableEq, Repr

/-- The chip-derived fields that are present once a chip read has succeeded (R4). -/
structure BayChip where
  serial : Vector Byte 8
  code : Nat
  drawn : Nat
  expiry : Nat
  refilled : Bool
  deriving DecidableEq, Repr

/-- Labelled capacity in mL and estimate in nL, present where the capacity is valid (R4, R6). -/
structure BayInk where
  capacity : Nat
  estimate : Nat
  deriving DecidableEq, Repr

/-- Bay record (R4). -/
structure Bay where
  state : BayState
  chip : Option BayChip
  ink : Option BayInk
  confirmed : Bool
  scanRead : Bool
  stale : Bool
  dry : Nat
  overdraw : Nat
  deriving DecidableEq, Repr

/-- The device-reset value of a bay record (R4). -/
def Bay.reset : Bay :=
  { state := .empty, chip := none, ink := none, confirmed := false, scanRead := false, stale := false, dry := 0,
    overdraw := 0 }

/-- A chip on the cartridge bus (R20). -/
inductive Chip where
  | bay (b : Fin 12)
  | waste
  deriving DecidableEq, Repr

/-- Kind of a bus transaction (R20). -/
inductive TransKind where
  | read | write
  deriving DecidableEq, Repr

/-- A cartridge bus transaction (R20). `attempts` counts the attempts the chip has left unacknowledged. -/
structure Trans where
  chip : Chip
  kind : TransKind
  scan : Bool
  attempts : Nat
  deriving DecidableEq, Repr

/-- The cartridge bus (R20): the queue, oldest first, whether the oldest executes, and the value an executing WRITE
carries (R22, R39). -/
structure Bus where
  queue : List Trans
  executing : Bool
  value : Nat
  deriving DecidableEq, Repr

/-- The Supply Unit. -/
structure Spu where
  channels : Vector Channel 6
  bays : Vector Bay 12
  bus : Bus
  deriving DecidableEq, Repr

/-! ### Usage Accounting Unit (chapter 2) -/

/-- Book record of a channel (R24). -/
structure Book where
  residue : Nat
  total : Nat
  media : Nat
  waste : Nat
  usage : Nat
  suction : Nat
  overdraw : Nat
  deriving DecidableEq, Repr

/-- Waste state (R34). -/
inductive WasteState where
  | absent | reading | fitted | nearFull | full | fault
  deriving DecidableEq, Repr

/-- The fields of the waste record that depend on the chip (R34). -/
structure WasteData where
  capacity : Nat
  fill : Nat
  estimate : Nat
  added : Nat
  deriving DecidableEq, Repr

/-- Waste record (R34). -/
structure Waste where
  state : WasteState
  data : Option WasteData
  stale : Bool
  deriving DecidableEq, Repr

/-- The Usage Accounting Unit (R24, R34). -/
structure Uau where
  books : Vector Book 6
  applied : Nat
  lastTag : Nat
  lastSwath : Nat
  orphan : Nat
  waste : Waste
  deriving DecidableEq, Repr

/-! ### Page Admission Unit (chapter 3) -/

/-- Page state (R41). -/
inductive PageState where
  | admitted | printing | faulted
  deriving DecidableEq, Repr

/-- Admission table entry (R41). -/
structure Page where
  tag : Nat
  source : Source
  state : PageState
  reserved : Vector Nat 6
  consumed : Vector Nat 6
  mediaReserved : Nat
  mediaConsumed : Nat
  overrun : Bool
  deriving DecidableEq, Repr

/-- The Page Admission Unit (R41, R42); `pages` is oldest first. -/
structure Pau where
  pages : List Page
  overSet : Vector Bool 6
  unmatchedCount : Nat
  unmatchedInk : Vector Nat 6
  endedComplete : Nat
  endedAborted : Nat
  deriving DecidableEq, Repr

/-! ### Station Controller (chapter 4) -/

/-- Station state (R57). -/
inductive StationState where
  | homing | capped | uncapping | opened | granted | unparked | capping | servicing | fault
  deriving DecidableEq, Repr

/-- The end positions of the sled (R58). -/
inductive SledEnd where
  | down | up
  deriving DecidableEq, Repr

/-- The end positions of the wiper (R58). -/
inductive WiperEnd where
  | retracted | raised
  deriving DecidableEq, Repr

/-- A moved part of the station (R57, R58): the end position last reached (`none` is UNKNOWN), the motion in progress
with its named end and motion timer, and a command that waits for the motion to complete. -/
structure Moved (ε : Type) where
  reached : Option ε
  motion : Option (ε × Nat)
  queued : Option ε
  deriving DecidableEq, Repr

/-- The suction pump (R57, R59). -/
structure Pump where
  running : Bool
  target : Nat
  revs : Nat
  deriving DecidableEq, Repr

/-- Delayed grant entry (R57). -/
inductive GrantEntry where
  | none | waiting | ready
  deriving DecidableEq, Repr

/-- The two units that claim the zone (R57, R72). -/
inductive Claimant where
  | cls | dtu
  deriving DecidableEq, Repr

/-- A service claim (R72). -/
structure Claim where
  who : Claimant
  urgent : Bool
  deriving DecidableEq, Repr

/-- Last fault cause of the station (R57). -/
inductive StationCause where
  | sled | wiper | pump
  deriving DecidableEq, Repr

/-- The station record (R57). A timer is `none` while stopped. `handingBack` marks a session whose holder has handed the
zone back while the STC waits for a motion (R74). -/
structure Stc where
  state : StationState
  sled : Moved SledEnd
  wiper : Moved WiperEnd
  selector : Option (Fin 3)
  pump : Pump
  stall : Option Nat
  home : Bool
  entry : GrantEntry
  hold : Option Nat
  idle : Option Nat
  park : Option Nat
  cappingDue : Bool
  claims : List Claim
  holder : Option Claimant
  handingBack : Bool
  lastFault : Option StationCause
  parkRaised : Bool
  deriving DecidableEq, Repr

/-! ### Order Queue (chapter 5) -/

/-- What an order asks for (R77). Head sets are listed in head order. -/
inductive OrderBody where
  | spit (h : Fin 3) (drops : Nat)
  | wipePass (heads : List (Fin 3))
  | checkFire (c : Fin 6) (first last delay : Nat)
  | cutPass
  deriving DecidableEq, Repr

/-- Origin of an order (R77). -/
inductive Origin where
  | exposure | cleaning | check | feed
  deriving DecidableEq, Repr

/-- State of an order: QUEUED, or TAKEN with its timer count and limit (R77, R84). -/
inductive OrderState where
  | queued
  | taken (count limit : Nat)
  deriving DecidableEq, Repr

/-- Order record (R77). -/
structure Order where
  id : Nat
  body : OrderBody
  origin : Origin
  state : OrderState
  deriving DecidableEq, Repr

/-- The units that may have a placement waiting (R78, R81). -/
inductive Placer where
  | cls | dtu | fdc
  deriving DecidableEq, Repr

/-- A waiting placement (R81). -/
structure Placement where
  who : Placer
  body : OrderBody
  deriving DecidableEq, Repr

/-- The Order Queue (R78). -/
structure Orq where
  queue : List Order
  nextId : Nat
  timeouts : Nat
  lastTimedOut : Option Nat
  waiting : List Placement
  deriving DecidableEq, Repr

/-! ### Cleaning Sequencer (chapter 6) -/

/-- Cleaning level, lowest to highest (R93). -/
inductive Level where
  | spitOnly | light | normal | strong
  deriving DecidableEq, Repr

/-- Origin of a cleaning request (R94). -/
inductive CleanOrigin where
  | job | panel | dropCount | prime | escalation | sweep
  deriving DecidableEq, Repr

/-- Origin set (R94). -/
structure OriginSet where
  job : Bool
  panel : Bool
  dropCount : Bool
  prime : Bool
  escalation : Bool
  sweep : Bool
  deriving DecidableEq, Repr

/-- The empty origin set. -/
def OriginSet.empty : OriginSet := ⟨false, false, false, false, false, false⟩

/-- Cleaning request table entry (R94); `level = none` is pending level NONE. -/
structure CleanEntry where
  level : Option Level
  urgent : Bool
  origins : OriginSet
  step : Nat
  drops : Nat
  dropPlaced : Bool
  deriving DecidableEq, Repr

/-- Stage of the cycle record (R100). -/
inductive Stage where
  | none | waitZone | waitInk | sucking | wiping | spitting | checking | finishing
  deriving DecidableEq, Repr

/-- Outcome of a cycle head (R100). -/
inductive HeadOutcome where
  | pass | unchecked | escalated | degraded
  deriving DecidableEq, Repr

/-- A head of the cycle (R100): level, urgent flag and origin set as taken from the table, revolution target and
revolutions done, the planned volumes of its two channels, its outcome. -/
structure CycleHead where
  head : Fin 3
  level : Level
  urgent : Bool
  origins : OriginSet
  target : Nat
  done : Nat
  plannedFirst : Nat
  plannedSecond : Nat
  outcome : Option HeadOutcome
  deriving DecidableEq, Repr

/-- Causes a cycle is aborted, refused or dropped with (R100, R102, R103). The first four are the abort causes. -/
inductive CleanCause where
  | cancelled | orderFailed | wasteAbsent | stationFault | wasteFull | inkShort
  deriving DecidableEq, Repr

/-- Hold cause of the sequencer (R100). -/
inductive CleanHold where
  | wasteFull | wasteAbsent | orderFailed
  deriving DecidableEq, Repr

/-- A head in the record of the last cycle ended (R100). -/
structure LastHead where
  head : Fin 3
  level : Level
  revs : Nat
  outcome : Option HeadOutcome
  deriving DecidableEq, Repr

/-- The record of the last cycle ended (R100). -/
structure LastCycle where
  heads : List LastHead
  cause : Option CleanCause
  deriving DecidableEq, Repr

/-- The Cleaning Sequencer (R94, R100). `suckLeft` and `spitLeft` list the heads whose suction run or spit has not yet
been begun or placed (R105, R107). -/
structure Cls where
  table : Vector CleanEntry 3
  stage : Stage
  heads : List CycleHead
  cancelled : List (Fin 3)
  suckLeft : List (Fin 3)
  spitLeft : List (Fin 3)
  outstanding : List Nat
  escalated : Nat
  abort : Option CleanCause
  hold : Option CleanHold
  last : LastCycle
  deriving DecidableEq, Repr

/-! ### Detector Unit (chapter 7) -/

/-- Machine state of the DTU (R114). -/
inductive DtuState where
  | idle | sweeping | checking
  deriving DecidableEq, Repr

/-- Kind of an own task (R114). -/
inductive TaskKind where
  | sweep | check
  deriving DecidableEq, Repr

/-- Phase of an own task (R114). -/
inductive TaskPhase where
  | waitZone | running
  deriving DecidableEq, Repr

/-- Sweep result (R115). -/
inductive SweepResult where
  | none | ok | clipped | narrow | noSignal
  deriving DecidableEq, Repr

/-- Check result (R115). -/
inductive CheckResult where
  | unchecked | pass | fail
  deriving DecidableEq, Repr

/-- The parameters captured when a task begins to run (R119). -/
structure Captured where
  start : Nat
  stop : Nat
  step : Nat
  minWidth : Nat
  refGroup : Nat
  groupCount : Nat
  passLimit : Nat
  offsets : Vector Int 6
  deriving DecidableEq, Repr

/-- An own task (R114). The row being worked on is the head of `rows`. `results` are the sweep results of the rows
finished in this sweep (R122). -/
structure Task where
  kind : TaskKind
  channels : List (Fin 6)
  port : Port
  phase : TaskPhase
  rows : List (Fin 6)
  delay : Nat
  begin_ : Option Nat
  results : List (Fin 6 × SweepResult)
  captured : Option Captured
  deriving DecidableEq, Repr

/-- One row's result as handed to the CLS (R125): the check result and the degraded flag noted before the recording. -/
structure RowResult where
  channel : Fin 6
  pass : Bool
  wasDegraded : Bool
  deriving DecidableEq, Repr

/-- A check run for the CLS (R125). -/
structure ClsCheck where
  rows : List (Fin 6)
  groupCount : Nat
  passLimit : Nat
  results : List RowResult
  deriving DecidableEq, Repr

/-- Sample record of the TAKEN CHECK_FIRE order (R91, R116): the edge kept, the strobes counted, the groups detected, and
the groups whose sample is scheduled, oldest first. -/
structure Sample where
  edge : Edge
  strobes : Nat
  detected : List Nat
  scheduled : List Nat
  deriving DecidableEq, Repr

/-- Sweep BEGIN, END and width (R115). -/
structure SweepFields where
  begin_ : Nat
  end_ : Nat
  width : Nat
  deriving DecidableEq, Repr

/-- Row record of the Health Table (R115). -/
structure Health where
  groupCount : Nat
  failed : List Nat
  delay : Nat
  sweep : SweepResult
  fields : Option SweepFields
  check : CheckResult
  degraded : Bool
  time : Option Nat
  deriving DecidableEq, Repr

/-- The failed count of a row (R115): the number of groups in its failed set. -/
def Health.failedCount (r : Health) : Nat := r.failed.length

/-- The Detector Unit (R114, R115). -/
structure Dtu where
  machine : DtuState
  holder : Option Claimant
  task : Option Task
  clsCheck : Option ClsCheck
  outstanding : Option Nat
  abandoned : List Nat
  sample : Option Sample
  health : Vector Health 6
  deriving DecidableEq, Repr

/-! ### Exposure timers and Rest Control (chapter 8) -/

/-- Exposure record of a head (R130). -/
structure Exposure where
  count : Nat
  due : Bool
  raised : Bool
  deriving DecidableEq, Repr

/-- Power state (R136). -/
inductive Power where
  | run | rest
  deriving DecidableEq, Repr

/-- What woke the part (R140): a frame on a port, or a watched sensor. -/
inductive WakeCause where
  | frame (p : Port)
  | bayPresence (b : Fin 12)
  | wastePresence
  | float (c : Fin 6)
  | cover
  | rollEnd (src : Source)
  | sheetPresent
  | pathEntry
  | leadingEdge
  deriving DecidableEq, Repr

/-- Wake cause record (R136, R140). -/
structure WakeRecord where
  cause : WakeCause
  entered : Nat
  woke : Nat
  deriving DecidableEq, Repr

/-- Rest Control (R136, R138). -/
structure Rsc where
  power : Power
  restCount : Nat
  restEntered : Nat
  wake : Option WakeRecord
  deriving DecidableEq, Repr

/-! ### Feed Controller (chapter 9) -/

/-- Source state (R142). -/
inductive SourceState where
  | empty | loaded | inPath | endOfRoll | out
  deriving DecidableEq, Repr

/-- The media fields of a source (R142); `remaining = none` is UNKNOWN. -/
structure Media where
  kind : Fin 8
  width : Nat
  remaining : Option Nat
  deriving DecidableEq, Repr

/-- Source record (R142). -/
structure SourceRec where
  state : SourceState
  media : Option Media
  rollEndSeen : Bool
  deriving DecidableEq, Repr

/-- Path state (R143). -/
inductive PathState where
  | empty | loading | ready | moving | unloading | cutting | held | unregistered
  deriving DecidableEq, Repr

/-- Hold cause of the path (R143). -/
inductive PathHold where
  | jam | cover
  deriving DecidableEq, Repr

/-- The cut in progress (R158). -/
inductive CutRec where
  | advancing
  | orderWait
  | orderOut (id : Nat)
  deriving DecidableEq, Repr

/-- Path record (R143). -/
structure Path where
  state : PathState
  source : Option Source
  position : Int
  residue : Nat
  hold : Option PathHold
  cycled : Bool
  cut : Option CutRec
  leadingEdge : Bool
  pathEntry : Bool
  coverOpen : Bool
  sheetPresent : Bool
  rollEnd1 : Bool
  rollEnd2 : Bool
  deriving DecidableEq, Repr

/-- A motion request as received (R145); a load's `length = none` is UNKNOWN. -/
inductive MotionReq where
  | load (src : Source) (kind : Fin 8) (width : Nat) (length : Option Nat)
  | unload
  | advance (tag dist : Nat)
  | cut
  | manual (dist : Int)
  deriving DecidableEq, Repr

/-- What runs on the motor (R145, R148). -/
inductive MotionKind where
  | load (src : Source)
  | unload
  | advance (tag : Nat)
  | cut
  | manualForward
  | manualReverse
  deriving DecidableEq, Repr

/-- The running motion (R145, R147, R148): its distance in µm, its target (none: to a sensor), the residue to be stored
on completion, the counts per metre it began with, the counts moved, its timer, and whether its reply is still held. The
timer's limit is the feed motion timeout as it stands, which R171 does not name among the values a motion keeps. -/
structure Motion where
  kind : MotionKind
  port : Port
  dist : Nat
  target : Option Nat
  newResidue : Nat
  perMetre : Nat
  counts : Nat
  timer : Nat
  replyHeld : Bool
  deriving DecidableEq, Repr

/-- The Feed Controller. -/
structure Fdc where
  sources : PerSource SourceRec
  path : Path
  waiting : PerPort (Option MotionReq)
  lastServed : Option Port
  motion : Option Motion
  deriving DecidableEq, Repr

/-! ### Link Interface Unit (chapter 10) -/

/-- Result codes (R183). -/
inductive Result where
  | ok | okClamped | accepted | pending | granted | notReady | busy | busySequence | notPermitted | badLength | badField
  | badState | tableFull | duplicateTag | unknownTag | outOfOrder | inkShort | mediaShort | wasteFull | wasteAbsent
  | mediaHeld | mediaOut | notLoaded | pathOccupied | coverNotCycled | supplyStop | stationFault | late | noOrder
  | notRested
  deriving DecidableEq, Repr

/-- Request kinds (R182). -/
inductive Kind where
  | readReply | linkReset | readEvents | clearEvents | setEventEnable | getParam | setParam | setDate | readChannel
  | readBay | readWaste | confirmCartridge | rejectCartridge | clearRefillFault | usage | fence | readTotals | admitPage
  | endPage | listPages | zoneRequest | zoneRelease | readStation | stationRetry | fetchOrder | orderDone | clean
  | cancelClean | checkNozzles | calibrateDetector | readHealth | clearDegraded | rest | loadMedia | unloadMedia
  | advance | cut | releaseHold | manualFeed | readFeed
  deriving DecidableEq, Repr

/-- A reply (R164): the kind it answers, the result and the body. -/
structure Reply where
  kind : Kind
  result : Result
  body : List Byte
  deriving DecidableEq, Repr

/-- Reply slot (R167). -/
inductive Slot where
  | empty
  | held (k : Kind)
  | ready (r : Reply)
  | collected (r : Reply)
  deriving DecidableEq, Repr

/-- Kinds of frame error, in the order of their codes (R181). -/
inductive ErrorKind where
  | truncated | length | crc | kind | field
  deriving DecidableEq, Repr

/-- Port engine (R163, R167). `out` holds what the present transaction shifts out: its status byte, and the reply frame
of a READ_REPLY; `collecting` says that frame is the slot's and not yet shifted out whole (R168). -/
structure Engine where
  slot : Slot
  lastError : Bool
  busy : Bool
  postedFull : Bool
  resetSeen : Bool
  errorKind : Option ErrorKind
  errorCount : Nat
  out : List Byte
  collecting : Bool
  deriving DecidableEq, Repr

/-- The Link Interface Unit: the engines, the posted queue with the count of frames placed (R169), and the count a held
FENCE noted (R33). -/
structure Liu where
  engines : PerPort Engine
  posted : List (List Byte)
  placed : Nat
  fence : Option Nat
  deriving DecidableEq, Repr

/-! ### Event Unit (chapter 11) -/

/-- Event kinds, in the row order of the routing table (R176). -/
inductive EventKind where
  | bayInserted | confirmNeeded | bayLow | bayOut | switchover | channelStarved | refillFault | chipStale
  | wasteNearFull | wasteFull | wasteRemoved | overcommitted
  | ordersPending | orderTimeout | grantDiscarded | parkTimeout | exposed | pauseForService | cleanDone | cleanAborted
  | checkDone | healthChanged | degraded | stationFault
  | jam | coverOpened | holdReleased | endOfRoll | mediaOut | loadDone | unloadDone | cutDone | cutFailed
  | frameError | woke | clampedUsage
  deriving DecidableEq, Repr

/-- Why an own task was aborted (R126, R127). -/
inductive CheckCause where
  | orderFailed | stationFault
  deriving DecidableEq, Repr

/-- The last detail of a flag (R176). The outcome of CHECK_DONE is COMPLETE when `cause` is none and ABORTED otherwise. -/
inductive Detail where
  | orderId (id : Nat)
  | cleanCause (c : CleanCause)
  | check (kind : TaskKind) (cause : Option CheckCause)
  | head (h : Fin 3)
  | stationCause (c : StationCause)
  | errorKind (e : ErrorKind)
  | wakeKind (sensor : Bool)
  | swath (n : Nat)
  deriving DecidableEq, Repr

/-- Flag record (R175); the subject set is a mask over the subjects of the kind. -/
structure FlagRec where
  set : Bool
  count : Nat
  subjects : BitVec 16
  detail : Option Detail
  raisedAt : Nat
  deriving DecidableEq, Repr

/-- A clear flag (R175, R179). -/
def FlagRec.clear : FlagRec := ⟨false, 0, 0, none, 0⟩

/-- The event state of one port (R175, R177). -/
structure PortEvents where
  raises : Nat
  flags : Vector FlagRec 36
  enables : Vector Bool 36
  deriving DecidableEq, Repr

/-! ### Parameters, pins and the whole state -/

/-- Every parameter instance (R186). -/
structure Params where
  dropVolume : Vector Nat 18
  tempSlope : Vector Nat 6
  refTemp : Nat
  strokeVolume : Vector Nat 6
  refillMark : Nat
  maxStrokes : Nat
  reserveMark : Nat
  bayLowMark : Nat
  suctionYield : Vector Nat 6
  revsLight : Nat
  revsNormal : Nat
  revsStrong : Nat
  exposureSpitDrops : Nat
  postWipeSpitDrops : Nat
  exposureLimit : Vector Nat 3
  idleCapTime : Nat
  grantHoldTime : Nat
  parkTimeout : Nat
  orderTimeout : Nat
  cutPassTimeout : Nat
  dropThreshold : Vector Nat 3
  autoCheck : Nat
  groupCount : Nat
  passLimit : Nat
  sweepStart : Nat
  sweepEnd : Nat
  sweepStep : Nat
  minWidth : Nat
  sweepOffset : Vector Int 6
  refGroup : Nat
  fireEdge : Nat
  countsPerMetre : Nat
  compensation : Vector Int 8
  feedTimeout : Nat
  tailLength : Nat
  cutOffset : Nat
  feedGroup : PerPort Nat
  deriving DecidableEq, Repr

/-- The defaults (R186), which every parameter holds after a device reset (R170). -/
def Params.default : Params :=
  { dropVolume := #v[40, 90, 180, 40, 90, 180, 40, 90, 180, 40, 90, 180, 40, 90, 180, 40, 90, 180]
    tempSlope := #v[12, 12, 12, 12, 12, 12]
    refTemp := 32
    strokeVolume := #v[200000, 200000, 200000, 200000, 200000, 200000]
    refillMark := 10000000
    maxStrokes := 160
    reserveMark := 3000000
    bayLowMark := 10
    suctionYield := #v[40000, 40000, 40000, 40000, 40000, 40000]
    revsLight := 10
    revsNormal := 30
    revsStrong := 75
    exposureSpitDrops := 24
    postWipeSpitDrops := 48
    exposureLimit := #v[8000, 8000, 8000]
    idleCapTime := 10000
    grantHoldTime := 2000
    parkTimeout := 5000
    orderTimeout := 3000
    cutPassTimeout := 10000
    dropThreshold := #v[1500000000, 1500000000, 1500000000]
    autoCheck := 1
    groupCount := 40
    passLimit := 2
    sweepStart := 200
    sweepEnd := 1200
    sweepStep := 10
    minWidth := 40
    sweepOffset := #v[0, 0, 0, 0, 0, 0]
    refGroup := 20
    fireEdge := 0
    countsPerMetre := 377953
    compensation := #v[0, 0, 0, 0, 0, 0, 0, 0]
    feedTimeout := 3000
    tailLength := 500000
    cutOffset := 42000
    feedGroup := ⟨1, 0, 1⟩ }

/-- The sensor inputs no block's record holds as they stand: the presence switches, the ink-present sensors as last
sampled, the home sensor's level and the raw end sensors (00_scope section 4, R75). -/
structure Pins where
  presence : Vector Bool 12
  ink : Vector Bool 12
  wastePresence : Bool
  home : Bool
  sledDown : Bool
  sledUp : Bool
  wiperRetracted : Bool
  wiperRaised : Bool
  deriving DecidableEq, Repr

/-- The state of the part. `pending` is the queue of commands waiting, first in first out. `startup` says that the
start-up actions of R174 have still to begin; `resetLow` that RESET_N is held low. `freeUsed` is the model's own: how many
values of `Config.freeCounts` have been used (log entry 38). -/
structure State where
  pending : List Instr
  freeUsed : Nat
  startup : Bool
  resetLow : Bool
  timeBase : Nat
  date : Nat
  params : Params
  pins : Pins
  spu : Spu
  uau : Uau
  pau : Pau
  stc : Stc
  orq : Orq
  cls : Cls
  dtu : Dtu
  ext : Vector Exposure 3
  rsc : Rsc
  fdc : Fdc
  liu : Liu
  evu : PerPort PortEvents
  deriving DecidableEq, Repr

/-- Why the machine can stop with a fault. -/
inductive Fault where
  /-- Raised by `settle` when the consequences of one command have not come to an end within `Config.cascadeLimit`
  actions. The spec describes no such chain. SAFE: the model stops where the hardware would go on (log entry 8). -/
  | cascadeUnsettled
  deriving DecidableEq, Repr

/-- Why a command can be refused. -/
inductive Refusal where
  /-- Raised by an arm of `exec` whose command has no meaning yet. SAFE. -/
  | notModelled (mnemonic : String)
  deriving DecidableEq, Repr

/-! ### Reset -/

/-- A channel supply record after device reset, by the float as sensed (R1, R2): with no active bay the supply state is
STARVED below the reserve mark's default and DRY_SUPPLY otherwise. -/
def Channel.reset (f : FloatLevel) : Channel :=
  let est := match f with
    | .high => Config.floatHighMark
    | .mid => Config.floatLowMark
    | .low => 0
  { estimate := est, float := f, drift := 0, active := none, refill := .idle, strokes := 0, stroke := .none,
    supply := if est < Params.default.reserveMark then .starved else .drySupply }

/-- A book record after device reset (R24). -/
def Book.reset : Book := ⟨0, 0, 0, 0, 0, 0, 0⟩

/-- A cleaning table entry after device reset (R94). -/
def CleanEntry.reset : CleanEntry := ⟨none, false, OriginSet.empty, 0, 0, false⟩

/-- A health row after device reset (R115). -/
def Health.reset : Health := ⟨40, [], 700, .none, none, .unchecked, false, none⟩

/-- A source record after device reset (R142). -/
def SourceRec.reset : SourceRec := ⟨.empty, none, false⟩

/-- A port engine after device reset (R163, R167). -/
def Engine.reset : Engine := ⟨.empty, false, false, false, true, none, 0, [], false⟩

/-- A port's event state after device reset (R175, R177). -/
def PortEvents.reset : PortEvents := ⟨0, Vector.replicate 36 FlagRec.clear, Vector.replicate 36 true⟩

/-- The station record after device reset (R57). -/
def Stc.reset (home : Bool) : Stc :=
  { state := .homing, sled := ⟨none, none, none⟩, wiper := ⟨none, none, none⟩, selector := none, pump := ⟨false, 0, 0⟩,
    stall := none, home := home, entry := .none, hold := none, idle := none, park := none, cappingDue := false,
    claims := [], holder := none, handingBack := false, lastFault := none, parkRaised := false }

/-- The cleaning sequencer after device reset (R94, R100). -/
def Cls.reset : Cls :=
  { table := #v[CleanEntry.reset, CleanEntry.reset, CleanEntry.reset], stage := .none, heads := [], cancelled := [],
    suckLeft := [], spitLeft := [], outstanding := [], escalated := 0, abort := none, hold := none, last := ⟨[], none⟩ }

/-- The detector unit after device reset (R114, R115). -/
def Dtu.reset : Dtu :=
  { machine := .idle, holder := none, task := none, clsCheck := none, outstanding := none, abandoned := [],
    sample := none, health := Vector.replicate 6 Health.reset }

/-- The device-reset values of every block with the sensors reading `r`, the start-up actions still to begin (R174). -/
def State.resetWith (r : Readings) : State :=
  { pending := []
    freeUsed := 0
    startup := true
    resetLow := false
    timeBase := 0
    date := 0
    params := Params.default
    pins := { presence := r.presence, ink := Vector.replicate 12 false, wastePresence := r.wastePresence, home := r.home,
              sledDown := r.sledDown, sledUp := r.sledUp, wiperRetracted := r.wiperRetracted,
              wiperRaised := r.wiperRaised }
    spu := { channels := #v[Channel.reset (r.floats.get 0), Channel.reset (r.floats.get 1), Channel.reset (r.floats.get 2),
                          Channel.reset (r.floats.get 3), Channel.reset (r.floats.get 4), Channel.reset (r.floats.get 5)],
             bays := Vector.replicate 12 Bay.reset, bus := ⟨[], false, 0⟩ }
    uau := { books := Vector.replicate 6 Book.reset, applied := 0, lastTag := 0, lastSwath := 0, orphan := 0,
             waste := ⟨.absent, none, false⟩ }
    pau := { pages := [], overSet := Vector.replicate 6 false, unmatchedCount := 0, unmatchedInk := Vector.replicate 6 0,
             endedComplete := 0, endedAborted := 0 }
    stc := Stc.reset r.home
    orq := { queue := [], nextId := 0, timeouts := 0, lastTimedOut := none, waiting := [] }
    cls := Cls.reset
    dtu := Dtu.reset
    ext := Vector.replicate 3 ⟨0, false, false⟩
    rsc := { power := .run, restCount := 0, restEntered := 0, wake := none }
    fdc := { sources := ⟨SourceRec.reset, SourceRec.reset, SourceRec.reset⟩
             path := { state := if r.leadingEdge then .unregistered else .empty, source := none, position := 0,
                       residue := 0, hold := none, cycled := false, cut := none, leadingEdge := r.leadingEdge,
                       pathEntry := r.pathEntry, coverOpen := r.coverOpen, sheetPresent := r.sheetPresent,
                       rollEnd1 := r.rollEnd1, rollEnd2 := r.rollEnd2 }
             waiting := ⟨none, none, none⟩, lastServed := none, motion := none }
    liu := { engines := ⟨Engine.reset, Engine.reset, Engine.reset⟩, posted := [], placed := 0, fence := none }
    evu := ⟨PortEvents.reset, PortEvents.reset, PortEvents.reset⟩ }

/-- Sensors with nothing present and no end reached: the readings `State.reset` takes. DESIGN CHOICE (log entry 3). -/
def Readings.quiet : Readings :=
  { presence := Vector.replicate 12 false, wastePresence := false, floats := Vector.replicate 6 .low, home := false,
    sledDown := false, sledUp := false, wiperRetracted := false, wiperRaised := false, leadingEdge := false,
    pathEntry := false, coverOpen := false, sheetPresent := false, rollEnd1 := false, rollEnd2 := false }

/-- The part right after a device reset (R174), with quiet sensors (log entry 3). -/
def State.reset : State := State.resetWith Readings.quiet

end Sys2Proof.Machine
end

