-- ==== Sys2Proof/Machine/Operands.lean ====
section
/-!
DEFINITION. Operand forms: how channels, bays and heads belong together, how request bodies are read and numbers are
written as bytes (R180, R184), the kind table (R166, R182), the result codes (R183) and the parameter table (R170, R186).
-/

namespace Sys2Proof.Machine

/-! ### Indexed data -/

/-- The value of port `p`. -/
def PerPort.get {α : Type} (x : PerPort α) : Port → α
  | .job => x.job
  | .raster => x.raster
  | .panel => x.panel

/-- `x` with port `p`'s value set to `v`. -/
def PerPort.set {α : Type} (x : PerPort α) (p : Port) (v : α) : PerPort α :=
  match p with
  | .job => { x with job := v }
  | .raster => { x with raster := v }
  | .panel => { x with panel := v }

/-- The value of source `src`. -/
def PerSource.get {α : Type} (x : PerSource α) : Source → α
  | .roll1 => x.roll1
  | .roll2 => x.roll2
  | .sheet => x.sheet

/-- `x` with source `src`'s value set to `v`. -/
def PerSource.set {α : Type} (x : PerSource α) (src : Source) (v : α) : PerSource α :=
  match src with
  | .roll1 => { x with roll1 := v }
  | .roll2 => { x with roll2 := v }
  | .sheet => { x with sheet := v }

/-- `v` with the value at `i` replaced by `x`. -/
def vset {α : Type} {n : Nat} (v : Vector α n) (i : Fin n) (x : α) : Vector α n := v.set i.val x i.isLt

/-- `v` with the value at `i` changed by `f`. -/
def vmod {α : Type} {n : Nat} (v : Vector α n) (i : Fin n) (f : α → α) : Vector α n := vset v i (f (v.get i))

/-- The three ports, in the order Job, Raster, Panel. -/
def allPorts : List Port := [.job, .raster, .panel]
/-- The six channels in channel order. -/
def allChannels : List (Fin 6) := [0, 1, 2, 3, 4, 5]
/-- The twelve bays in bay index order. -/
def allBays : List (Fin 12) := [0, 1, 2, 3, 4, 5, 6, 7, 8, 9, 10, 11]
/-- The three heads in head order. -/
def allHeads : List (Fin 3) := [0, 1, 2]

/-- The index of a channel's A or B bay (1.2: c × 2 for c.A, c × 2 + 1 for c.B). -/
def bayOf (c : Fin 6) : Side → Fin 12
  | .a => ⟨2 * c.val, by omega⟩
  | .b => ⟨2 * c.val + 1, by omega⟩

/-- The channel a bay belongs to (1.2). -/
def channelOf (b : Fin 12) : Fin 6 := ⟨b.val / 2, by omega⟩

/-- Which of its channel's two bays `b` is (1.2). -/
def sideOf (b : Fin 12) : Side := if b.val % 2 = 0 then .a else .b

/-- The other bay of a channel. -/
def Side.other : Side → Side
  | .a => .b
  | .b => .a

/-- The head that carries a channel (00_scope 2.2). -/
def headOf (c : Fin 6) : Fin 3 := ⟨c.val / 2, by omega⟩

/-- The first channel a head carries (00_scope 2.2). -/
def firstChannel (h : Fin 3) : Fin 6 := ⟨2 * h.val, by omega⟩

/-- The second channel a head carries (00_scope 2.2). -/
def secondChannel (h : Fin 3) : Fin 6 := ⟨2 * h.val + 1, by omega⟩

/-- Saturation of an unsigned value. -/
def sat (max x : Nat) : Nat := min x max

/-- Saturation of a signed 4-byte value (R1, R143). -/
def sat32 (x : Int) : Int := max Config.i32Min (min x Config.i32Max)

/-! ### Bytes (R180) -/

/-- `n` in `w` bytes, little-endian. -/
def le : (w : Nat) → Nat → List Byte
  | 0, _ => []
  | w + 1, n => Byte.of (n % 256) :: le w (n / 256)

/-- A signed value in `w` bytes, two's complement, little-endian. -/
def leSigned (w : Nat) (x : Int) : List Byte := le w (x % (256 ^ w : Nat)).toNat

/-- A flag, mark or sensor reading in one byte: 1 where it is set, true or present, else 0. Where a rule lists the values as
'set or clear' or 'true or false', R180's code by place in the list would send 0 for set (log entry 55, DESIGN CHOICE). -/
def bit (b : Bool) : List Byte := le 1 (if b then 1 else 0)

/-- An optional number: `absent` where there is none. -/
def leOr (w absent : Nat) (x : Option Nat) : List Byte := le w (x.getD absent)

/-- The little-endian number in a list of bytes. -/
def unLe : List Byte → Nat
  | [] => 0
  | b :: bs => b.toNat + 256 * unLe bs

/-- The unsigned field of `w` bytes at offset `o` of a body. -/
def field (body : List Byte) (o w : Nat) : Nat := unLe ((body.drop o).take w)

/-- The signed field of `w` bytes at offset `o` of a body. -/
def fieldSigned (body : List Byte) (o w : Nat) : Int :=
  let x := field body o w
  if x < 256 ^ w / 2 then (x : Int) else (x : Int) - (256 ^ w : Nat)

/-- A mask of booleans, bit 0 first (R180 sets). -/
def maskOf : List Bool → Nat
  | [] => 0
  | b :: bs => (if b then 1 else 0) + 2 * maskOf bs

/-- Bit `n` of a mask. -/
def maskBit (m n : Nat) : Bool := m / 2 ^ n % 2 = 1

/-- The set of heads as a mask. -/
def headMask (hs : List (Fin 3)) : Nat := maskOf (allHeads.map fun h => hs.contains h)

/-- The set of channels as a mask. -/
def channelMask (cs : List (Fin 6)) : Nat := maskOf (allChannels.map fun c => cs.contains c)

/-- A head set read from its byte; a bit above the highest member is out of range (R180). -/
def headSet? (m : Nat) : Option (List (Fin 3)) :=
  if m < 8 then some (allHeads.filter fun h => maskBit m h.val) else none

/-- A channel set read from its byte; a bit above the highest member is out of range (R180). -/
def channelSet? (m : Nat) : Option (List (Fin 6)) :=
  if m < 64 then some (allChannels.filter fun c => maskBit m c.val) else none

/-- A source code (R180). -/
def source? : Nat → Option Source
  | 0 => some .roll1
  | 1 => some .roll2
  | 2 => some .sheet
  | _ => none

/-- A cleaning level code (R180). -/
def level? : Nat → Option Level
  | 0 => some .spitOnly
  | 1 => some .light
  | 2 => some .normal
  | 3 => some .strong
  | _ => none

/-- An index below `n` read from a field. -/
def index? (n x : Nat) : Option (Fin n) := if h : x < n then some ⟨x, h⟩ else none

/-! ### Kinds and results (R166, R182, R183) -/

/-- Kind codes (R182). -/
def Kind.code : Kind → Nat
  | .readReply => 0x01 | .linkReset => 0x02 | .readEvents => 0x03 | .clearEvents => 0x04 | .setEventEnable => 0x05
  | .getParam => 0x06 | .setParam => 0x07 | .setDate => 0x08 | .readChannel => 0x10 | .readBay => 0x11
  | .readWaste => 0x12 | .confirmCartridge => 0x13 | .rejectCartridge => 0x14 | .clearRefillFault => 0x15
  | .usage => 0x20 | .fence => 0x21 | .readTotals => 0x22 | .admitPage => 0x28 | .endPage => 0x29 | .listPages => 0x2A
  | .zoneRequest => 0x30 | .zoneRelease => 0x31 | .readStation => 0x32 | .stationRetry => 0x33 | .fetchOrder => 0x38
  | .orderDone => 0x39 | .clean => 0x40 | .cancelClean => 0x41 | .checkNozzles => 0x42 | .calibrateDetector => 0x43
  | .readHealth => 0x44 | .clearDegraded => 0x45 | .rest => 0x48 | .loadMedia => 0x50 | .unloadMedia => 0x51
  | .advance => 0x52 | .cut => 0x53 | .releaseHold => 0x54 | .manualFeed => 0x55 | .readFeed => 0x56

/-- Fixed request body lengths (R182). -/
def Kind.bodyLength : Kind → Nat
  | .readReply => 0 | .linkReset => 0 | .readEvents => 1 | .clearEvents => 8 | .setEventEnable => 5 | .getParam => 2
  | .setParam => 10 | .setDate => 2 | .readChannel => 1 | .readBay => 1 | .readWaste => 0 | .confirmCartridge => 1
  | .rejectCartridge => 1 | .clearRefillFault => 1 | .usage => 80 | .fence => 0 | .readTotals => 1 | .admitPage => 31
  | .endPage => 3 | .listPages => 1 | .zoneRequest => 0 | .zoneRelease => 0 | .readStation => 0 | .stationRetry => 0
  | .fetchOrder => 0 | .orderDone => 2 | .clean => 3 | .cancelClean => 1 | .checkNozzles => 1
  | .calibrateDetector => 1 | .readHealth => 1 | .clearDegraded => 1 | .rest => 0 | .loadMedia => 8
  | .unloadMedia => 0 | .advance => 6 | .cut => 0 | .releaseHold => 0 | .manualFeed => 4 | .readFeed => 0

/-- Which ports may send a kind (R166). -/
def Kind.permitted : Kind → Port → Bool
  | .readReply, _ | .linkReset, _ | .readEvents, _ | .clearEvents, _ | .setEventEnable, _ | .getParam, _ => true
  | .setParam, p | .setDate, p => p == .job
  | .readChannel, _ | .readBay, _ => true
  | .confirmCartridge, p | .rejectCartridge, p | .clearRefillFault, p => p == .panel
  | .readWaste, _ | .readTotals, _ => true
  | .usage, p | .fence, p => p == .raster
  | .admitPage, p | .endPage, p => p == .job
  | .listPages, p => p != .raster
  | .zoneRequest, p | .zoneRelease, p => p == .raster
  | .readStation, _ => true
  | .stationRetry, p => p == .panel
  | .fetchOrder, p | .orderDone, p => p == .raster
  | .clean, p | .cancelClean, p | .checkNozzles, p | .calibrateDetector, p => p != .raster
  | .readHealth, _ => true
  | .clearDegraded, p => p == .panel
  | .rest, p => p == .job
  | .loadMedia, p | .unloadMedia, p | .releaseHold, p => p != .raster
  | .advance, p => p == .raster
  | .cut, p => p == .job
  | .manualFeed, p => p == .panel
  | .readFeed, _ => true

/-- Result codes (R183). -/
def Result.code : Result → Nat
  | .ok => 0x00 | .okClamped => 0x01 | .accepted => 0x02 | .pending => 0x03 | .granted => 0x04 | .notReady => 0x05
  | .busy => 0x10 | .busySequence => 0x11 | .notPermitted => 0x12 | .badLength => 0x13 | .badField => 0x14
  | .badState => 0x15 | .tableFull => 0x16 | .duplicateTag => 0x17 | .unknownTag => 0x18 | .outOfOrder => 0x19
  | .inkShort => 0x1A | .mediaShort => 0x1B | .wasteFull => 0x1C | .wasteAbsent => 0x1D | .mediaHeld => 0x1E
  | .mediaOut => 0x1F | .notLoaded => 0x20 | .pathOccupied => 0x21 | .coverNotCycled => 0x22 | .supplyStop => 0x23
  | .stationFault => 0x24 | .late => 0x25 | .noOrder => 0x26 | .notRested => 0x27

/-! ### Parameters (R170, R171, R186) -/

/-- The parameters by name. -/
inductive ParamId where
  | dropVolume | tempSlope | refTemp | strokeVolume | refillMark | maxStrokes | reserveMark | bayLowMark | suctionYield
  | revsLight | revsNormal | revsStrong | exposureSpitDrops | postWipeSpitDrops | exposureLimit | idleCapTime
  | grantHoldTime | parkTimeout | orderTimeout | cutPassTimeout | dropThreshold | autoCheck | groupCount | passLimit
  | sweepStart | sweepEnd | sweepStep | minWidth | sweepOffset | refGroup | fireEdge | countsPerMetre | compensation
  | feedTimeout | tailLength | cutOffset | feedGroup
  deriving DecidableEq, Repr

/-- The parameter an identifier names (R186). -/
def paramId? : Nat → Option ParamId
  | 0x01 => some .dropVolume | 0x02 => some .tempSlope | 0x03 => some .refTemp | 0x04 => some .strokeVolume
  | 0x05 => some .refillMark | 0x06 => some .maxStrokes | 0x07 => some .reserveMark | 0x08 => some .bayLowMark
  | 0x09 => some .suctionYield | 0x0A => some .revsLight | 0x0B => some .revsNormal | 0x0C => some .revsStrong
  | 0x0D => some .exposureSpitDrops | 0x0E => some .postWipeSpitDrops | 0x0F => some .exposureLimit
  | 0x10 => some .idleCapTime | 0x11 => some .grantHoldTime | 0x12 => some .parkTimeout | 0x13 => some .orderTimeout
  | 0x14 => some .cutPassTimeout | 0x15 => some .dropThreshold | 0x16 => some .autoCheck | 0x17 => some .groupCount
  | 0x18 => some .passLimit | 0x19 => some .sweepStart | 0x1A => some .sweepEnd | 0x1B => some .sweepStep
  | 0x1C => some .minWidth | 0x1D => some .sweepOffset | 0x1E => some .refGroup | 0x1F => some .fireEdge
  | 0x20 => some .countsPerMetre | 0x21 => some .compensation | 0x22 => some .feedTimeout | 0x23 => some .tailLength
  | 0x24 => some .cutOffset | 0x25 => some .feedGroup
  | _ => none

/-- How many instances a parameter has (R170): 1 for a global one. -/
def ParamId.instances : ParamId → Nat
  | .dropVolume => 18
  | .tempSlope | .strokeVolume | .suctionYield | .sweepOffset => 6
  | .exposureLimit | .dropThreshold | .feedGroup => 3
  | .compensation => 8
  | _ => 1

/-- The range of a parameter (R186). -/
def ParamId.range : ParamId → Int × Int
  | .dropVolume => (10, 600) | .tempSlope => (0, 30) | .refTemp => (20, 45) | .strokeVolume => (50000, 500000)
  | .refillMark => (5000000, 20000000) | .maxStrokes => (20, 255) | .reserveMark => (1000000, 8000000)
  | .bayLowMark => (1, 50) | .suctionYield => (5000, 100000) | .revsLight => (1, 200) | .revsNormal => (1, 200)
  | .revsStrong => (1, 200) | .exposureSpitDrops => (1, 255) | .postWipeSpitDrops => (1, 255)
  | .exposureLimit => (1000, 60000) | .idleCapTime => (1000, 300000) | .grantHoldTime => (500, 10000)
  | .parkTimeout => (1000, 30000) | .orderTimeout => (500, 10000) | .cutPassTimeout => (2000, 30000)
  | .dropThreshold => (0, 4000000000) | .autoCheck => (0, 1) | .groupCount => (1, 64) | .passLimit => (0, 64)
  | .sweepStart => (0, 4095) | .sweepEnd => (0, 4095) | .sweepStep => (0, 4095) | .minWidth => (0, 4095)
  | .sweepOffset => (-200, 200) | .refGroup => (0, 63) | .fireEdge => (0, 1) | .countsPerMetre => (100000, 1000000)
  | .compensation => (-5000, 5000) | .feedTimeout => (1000, 20000) | .tailLength => (0, 2000000)
  | .cutOffset => (0, 100000) | .feedGroup => (0, 1)

/-- The port an index names (R170). -/
def portOfIndex : Nat → Port
  | 0 => .job
  | 1 => .raster
  | _ => .panel

/-- Instance `i` of a parameter. -/
def Params.read (q : Params) : ParamId → Nat → Int
  | .dropVolume, i => (q.dropVolume.toList.getD i 0 : Nat) | .tempSlope, i => (q.tempSlope.toList.getD i 0 : Nat)
  | .refTemp, _ => q.refTemp | .strokeVolume, i => (q.strokeVolume.toList.getD i 0 : Nat)
  | .refillMark, _ => q.refillMark | .maxStrokes, _ => q.maxStrokes | .reserveMark, _ => q.reserveMark
  | .bayLowMark, _ => q.bayLowMark | .suctionYield, i => (q.suctionYield.toList.getD i 0 : Nat)
  | .revsLight, _ => q.revsLight | .revsNormal, _ => q.revsNormal | .revsStrong, _ => q.revsStrong
  | .exposureSpitDrops, _ => q.exposureSpitDrops | .postWipeSpitDrops, _ => q.postWipeSpitDrops
  | .exposureLimit, i => (q.exposureLimit.toList.getD i 0 : Nat) | .idleCapTime, _ => q.idleCapTime
  | .grantHoldTime, _ => q.grantHoldTime | .parkTimeout, _ => q.parkTimeout | .orderTimeout, _ => q.orderTimeout
  | .cutPassTimeout, _ => q.cutPassTimeout | .dropThreshold, i => (q.dropThreshold.toList.getD i 0 : Nat)
  | .autoCheck, _ => q.autoCheck | .groupCount, _ => q.groupCount | .passLimit, _ => q.passLimit
  | .sweepStart, _ => q.sweepStart | .sweepEnd, _ => q.sweepEnd | .sweepStep, _ => q.sweepStep
  | .minWidth, _ => q.minWidth | .sweepOffset, i => q.sweepOffset.toList.getD i 0 | .refGroup, _ => q.refGroup
  | .fireEdge, _ => q.fireEdge | .countsPerMetre, _ => q.countsPerMetre
  | .compensation, i => q.compensation.toList.getD i 0 | .feedTimeout, _ => q.feedTimeout
  | .tailLength, _ => q.tailLength | .cutOffset, _ => q.cutOffset | .feedGroup, i => (q.feedGroup.get (portOfIndex i) : Nat)

/-- The parameters with instance `i` of one set to `v` (R171). -/
def Params.write (q : Params) (id : ParamId) (i : Nat) (v : Int) : Params :=
  let n := v.toNat
  match id with
  | .dropVolume => { q with dropVolume := q.dropVolume.setIfInBounds i n }
  | .tempSlope => { q with tempSlope := q.tempSlope.setIfInBounds i n }
  | .refTemp => { q with refTemp := n }
  | .strokeVolume => { q with strokeVolume := q.strokeVolume.setIfInBounds i n }
  | .refillMark => { q with refillMark := n }
  | .maxStrokes => { q with maxStrokes := n }
  | .reserveMark => { q with reserveMark := n }
  | .bayLowMark => { q with bayLowMark := n }
  | .suctionYield => { q with suctionYield := q.suctionYield.setIfInBounds i n }
  | .revsLight => { q with revsLight := n }
  | .revsNormal => { q with revsNormal := n }
  | .revsStrong => { q with revsStrong := n }
  | .exposureSpitDrops => { q with exposureSpitDrops := n }
  | .postWipeSpitDrops => { q with postWipeSpitDrops := n }
  | .exposureLimit => { q with exposureLimit := q.exposureLimit.setIfInBounds i n }
  | .idleCapTime => { q with idleCapTime := n }
  | .grantHoldTime => { q with grantHoldTime := n }
  | .parkTimeout => { q with parkTimeout := n }
  | .orderTimeout => { q with orderTimeout := n }
  | .cutPassTimeout => { q with cutPassTimeout := n }
  | .dropThreshold => { q with dropThreshold := q.dropThreshold.setIfInBounds i n }
  | .autoCheck => { q with autoCheck := n }
  | .groupCount => { q with groupCount := n }
  | .passLimit => { q with passLimit := n }
  | .sweepStart => { q with sweepStart := n }
  | .sweepEnd => { q with sweepEnd := n }
  | .sweepStep => { q with sweepStep := n }
  | .minWidth => { q with minWidth := n }
  | .sweepOffset => { q with sweepOffset := q.sweepOffset.setIfInBounds i v }
  | .refGroup => { q with refGroup := n }
  | .fireEdge => { q with fireEdge := n }
  | .countsPerMetre => { q with countsPerMetre := n }
  | .compensation => { q with compensation := q.compensation.setIfInBounds i v }
  | .feedTimeout => { q with feedTimeout := n }
  | .tailLength => { q with tailLength := n }
  | .cutOffset => { q with cutOffset := n }
  | .feedGroup => { q with feedGroup := q.feedGroup.set (portOfIndex i) n }

/-- A value clamped to a parameter's range (R171). -/
def ParamId.clamp (id : ParamId) (v : Int) : Int := max id.range.1 (min v id.range.2)

/-- The parameter and index a GET_PARAM or SET_PARAM body names, or none: an identifier that names no parameter or an
index outside its scope (R170, R171). -/
def paramNamed? (body : List Byte) : Option (ParamId × Nat) :=
  match paramId? (field body 0 1) with
  | none => none
  | some id => if field body 1 1 < id.instances then some (id, field body 1 1) else none

/-! ### USAGE fields (R184) -/

/-- Destination of a USAGE report (R26). -/
inductive Destination where
  | media | waste
  deriving DecidableEq, Repr

/-- The fields of a USAGE body (R184). -/
def usageTag (body : List Byte) : Nat := field body 0x00 2
def usageSwath (body : List Byte) : Nat := field body 0x02 2
def usageDestination (body : List Byte) : Option Destination :=
  match field body 0x04 1 with
  | 0 => some .media
  | 1 => some .waste
  | _ => none
def usageTemp (body : List Byte) (h : Fin 3) : Nat := field body (0x05 + h.val) 1
def usageCount (body : List Byte) (c : Fin 6) (k : Fin 3) : Nat := field body (0x08 + 4 * (3 * c.val + k.val)) 4

end Sys2Proof.Machine
end

