-- ==== Sys2Proof/Decode.lean ====
section
/-!
DEFINITION. The frame layer: the CRC, request and reply frames as bytes (R164, R181), what a transaction's bytes are
taken as (R162, R165), and the frame of a command and back (R182). spec/opcode_table.json gives no row any bits, so
`decodeTableWord` spells none.
-/

namespace Sys2Proof

open Sys2Proof.Machine

/-- No row of spec/opcode_table.json gives bits, so a table word spells no command. -/
def decodeTableWord (_nbits _w : Nat) : Option Instr := none

/-- The CRC register after `n` more bits have been shifted out (R164: generator 1021H). -/
def crcBits : Nat → BitVec 16 → BitVec 16
  | 0, r => r
  | n + 1, r => crcBits n (if r.msb then (r <<< 1) ^^^ 0x1021#16 else r <<< 1)

/-- The CRC of a list of bytes, each taken most significant bit first, from `r` on (R164). -/
def crcFrom (r : BitVec 16) : List Byte → BitVec 16
  | [] => r
  | b :: bs => crcFrom (crcBits 8 (r ^^^ (b.zeroExtend 16 <<< 8))) bs

/-- The CRC with its initial value FFFFH and no final inversion (R164). -/
def crc16 (bs : List Byte) : BitVec 16 := crcFrom 0xFFFF#16 bs

/-- The CRC as it is sent: low byte first (R164). -/
def crcBytes (bs : List Byte) : List Byte := le 2 (crc16 bs).toNat

/-- A request frame (R164, R181). -/
def requestFrame (k : Kind) (body : List Byte) : List Byte :=
  let head := Byte.of k.code :: Byte.of body.length :: body
  head ++ crcBytes head

/-- A reply frame (R164, R181). -/
def Machine.Reply.frame (r : Reply) : List Byte :=
  let head := Byte.of r.kind.code :: Byte.of r.result.code :: Byte.of r.body.length :: r.body
  head ++ crcBytes head

/-- The kinds that have a code. -/
def allKinds : List Kind :=
  [.readReply, .linkReset, .readEvents, .clearEvents, .setEventEnable, .getParam, .setParam, .setDate, .readChannel,
   .readBay, .readWaste, .confirmCartridge, .rejectCartridge, .clearRefillFault, .usage, .fence, .readTotals,
   .admitPage, .endPage, .listPages, .zoneRequest, .zoneRelease, .readStation, .stationRetry, .fetchOrder, .orderDone,
   .clean, .cancelClean, .checkNozzles, .calibrateDetector, .readHealth, .clearDegraded, .rest, .loadMedia,
   .unloadMedia, .advance, .cut, .releaseHold, .manualFeed, .readFeed]

/-- The kind a code names (R182). -/
def kind? (n : Nat) : Option Kind := allKinds.find? fun k => k.code == n

/-- What a transaction is taken as (R162, R165). -/
inductive Taken where
  | poll
  | error (e : ErrorKind)
  | frame (k : Kind) (body : List Byte)
  deriving DecidableEq, Repr

/-- What the bytes of a transaction after its first byte are taken as on port `p`; the tests stand in the order of R165.
Bytes after the frame are ignored (R162). -/
def takenAs (p : Port) : List Byte → Taken
  | [] => .poll
  | [_] => .error .truncated
  | code :: len :: rest =>
    if len.toNat > Config.bodyMax then .error .length
    else if rest.length < len.toNat + 2 then .error .truncated
    else if (rest.drop len.toNat).take 2 ≠ crcBytes (code :: len :: rest.take len.toNat) then .error .crc
    else match kind? code.toNat with
      | none => .error .kind
      | some k =>
        if k = .usage ∧ p = .raster ∧ len.toNat ≠ Kind.usage.bodyLength then .error .length
        else .frame k (rest.take len.toNat)

/-- The command a frame of kind `k` on port `p` is; `encoder` is READ_FEED's sample of the encoder. -/
def commandOf (k : Kind) (p : Port) (body : List Byte) (encoder : Nat) : Instr :=
  match k with
  | .readReply => .readReply p body
  | .linkReset => .linkReset p body
  | .readEvents => .readEvents p body
  | .clearEvents => .clearEvents p body
  | .setEventEnable => .setEventEnable p body
  | .getParam => .getParam p body
  | .setParam => .setParam p body
  | .setDate => .setDate p body
  | .readChannel => .readChannel p body
  | .readBay => .readBay p body
  | .readWaste => .readWaste p body
  | .confirmCartridge => .confirmCartridge p body
  | .rejectCartridge => .rejectCartridge p body
  | .clearRefillFault => .clearRefillFault p body
  | .usage => .usage p body
  | .fence => .fence p body
  | .readTotals => .readTotals p body
  | .admitPage => .admitPage p body
  | .endPage => .endPage p body
  | .listPages => .listPages p body
  | .zoneRequest => .zoneRequest p body
  | .zoneRelease => .zoneRelease p body
  | .readStation => .readStation p body
  | .stationRetry => .stationRetry p body
  | .fetchOrder => .fetchOrder p body
  | .orderDone => .orderDone p body
  | .clean => .clean p body
  | .cancelClean => .cancelClean p body
  | .checkNozzles => .checkNozzles p body
  | .calibrateDetector => .calibrateDetector p body
  | .readHealth => .readHealth p body
  | .clearDegraded => .clearDegraded p body
  | .rest => .rest p body
  | .loadMedia => .loadMedia p body
  | .unloadMedia => .unloadMedia p body
  | .advance => .advance p body
  | .cut => .cut p body
  | .releaseHold => .releaseHold p body
  | .manualFeed => .manualFeed p body
  | .readFeed => .readFeed p body encoder

/-- The kind, port and body of a frame command; none for the commands that are no frame. -/
def frameOf : Instr → Option (Kind × Port × List Byte)
  | .readReply p b => some (.readReply, p, b)
  | .linkReset p b => some (.linkReset, p, b)
  | .readEvents p b => some (.readEvents, p, b)
  | .clearEvents p b => some (.clearEvents, p, b)
  | .setEventEnable p b => some (.setEventEnable, p, b)
  | .getParam p b => some (.getParam, p, b)
  | .setParam p b => some (.setParam, p, b)
  | .setDate p b => some (.setDate, p, b)
  | .readChannel p b => some (.readChannel, p, b)
  | .readBay p b => some (.readBay, p, b)
  | .confirmCartridge p b => some (.confirmCartridge, p, b)
  | .rejectCartridge p b => some (.rejectCartridge, p, b)
  | .clearRefillFault p b => some (.clearRefillFault, p, b)
  | .readWaste p b => some (.readWaste, p, b)
  | .readTotals p b => some (.readTotals, p, b)
  | .usage p b => some (.usage, p, b)
  | .fence p b => some (.fence, p, b)
  | .admitPage p b => some (.admitPage, p, b)
  | .endPage p b => some (.endPage, p, b)
  | .listPages p b => some (.listPages, p, b)
  | .zoneRequest p b => some (.zoneRequest, p, b)
  | .zoneRelease p b => some (.zoneRelease, p, b)
  | .readStation p b => some (.readStation, p, b)
  | .stationRetry p b => some (.stationRetry, p, b)
  | .fetchOrder p b => some (.fetchOrder, p, b)
  | .orderDone p b => some (.orderDone, p, b)
  | .clean p b => some (.clean, p, b)
  | .cancelClean p b => some (.cancelClean, p, b)
  | .checkNozzles p b => some (.checkNozzles, p, b)
  | .calibrateDetector p b => some (.calibrateDetector, p, b)
  | .readHealth p b => some (.readHealth, p, b)
  | .clearDegraded p b => some (.clearDegraded, p, b)
  | .rest p b => some (.rest, p, b)
  | .loadMedia p b => some (.loadMedia, p, b)
  | .unloadMedia p b => some (.unloadMedia, p, b)
  | .advance p b => some (.advance, p, b)
  | .cut p b => some (.cut, p, b)
  | .manualFeed p b => some (.manualFeed, p, b)
  | .releaseHold p b => some (.releaseHold, p, b)
  | .readFeed p b _ => some (.readFeed, p, b)
  | .resetNAssert | .deviceReset _ | .statusPoll _ | .frameError _ _ | .usageApply | .fenceRelease
  | .busTransactionStart | .busAttemptUnacknowledged | .chipReadDone _ | .chipReadFail | .wasteReadDone _
  | .wasteReadFail | .chipWriteDone | .chipWriteFail | .bayPresenceClose _ | .bayPresenceOpen _ | .wastePresenceClose
  | .wastePresenceOpen | .strokeComplete _ _ | .floatChange _ _ | .waitInkEnd | .sledMotionDone | .wiperMotionDone
  | .sledMotionTimeout | .wiperMotionTimeout | .endSensorChangeIdle _ _ | .pumpRevolution | .pumpStall
  | .homeSensorChange _ | .parkTimerExpiry | .idleCapExpiry | .grantHoldExpiry | .orderTimerExpiry
  | .waitingPlacementEntry | .fireSyncStrobe _ | .detectorSample _ | .exposureExpiry _ | .arbiterServe
  | .loadMotionDone | .unloadMotionDone _ | .advanceDone | .cutAdvanceDone | .manualFeedDone | .feedMotionTimeout _
  | .leadingEdgeChange _ _ | .pathEntryChange _ _ | .sourceEndSensor _ | .coverSensorOpen _ | .coverSensorClose
  | .sourceEndSensorClear _ | .replyShiftedOut _ => none

/-- The bytes, after the status byte, of the transaction a frame command stands for. -/
def encodeFrame (i : Instr) : Option (Port × List Byte) :=
  match frameOf i with
  | some (k, p, body) => some (p, requestFrame k body)
  | none => none

/-- The command a transaction's bytes carry on port `p`, with the encoder's sample. -/
def decodeFrame (p : Port) (bytes : List Byte) (encoder : Nat) : Option Instr :=
  match takenAs p bytes with
  | .frame k body => some (commandOf k p body encoder)
  | _ => none

end Sys2Proof
end

