-- ==== Sys2Proof/Machine/Flags.lean ====
section
/-!
DEFINITION. Event flags and attention (chapter 11): routing, raising, enables, summaries, the attention line and the
status byte (R163, R175 to R177, R181).
-/

namespace Sys2Proof.Machine

/-- The event kinds in the row order of R176; R180 numbers them 0 to 35 in this order. -/
def allEvents : List EventKind :=
  [.bayInserted, .confirmNeeded, .bayLow, .bayOut, .switchover, .channelStarved, .refillFault, .chipStale,
   .wasteNearFull, .wasteFull, .wasteRemoved, .overcommitted,
   .ordersPending, .orderTimeout, .grantDiscarded, .parkTimeout, .exposed, .pauseForService, .cleanDone, .cleanAborted,
   .checkDone, .healthChanged, .degraded, .stationFault,
   .jam, .coverOpened, .holdReleased, .endOfRoll, .mediaOut, .loadDone, .unloadDone, .cutDone, .cutFailed,
   .frameError, .woke, .clampedUsage]

/-- The number of an event kind (R180). -/
def EventKind.index : EventKind → Fin 36
  | .bayInserted => 0 | .confirmNeeded => 1 | .bayLow => 2 | .bayOut => 3 | .switchover => 4 | .channelStarved => 5
  | .refillFault => 6 | .chipStale => 7 | .wasteNearFull => 8 | .wasteFull => 9 | .wasteRemoved => 10
  | .overcommitted => 11 | .ordersPending => 12 | .orderTimeout => 13 | .grantDiscarded => 14 | .parkTimeout => 15
  | .exposed => 16 | .pauseForService => 17 | .cleanDone => 18 | .cleanAborted => 19 | .checkDone => 20
  | .healthChanged => 21 | .degraded => 22 | .stationFault => 23 | .jam => 24 | .coverOpened => 25 | .holdReleased => 26
  | .endOfRoll => 27 | .mediaOut => 28 | .loadDone => 29 | .unloadDone => 30 | .cutDone => 31 | .cutFailed => 32
  | .frameError => 33 | .woke => 34 | .clampedUsage => 35

/-- The ports an event kind is routed to (R176). FRAME_ERROR has a flag on every port and is raised on one. -/
def EventKind.routed : EventKind → Port → Bool
  | .bayInserted, p | .confirmNeeded, p | .bayLow, p | .bayOut, p | .switchover, p => p != .raster
  | .channelStarved, p => p != .panel
  | .refillFault, p | .chipStale, p | .wasteNearFull, p | .wasteFull, p | .wasteRemoved, p => p != .raster
  | .overcommitted, p => p == .job
  | .ordersPending, p => p == .raster
  | .orderTimeout, p | .grantDiscarded, p | .parkTimeout, p | .exposed, p | .pauseForService, p => p != .panel
  | .cleanDone, p | .cleanAborted, p | .checkDone, p => p != .raster
  | .healthChanged, _ | .degraded, _ | .stationFault, _ | .jam, _ => true
  | .coverOpened, p => p != .raster
  | .holdReleased, _ => true
  | .endOfRoll, p | .mediaOut, p | .loadDone, p | .unloadDone, p => p != .raster
  | .cutDone, p => p == .job
  | .cutFailed, p => p != .raster
  | .frameError, _ | .woke, _ => true
  | .clampedUsage, p => p != .panel

/-- The four groups of R176. -/
inductive EventGroup where
  | supply | service | feed | link
  deriving DecidableEq, Repr

/-- The groups in the order of R178. -/
def allGroups : List EventGroup := [.supply, .service, .feed, .link]

/-- A group selector (R178, R180). -/
def group? : Nat → Option EventGroup
  | 0 => some .supply
  | 1 => some .service
  | 2 => some .feed
  | 3 => some .link
  | _ => none

/-- The group of an event kind (R176). -/
def EventKind.group (k : EventKind) : EventGroup :=
  if k.index.val < 12 then .supply else if k.index.val < 24 then .service else if k.index.val < 33 then .feed else .link

/-- The subject mask with the single member `n`. -/
def one (n : Nat) : BitVec 16 := BitVec.ofNat 16 (2 ^ n)

/-- The subject mask of several members. -/
def several (ns : List Nat) : BitVec 16 := ns.foldl (fun m n => m ||| one n) 0

/-- One raise of `k` as the port's event state takes it (R175). -/
def PortEvents.raise (e : PortEvents) (k : EventKind) (subjects : BitVec 16) (detail : Option Detail) : PortEvents :=
  let n := (e.raises + 1) % 65536
  { e with
    raises := n
    flags := vmod e.flags k.index fun f =>
      { set := true, count := sat Config.u8Max (f.count + 1), subjects := f.subjects ||| subjects, detail := detail,
        raisedAt := n } }

/-- An event is raised: every port of its routing set takes it (R175). -/
def raise (k : EventKind) (subjects : BitVec 16) (detail : Option Detail) (s : State) : State :=
  { s with evu :=
    { job := if k.routed .job then s.evu.job.raise k subjects detail else s.evu.job
      raster := if k.routed .raster then s.evu.raster.raise k subjects detail else s.evu.raster
      panel := if k.routed .panel then s.evu.panel.raise k subjects detail else s.evu.panel } }

/-- An event is raised on one port only: FRAME_ERROR (R176). -/
def raiseOn (p : Port) (k : EventKind) (detail : Option Detail) (s : State) : State :=
  { s with evu := s.evu.set p ((s.evu.get p).raise k 0 detail) }

/-- Some flag of the port is set (of those `sel` picks). -/
def PortEvents.anySet (e : PortEvents) (sel : EventKind → Bool) : Bool :=
  allEvents.any fun k => sel k && (e.flags.get k.index).set

/-- Some flag of the port is set with its enable set (of those `sel` picks). -/
def PortEvents.anyDue (e : PortEvents) (sel : EventKind → Bool) : Bool :=
  allEvents.any fun k => sel k && (e.flags.get k.index).set && e.enables.get k.index

/-- The attention of a port is due: a flag is set with its enable set (R177). -/
def PortEvents.attention (e : PortEvents) : Bool := e.anyDue fun _ => true

/-- The attention line of port `p` is driven; released while RESET_N is low (R174, R177). -/
def attentionLine (s : State) (p : Port) : Bool := !s.resetLow && (s.evu.get p).attention

/-- A slot holds a reply (R163 REPLY_READY). -/
def Slot.hasReply : Slot → Bool
  | .ready _ | .collected _ => true
  | _ => false

/-- A slot is HELD (R163 REPLY_HELD). -/
def Slot.isHeld : Slot → Bool
  | .held _ => true
  | _ => false

/-- The status byte of port `p` as the record stands (R163, R181). -/
def statusByte (s : State) (p : Port) : Byte :=
  let e := s.liu.engines.get p
  Byte.of (maskOf [e.slot.hasReply, e.slot.isHeld, attentionLine s p, e.lastError, e.busy, e.postedFull, e.resetSeen])

/-- Error kind codes (R181). -/
def ErrorKind.code : ErrorKind → Nat
  | .truncated => 1 | .length => 2 | .crc => 3 | .kind => 4 | .field => 5

end Sys2Proof.Machine
end

