-- ==== Sys2Proof/Machine/Ops.lean ====
section
/-!
DEFINITION. Operations every block uses: small accessors of the records, the port engine's transaction, slot and error
operations (R162 to R169), and the agenda of consequences (`Act`) that blocks hand one another within one command.
-/

namespace Sys2Proof.Machine

/-! ### Record accessors -/

def chan (s : State) (c : Fin 6) : Channel := s.spu.channels.get c
def setChan (s : State) (c : Fin 6) (x : Channel) : State :=
  { s with spu := { s.spu with channels := vset s.spu.channels c x } }
def bay (s : State) (b : Fin 12) : Bay := s.spu.bays.get b
def setBay (s : State) (b : Fin 12) (x : Bay) : State := { s with spu := { s.spu with bays := vset s.spu.bays b x } }
def book (s : State) (c : Fin 6) : Book := s.uau.books.get c
def setBook (s : State) (c : Fin 6) (x : Book) : State := { s with uau := { s.uau with books := vset s.uau.books c x } }
def entryOf (s : State) (h : Fin 3) : CleanEntry := s.cls.table.get h
def setEntry (s : State) (h : Fin 3) (x : CleanEntry) : State :=
  { s with cls := { s.cls with table := vset s.cls.table h x } }
def health (s : State) (c : Fin 6) : Health := s.dtu.health.get c
def setHealth (s : State) (c : Fin 6) (x : Health) : State :=
  { s with dtu := { s.dtu with health := vset s.dtu.health c x } }
def exposure (s : State) (h : Fin 3) : Exposure := s.ext.get h
def setExposure (s : State) (h : Fin 3) (x : Exposure) : State := { s with ext := vset s.ext h x }
def sourceRec (s : State) (src : Source) : SourceRec := s.fdc.sources.get src
def setSource (s : State) (src : Source) (x : SourceRec) : State :=
  { s with fdc := { s.fdc with sources := s.fdc.sources.set src x } }
def engine (s : State) (p : Port) : Engine := s.liu.engines.get p
def setEngine (s : State) (p : Port) (x : Engine) : State :=
  { s with liu := { s.liu with engines := s.liu.engines.set p x } }

/-- A bay's estimate in nL; 0 where the field is absent (R4). -/
def Bay.estimate (x : Bay) : Nat := match x.ink with
  | some i => i.estimate
  | none => 0

/-- An order is TAKEN. -/
def Order.isTaken (o : Order) : Bool := match o.state with
  | .taken _ _ => true
  | .queued => false

/-- Some order is TAKEN (R73, R78). -/
def anyTaken (s : State) : Bool := s.orq.queue.any Order.isTaken

/-- A cycle is running (R100). -/
def Stage.running : Stage → Bool
  | .none | .waitZone => false
  | .waitInk | .sucking | .wiping | .spitting | .checking | .finishing => true

/-- Some cleaning entry is pending (R94). -/
def anyPending (s : State) : Bool := allHeads.any fun h => (entryOf s h).level.isSome

/-! ### The cleaning request table (R94, R95) -/

/-- The order of the levels (R93), NONE below every level (R95). -/
def levelRank : Option Level → Nat
  | none => 0
  | some .spitOnly => 1
  | some .light => 2
  | some .normal => 3
  | some .strong => 4

/-- The set of one origin. -/
def OriginSet.of : CleanOrigin → OriginSet
  | .job => { OriginSet.empty with job := true }
  | .panel => { OriginSet.empty with panel := true }
  | .dropCount => { OriginSet.empty with dropCount := true }
  | .prime => { OriginSet.empty with prime := true }
  | .escalation => { OriginSet.empty with escalation := true }
  | .sweep => { OriginSet.empty with sweep := true }

/-- The union of two origin sets. -/
def OriginSet.union (x y : OriginSet) : OriginSet :=
  ⟨x.job || y.job, x.panel || y.panel, x.dropCount || y.dropCount, x.prime || y.prime, x.escalation || y.escalation,
   x.sweep || y.sweep⟩

/-- An entry with a request folded in (R95). -/
def CleanEntry.fold (e : CleanEntry) (l : Level) (urgent : Bool) (o : OriginSet) : CleanEntry :=
  { e with
    level := if levelRank e.level < levelRank (some l) then some l else e.level
    urgent := e.urgent || urgent
    origins := e.origins.union o }

/-- An entry that is cleared (R94): the escalation step, drop count and drop-count flag stay. -/
def CleanEntry.cleared (e : CleanEntry) : CleanEntry :=
  { e with level := none, urgent := false, origins := OriginSet.empty }

/-- A request is folded into the head's entry, and a hold is cleared (R95). -/
def foldRequest (h : Fin 3) (l : Level) (urgent : Bool) (o : OriginSet) (s : State) : State :=
  let s := setEntry s h ((entryOf s h).fold l urgent o)
  { s with cls := { s.cls with hold := none } }

/-! ### Port engine -/

/-- A transaction begins on port `p` (R162, R163): the status byte is shifted out as the record stands, BUSY and
POSTED_FULL are cleared once shown, and what an earlier transaction was shifting out is over. -/
def beginTransaction (p : Port) (s : State) : State :=
  setEngine s p { engine s p with busy := false, postedFull := false, out := [statusByte s p], collecting := false }

/-- A frame error of kind `e` is counted on port `p` (R165). -/
def countError (p : Port) (e : ErrorKind) (s : State) : State :=
  let x := engine s p
  raiseOn p .frameError (some (.errorKind e))
    (setEngine s p { x with lastError := true, errorKind := some e, errorCount := sat Config.u16Max (x.errorCount + 1) })

/-- The reply slot of port `p` takes a reply and becomes READY (R167). -/
def answer (p : Port) (k : Kind) (r : Result) (body : List Byte) (s : State) : State :=
  setEngine s p { engine s p with slot := .ready ⟨k, r, body⟩ }

/-- The reply slot of port `p` becomes HELD for a request of kind `k` (R166 step 7). -/
def holdSlot (p : Port) (k : Kind) (s : State) : State := setEngine s p { engine s p with slot := .held k }

/-! ### The agenda -/

/-- How an order ended (R85 to R87). -/
inductive OrderEnd where
  | done (fault : Bool)
  | timeout
  deriving DecidableEq, Repr

/-- The order was carried out: ORDER_DONE with fault flag 0 (R85). -/
def OrderEnd.carriedOut : OrderEnd → Bool
  | .done fault => !fault
  | .timeout => false

/-- A consequence one block hands another within a command. Consequences are taken in order, the consequences of the
first before the second (log entry 8). -/
inductive Act where
  /-- A free moment of the zone; `sessionEnd` marks the end of a service session (R73). -/
  | freeMoment (sessionEnd : Bool)
  /-- The EXT acts on a state the station has entered (R135). -/
  | extEntry
  /-- Capping is asked for (R63). -/
  | askCapping
  /-- The zone has been handed to a unit (R74). -/
  | sessionBegun (who : Claimant)
  /-- The session holder hands the zone back, or goes on doing so (R74). -/
  | handBack
  /-- A motion command of the session holder to the sled or the wiper (R58). -/
  | sledCommand (e : SledEnd)
  | wiperCommand (e : WiperEnd)
  /-- The step that commanded the motion is told it is done (R58). -/
  | sledDone
  | wiperDone
  /-- The holder is told its pump run completed (R59). -/
  | pumpDone
  /-- The ORQ enters waiting placements (R81). -/
  | enterWaiting
  /-- A unit hands the ORQ a placement (R80). -/
  | place (who : Placer) (body : OrderBody)
  /-- A unit is told its order has entered (R80, R81). -/
  | entered (who : Placer) (id : Nat)
  /-- The origin block is told an order has ended (R87). -/
  | orderEnded (o : Order) (how : OrderEnd) (sample : Option Sample)
  /-- The STC is told the TAKEN order has ended (R85, R86, R90). -/
  | takenEnded
  /-- The CLS tests whether to place a claim (R101). -/
  | clsClaim
  /-- Requests have been folded into the table; `urgent` if one of them was (R95, R101). -/
  | clsFolded (urgent : Bool)
  /-- The waste state has changed (R100). -/
  | wasteChanged
  /-- A channel's estimate or refill state has changed (R104). -/
  | supplyChanged (c : Fin 6)
  /-- The CLS forms an escalated cycle (R102, R110). -/
  | formCycle
  /-- The CLS goes on with the stage it has entered (R105 to R110). -/
  | stageEntered
  /-- The CLS places the next spit, or goes on when none is left (R107). -/
  | nextSpit
  /-- The CLS sets an abort (R111). -/
  | abortCycle (c : CleanCause)
  /-- The CLS tests for its safe point (R111). -/
  | safePoint
  /-- The DTU places the order of the present step or row (R120, R123). -/
  | dtuPlace
  /-- The DTU's task or check has finished its last row (R122, R124, R125). -/
  | dtuFinish
  /-- The check the CLS handed the DTU is done, with its results, or without any (R108, R125, R126). -/
  | checkResults (rs : List RowResult)
  | checkFailed
  /-- A Raster Port link reset acts on the order queue (R90). -/
  | returnOrders
  /-- The end of a return to RUN (R140): refill start tests and unwatched sensors. -/
  | wakeEnd
  deriving DecidableEq, Repr

/-- The state after a command's own effect, with the consequences still to be taken. -/
abbrev Run := State × List Act

/-- A run with no consequence. -/
def Run.done (s : State) : Run := (s, [])

end Sys2Proof.Machine
end

