-- ==== Sys2Proof/Machine/Pages.lean ====
section
/-!
DEFINITION. The Page Admission Unit (chapter 3): outstanding reservations and available ink, the admission checks, tag
checks and supply stop, consumption, overcommitment, and the end of a page.
-/

namespace Sys2Proof.Machine

/-- Outstanding ink of an entry on channel `c` (R43). -/
def Page.outstanding (e : Page) (c : Fin 6) : Nat := e.reserved.get c - e.consumed.get c

/-- Outstanding media of an entry (R43). -/
def Page.outstandingMedia (e : Page) : Nat := e.mediaReserved - e.mediaConsumed

/-- Outstanding ink of channel `c` over every entry (R43). -/
def outstandingInk (s : State) (c : Fin 6) : Nat := (s.pau.pages.map fun e => e.outstanding c).sum

/-- The ink a bay adds to available ink: its estimate in ACTIVE or STANDBY (R43). -/
def Bay.available (x : Bay) : Nat :=
  match x.state with
  | .active | .standby => x.estimate
  | .empty | .reading | .awaitConfirm | .out | .rejected | .fault => 0

/-- Available ink of channel `c` (R43), by R43's sum also for a STARVED channel whose refill is in FAULT beside a bay that
holds ink, where R46 says in passing that it is 0 (log entry 43, DESIGN CHOICE). -/
def availableInk (s : State) (c : Fin 6) : Nat :=
  (chan s c).estimate + (bay s (bayOf c .a)).available + (bay s (bayOf c .b)).available - s.params.reserveMark

/-- The overcommitment check of channel `c` (R54). -/
def checkOver (c : Fin 6) (s : State) : State :=
  let now := decide (availableInk s c < outstandingInk s c)
  if now = s.pau.overSet.get c then s
  else
    let s' := { s with pau := { s.pau with overSet := vset s.pau.overSet c now } }
    if now then raise .overcommitted (one c.val) none s' else s'

/-- The overcommitment check of several channels in turn (R54). -/
def checkOverAll (cs : List (Fin 6)) (s : State) : State := cs.foldl (fun s c => checkOver c s) s

/-- The table with its oldest entry changed. -/
def modOldest (f : Page → Page) (s : State) : State :=
  match s.pau.pages with
  | [] => s
  | e :: es => { s with pau := { s.pau with pages := f e :: es } }

/-- The tag names the oldest entry (R49, R52). Tag 0 names no page. -/
def namesOldest (s : State) (tag : Nat) : Bool :=
  match s.pau.pages with
  | [] => false
  | e :: _ => tag != 0 && e.tag == tag

/-- The tag checks of an ADVANCE (R49); none when they pass. -/
def tagCheck (s : State) (tag : Nat) : Option Result :=
  if tag = 0 then none
  else match s.pau.pages with
    | [] => some .unknownTag
    | e :: es =>
      if e.tag = tag then
        if e.state = .faulted then some .badState
        else if s.fdc.path.source ≠ some e.source then some .badState
        else none
      else if es.any fun x => x.tag == tag then some .outOfOrder
      else some .unknownTag

/-- The supply stop: the oldest entry holds reserved ink on a STARVED channel (R50). -/
def supplyStop (s : State) : Bool :=
  match s.pau.pages with
  | [] => false
  | e :: _ => allChannels.any fun c => e.reserved.get c != 0 && (chan s c).supply == .starved

/-- An ADVANCE motion bearing `tag` begins (R49). -/
def pauAdvanceBegins (tag : Nat) (s : State) : State :=
  if namesOldest s tag then modOldest (fun e => if e.state = .admitted then { e with state := .printing } else e) s
  else s

/-- An ADVANCE motion completes (R51). -/
def pauAdvanceDone (tag dist : Nat) (s : State) : State :=
  if namesOldest s tag then
    modOldest (fun e => match e.state with
      | .admitted => e
      | .printing | .faulted =>
        let n := sat Config.u32Max (e.mediaConsumed + dist)
        { e with mediaConsumed := n, overrun := e.overrun || decide (e.mediaReserved < n) }) s
  else s

/-- The FDC has declared a jam (R48). -/
def pauJam (s : State) : State :=
  modOldest (fun e => if e.state = .printing then { e with state := .faulted } else e) s

/-- Some entry is PRINTING (R41). -/
def anyPrinting (s : State) : Bool := s.pau.pages.any fun e => e.state == .printing

/-- An entry with a matched report's debits entered (R52). -/
def Page.consume (e : Page) (debits : Vector Nat 6) : Page :=
  let used := Vector.ofFn fun c => sat Config.u32Max (e.consumed.get c + debits.get c)
  { e with
    consumed := used
    state := if e.state = .admitted then .printing else e.state
    overrun := e.overrun || allChannels.any fun c => decide (e.reserved.get c < used.get c) }

/-- The PAU is handed an applied report (R52, R53). -/
def pauReport (tag : Nat) (d : Destination) (debits : Vector Nat 6) (s : State) : State :=
  match d with
  | .waste => s
  | .media =>
    if namesOldest s tag then modOldest (fun e => e.consume debits) s
    else
      { s with pau := { s.pau with
          unmatchedCount := sat Config.u32Max (s.pau.unmatchedCount + 1)
          unmatchedInk := Vector.ofFn fun c => s.pau.unmatchedInk.get c + debits.get c } }

/-! ### Admission -/

/-- The fields of ADMIT_PAGE (R184). -/
structure AdmitFields where
  tag : Nat
  source : Option Source
  length : Nat
  ink : Vector Nat 6

/-- ADMIT_PAGE's body (R184); reserved ink in µL. -/
def admitFields (body : List Byte) : AdmitFields :=
  { tag := field body 0 2, source := source? (field body 2 1), length := field body 3 4,
    ink := Vector.ofFn fun c => field body (7 + 4 * c.val) 4 }

/-- The channels a request is short on (R46); `nl` is the request's reserved ink in nL. -/
def shortChannels (s : State) (nl : Vector Nat 6) : List (Fin 6) :=
  allChannels.filter fun c => nl.get c != 0 && decide (availableInk s c < nl.get c + outstandingInk s c)

/-- Outstanding media of every entry whose source is `src` (R45). -/
def outstandingMediaOf (s : State) (src : Source) : Nat :=
  ((s.pau.pages.filter fun e => e.source == src).map Page.outstandingMedia).sum

/-- The remaining length of a source; none is UNKNOWN or absent (R142). -/
def remainingOf (s : State) (src : Source) : Option Nat :=
  match (sourceRec s src).media with
  | some m => m.remaining
  | none => none

/-- The verdict of the six checks (R44 to R46): the refusal with its body, or the entry to append. -/
def admitVerdict (s : State) (f : AdmitFields) : Except (Result × List Byte) Page :=
  if s.pau.pages.length ≥ Config.pageDepth then .error (.tableFull, [])
  else match f.source with
  | none => .error (.badField, [])
  | some src =>
    if f.tag = 0 ∨ f.length = 0 ∨ f.length > Config.mediaMax
        ∨ allChannels.any (fun c => decide (f.ink.get c > Config.reserveInkMax)) = true then .error (.badField, [])
    else if s.pau.pages.any fun e => e.tag == f.tag then .error (.duplicateTag, [])
    else match (sourceRec s src).state with
    | .empty | .endOfRoll | .out => .error (.notLoaded, [])
    | .loaded | .inPath =>
      match s.uau.waste.state with
      | .full => .error (.wasteFull, [])
      | .absent | .fault => .error (.wasteAbsent, [])
      | .reading | .fitted | .nearFull =>
        let mediaShort := match remainingOf s src with
          | none => false
          | some len => decide (len < f.length + outstandingMediaOf s src)
        if mediaShort then .error (.mediaShort, [])
        else
          let nl : Vector Nat 6 := Vector.ofFn fun c => f.ink.get c * 1000
          match shortChannels s nl with
          | [] => .ok { tag := f.tag, source := src, state := .admitted, reserved := nl,
                        consumed := Vector.replicate 6 0, mediaReserved := f.length, mediaConsumed := 0,
                        overrun := false }
          | cs => .error (.inkShort, le 1 (channelMask cs))

/-- A new entry joins the table at the young end, and the check of R54 is made for the channels it reserves on (R46). -/
def joinTable (e : Page) (s : State) : State :=
  checkOverAll (allChannels.filter fun c => e.reserved.get c != 0)
    { s with pau := { s.pau with pages := s.pau.pages ++ [e] } }

/-- How a removal is recorded (R55): true for complete. -/
def endsComplete (aborted : Bool) (e : Page) : Bool := !aborted && e.state != .faulted

/-- The entry `e` is removed from the table and recorded (R55). -/
def endPage (e : Page) (aborted : Bool) (s : State) : State :=
  let pau := { s.pau with pages := s.pau.pages.eraseP fun x => x.tag == e.tag }
  let pau :=
    if endsComplete aborted e then { pau with endedComplete := sat Config.u16Max (pau.endedComplete + 1) }
    else { pau with endedAborted := sat Config.u16Max (pau.endedAborted + 1) }
  checkOverAll (allChannels.filter fun c => e.outstanding c != 0) { s with pau := pau }

end Sys2Proof.Machine
end

