-- ==== Sys2Proof/Machine/Supply.lean ====
section
/-!
DEFINITION. The Supply Unit and the cartridge bus (chapter 1): supply states, the bus queue, admission of cartridges,
promotion and switchover, the refill machine, the float, and the debits the UAU hands over.
-/

namespace Sys2Proof.Machine

/-! ### Supply state and the hand-off to the PAU (R2) -/

/-- The supply state that follows from a channel's record (R2). -/
def supplyOf (reserve : Nat) (x : Channel) : SupplyState :=
  if x.active.isSome && x.refill != .fault then .supplied
  else if x.estimate < reserve then .starved
  else .drySupply

/-- The supply state of channel `c` is evaluated again; a transition into STARVED raises CHANNEL_STARVED (R2). -/
def evalSupply (c : Fin 6) (s : State) : State :=
  let x := chan s c
  let now := supplyOf s.params.reserveMark x
  let s' := setChan s c { x with supply := now }
  if now = .starved ∧ x.supply ≠ .starved then raise .channelStarved (one c.val) none s' else s'

/-- The refill start condition of channel `c` (R14). -/
def refillDue (s : State) (c : Fin 6) : Bool :=
  let x := chan s c
  x.active.isSome && x.refill == .idle && (x.float == .low || decide (x.estimate < s.params.refillMark))
    && x.float != .high && s.rsc.power == .run

/-- The stroke that draws from a channel's active bay (R1). -/
def strokeFrom : Option Side → Stroke
  | some .a => .a
  | some .b => .b
  | none => .none

/-- The refill start test of channel `c` (R14). -/
def refillTest (c : Fin 6) (s : State) : State :=
  if refillDue s c then
    let x := chan s c
    setChan s c { x with refill := .refilling, strokes := 0, stroke := strokeFrom x.active }
  else s

/-- The refill start test of every channel (R14, R140). -/
def refillTestAll (s : State) : State := allChannels.foldl (fun s c => refillTest c s) s

/-- The channels whose estimate or refill state differs between two states (R104). -/
def supplyActs (s s' : State) : List Act :=
  (allChannels.filter fun c =>
    decide ((chan s c).estimate ≠ (chan s' c).estimate) || decide ((chan s c).refill ≠ (chan s' c).refill)).map
    .supplyChanged

/-! ### The cartridge bus (R20 to R23) -/

/-- A list without its last WRITE. -/
def dropLastWrite (q : List Trans) : List Trans := (q.reverse.eraseP fun t => t.kind == .write).reverse

/-- The queue without its youngest WRITE that is not executing (R20). -/
def Bus.dropYoungestWrite (x : Bus) : Bus :=
  if x.executing then
    match x.queue with
    | [] => x
    | t :: ts => { x with queue := t :: dropLastWrite ts }
  else { x with queue := dropLastWrite x.queue }

/-- A read is queued; a full queue makes room by dropping the youngest WRITE that is not executing (R20). -/
def Bus.pushRead (x : Bus) (chip : Chip) (scan : Bool) : Bus :=
  let x := if x.queue.length ≥ Config.busDepth then x.dropYoungestWrite else x
  { x with queue := x.queue ++ [⟨chip, .read, scan, 0⟩] }

/-- A WRITE for the chip waits unexecuted (R21). -/
def Bus.writeWaits (x : Bus) (chip : Chip) : Bool :=
  (if x.executing then x.queue.tail else x.queue).any fun t => t.chip == chip && t.kind == .write

/-- A due write-back is queued, with the two exceptions of R21 (R39). -/
def Bus.pushWrite (x : Bus) (chip : Chip) : Bus :=
  if x.writeWaits chip || decide (x.queue.length ≥ Config.busDepth) then x
  else { x with queue := x.queue ++ [⟨chip, .write, false, 0⟩] }

/-- Every transaction for a chip whose presence switch opened is removed; one that executes ends (R10, R23). -/
def Bus.removeChip (x : Bus) (chip : Chip) : Bus :=
  { x with
    queue := x.queue.filter fun t => t.chip != chip
    executing := x.executing && !(match x.queue with
      | [] => false
      | t :: _ => t.chip == chip) }

/-- The executing transaction, if any. -/
def Bus.current (x : Bus) : Option Trans := if x.executing then x.queue.head? else none

/-- The executing transaction ends and leaves the queue (R20). -/
def Bus.finish (x : Bus) : Bus := { x with queue := x.queue.tail, executing := false }

def onBus (f : Bus → Bus) (s : State) : State := { s with spu := { s.spu with bus := f s.spu.bus } }

/-! ### Bays: promotion and switchover (R8, R11, R12) -/

/-- The bay low mark of a bay in nL (R12). -/
def bayLowLine (s : State) (x : Bay) : Nat :=
  match x.ink with
  | some i => i.capacity * s.params.bayLowMark * 10000
  | none => 0

/-- Bay `b` takes the place of its channel's active bay (R8, R11): ACTIVE, dry-stroke count 0, and a refill in FAULT
becomes IDLE. -/
def makeActive (b : Fin 12) (s : State) : State :=
  let s := setBay s b { bay s b with state := .active, dry := 0 }
  let c := channelOf b
  let x := chan s c
  setChan s c { x with active := some (sideOf b), refill := if x.refill = .fault then .idle else x.refill }

/-- Promotion of a bay on a channel without an active bay (R8). -/
def promote (b : Fin 12) (s : State) : State :=
  let c := channelOf b
  checkOver c (refillTest c (evalSupply c (makeActive b s)))

/-- Bay `b` enters STANDBY: BAY_LOW if it is below its mark, and promotion if its channel has no active bay. The second
result says that a PRIME request is due (R6, R8, R9). -/
def enterStandby (b : Fin 12) (s : State) : State × Bool :=
  let x := bay s b
  let s := setBay s b { x with state := .standby }
  let s := if x.estimate < bayLowLine s x then raise .bayLow (one b.val) none s else s
  let s := checkOver (channelOf b) s
  if (chan s (channelOf b)).active.isNone then (promote b s, !x.scanRead) else (s, false)

/-- The run of a bay's entry into STANDBY: the PRIME request is folded for the head that carries the channel (R8, R99). -/
def standbyRun (b : Fin 12) (s : State) : Run :=
  let (s', prime) := enterStandby b s
  if prime then
    (foldRequest (headOf (channelOf b)) .normal false (OriginSet.of .prime) s', supplyActs s s' ++ [.clsFolded false])
  else (s', supplyActs s s')

/-- Switchover, when the active bay of channel `c`, the bay of side `side`, has left ACTIVE (R11). The PAU's check of R2
and R54 is made once, after SWITCHOVER and R2's evaluation, so that OVERCOMMITTED follows them; the rules give no order
(log entry 54, DESIGN CHOICE). -/
def switchover (c : Fin 6) (side : Side) (s : State) : State :=
  let other := bayOf c side.other
  if (bay s other).state = .standby then
    let was := (chan s c).refill
    let s := makeActive other s
    let s := if was = .refilling then setChan s c { chan s c with strokes := 0 } else s
    let s := raise .switchover (one other.val) none s
    checkOver c (refillTest c (evalSupply c s))
  else
    let x := chan s c
    let s := setChan s c
      { x with active := none
               refill := if x.refill = .refilling ∧ x.stroke = .none then .idle else x.refill }
    checkOver c (evalSupply c s)

/-- The presence switch of an EMPTY bay closes (R5), as an insertion or a scan read. -/
def insertBay (b : Fin 12) (scan : Bool) (s : State) : State :=
  if (bay s b).state = .empty then
    let s := setBay s b { bay s b with state := .reading }
    onBus (·.pushRead (.bay b) scan) (raise .bayInserted (one b.val) none s)
  else s

/-- The presence switch of a bay opens (R10). -/
def removeBay (b : Fin 12) (s : State) : State :=
  let was := (bay s b).state
  let s := onBus (·.removeChip (.bay b)) (setBay s b Bay.reset)
  let c := channelOf b
  if was = .active then
    let x := chan s c
    let s := setChan s c
      { x with stroke := if x.stroke = strokeFrom (some (sideOf b)) then .lost else x.stroke }
    switchover c (sideOf b) s
  else checkOver c s

/-! ### Judging a cartridge (R6, R7, R187) -/

/-- The fields of a bay chip record (R187). -/
structure ChipFields where
  serial : Vector Byte 8
  code : Nat
  capacity : Nat
  remaining : Nat
  expiry : Nat
  refilled : Bool

/-- A bay chip record as read (R187). -/
def chipFields (r : Vector Byte 18) : ChipFields :=
  let bs := r.toList
  { serial := Vector.ofFn fun i => r.get ⟨i.val, by omega⟩
    code := field bs 0x08 1
    capacity := field bs 0x09 2
    remaining := field bs 0x0B 4
    expiry := field bs 0x0F 2
    refilled := maskBit (field bs 0x11 1) 0 }

/-- The chip read of bay `b` completes: the fields are stored and the cartridge judged (R6). -/
def judgeBay (b : Fin 12) (scan : Bool) (f : ChipFields) (s : State) : Run :=
  let valid := decide (0 < f.capacity ∧ f.capacity ≤ 1000)
  let x : Bay :=
    { bay s b with
      chip := some { serial := f.serial, code := f.code, drawn := 0, expiry := f.expiry, refilled := f.refilled }
      ink := if valid then some { capacity := f.capacity, estimate := min (f.remaining * 1000) (f.capacity * 1000000) }
             else none
      scanRead := scan }
  let judged (st : BayState) : State := checkOver (channelOf b) (setBay s b { x with state := st })
  if !valid then Run.done (judged .rejected)
  else if f.code ≠ (channelOf b).val then Run.done (judged .rejected)
  else if f.remaining = 0 then Run.done (judged .out)
  else if f.refilled ∨ (s.date ≠ 0 ∧ f.expiry < s.date) then
    Run.done (raise .confirmNeeded (one b.val) none (judged .awaitConfirm))
  else standbyRun b (setBay s b x)

/-! ### Refill strokes and the float (R15, R16, R18) -/

/-- A credit to the sub-tank; the part beyond its capacity goes into drift (R15). -/
def creditTank (c : Fin 6) (vol : Nat) (s : State) : State :=
  let x := chan s c
  let sum := x.estimate + vol
  setChan s c
    { x with estimate := min sum Config.subTankMax
             drift := sat32 (x.drift - ((sum - Config.subTankMax : Nat) : Int)) }

/-- A bay with a stroke's volume debited (R15): the clamped debit, its overdraw and its drawn-since-write. -/
def Bay.debit (x : Bay) (vol : Nat) : Bay :=
  let d := min vol x.estimate
  { x with
    ink := x.ink.map fun i => { i with estimate := i.estimate - d }
    chip := x.chip.map fun k => { k with drawn := k.drawn + d }
    overdraw := sat Config.u32Max (x.overdraw + (vol - d))
    dry := 0 }

/-- Drawn-since-write of a bay (R4). -/
def Bay.drawn (x : Bay) : Nat := match x.chip with
  | some k => k.drawn
  | none => 0

/-- A bay with drawn-since-write set to 0 (R21). -/
def Bay.clearDrawn (x : Bay) : Bay := { x with chip := x.chip.map fun k => { k with drawn := 0 } }

/-- A stroke that drew ink from bay `b` (R15): debit with BAY_LOW and write-back, then the credit. -/
def strokeInk (c : Fin 6) (b : Fin 12) (s : State) : State :=
  let vol := s.params.strokeVolume.get c
  let x := bay s b
  let x' := x.debit vol
  let line := bayLowLine s x
  let s := if line ≤ x.estimate ∧ x'.estimate < line then raise .bayLow (one b.val) none s else s
  let s :=
    if Config.writeBackStep ≤ x'.drawn then onBus (·.pushWrite (.bay b)) (setBay s b x'.clearDrawn) else setBay s b x'
  creditTank c vol s

/-- The second dry stroke in a row sends bay `b` to OUT (R15 case 1, R21). -/
def bayOut (b : Fin 12) (s : State) : State :=
  let x := bay s b
  let s := setBay s b
    { x.clearDrawn with state := .out, ink := x.ink.map fun i => { i with estimate := 0 } }
  onBus (·.pushWrite (.bay b)) (raise .bayOut (one b.val) none s)

/-- The bay a stroke draws from; none for no stroke and for LOST. -/
def strokeBay (c : Fin 6) : Stroke → Option (Fin 12)
  | .a => some (bayOf c .a)
  | .b => some (bayOf c .b)
  | .none => none
  | .lost => none

/-- The stroke count and the stroke in flight after a stroke has been accounted (R15). -/
def strokeCounted (c : Fin 6) (s : State) : State :=
  let x := chan s c
  setChan s c { x with stroke := .none, strokes := sat Config.u8Max (x.strokes + 1) }

/-- What follows a stroke's accounting, cases 2 to 4 of R15 with R16, from the float and the active bay as they stand at
that moment. Where the float has left HIGH again, or a bay been promoted after a removal, before the stroke was complete,
R18 and R11 have said that no further stroke begins; the model follows R15's tests and begins one (log entry 42, DESIGN
CHOICE). -/
def strokeNext (c : Fin 6) (s : State) : State :=
  let x := chan s c
  if x.float = .high ∨ x.active = none then setChan s c { x with refill := .idle }
  else if s.params.maxStrokes ≤ x.strokes then
    evalSupply c (raise .refillFault (one c.val) none (setChan s c { x with refill := .fault }))
  else setChan s c { x with stroke := strokeFrom x.active }

/-- After switchover the refill goes on from the new bay if it is REFILLING, unless the float reads HIGH (R15). -/
def strokeAfterSwitch (c : Fin 6) (s : State) : State :=
  let x := chan s c
  if x.refill = .refilling then
    if x.float = .high then setChan s c { x with refill := .idle }
    else setChan s c { x with stroke := strokeFrom x.active }
  else s

/-- A stroke of channel `c` is complete, with the ink-present sensor of the bay it drew from reading `ink` (R15). The PAU's
check of R2 and R54 is made once, after the debit, the credit and what follows them (log entry 54, DESIGN CHOICE). -/
def strokeDone (c : Fin 6) (ink : Bool) (s : State) : State :=
  match (chan s c).stroke with
  | .none => s
  | .lost => checkOver c (evalSupply c (strokeNext c (strokeCounted c (creditTank c (s.params.strokeVolume.get c) s))))
  | st =>
    match strokeBay c st with
    | none => s
    | some b =>
      let s := { s with pins := { s.pins with ink := vset s.pins.ink b ink } }
      if ink then checkOver c (evalSupply c (strokeNext c (strokeCounted c (strokeInk c b s))))
      else
        let s := strokeCounted c (setBay s b { bay s b with dry := (bay s b).dry + 1 })
        if (bay s b).dry ≥ 2 then
          strokeAfterSwitch c (switchover c (sideOf b) (bayOut b s))
        else checkOver c (evalSupply c (strokeNext c s))

/-- The float of channel `c` changes to `f`: the correction of the estimate enters drift (R18). -/
def floatTo (c : Fin 6) (f : FloatLevel) (s : State) : State :=
  let x := chan s c
  let est := match f with
    | .high => Config.floatHighMark
    | .mid => x.estimate
    | .low => min x.estimate Config.floatLowMark
  let s := setChan s c { x with float := f, estimate := est, drift := sat32 (x.drift + ((est : Int) - x.estimate)) }
  checkOver c (evalSupply c (refillTest c s))

/-- CLEAR_REFILL_FAULT on a channel in FAULT (R17). -/
def clearFault (c : Fin 6) (s : State) : State :=
  refillTest c (evalSupply c (setChan s c { chan s c with refill := .idle, strokes := 0 }))

/-! ### Debits (R19) -/

/-- The sub-tank of channel `c` is debited, clamped at 0, and the refill start test and supply state follow; the hand-off
to the PAU is the caller's (R19, R54). -/
def debitTank (c : Fin 6) (amount : Nat) (s : State) : State :=
  let x := chan s c
  evalSupply c (refillTest c (setChan s c { x with estimate := x.estimate - amount }))

/-- The part of a debit beyond the sub-tank estimate (R19). -/
def debitExcess (s : State) (c : Fin 6) (amount : Nat) : Nat := amount - (chan s c).estimate

end Sys2Proof.Machine
end

