-- ==== Sys2Proof/Machine/Usage.lean ====
section
/-!
DEFINITION. The Usage Accounting Unit (chapter 2): the waste account, the debits of USAGE reports and of suction runs, and
the application of one report.
-/

namespace Sys2Proof.Machine

/-! ### The waste account (R34 to R39) -/

/-- A waste cartridge is fitted: FITTED, NEAR_FULL or FULL (R36). -/
def WasteState.isFitted : WasteState → Bool
  | .fitted | .nearFull | .full => true
  | .absent | .reading | .fault => false

/-- The data of a fitted waste cartridge (R34). -/
def Waste.fittedData (w : Waste) : Option WasteData := if w.state.isFitted then w.data else none

/-- The state of a fitted cartridge by its estimate in nL and capacity in mL (R37). -/
def wasteLevel (capacity estimate : Nat) : WasteState :=
  if estimate < capacity * 900000 then .fitted
  else if estimate < capacity * 980000 then .nearFull
  else .full

def setWaste (w : Waste) (s : State) : State := { s with uau := { s.uau with waste := w } }

/-- A waste-attributed debit goes to the fitted cartridge's account or to the orphan-waste counter (R36). -/
def wasteDebit (amount : Nat) (s : State) : State :=
  let w := s.uau.waste
  match w.fittedData with
  | some d => setWaste { w with data := some { d with estimate := d.estimate + amount, added := d.added + amount } } s
  | none => { s with uau := { s.uau with orphan := sat Config.u32Max (s.uau.orphan + amount) } }

/-- The event of entering a waste level (R37). -/
def wasteEvent (now : WasteState) (s : State) : State :=
  match now with
  | .nearFull => raise .wasteNearFull 0 none s
  | .full => raise .wasteFull 0 none s
  | .absent | .reading | .fitted | .fault => s

/-- The write-back step of the waste chip (R39). -/
def wasteWriteBack (s : State) : State :=
  let w := s.uau.waste
  match w.fittedData with
  | some d =>
    if Config.writeBackStep ≤ d.added then
      onBus (·.pushWrite .waste) (setWaste { w with data := some { d with added := 0 } } s)
    else s
  | none => s

/-- The test of the thresholds and of the write-back step after waste-attributed debits (R37, R39). -/
def testWaste (s : State) : Run :=
  let w := s.uau.waste
  match w.fittedData with
  | none => Run.done s
  | some d =>
    let now := wasteLevel d.capacity d.estimate
    if now = w.state then Run.done (wasteWriteBack s)
    else (wasteWriteBack (wasteEvent now (setWaste { w with state := now } s)), [.wasteChanged])

/-- The waste presence switch closes (R35). -/
def insertWaste (s : State) : Run :=
  if s.uau.waste.state = .absent then
    (onBus (·.pushRead .waste false) (setWaste { s.uau.waste with state := .reading } s), [.wasteChanged])
  else Run.done s

/-- The read of the waste chip succeeds (R35, R187). -/
def fitWaste (r : Vector Byte 6) (s : State) : Run :=
  let capacity := field r.toList 0 2
  let fill := field r.toList 2 4
  if capacity = 0 then (setWaste { s.uau.waste with state := .fault } s, [.wasteChanged])
  else
    let now := wasteLevel capacity (fill * 1000)
    (wasteEvent now
      (setWaste { state := now, stale := false,
                  data := some { capacity := capacity, fill := fill, estimate := fill * 1000, added := 0 } } s),
     [.wasteChanged])

/-- The read of the waste chip fails (R35). -/
def wasteFault (s : State) : Run := (setWaste { s.uau.waste with state := .fault } s, [.wasteChanged])

/-- The waste presence switch opens (R38). -/
def removeWaste (s : State) : Run :=
  if s.uau.waste.state = .absent then Run.done s
  else
    (raise .wasteRemoved 0 none (onBus (·.removeChip .waste) (setWaste ⟨.absent, none, false⟩ s)), [.wasteChanged])

/-! ### Books (R24, R30, R32) -/

/-- A book with a debit of a USAGE report entered (R30). -/
def Book.addUsage (x : Book) (d : Destination) (amount excess : Nat) : Book :=
  { x with
    total := x.total + amount
    usage := x.usage + amount
    media := match d with
      | .media => x.media + amount
      | .waste => x.media
    waste := match d with
      | .media => x.waste
      | .waste => x.waste + amount
    overdraw := sat Config.u32Max (x.overdraw + excess) }

/-- A book with a suction debit entered (R32). -/
def Book.addSuction (x : Book) (amount excess : Nat) : Book :=
  { x with
    total := x.total + amount
    suction := x.suction + amount
    waste := x.waste + amount
    overdraw := sat Config.u32Max (x.overdraw + excess) }

/-! ### USAGE reports (R26 to R31) -/

/-- A clamped drop count (R27). -/
def clampCount (n : Nat) : Nat := min n Config.dropCountMax

/-- The clamped count of channel `c`, class `k` of a report (R27). -/
def dropCount (body : List Byte) (c : Fin 6) (k : Fin 3) : Nat := clampCount (usageCount body c k)

/-- The clamped counts of a channel's three classes, summed (R31). -/
def dropSum (body : List Byte) (c : Fin 6) : Nat := dropCount body c 0 + dropCount body c 1 + dropCount body c 2

/-- Some count of the report is clamped (R27). -/
def anyClamped (body : List Byte) : Bool :=
  allChannels.any fun c => [0, 1, 2].any fun k => decide (Config.dropCountMax < usageCount body c k)

/-- The drop volume of a channel and class (R27, R170). -/
def dropVolumeOf (q : Params) (c : Fin 6) (k : Fin 3) : Nat := q.dropVolume.get ⟨3 * c.val + k.val, by omega⟩

/-- The raw volume of a channel in units of 0.1 pL (R27). -/
def rawVolume (q : Params) (body : List Byte) (c : Fin 6) : Nat :=
  dropCount body c 0 * dropVolumeOf q c 0 + dropCount body c 1 * dropVolumeOf q c 1
    + dropCount body c 2 * dropVolumeOf q c 2

/-- The temperature factor in per-mille (R28). -/
def tempFactor (slope ref reading : Nat) : Nat :=
  if reading = 255 then 1000
  else
    let t := min reading 99
    (max (850 : Int) (min (1000 + (slope : Int) * ((t : Int) - ref)) 1200)).toNat

/-- The scaled volume of a channel in units of 0.0001 pL (R28, R29). -/
def scaledVolume (q : Params) (body : List Byte) (c : Fin 6) : Nat :=
  rawVolume q body c * tempFactor (q.tempSlope.get c) q.refTemp (usageTemp body (headOf c))

/-- The debit of a channel in nL (R29). -/
def usageDebit (s : State) (body : List Byte) (c : Fin 6) : Nat :=
  (scaledVolume s.params body c + (book s c).residue) / Config.residueUnit

/-- The new residue of a channel (R29). -/
def usageResidue (s : State) (body : List Byte) (c : Fin 6) : Nat :=
  (scaledVolume s.params body c + (book s c).residue) % Config.residueUnit

/-- One channel of a report is applied (R29, R30); the hand-off to the PAU is the caller's (R54). -/
def chargeUsage (body : List Byte) (d : Destination) (c : Fin 6) (s : State) : State :=
  let amount := usageDebit s body c
  let residue := usageResidue s body c
  let excess := debitExcess s c amount
  let s := if amount = 0 then s else debitTank c amount s
  let s := setBook s c { (book s c).addUsage d amount excess with residue := residue }
  match d with
  | .media => s
  | .waste => wasteDebit amount s

/-- Every channel of a report, in channel order (R26). -/
def chargeAll (body : List Byte) (d : Destination) (s : State) : State :=
  allChannels.foldl (fun s c => chargeUsage body d c s) s

/-- The drop count handed to a head is added and its threshold tested (R98). -/
def addDrops (body : List Byte) (h : Fin 3) (s : State) : State :=
  let e := entryOf s h
  let drops := sat Config.u32Max (e.drops + dropSum body (firstChannel h) + dropSum body (secondChannel h))
  let limit := s.params.dropThreshold.get h
  let s := setEntry s h { e with drops := drops }
  if limit ≠ 0 ∧ limit ≤ drops ∧ ¬ e.dropPlaced then
    foldRequest h .light false (OriginSet.of .dropCount) (setEntry s h { entryOf s h with dropPlaced := true })
  else s

/-- A head is fired: its count is set to 0 and its expiry due cleared (R132). -/
def headFired (h : Fin 3) (s : State) : State := setExposure s h { exposure s h with count := 0, due := false }

/-- The report fires head `h` (R31). -/
def firesHead (body : List Byte) (h : Fin 3) : Bool :=
  dropSum body (firstChannel h) != 0 || dropSum body (secondChannel h) != 0

/-- Every drop count of the report is zero (R26). -/
def allZero (body : List Byte) : Bool := allChannels.all fun c => dropSum body c == 0

/-- A drop-count request was folded between two states (R98). -/
def dropsFolded (s s' : State) : Bool := allHeads.any fun h => (entryOf s h).dropPlaced != (entryOf s' h).dropPlaced

/-- The report is taken: the applied count goes up, and the last tag and swath number are its own (R26). -/
def noteReport (body : List Byte) (s : State) : State :=
  { s with uau := { s.uau with lastTag := usageTag body, lastSwath := usageSwath body } }

/-- The report's ink: clamp event, channels, and the PAU's part (R27 to R31, R52 to R54). CLAMPED_USAGE is raised before any
channel is applied, and so before a CHANNEL_STARVED of the same report; R26 and R27 give no moment for it (log entry 46,
DESIGN CHOICE). -/
def reportInk (body : List Byte) (d : Destination) (s : State) : State :=
  let debits : Vector Nat 6 := Vector.ofFn fun c => usageDebit s body c
  let s := if anyClamped body then raise .clampedUsage 0 (some (.swath (usageSwath body))) s else s
  checkOverAll (allChannels.filter fun c => debits.get c != 0)
    (pauReport (usageTag body) d debits (chargeAll body d s))

/-- The report's hand-offs to the CLS and the EXT (R31). -/
def reportService (body : List Byte) (d : Destination) (s : State) : State :=
  let s := match d with
    | .media => allHeads.foldl (fun s h => addDrops body h s) s
    | .waste => s
  allHeads.foldl (fun s h => if firesHead body h then headFired h s else s) s

/-- A report with a destination is applied whole (R26 to R31). A WASTE report's state of the waste is tested after the PAU's
checks; R37 and R54 give no order between the two (log entry 54, DESIGN CHOICE). -/
def applyReport (body : List Byte) (d : Destination) (s : State) : Run :=
  let s := noteReport body s
  if allZero body then Run.done s
  else
    let s₁ := reportInk body d s
    let s₂ := reportService body d s₁
    let acts := supplyActs s s₂ ++ (if dropsFolded s₁ s₂ then [.clsFolded false] else [])
    match d with
    | .media => (s₂, acts)
    | .waste => let r := testWaste s₂; (r.1, acts ++ r.2)

/-- The oldest posted report is taken (R26); a destination that is neither MEDIA nor WASTE is a frame error of kind FIELD
on the Raster Port. -/
def usageStep (s : State) : Run :=
  match s.liu.posted with
  | [] => Run.done s
  | body :: rest =>
    let s := { s with liu := { s.liu with posted := rest }
                      uau := { s.uau with applied := (s.uau.applied + 1) % 4294967296 } }
    match usageDestination body with
    | none => Run.done (countError .raster .field s)
    | some d => applyReport body d s

/-! ### Suction (R32) -/

/-- The suction debit of one channel (R32); the PAU's check is made as the channel is handed (R54). -/
def chargeSuction (revs : Nat) (c : Fin 6) (s : State) : State :=
  let amount := revs * s.params.suctionYield.get c
  if amount = 0 then s
  else
    let excess := debitExcess s c amount
    let s := checkOver c (debitTank c amount s)
    wasteDebit amount (setBook s c ((book s c).addSuction amount excess))

/-- A suction debit of `revs` revolutions for head `h` (R32): the head's first channel, then its second, an order that R32
does not give (log entry 57, DESIGN CHOICE). -/
def suctionDebit (h : Fin 3) (revs : Nat) (s : State) : Run :=
  if revs = 0 then Run.done s
  else
    let s' := chargeSuction revs (secondChannel h) (chargeSuction revs (firstChannel h) s)
    let r := testWaste s'
    (r.1, supplyActs s s' ++ r.2)

end Sys2Proof.Machine
end

