-- ==== Sys2Proof/Machine/Orders.lean ====
section
/-!
DEFINITION. The Order Queue (chapter 5): ids, placements, waiting placements, the ending, removal and return of orders;
and the sample record the DTU keeps for the TAKEN CHECK_FIRE order (R91, R116).
-/

namespace Sys2Proof.Machine

def setOrq (q : Orq) (s : State) : State := { s with orq := q }

/-- The first free id from `n` on; `k` bounds the ids passed over (R79). -/
def freeId (used : List Nat) : Nat → Nat → Nat
  | 0, n => n
  | k + 1, n => if used.contains n then freeId used k ((n + 1) % 256) else n

/-- The ids of the queue. -/
def orderIds (s : State) : List Nat := s.orq.queue.map Order.id

/-- The id the next order to enter is given (R79). Held ids are passed over as the order enters, by the queue as it then
stands, and not as the next id advances after the entry before; R79 reads either way (log entry 58, DESIGN CHOICE). -/
def nextOrderId (s : State) : Nat := freeId (orderIds s) Config.orderDepth s.orq.nextId

/-- The queue has room for one more order (R80). -/
def hasRoom (s : State) : Bool := decide (s.orq.queue.length < Config.orderDepth)

/-- An order enters at the young end as QUEUED (R79, R80). -/
def enterOrder (body : OrderBody) (origin : Origin) (s : State) : State :=
  let id := nextOrderId s
  let s' := setOrq { s.orq with queue := s.orq.queue ++ [⟨id, body, origin, .queued⟩], nextId := (id + 1) % 256 } s
  if s.orq.queue.isEmpty then raise .ordersPending 0 none s' else s'

/-- The origin of a unit's orders (R77). -/
def Placer.origin : Placer → Origin
  | .cls => .cleaning
  | .dtu => .check
  | .fdc => .feed

/-- The unit has a waiting placement (R80). -/
def isWaiting (s : State) (who : Placer) : Bool := s.orq.waiting.any fun w => w.who == who

/-- A unit hands the ORQ a placement (R80). -/
def placeOrder (who : Placer) (body : OrderBody) (s : State) : Run :=
  if isWaiting s who then Run.done s
  else if hasRoom s then (enterOrder body who.origin s, [.entered who (nextOrderId s)])
  else Run.done (setOrq { s.orq with waiting := s.orq.waiting ++ [⟨who, body⟩] } s)

/-- Waiting placements enter while there is room, oldest waiting first (R81). -/
def enterWaitingFrom : List Placement → State → Run
  | [], s => Run.done (setOrq { s.orq with waiting := [] } s)
  | w :: ws, s =>
    if hasRoom s then
      let r := enterWaitingFrom ws (enterOrder w.body w.who.origin s)
      (r.1, .entered w.who (nextOrderId s) :: r.2)
    else Run.done (setOrq { s.orq with waiting := w :: ws } s)

/-- The ORQ enters waiting placements (R81). -/
def enterWaiting (s : State) : Run := enterWaitingFrom s.orq.waiting s

/-- A unit withdraws its waiting placement (R81). -/
def withdraw (who : Placer) (s : State) : State :=
  setOrq { s.orq with waiting := s.orq.waiting.filter fun w => w.who != who } s

/-- An order is an EXPOSURE spit for head `h` (R82). -/
def Order.spitsFor (o : Order) (h : Fin 3) : Bool :=
  o.origin == .exposure && match o.body with
    | .spit h' _ => h' == h
    | _ => false

/-- The EXT places its spit for head `h`; one already present and a full queue both leave the queue as it is (R80, R82,
R134). -/
def placeExposure (h : Fin 3) (s : State) : State :=
  if s.orq.queue.any fun o => o.spitsFor h then s
  else if hasRoom s then enterOrder (.spit h s.params.exposureSpitDrops) .exposure s
  else s

/-- Every QUEUED order of an origin is removed (R88, R89); the places freed go to waiting placements. -/
def removeQueued (origin : Origin) (s : State) : Run :=
  (setOrq { s.orq with queue := s.orq.queue.filter fun o => o.isTaken || o.origin != origin } s, [.enterWaiting])

/-- The TAKEN order, if any; it stands at the head of the queue (R78). -/
def takenOrder (s : State) : Option Order :=
  match s.orq.queue with
  | [] => none
  | o :: _ => if o.isTaken then some o else none

/-- The order is a CHECK_FIRE. -/
def OrderBody.isCheckFire : OrderBody → Bool
  | .checkFire _ _ _ _ => true
  | .spit _ _ | .wipePass _ | .cutPass => false

/-- The FIRE_SYNC edge the parameter names (R91). -/
def edgeOf (q : Params) : Edge := if q.fireEdge = 0 then .rising else .falling

/-- The sample record the DTU begins for a CHECK_FIRE that becomes TAKEN (R91, R116). -/
def beginSample (o : Order) (s : State) : State :=
  if o.body.isCheckFire then { s with dtu := { s.dtu with sample := some ⟨edgeOf s.params, 0, [], []⟩ } } else s

/-- The limit of an order's timer (R84). -/
def orderLimit (q : Params) : OrderBody → Nat
  | .cutPass => q.cutPassTimeout
  | .spit _ _ | .wipePass _ | .checkFire _ _ _ _ => q.orderTimeout

/-- The oldest order becomes TAKEN (R83, R84). -/
def takeOldest (s : State) : State :=
  match s.orq.queue with
  | [] => s
  | o :: os =>
    beginSample o
      (setOrq { s.orq with queue := { o with state := .taken 0 (orderLimit s.params o.body) } :: os } s)

/-- The TAKEN order `o` leaves the queue, ended as `how` says: its origin is told, then the STC, then waiting placements
enter (R85, R86). -/
def endTaken (o : Order) (how : OrderEnd) (s : State) : Run :=
  let sample := if o.body.isCheckFire then s.dtu.sample else none
  let s := setOrq { s.orq with queue := s.orq.queue.tail } s
  ({ s with dtu := { s.dtu with sample := none } }, [.orderEnded o how sample, .takenEnded, .enterWaiting])

/-- The TAKEN order's timer reaches its limit (R86). -/
def orderTimeout (o : Order) (s : State) : Run :=
  endTaken o .timeout
    (raise .orderTimeout 0 (some (.orderId o.id))
      (setOrq { s.orq with timeouts := sat Config.u16Max (s.orq.timeouts + 1), lastTimedOut := some o.id } s))

/-- The TAKEN order returns to QUEUED and its samples are discarded (R90). -/
def returnTaken (s : State) : Run :=
  match s.orq.queue with
  | [] => Run.done s
  | o :: os =>
    if o.isTaken then
      let s := setOrq { s.orq with queue := { o with state := .queued } :: os } s
      ({ s with dtu := { s.dtu with sample := none } }, [.takenEnded, .safePoint])
    else Run.done s

/-- The groups of a CHECK_FIRE, if the TAKEN order is one. -/
def takenGroups (s : State) : Option (Nat × Nat) :=
  match takenOrder s with
  | some o =>
    match o.body with
    | .checkFire _ first last _ => some (first, last)
    | .spit _ _ | .wipePass _ | .cutPass => none
  | none => none

/-- A FIRE_SYNC edge (R91, R116). -/
def strobe (edge : Edge) (s : State) : State :=
  match takenGroups s, s.dtu.sample with
  | some (first, last), some r =>
    if edge = r.edge then
      let g := first + r.strobes
      let scheduled := if g ≤ last then r.scheduled ++ [g] else r.scheduled
      { s with dtu := { s.dtu with sample := some { r with strobes := r.strobes + 1, scheduled := scheduled } } }
    else s
  | _, _ => s

/-- The instant of the oldest scheduled sample comes: the beam is read (R116). -/
def takeSample (interrupted : Bool) (s : State) : State :=
  match s.dtu.sample with
  | none => s
  | some r =>
    match r.scheduled with
    | [] => s
    | g :: gs =>
      { s with dtu := { s.dtu with
          sample := some { r with scheduled := gs, detected := if interrupted then r.detected ++ [g] else r.detected } } }

end Sys2Proof.Machine
end

