-- ==== Sys2Proof/Machine/Station.lean ====
section
/-!
DEFINITION. The Station Controller (chapter 4) and the Exposure Timer Block (chapter 8): motion commands, pump and
selector, capping, uncapping and homing, grants, claims, the arbiter, sessions, faults, and the acts of the EXT.
-/

namespace Sys2Proof.Machine

def setStc (x : Stc) (s : State) : State := { s with stc := x }

/-- One run after another: the consequences of the first stand before those of the second. -/
def Run.andThen (r : Run) (f : State → Run) : Run := let r' := f r.1; (r'.1, r.2 ++ r'.2)

/-- A run with consequences added at its end. -/
def Run.plus (r : Run) (acts : List Act) : Run := (r.1, r.2 ++ acts)

/-! ### Exposure (R130 to R135) -/

/-- The recorded sled position is UP (R57). -/
def sledIsUp (s : State) : Bool := s.stc.sled.motion.isNone && s.stc.sled.reached == some .up

/-- The exposure timers count (R131, R139). -/
def exposureCounts (s : State) : Bool := !sledIsUp s && s.stc.state != .servicing && s.rsc.power == .run

/-- Every head's count is set to 0 and its flags cleared (R132, capping). -/
def resetExposure (s : State) : State := { s with ext := Vector.replicate 3 ⟨0, false, false⟩ }

/-- EXPOSED is raised for a head at most once in an uncapped period (R135). -/
def raiseExposed (h : Fin 3) (s : State) : State :=
  let x := exposure s h
  if x.raised then s else raise .exposed (one h.val) none (setExposure s h { x with raised := true })

/-- A head with expiry due in GRANTED, or that expires there: the count restarts and a spit is placed (R133 to R135). -/
def exposureSpit (h : Fin 3) (s : State) : State :=
  placeExposure h (setExposure s h { exposure s h with count := 0, due := false })

/-- The EXT acts on the heads with expiry due as the state the station has entered allows (R135). Several heads are taken
in head order, which settles the ids and the queue order of their spits in GRANTED; R135 names no order (log entry 49,
DESIGN CHOICE). -/
def extEntry (s : State) : Run :=
  let due := allHeads.filter fun h => (exposure s h).due
  match s.stc.state with
  | .granted => Run.done (due.foldl (fun s h => exposureSpit h s) s)
  | .opened =>
    if due.isEmpty then Run.done s
    else (due.foldl (fun s h => setExposure s h { exposure s h with count := 0, due := false }) s, [.askCapping])
  | .unparked | .fault => Run.done (due.foldl (fun s h => raiseExposed h s) s)
  | .homing | .capped | .uncapping | .capping | .servicing => Run.done s

/-- Head `h`'s count has reached its limit while it counts (R131 to R133). -/
def expiryReached (s : State) (h : Fin 3) : Bool :=
  exposureCounts s && !(exposure s h).due && decide (s.params.exposureLimit.get h ≤ (exposure s h).count)

/-- Head `h`'s timer expires (R133). A count held with expiry due is held at the limit. -/
def exposureExpires (h : Fin 3) (s : State) : Run :=
  let x := exposure s h
  let held : Exposure := { x with count := s.params.exposureLimit.get h, due := true }
  match s.stc.state with
  | .granted => Run.done (exposureSpit h s)
  | .opened => (setExposure s h { x with count := 0 }, [.askCapping])
  | .unparked | .fault => Run.done (raiseExposed h (setExposure s h held))
  | .uncapping | .capping | .homing => Run.done (setExposure s h held)
  | .capped | .servicing => Run.done s

/-! ### Motion, selector and pump (R58, R59) -/

/-- The raw reading of a sled end sensor. -/
def sledSensor (s : State) : SledEnd → Bool
  | .down => s.pins.sledDown
  | .up => s.pins.sledUp

/-- The raw reading of a wiper end sensor. -/
def wiperSensor (s : State) : WiperEnd → Bool
  | .retracted => s.pins.wiperRetracted
  | .raised => s.pins.wiperRaised

/-- A motion command to a part: it waits while a motion is in progress, completes at once if the end sensor already reads
true, and starts the motor otherwise (R58). The second result says it completed. A second command that comes while one waits
takes its place; R58 speaks of one (log entry 48, DESIGN CHOICE). -/
def Moved.command {ε : Type} (m : Moved ε) (e : ε) (sensor : Bool) : Moved ε × Bool :=
  if m.motion.isSome then ({ m with queued := some e }, false)
  else if sensor then ({ m with reached := some e }, true)
  else ({ m with motion := some (e, 0) }, false)

/-- The motion of a part completes (R58). -/
def Moved.arrive {ε : Type} (e : ε) : Moved ε := { reached := some e, motion := none, queued := none }

/-- The motors of a part are de-energized; a part whose motion timed out has position UNKNOWN (R61). -/
def Moved.halt {ε : Type} (m : Moved ε) (timedOut : Bool) : Moved ε :=
  { reached := if timedOut then none else m.reached, motion := none, queued := none }

/-- A sled command; with the pump running it is not carried out (R58). -/
def sledCommand (e : SledEnd) (s : State) : Run :=
  if s.stc.pump.running then Run.done s
  else
    let r := s.stc.sled.command e (sledSensor s e)
    (setStc { s.stc with sled := r.1 } s, if r.2 then [.sledDone] else [])

/-- A sled command of the session holder, carried out only in SERVICING (R58). -/
def holderSled (e : SledEnd) (s : State) : Run := if s.stc.state = .servicing then sledCommand e s else Run.done s

/-- A wiper command (R58). -/
def wiperCommand (e : WiperEnd) (s : State) : Run :=
  let r := s.stc.wiper.command e (wiperSensor s e)
  (setStc { s.stc with wiper := r.1 } s, if r.2 then [.wiperDone] else [])

/-- A wiper command of the session holder, carried out only in SERVICING (R58). -/
def holderWiper (e : WiperEnd) (s : State) : Run := if s.stc.state = .servicing then wiperCommand e s else Run.done s

/-- The end sensors of the sled as they stand at end `e`. -/
def sledPins (e : SledEnd) (s : State) : State :=
  { s with pins := { s.pins with sledDown := decide (e = .down), sledUp := decide (e = .up) } }

/-- The end sensors of the wiper as they stand at end `e`. -/
def wiperPins (e : WiperEnd) (s : State) : State :=
  { s with pins := { s.pins with wiperRetracted := decide (e = .retracted), wiperRaised := decide (e = .raised) } }

/-- The sled motion in progress completes, and a command that waited is given (R58). -/
def sledArrives (s : State) : Run :=
  match s.stc.sled.motion with
  | none => Run.done s
  | some (e, _) =>
    (setStc { s.stc with sled := Moved.arrive e } s,
      .sledDone :: match s.stc.sled.queued with
        | some e' => [.sledCommand e']
        | none => [])

/-- The wiper motion in progress completes, and a command that waited is given (R58). -/
def wiperArrives (s : State) : Run :=
  match s.stc.wiper.motion with
  | none => Run.done s
  | some (e, _) =>
    (setStc { s.stc with wiper := Moved.arrive e } s,
      .wiperDone :: match s.stc.wiper.queued with
        | some e' => [.wiperCommand e']
        | none => [])

/-- The selector joins the pump to a head, only while the pump is stopped (R59). -/
def joinSelector (h : Fin 3) (s : State) : State :=
  if s.stc.pump.running then s else setStc { s.stc with selector := some h } s

/-- The selector is released, only while the pump is stopped (R59). -/
def releaseSelector (s : State) : State :=
  if s.stc.pump.running then s else setStc { s.stc with selector := none } s

/-- The pump may start (R59): the CLS, the one unit that runs it, holds the session, the sled is UP and the selector is
joined. -/
def pumpReady (s : State) : Bool :=
  s.stc.state == .servicing && s.stc.holder == some .cls && !s.stc.handingBack && sledIsUp s && s.stc.selector.isSome

/-- The pump is started for `n` revolutions (R59). -/
def startPump (n : Nat) (s : State) : State :=
  if pumpReady s then setStc { s.stc with pump := ⟨true, n, 0⟩, stall := some 0 } s else s

/-- The pump is stopped at once; the revolutions counted stay (R59). -/
def stopPump (s : State) : State :=
  setStc { s.stc with pump := { s.stc.pump with running := false }, stall := none } s

/-- A revolution is reported (R59). -/
def countRevolution (s : State) : Run :=
  if s.stc.pump.running then
    let n := s.stc.pump.revs + 1
    let s := setStc { s.stc with pump := { s.stc.pump with revs := n }, stall := some 0 } s
    if s.stc.pump.target ≤ n then (stopPump s, [.pumpDone]) else Run.done s
  else Run.done s

/-! ### States and the arbiter (R60 to R74) -/

/-- Homing begins (R60). -/
def beginHoming (s : State) : Run :=
  wiperCommand .retracted (releaseSelector (stopPump (setStc { s.stc with state := .homing } s)))

/-- The station goes to UNPARKED (R60, R67, R68, R74). -/
def enterUnparked (s : State) : Run :=
  (setStc { s.stc with state := .unparked, park := some 0, parkRaised := false, idle := none } s, [.extEntry])

/-- The station goes to OPEN, which is a free moment; `sessionEnd` marks the end of a session (R67, R68, R73, R74). -/
def enterOpen (sessionEnd : Bool) (s : State) : Run :=
  (setStc { s.stc with state := .opened, park := none, idle := some 0 } s, [.freeMoment sessionEnd, .extEntry])

/-- The station goes to CAPPED: queued EXPOSURE orders are removed, the exposure timers reset, and the entry is a free
moment (R63, R74, R88). -/
def enterCapped (s : State) : Run :=
  let r := removeQueued .exposure (resetExposure (setStc { s.stc with state := .capped } s))
  r.plus [.freeMoment false]

/-- Capping begins (R63). -/
def beginCapping (s : State) : Run :=
  sledCommand .up (setStc { s.stc with state := .capping, cappingDue := false, idle := none } s)

/-- Capping is asked for with the station OPEN (R63). -/
def askCapping (s : State) : Run :=
  if s.stc.state = .opened then
    if anyTaken s ∨ s.stc.entry = .ready then Run.done (setStc { s.stc with cappingDue := true } s)
    else beginCapping s
  else Run.done s

/-- Uncapping begins (R64). -/
def beginUncapping (s : State) : Run := sledCommand .down (setStc { s.stc with state := .uncapping } s)

/-- The zone is handed to a unit as a session (R74). -/
def beginSession (who : Claimant) (s : State) : Run :=
  (setStc { s.stc with
      claims := s.stc.claims.filter fun c => c.who != who
      holder := some who, handingBack := false, state := .servicing, idle := none, cappingDue := false } s,
    [.sessionBegun who])

/-- The arbiter chooses print (R70). -/
def choosePrint (s : State) : Run :=
  if s.stc.state = .opened then Run.done (setStc { s.stc with entry := .ready, hold := some 0, idle := none } s)
  else beginUncapping s

/-- The arbiter may act: the station is OPEN or CAPPED, no order is TAKEN and the entry is not READY (R73). -/
def arbiterActs (s : State) : Bool :=
  (s.stc.state == .opened || s.stc.state == .capped) && !anyTaken s && s.stc.entry != .ready

/-- A free moment (R73). -/
def freeMoment (sessionEnd : Bool) (s : State) : Run :=
  if arbiterActs s then
    match s.stc.claims.find? fun c => c.urgent with
    | some c => beginSession c.who s
    | none =>
      if s.stc.entry = .waiting then choosePrint s
      else match s.stc.claims with
        | c :: _ => beginSession c.who s
        | [] =>
          if s.stc.state = .opened ∧ (s.stc.cappingDue ∨ sessionEnd) then beginCapping s else Run.done s
  else Run.done s

/-- The zone is granted (R65, R70): PAUSE_FOR_SERVICE if an urgent claim waits (R66). -/
def grantZone (s : State) : Run :=
  let s := setStc { s.stc with
    state := .granted, entry := .none, hold := none, idle := none, park := none, cappingDue := false } s
  (if s.stc.claims.any fun c => c.urgent then raise .pauseForService 0 none s else s, [.extEntry])

/-- ZONE_REQUEST by station state, with its answer (R65). A repeat in CAPPED while the entry is WAITING begins uncapping, as
R65's table has it, though the sentence below the table says that a repeat changes nothing (log entry 44, DESIGN
CHOICE). -/
def zoneRequest (s : State) : Result × Run :=
  match s.stc.state with
  | .opened | .unparked => (.granted, grantZone s)
  | .granted => (.granted, Run.done s)
  | .capped => (.pending, beginUncapping (setStc { s.stc with entry := .waiting } s))
  | .uncapping | .capping | .servicing => (.pending, Run.done (setStc { s.stc with entry := .waiting } s))
  | .homing | .fault => (.stationFault, Run.done s)

/-- The release of a grant (R67). -/
def releaseZone (s : State) : Run := if s.stc.home then enterOpen false s else enterUnparked s

/-- What a Raster Port link reset does to the zone (R76). -/
def resetZone (s : State) : Run :=
  let wasReady := decide (s.stc.entry = .ready)
  let s := setStc { s.stc with
    entry := .none, hold := none, idle := if wasReady then some 0 else s.stc.idle } s
  if s.stc.state = .granted then releaseZone s
  else if wasReady then (s, [.freeMoment false])
  else Run.done s

/-- The home sensor changes to `reading` (R68). -/
def homeTo (reading : Bool) (s : State) : Run :=
  let s := { s with pins := { s.pins with home := reading } }
  if reading = s.stc.home then Run.done s
  else
    let s := setStc { s.stc with home := reading } s
    match s.stc.state with
    | .unparked => if reading then enterOpen false s else Run.done s
    | .opened =>
      if reading then Run.done s
      else
        enterUnparked
          (setStc { s.stc with entry := if s.stc.entry = .ready then .waiting else s.stc.entry, hold := none } s)
    | .homing | .capped | .uncapping | .granted | .capping | .servicing | .fault => Run.done s

/-- A timer has reached its limit. -/
def reached (t : Option Nat) (limit : Nat) : Bool :=
  match t with
  | some n => decide (limit ≤ n)
  | none => false

/-- The park timer reaches the park timeout (R68). -/
def parkExpires (s : State) : State :=
  raise .parkTimeout 0 none (setStc { s.stc with park := none, parkRaised := true } s)

/-- The idle-cap timer reaches the idle-cap time (R69). -/
def idleExpires (s : State) : Run := askCapping (setStc { s.stc with idle := none } s)

/-- The hold timer reaches the grant hold time (R71). -/
def holdExpires (s : State) : Run :=
  (raise .grantDiscarded 0 none (setStc { s.stc with entry := .none, hold := none, idle := some 0 } s),
    [.freeMoment false])

/-! ### Claims (R66, R72) -/

/-- What a claim placed or marked urgent brings (R66, R72, R73); `before` says the list held an urgent claim before. -/
def claimActs (urgent before : Bool) (s : State) : Run :=
  let s' :=
    if urgent ∧ ¬ before ∧ (s.stc.state = .granted ∨ s.stc.entry = .ready) then raise .pauseForService 0 none s else s
  (s', if s.stc.state = .opened ∨ s.stc.state = .capped then [.freeMoment false] else [])

/-- A service claim is placed (R72). -/
def placeClaim (who : Claimant) (urgent : Bool) (s : State) : Run :=
  if s.stc.claims.any fun c => c.who == who then Run.done s
  else
    claimActs urgent (s.stc.claims.any fun c => c.urgent)
      (setStc { s.stc with claims := s.stc.claims ++ [⟨who, urgent⟩] } s)

/-- A claim in the list is marked urgent if it was not (R72, R101). -/
def markUrgent (who : Claimant) (s : State) : Run :=
  if s.stc.claims.any fun c => c.who == who && !c.urgent then
    claimActs true (s.stc.claims.any fun c => c.urgent)
      (setStc { s.stc with
        claims := s.stc.claims.map fun c => if c.who = who then { c with urgent := true } else c } s)
  else Run.done s

/-- A claim is withdrawn (R72). -/
def withdrawClaim (who : Claimant) (s : State) : State :=
  setStc { s.stc with claims := s.stc.claims.filter fun c => c.who != who } s

/-! ### The end of a session, and faults (R61, R74) -/

/-- The holder holds a session it has not handed back (log entry 12). -/
def holdsSession (s : State) (who : Claimant) : Bool := s.stc.holder == some who && !s.stc.handingBack

/-- The holder hands the zone back: from here on the STC waits for motions only (R74, log entry 12). -/
def startHandBack (who : Claimant) (s : State) : State :=
  if s.stc.holder = some who then setStc { s.stc with handingBack := true } s else s

/-- The recorded sled position is DOWN. -/
def sledIsDown (s : State) : Bool := s.stc.sled.motion.isNone && s.stc.sled.reached == some .down

/-- The recorded wiper position is RETRACTED. -/
def wiperIsRetracted (s : State) : Bool := s.stc.wiper.motion.isNone && s.stc.wiper.reached == some .retracted

/-- The session ends: the holder becomes none (R74). -/
def endSession (s : State) : State := setStc { s.stc with holder := none, handingBack := false } s

/-- The handback goes on: motions are waited for and the wiper is retracted; then the station is set from the sled and the
home sensor, a raised sled being lowered first if the carriage is out of park (R74). -/
def handBack (s : State) : Run :=
  if s.stc.state = .servicing ∧ s.stc.handingBack then
    if s.stc.sled.motion.isSome ∨ s.stc.wiper.motion.isSome then Run.done s
    else if ¬ wiperIsRetracted s then wiperCommand .retracted s
    else if s.stc.home ∧ sledIsUp s then enterCapped (endSession s)
    else if sledIsDown s then (if s.stc.home then enterOpen true (endSession s) else enterUnparked (endSession s))
    else sledCommand .down s
  else Run.done s

/-- Entry to FAULT, the STC's part: all that R61 lists but the telling of the holder. R61 has all of it happen together; the
model raises STATION_FAULT, then GRANT_DISCARDED, then what the holder raises (log entry 47, DESIGN CHOICE). -/
def faultStation (cause : StationCause) (s : State) : State :=
  let pending := decide (s.stc.entry ≠ .none)
  let s := setStc { s.stc with
      state := .fault
      sled := s.stc.sled.halt (decide (cause = .sled))
      wiper := s.stc.wiper.halt (decide (cause = .wiper))
      pump := { s.stc.pump with running := false }
      stall := none, selector := none, lastFault := some cause, holder := none, handingBack := false
      entry := .none, hold := none, idle := none, park := none, cappingDue := false } s
  let s := raise .stationFault 0 (some (.stationCause cause)) s
  if pending then raise .grantDiscarded 0 none s else s

/-- A sled motion has completed in HOMING, CAPPING or UNCAPPING (R60, R63, R64). -/
def stcSledDone (s : State) : Run :=
  match s.stc.state with
  | .homing =>
    if sledIsDown s && wiperIsRetracted s then (if s.stc.home then beginCapping s else enterUnparked s) else Run.done s
  | .capping => if sledIsUp s then enterCapped s else Run.done s
  | .uncapping => if sledIsDown s then enterOpen false s else Run.done s
  | .capped | .opened | .granted | .unparked | .servicing | .fault => Run.done s

/-- A wiper motion has completed in HOMING (R60). -/
def stcWiperDone (s : State) : Run :=
  match s.stc.state with
  | .homing => if wiperIsRetracted s then sledCommand .down s else Run.done s
  | .capping | .uncapping | .capped | .opened | .granted | .unparked | .servicing | .fault => Run.done s

end Sys2Proof.Machine
end

