-- ==== Sys2Proof/Machine/Detector.lean ====
section
/-!
DEFINITION. The Detector Unit (chapter 7): own sweeps and checks, the checks run for the CLS, the Health Table.
-/

namespace Sys2Proof.Machine

def setDtu (x : Dtu) (s : State) : State := { s with dtu := x }

/-! ### Captured values (R119, R120) -/

/-- The parameters a task captures as it begins to run (R119). -/
def capture (q : Params) : Captured :=
  { start := q.sweepStart, stop := q.sweepEnd, step := q.sweepStep, minWidth := q.minWidth, refGroup := q.refGroup,
    groupCount := q.groupCount, passLimit := q.passLimit, offsets := q.sweepOffset }

/-- The effective step (R120). -/
def Captured.effStep (k : Captured) : Nat := if k.step = 0 then 1 else k.step

/-- The effective end (R120). -/
def Captured.effEnd (k : Captured) : Nat := max k.start k.stop

/-- The sweep group (R120). -/
def Captured.sweepGroup (k : Captured) : Nat := if k.refGroup < k.groupCount then k.refGroup else k.groupCount - 1

/-- The step at `delay` is the last of the sequence (R120). -/
def Captured.isLast (k : Captured) (delay : Nat) : Bool := decide (k.effEnd < delay + k.effStep)

/-- The captured values of the present task. -/
def capturedOf (s : State) (t : Task) : Captured :=
  match t.captured with
  | some k => k
  | none => capture s.params

/-! ### Asking for a task and beginning it (R118, R119) -/

/-- A request for a task is answered BUSY_SEQUENCE (R118). -/
def dtuBusy (s : State) : Bool := s.cls.stage.running || s.dtu.machine != .idle || s.dtu.task.isSome

/-- An own task is created and a claim placed for it (R118). -/
def createTask (kind : TaskKind) (channels : List (Fin 6)) (port : Port) (s : State) : Run :=
  placeClaim .dtu false
    (setDtu { s.dtu with
      task := some { kind := kind, channels := channels, port := port, phase := .waitZone, rows := channels, delay := 0,
                     begin_ := none, results := [], captured := none } } s)

/-- The sled is DOWN: the machine begins on the first row (R119). -/
def dtuReady (s : State) : Run :=
  match s.dtu.task with
  | none => Run.done s
  | some t =>
    let machine := match t.kind with
      | .sweep => DtuState.sweeping
      | .check => DtuState.checking
    (setDtu { s.dtu with machine := machine, holder := some .dtu } s, [.dtuPlace])

/-- The DTU's session has begun (R119). -/
def dtuSession (s : State) : Run :=
  match s.dtu.task with
  | none => Run.done s
  | some t =>
    let k := capture s.params
    let s := setDtu { s.dtu with task := some { t with phase := .running, captured := some k, delay := k.start } } s
    if sledIsDown s then dtuReady s else (s, [.sledCommand .down])

/-- The sled has reached an end for the DTU's session (R119). -/
def dtuSledDone (s : State) : Run := if s.dtu.machine = .idle ∧ sledIsDown s then dtuReady s else Run.done s

/-! ### Orders of the DTU (R120, R123) -/

/-- The order of the present step or row; none when no row is left. -/
def dtuOrder (s : State) : Option OrderBody :=
  match s.dtu.clsCheck, s.dtu.task with
  | some k, _ =>
    match k.rows with
    | c :: _ => some (.checkFire c 0 (k.groupCount - 1) (health s c).delay)
    | [] => none
  | none, some t =>
    let k := capturedOf s t
    match t.rows, t.kind with
    | c :: _, .sweep => some (.checkFire c k.sweepGroup k.sweepGroup t.delay)
    | c :: _, .check => some (.checkFire c 0 (k.groupCount - 1) (health s c).delay)
    | [], _ => none
  | none, none => none

/-- The DTU places the order of the present step or row (R120, R123). -/
def dtuPlace (s : State) : Run :=
  if s.dtu.machine = .idle then Run.done s
  else match dtuOrder s with
    | some body => placeOrder .dtu body s
    | none => (s, [.dtuFinish])

/-- The DTU's order has entered the queue (R120). -/
def dtuEntered (id : Nat) (s : State) : State := setDtu { s.dtu with outstanding := some id } s

/-- An outstanding order is left to end: its id moves to the abandoned orders, and a waiting placement is withdrawn
(R125, R127). -/
def dtuAbandon (s : State) : State :=
  let abandoned := match s.dtu.outstanding with
    | some id => s.dtu.abandoned ++ [id]
    | none => s.dtu.abandoned
  withdraw .dtu (setDtu { s.dtu with outstanding := none, abandoned := abandoned } s)

/-! ### Recording (R121, R123, R128) -/

/-- A swept row's result with its BEGIN and END (R121). -/
def sweepResultOf (k : Captured) (width : Nat) (found : Bool) : SweepResult :=
  if width < k.minWidth then .narrow else if found then .ok else .clipped

/-- The calibrated delay of a swept row (R121). -/
def sweepDelay (k : Captured) (c : Fin 6) (b width : Nat) : Nat :=
  (max (0 : Int) (min (((b + width / 2 : Nat) : Int) + k.offsets.get c) 4095)).toNat

/-- A finished row of a sweep: its record and result, from the BEGIN and END found (R121). -/
def Health.swept (x : Health) (k : Captured) (c : Fin 6) (b e : Option Nat) : Health :=
  match b with
  | none => { x with sweep := .noSignal }
  | some b =>
    let e' := e.getD k.effEnd
    let width := e' - b
    { x with sweep := sweepResultOf k width e.isSome, fields := some ⟨b, e', width⟩, delay := sweepDelay k c b width }

/-- The groups of 0 to G − 1 not in the detected set (R123). -/
def failedGroups (g : Nat) (detected : List Nat) : List Nat := (List.range g).filter fun n => !detected.contains n

/-- A checked row's record (R123). -/
def Health.checked (x : Health) (g limit : Nat) (detected : List Nat) (now : Nat) : Health :=
  let failed := failedGroups g detected
  let pass := decide (failed.length ≤ limit)
  { x with
    groupCount := g, failed := failed
    check := if pass then .pass else .fail
    degraded := x.degraded && !pass
    time := some now }

/-- A row is recorded; HEALTH_CHANGED if its failed set differs (R123). -/
def recordRow (c : Fin 6) (g limit : Nat) (detected : List Nat) (s : State) : State :=
  let x := health s c
  let x' := x.checked g limit detected s.timeBase
  let s := setHealth s c x'
  if x'.failed ≠ x.failed ∨ x'.groupCount ≠ x.groupCount then raise .healthChanged (one c.val) none s else s

/-- A row is marked degraded (R128). -/
def markDegraded (c : Fin 6) (s : State) : State := setHealth s c { health s c with degraded := true }

/-! ### Sweep requests and the end of a task (R99, R122, R124, R126, R127) -/

/-- The level a sweep result calls for (R99). -/
def sweepLevel : SweepResult → Option Level
  | .narrow => some .light
  | .noSignal => some .normal
  | .none | .ok | .clipped => none

/-- The requests of the rows a sweep has finished are folded (R122). -/
def foldSweep (results : List (Fin 6 × SweepResult)) (s : State) : State :=
  results.foldl (fun s r =>
    match sweepLevel r.2 with
    | some l => foldRequest (headOf r.1) l false (OriginSet.of .sweep) s
    | none => s) s

/-- The task is removed: requests folded, CHECK_DONE raised, the machine IDLE (R122, R124, R126, R127). The check holder
becomes none also where a task is aborted, which R126 and R127 do not say (log entry 28, DEDUCED). -/
def closeTask (t : Task) (cause : Option CheckCause) (s : State) : Run :=
  let s := foldSweep t.results s
  let s := raise .checkDone (several (t.channels.map Fin.val)) (some (.check t.kind cause)) s
  (setDtu { s.dtu with task := none, machine := .idle, holder := none } s,
    if t.results.any fun r => (sweepLevel r.2).isSome then [.clsFolded false] else [])

/-- The task or check has finished its last row (R122, R124, R125). -/
def dtuFinish (s : State) : Run :=
  match s.dtu.clsCheck, s.dtu.task with
  | some k, _ =>
    (setDtu { s.dtu with clsCheck := none, machine := .idle, holder := none } s, [.checkResults k.results])
  | none, some t => (closeTask t none (startHandBack .dtu s)).plus [.handBack]
  | none, none => Run.done s

/-- A CHECK_FIRE of the DTU failed (R126); the check holder becomes none (log entry 28, DEDUCED). -/
def dtuOrderFailed (s : State) : Run :=
  match s.dtu.clsCheck, s.dtu.task with
  | some _, _ => (setDtu { s.dtu with clsCheck := none, machine := .idle, holder := none } s, [.checkFailed])
  | none, some t => (closeTask t (some .orderFailed) (startHandBack .dtu s)).plus [.handBack]
  | none, none => Run.done s

/-- The DTU's own session ended with cause STATION_FAULT (R127). -/
def dtuFault (s : State) : Run :=
  match s.dtu.task with
  | some t => if t.phase = .running then closeTask t (some .stationFault) (dtuAbandon s) else Run.done s
  | none => Run.done s

/-! ### A check for the CLS (R125) -/

/-- The CLS hands the rows of a cycle's sucked heads (R108, R125). -/
def dtuCheckFor (rows : List (Fin 6)) (s : State) : Run :=
  (setDtu { s.dtu with
      machine := .checking, holder := some .cls
      clsCheck := some ⟨rows, s.params.groupCount, s.params.passLimit, []⟩ } s, [.dtuPlace])

/-- The CLS tells the DTU to end its check (R108, R125). -/
def dtuEndCheck (s : State) : State :=
  if s.dtu.clsCheck.isSome then
    dtuAbandon (setDtu { s.dtu with clsCheck := none, machine := .idle, holder := none } s)
  else s

/-! ### An order of the DTU has ended (R120, R123, R126) -/

/-- The row of a sweep is finished with what its steps found (R121). -/
def finishRow (t : Task) (k : Captured) (c : Fin 6) (b e : Option Nat) (s : State) : Run :=
  let x := (health s c).swept k c b e
  let rows := t.rows.tail
  (setDtu { s.dtu with
      health := vset s.dtu.health c x
      task := some { t with rows := rows, delay := k.start, begin_ := none, results := t.results ++ [(c, x.sweep)] } } s,
    [if rows.isEmpty then .dtuFinish else .dtuPlace])

/-- The sweep goes on to the next step (R120). -/
def nextStep (t : Task) (k : Captured) (b : Option Nat) (s : State) : Run :=
  (setDtu { s.dtu with task := some { t with delay := t.delay + k.effStep, begin_ := b } } s, [.dtuPlace])

/-- A step's outcome is read (R120). -/
def sweepStepDone (t : Task) (c : Fin 6) (detected : Bool) (s : State) : Run :=
  let k := capturedOf s t
  match t.begin_, detected with
  | none, true =>
    if k.isLast t.delay then finishRow t k c (some t.delay) none s else nextStep t k (some t.delay) s
  | some b, false => finishRow t k c (some b) (some t.delay) s
  | b, _ => if k.isLast t.delay then finishRow t k c b none s else nextStep t k b s

/-- The sample of an order as the DTU reads it. -/
def detectedOf (sample : Option Sample) : List Nat :=
  match sample with
  | some r => r.detected
  | none => []

/-- An order of the present step or row was carried out (R120, R123, R125). -/
def dtuOrderDone (sample : Option Sample) (s : State) : Run :=
  let detected := detectedOf sample
  match s.dtu.clsCheck, s.dtu.task with
  | some k, _ =>
    match k.rows with
    | [] => Run.done s
    | c :: rows =>
      let was := (health s c).degraded
      let s := recordRow c k.groupCount k.passLimit detected s
      let r : RowResult := ⟨c, decide ((health s c).check = .pass), was⟩
      (setDtu { s.dtu with clsCheck := some { k with rows := rows, results := k.results ++ [r] } } s,
        [if rows.isEmpty then .dtuFinish else .dtuPlace])
  | none, some t =>
    match t.rows, t.kind with
    | [], _ => Run.done s
    | c :: _, .sweep => sweepStepDone t c (detected.contains (capturedOf s t).sweepGroup) s
    | c :: rows, .check =>
      let k := capturedOf s t
      let s := recordRow c k.groupCount k.passLimit detected s
      (setDtu { s.dtu with task := some { t with rows := rows } } s,
        [if rows.isEmpty then .dtuFinish else .dtuPlace])
  | none, none => Run.done s

/-- The DTU is told that an order of origin CHECK has ended (R87, R126). -/
def dtuOrderEnded (o : Order) (how : OrderEnd) (sample : Option Sample) (s : State) : Run :=
  if s.dtu.abandoned.contains o.id then
    Run.done (setDtu { s.dtu with abandoned := s.dtu.abandoned.filter fun n => n != o.id } s)
  else if s.dtu.outstanding = some o.id then
    let s := setDtu { s.dtu with outstanding := none } s
    if how.carriedOut then dtuOrderDone sample s else dtuOrderFailed s
  else Run.done s

end Sys2Proof.Machine
end

