-- ==== Sys2Proof/Machine/Cleaning.lean ====
section
/-!
DEFINITION. The Cleaning Sequencer (chapter 6): requests and claims, the formation of a cycle, its stages, outcomes and
escalation, aborts and holds, and the cancel.
-/

namespace Sys2Proof.Machine

def setCls (x : Cls) (s : State) : State := { s with cls := x }

/-! ### Levels, volumes and heads (R93, R100) -/

/-- The suction revolutions of a level (R93). -/
def levelRevs (q : Params) : Level → Nat
  | .spitOnly => 0
  | .light => q.revsLight
  | .normal => q.revsNormal
  | .strong => q.revsStrong

/-- A head at LIGHT or above is a sucked head (R93). -/
def CycleHead.sucked (x : CycleHead) : Bool := x.level != .spitOnly

/-- The level one higher (R109). -/
def Level.next : Level → Level
  | .spitOnly => .light
  | .light => .normal
  | .normal => .strong
  | .strong => .strong

/-- The head as taken from its table entry, with its planned volumes (R93, R102). -/
def cycleHead (s : State) (h : Fin 3) (l : Level) : CycleHead :=
  let e := entryOf s h
  let revs := levelRevs s.params l
  { head := h, level := l, urgent := e.urgent, origins := e.origins, target := revs, done := 0,
    plannedFirst := revs * s.params.suctionYield.get (firstChannel h)
    plannedSecond := revs * s.params.suctionYield.get (secondChannel h)
    outcome := none }

/-- The heads whose entries are pending, in head order, each at its pending level (R102). -/
def pendingHeads (s : State) : List CycleHead :=
  allHeads.filterMap fun h => (entryOf s h).level.map fun l => cycleHead s h l

/-- The planned suction of a cycle (R93). -/
def plannedTotal (hs : List CycleHead) : Nat := (hs.map fun x => x.plannedFirst + x.plannedSecond).sum

/-- The heads of a list of cycle heads as a subject set. -/
def headSubjects (hs : List (Fin 3)) : BitVec 16 := several (hs.map Fin.val)

/-- A cycle's heads as the last cycle records them (R100). -/
def lastHeads (hs : List CycleHead) : List LastHead := hs.map fun x => ⟨x.head, x.level, x.done, x.outcome⟩

/-- The cycle holds the session and runs with no abort pending. -/
def cycleRuns (s : State) : Bool := s.cls.stage.running && s.cls.abort.isNone

/-! ### Claims (R101) -/

/-- Some pending entry is urgent (R101). -/
def anyUrgent (s : State) : Bool := allHeads.any fun h => (entryOf s h).level.isSome && (entryOf s h).urgent

/-- The CLS places a claim if R101 calls for one. -/
def clsClaim (s : State) : Run :=
  if anyPending s && s.cls.stage == .none && !holdsSession s .cls && s.cls.hold.isNone then
    placeClaim .cls (anyUrgent s) (setCls { s.cls with stage := .waitZone } s)
  else Run.done s

/-- Requests have been folded into the table: the CLS acts on its claim (R95, R101). -/
def clsFolded (urgent : Bool) (s : State) : Run :=
  if s.cls.stage = .waitZone then (if urgent then markUrgent .cls s else Run.done s) else clsClaim s

/-- The cycle has ended and the CLS hands the zone back, its next claim placed with the handback (R101, R110, R111). -/
def clsHandBack (s : State) : Run :=
  let idle : Cls := { s.cls with stage := .none, heads := [], suckLeft := [], spitLeft := [], outstanding := [],
                                 escalated := 0, abort := none }
  (startHandBack .cls (setCls idle s), [.clsClaim, .handBack])

/-! ### Formation (R102, R103) -/

/-- The waste check of a cycle; none when it passes (R102). -/
def wasteCheck (s : State) (planned : Nat) : Option CleanCause :=
  match s.uau.waste.state, s.uau.waste.data with
  | .full, _ => some .wasteFull
  | .fitted, some d | .nearFull, some d =>
    if d.capacity * 980000 < d.estimate + planned then some .wasteFull else none
  | _, _ => some .wasteAbsent

/-- The hold a refusal's cause sets (R102). -/
def CleanCause.hold : CleanCause → Option CleanHold
  | .wasteFull => some .wasteFull
  | .wasteAbsent => some .wasteAbsent
  | .orderFailed => some .orderFailed
  | .cancelled | .stationFault | .inkShort => none

/-- A channel is below its planned volume plus the reserve mark (R103, R104). -/
def channelShort (s : State) (c : Fin 6) (planned : Nat) : Bool :=
  decide ((chan s c).estimate < planned + s.params.reserveMark)

/-- A channel cannot be served (R103). -/
def cannotServe (s : State) (c : Fin 6) (planned : Nat) : Bool :=
  channelShort s c planned && ((chan s c).active.isNone || (chan s c).refill == .fault)

/-- A head is dropped for ink (R103). -/
def dropsHead (s : State) (x : CycleHead) : Bool :=
  cannotServe s (firstChannel x.head) x.plannedFirst || cannotServe s (secondChannel x.head) x.plannedSecond

/-- The entries of some heads are cleared (R94). -/
def clearEntries (hs : List (Fin 3)) (s : State) : State :=
  hs.foldl (fun s h => setEntry s h (entryOf s h).cleared) s

/-- Heads are dropped from a cycle for ink: entries cleared, CLEAN_ABORTED raised once (R103). -/
def dropHeads (dropped : List CycleHead) (s : State) : State :=
  if dropped.isEmpty then s
  else
    let hs := dropped.map CycleHead.head
    raise .cleanAborted (headSubjects hs) (some (.cleanCause .inkShort)) (clearEntries hs s)

/-- The cycle ends with every head dropped (R103). The last cycle holds cause INK_SHORT and the heads dropped at this test,
none of them with a run or an outcome (log entry 45, DESIGN CHOICE). -/
def endDropped (dropped : List CycleHead) (s : State) : Run :=
  clsHandBack (setCls { s.cls with last := ⟨lastHeads dropped, some .inkShort⟩ } s)

/-- The cycle is refused at the waste check (R102). -/
def refuseCycle (hs : List CycleHead) (cause : CleanCause) (s : State) : Run :=
  let s := raise .cleanAborted (headSubjects (hs.map CycleHead.head)) (some (.cleanCause cause)) s
  clsHandBack (setCls { s.cls with hold := cause.hold, last := ⟨lastHeads hs, some cause⟩ } s)

/-- The heads that remain are copied into the cycle record and their entries cleared (R102). -/
def startCycle (hs : List CycleHead) (s : State) : Run :=
  let s := clearEntries (hs.map CycleHead.head) s
  let sucked := hs.filter CycleHead.sucked
  (setCls { s.cls with
      heads := hs, cancelled := [], outstanding := [], abort := none
      suckLeft := sucked.map CycleHead.head, spitLeft := hs.map CycleHead.head
      stage := if sucked.isEmpty then .spitting else .waitInk } s, [.stageEntered])

/-- The CLS forms a cycle (R102, R103). -/
def formCycle (s : State) : Run :=
  let hs := pendingHeads s
  match wasteCheck s (plannedTotal hs) with
  | some cause => refuseCycle hs cause s
  | none =>
    let dropped := hs.filter fun x => dropsHead s x
    let rest := hs.filter fun x => !dropsHead s x
    let s := dropHeads dropped s
    if rest.isEmpty then endDropped dropped s else startCycle rest s

/-! ### WAIT_INK and SUCKING (R104, R105) -/

/-- A channel keeps the cycle in WAIT_INK (R104). -/
def channelWaits (s : State) (c : Fin 6) (planned : Nat) : Bool :=
  channelShort s c planned && (chan s c).refill == .refilling

/-- Some cycle channel keeps the cycle in WAIT_INK (R104). -/
def inkWaits (s : State) : Bool :=
  s.cls.heads.any fun x =>
    channelWaits s (firstChannel x.head) x.plannedFirst || channelWaits s (secondChannel x.head) x.plannedSecond

/-- The test of WAIT_INK (R104). -/
def waitInkTest (s : State) : Run :=
  if s.cls.stage = .waitInk ∧ s.cls.abort = none ∧ ¬ inkWaits s then
    let dropped := s.cls.heads.filter fun x => dropsHead s x
    let rest := s.cls.heads.filter fun x => !dropsHead s x
    let s := dropHeads dropped s
    if rest.isEmpty then endDropped dropped s
    else
      let sucked := rest.filter CycleHead.sucked
      (setCls { s.cls with
          heads := rest, suckLeft := sucked.map CycleHead.head, spitLeft := rest.map CycleHead.head
          stage := if sucked.isEmpty then .spitting else .sucking } s, [.stageEntered])
  else Run.done s

/-- A channel of the cycle has changed its estimate or refill state (R104). -/
def supplyChanged (c : Fin 6) (s : State) : Run :=
  if s.cls.heads.any fun x => x.head == headOf c then waitInkTest s else Run.done s

/-- The cycle head `h` of the record. -/
def targetOf (s : State) (h : Fin 3) : Nat :=
  match s.cls.heads.find? fun x => x.head == h with
  | some x => x.target
  | none => 0

/-- The next suction run begins with the sled commanded to UP, or WIPING follows when no head is left (R105). -/
def nextSuction (s : State) : Run :=
  if s.stc.pump.running then Run.done s
  else match s.cls.suckLeft with
  | [] => (setCls { s.cls with stage := .wiping } s, [.stageEntered])
  | _ :: _ => (s, [.sledCommand .up])

/-- The sled is UP: the selector is joined to the next head and its run started (R105 steps 2 and 3). -/
def startRun (s : State) : State :=
  match s.cls.suckLeft with
  | [] => s
  | h :: hs =>
    if s.stc.pump.running then s
    else startPump (targetOf s h) (joinSelector h (setCls { s.cls with suckLeft := hs } s))

/-- The revolutions done of head `h` are recorded (R105). -/
def recordRun (h : Fin 3) (revs : Nat) (s : State) : State :=
  setCls { s.cls with heads := s.cls.heads.map fun x => if x.head = h then { x with done := revs } else x } s

/-- The revolutions of the run at the selector's head are recorded and debited (R105). -/
def debitRun (s : State) : Run :=
  match s.stc.selector with
  | none => Run.done s
  | some h => suctionDebit h s.stc.pump.revs (recordRun h s.stc.pump.revs s)

/-- The pump run of the cycle completed (R105). -/
def clsPumpDone (s : State) : Run :=
  if cycleRuns s ∧ s.cls.stage = .sucking then
    let r := debitRun s
    (releaseSelector r.1, r.2 ++ [.stageEntered])
  else Run.done s

/-! ### WIPING and SPITTING (R106, R107) -/

/-- The cycle's sucked heads. -/
def suckedHeads (s : State) : List CycleHead := s.cls.heads.filter CycleHead.sucked

/-- The cycle leaves SPITTING (R107): heads that no check will judge take UNCHECKED (R109). -/
def leaveSpitting (s : State) : Run :=
  if s.params.autoCheck = 1 ∧ ¬ (suckedHeads s).isEmpty then
    (setCls { s.cls with
        stage := .checking
        heads := s.cls.heads.map fun x => if x.sucked then x else { x with outcome := some .unchecked } } s,
      [.stageEntered])
  else
    (setCls { s.cls with
        stage := .finishing, heads := s.cls.heads.map fun x => { x with outcome := some .unchecked } } s,
      [.stageEntered])

/-- Every spit order has been placed and has ended (R107). -/
def spitsDone (s : State) : Run :=
  if s.cls.spitLeft.isEmpty ∧ s.cls.outstanding.isEmpty then leaveSpitting s else Run.done s

/-- The CLS places its next spit (R107). -/
def nextSpit (s : State) : Run :=
  if cycleRuns s ∧ s.cls.stage = .spitting then
    match s.cls.spitLeft with
    | h :: _ => placeOrder .cls (.spit h s.params.postWipeSpitDrops) s
    | [] => spitsDone s
  else Run.done s

/-- An order of the cycle has entered the queue (R106, R107). -/
def clsEntered (id : Nat) (s : State) : Run :=
  if s.cls.stage.running then
    let s := setCls { s.cls with outstanding := s.cls.outstanding ++ [id] } s
    if s.cls.stage = .spitting then (setCls { s.cls with spitLeft := s.cls.spitLeft.tail } s, [.nextSpit])
    else Run.done s
  else Run.done s

/-- The sled has reached an end for the cycle (R105 to R107). -/
def clsSledDone (s : State) : Run :=
  if cycleRuns s then
    match s.cls.stage with
    | .sucking => Run.done (if sledIsUp s then startRun s else s)
    | .wiping => if sledIsDown s then (s, [.wiperCommand .raised]) else Run.done s
    | .spitting => if sledIsDown s then (s, [.nextSpit]) else Run.done s
    | .none | .waitZone | .waitInk | .checking | .finishing => Run.done s
  else Run.done s

/-- The wiper has reached an end for the cycle (R106). -/
def clsWiperDone (s : State) : Run :=
  if cycleRuns s ∧ s.cls.stage = .wiping then
    if s.stc.wiper.reached = some .raised then
      placeOrder .cls (.wipePass ((suckedHeads s).map CycleHead.head)) s
    else (setCls { s.cls with stage := .spitting } s, [.stageEntered])
  else Run.done s

/-! ### CHECKING, outcomes and the end (R108 to R110) -/

/-- The rows of the cycle's sucked heads (R108). -/
def checkRows (s : State) : List (Fin 6) :=
  (suckedHeads s).flatMap fun x => [firstChannel x.head, secondChannel x.head]

/-- The failing rows of head `h` among a check's results. -/
def failRows (rs : List RowResult) (h : Fin 3) : List RowResult :=
  rs.filter fun r => headOf r.channel == h && !r.pass

/-- The outcome of a sucked head (R109). -/
def outcomeOf (l : Level) (fails : List RowResult) : HeadOutcome :=
  if fails.isEmpty then .pass
  else if fails.any fun r => !r.wasDegraded then (if l = .strong then .degraded else .escalated)
  else .degraded

/-- The escalation step of a head set to `n`. -/
def setStep (h : Fin 3) (n : Nat) (s : State) : State := setEntry s h { entryOf s h with step := n }

/-- The effect of a sucked head's outcome (R109). -/
def judgeHead (rs : List RowResult) (x : CycleHead) (s : State) : State :=
  let fails := failRows rs x.head
  match outcomeOf x.level fails with
  | .escalated =>
    setStep x.head (sat Config.u8Max ((entryOf s x.head).step + 1))
      (foldRequest x.head x.level.next false (OriginSet.of .escalation) s)
  | .degraded =>
    if fails.any fun r => !r.wasDegraded then
      let rows := fails.map RowResult.channel
      let s := rows.foldl (fun s c => markDegraded c s) s
      let s := raise .degraded (several (rows.map Fin.val)) (some (.head x.head)) s
      setStep x.head 0 (setEntry s x.head (entryOf s x.head).cleared)
    else setStep x.head 0 s
  | .pass => setStep x.head 0 s
  | .unchecked => s

/-- The DTU hands back the results of the check: every sucked head takes its outcome (R108, R109), in head order, which
settles the head that DEGRADED's last detail names where two are degraded; R109 names no order (log entry 56, DESIGN
CHOICE). -/
def checkResults (rs : List RowResult) (s : State) : Run :=
  if cycleRuns s ∧ s.cls.stage = .checking then
    let s := (suckedHeads s).foldl (fun s x => judgeHead rs x s) s
    (setCls { s.cls with
        stage := .finishing
        heads := s.cls.heads.map fun x =>
          if x.sucked then { x with outcome := some (outcomeOf x.level (failRows rs x.head)) } else x } s,
      [.stageEntered])
  else Run.done s

/-- The drop counts of the sucked heads are zeroed (R110). -/
def zeroDrops (hs : List CycleHead) (s : State) : State :=
  hs.foldl (fun s x => setEntry s x.head { entryOf s x.head with drops := 0, dropPlaced := false }) s

/-- The urgent flag of every pending entry is cleared (R110). -/
def clearUrgent (s : State) : State :=
  allHeads.foldl (fun s h =>
    if (entryOf s h).level.isSome then setEntry s h { entryOf s h with urgent := false } else s) s

/-- FINISHING (R110). -/
def finishCycle (s : State) : Run :=
  let s := zeroDrops (suckedHeads s) s
  let s := raise .cleanDone (headSubjects (s.cls.heads.map CycleHead.head)) none s
  let s := setCls { s.cls with last := ⟨lastHeads s.cls.heads, none⟩ } s
  let escalated := s.cls.heads.any fun x => x.outcome == some .escalated
  if escalated ∧ anyPending s then
    if s.cls.escalated < Config.escalationLimit then
      (setCls { s.cls with escalated := s.cls.escalated + 1 } s, [.formCycle])
    else clsHandBack (clearUrgent s)
  else clsHandBack s

/-- The CLS goes on with the stage it has entered (R104 to R110). -/
def stageEntered (s : State) : Run :=
  if cycleRuns s then
    match s.cls.stage with
    | .waitInk => waitInkTest s
    | .sucking => nextSuction s
    | .wiping => (s, [.sledCommand .down])
    | .spitting => if sledIsDown s then nextSpit s else (s, [.sledCommand .down])
    | .checking => dtuCheckFor (checkRows s) s
    | .finishing => finishCycle s
    | .none | .waitZone => Run.done s
  else Run.done s

/-! ### Aborts (R111 to R113) -/

/-- The hold an abort's cause sets (R112). -/
def CleanCause.abortHold : CleanCause → Option CleanHold
  | .orderFailed => some .orderFailed
  | .wasteAbsent => some .wasteAbsent
  | .cancelled | .stationFault | .wasteFull | .inkShort => none

/-- A running pump is stopped, and the run's revolutions recorded and debited (R59, R111). -/
def stopRun (s : State) : Run := if s.stc.pump.running then debitRun (stopPump s) else Run.done s

/-- The cycle is aborted: no further order or run, the pump stopped, the CLS's waiting placement withdrawn and a check
under way ended; the safe point may follow at once (R108, R111). -/
def abortCycle (cause : CleanCause) (s : State) : Run :=
  if cycleRuns s then
    let s := withdraw .cls (setCls { s.cls with abort := some cause } s)
    (stopRun (dtuEndCheck s)).plus [.safePoint]
  else Run.done s

/-- Each cycle head but the cancelled is folded back into the table (R95, R111). -/
def foldBack (s : State) : State :=
  (s.cls.heads.filter fun x => !s.cls.cancelled.contains x.head).foldl
    (fun s x => foldRequest x.head x.level x.urgent x.origins s) s

/-- The end of an aborted cycle but for its handback: CLEAN_ABORTED, the heads folded back, hold and last cycle (R111). -/
def closeAborted (cause : CleanCause) (s : State) : State :=
  let hs := s.cls.heads
  let s := raise .cleanAborted (headSubjects (hs.map CycleHead.head)) (some (.cleanCause cause)) s
  let s := foldBack s
  let hold := match cause.abortHold with
    | some h => some h
    | none => s.cls.hold
  setCls { s.cls with hold := hold, last := ⟨hs.map fun x => ⟨x.head, x.level, x.done, none⟩, some cause⟩ } s

/-- Some outstanding order of the cycle is TAKEN (R111). -/
def cycleOrderTaken (s : State) : Bool :=
  s.orq.queue.any fun o => o.isTaken && s.cls.outstanding.contains o.id

/-- The safe point of a pending abort (R111). -/
def safePoint (s : State) : Run :=
  match s.cls.abort with
  | none => Run.done s
  | some cause =>
    if s.cls.stage.running ∧ ¬ s.stc.pump.running ∧ ¬ cycleOrderTaken s then
      clsHandBack (closeAborted cause (releaseSelector s))
    else Run.done s

/-- The station went to FAULT while the CLS held the session; `run` is the head and revolutions of the run it stopped
(R113). -/
def clsFault (run : Option (Fin 3 × Nat)) (s : State) : Run :=
  if s.cls.stage.running then
    let r := match run with
      | some (h, n) =>
        suctionDebit h n (recordRun h n s)
      | none => Run.done s
    let s := closeAborted .stationFault (withdraw .cls (dtuEndCheck r.1))
    (setCls { s.cls with stage := .none, heads := [], suckLeft := [], spitLeft := [], outstanding := [], escalated := 0,
                         abort := none } s, r.2 ++ [.clsClaim])
  else Run.done s

/-- The station goes to FAULT, with the telling of the session holder (R61, R113, R127), whose CLEAN_ABORTED or CHECK_DONE
is raised after the STC's own events (log entry 47, DESIGN CHOICE). -/
def stationFault (cause : StationCause) (s : State) : Run :=
  let run := match s.stc.selector with
    | some h => if s.stc.pump.running then some (h, s.stc.pump.revs) else none
    | none => none
  let holder := s.stc.holder
  let s := faultStation cause s
  let r := match holder with
    | some .cls => clsFault run s
    | some .dtu => dtuFault s
    | none => Run.done s
  r.plus [.extEntry]

/-- The CLS is told that an order of origin CLEANING has ended (R106, R107, R111). -/
def clsOrderEnded (o : Order) (how : OrderEnd) (s : State) : Run :=
  if s.cls.stage.running ∧ s.cls.outstanding.contains o.id then
    let s := setCls { s.cls with outstanding := s.cls.outstanding.filter fun n => n != o.id } s
    if s.cls.abort.isSome then (s, [.safePoint])
    else if how.carriedOut then
      match s.cls.stage with
      | .wiping => (s, [.wiperCommand .retracted])
      | .spitting => spitsDone s
      | .none | .waitZone | .waitInk | .sucking | .checking | .finishing => Run.done s
    else (s, [.abortCycle .orderFailed])
  else Run.done s

/-- The waste state has changed: a hold it caused is cleared, and a removal in SUCKING aborts the cycle (R100, R112). -/
def clsWasteChanged (s : State) : Run :=
  if s.uau.waste.state = .absent ∧ s.cls.stage = .sucking then abortCycle .wasteAbsent s
  else if s.cls.hold = some .wasteFull ∨ s.cls.hold = some .wasteAbsent then
    clsClaim (setCls { s.cls with hold := none } s)
  else Run.done s

/-! ### The session and the requests (R96, R97, R102) -/

/-- The CLS's session has begun: WAIT_ZONE ends and the cycle is formed (R101, R102). -/
def clsSession (s : State) : Run := if s.cls.stage = .waitZone then formCycle s else Run.done s

/-- An escalated cycle follows the one in FINISHING (R102, R110). -/
def nextCycle (s : State) : Run := if s.cls.stage = .finishing then formCycle s else Run.done s

/-- CLEAN folds one request per named head (R96). -/
def cleanRequest (hs : List (Fin 3)) (l : Level) (urgent : Bool) (o : CleanOrigin) (s : State) : State :=
  hs.foldl (fun s h => foldRequest h l urgent (OriginSet.of o) s) s

/-- A hold is cleared when no entry is pending after a cancel (R97). -/
def dropHold (s : State) : State := if anyPending s then s else setCls { s.cls with hold := none } s

/-- The cancel's effect on the table (R97). -/
def cancelEntries (hs : List (Fin 3)) (s : State) : State := dropHold (clearEntries hs s)

/-- The cycle heads a cancel names. -/
def namedInCycle (hs : List (Fin 3)) (s : State) : List (Fin 3) :=
  hs.filter fun h => s.cls.heads.any fun x => x.head == h

/-- The cancel's effect on the cycle record, after its effect on the table (R97). -/
def cancelCycle (hs : List (Fin 3)) (s : State) : Run :=
  match s.cls.stage with
  | .waitZone =>
    if anyPending s then Run.done s
    else Run.done (withdrawClaim .cls (setCls { s.cls with stage := .none } s))
  | .waitInk | .sucking | .wiping | .spitting | .checking =>
    let named := namedInCycle hs s
    if named.isEmpty then Run.done s
    else
      let added := named.filter fun h => !s.cls.cancelled.contains h
      (setCls { s.cls with cancelled := s.cls.cancelled ++ added } s, [.abortCycle .cancelled])
  | .none | .finishing => Run.done s

end Sys2Proof.Machine
end

