-- ==== Sys2Proof/Machine/Feed.lean ====
section
/-!
DEFINITION. The Feed Controller (chapter 9): conversion, the arbiter, the five motions with their checks and completions,
roll ends, jams, the cover, the release of a hold and the cut.
-/

namespace Sys2Proof.Machine

def setFdc (x : Fdc) (s : State) : State := { s with fdc := x }
def setPath (x : Path) (s : State) : State := { s with fdc := { s.fdc with path := x } }

/-- A source's position in the order ROLL_1, ROLL_2, SHEET (R180). -/
def sourceCode : Source → Nat
  | .roll1 => 0
  | .roll2 => 1
  | .sheet => 2

/-! ### Conversion (R147) -/

/-- The ppm factor of the media kind of the source in path, 1,000,000 + p (R147). -/
def ppmFactor (s : State) : Nat :=
  match s.fdc.path.source with
  | none => 1000000
  | some src =>
    match (sourceRec s src).media with
    | some m => (1000000 + s.params.compensation.get m.kind).toNat
    | none => 1000000

/-- n of a forward motion of `d` µm (R147). -/
def forwardUnits (s : State) (d : Nat) : Nat := d * s.params.countsPerMetre * ppmFactor s + s.fdc.path.residue

/-- Target counts of a forward motion (R147). -/
def forwardTarget (s : State) (d : Nat) : Nat := forwardUnits s d / Config.feedUnit

/-- New residue of a forward motion (R147). -/
def forwardResidue (s : State) (d : Nat) : Nat := forwardUnits s d % Config.feedUnit

/-- Target counts of a reverse motion (R147). -/
def reverseTarget (s : State) (d : Nat) : Nat := d * s.params.countsPerMetre * ppmFactor s / Config.feedUnit

/-- Counts converted back to µm with the counts per metre the motion began with (R147, R171). -/
def Motion.microns (m : Motion) (counts : Nat) : Nat := counts * 1000000 / m.perMetre

/-- The counts moved as the encoder reads them at an event: they only rise, and never past the target (R148). -/
def Motion.countsAt (m : Motion) (encoder : Nat) : Nat :=
  max m.counts (match m.target with
    | some t => min encoder t
    | none => encoder)

/-! ### Lengths, roll ends and media out (R153, R154) -/

/-- The remaining length of a source changed by `f`; UNKNOWN stays UNKNOWN. -/
def modRemaining (src : Source) (f : Nat → Nat) (s : State) : State :=
  let x := sourceRec s src
  setSource s src { x with media := x.media.map fun m => { m with remaining := m.remaining.map f } }

/-- A source whose remaining length has reached 0 becomes OUT (R154). -/
def mediaOutTest (src : Source) (s : State) : State :=
  let x := sourceRec s src
  if remainingOf s src = some 0 ∧ x.state ≠ .out then
    raise .mediaOut (one (sourceCode src)) none (setSource s src { x with state := .out })
  else s

/-- Media has moved forward by `d` µm: position and remaining length, then the R154 test (R148, R152, R158, R160). -/
def mediaForward (d : Nat) (s : State) : State :=
  let s := setPath { s.fdc.path with position := sat32 (s.fdc.path.position + d) } s
  match s.fdc.path.source with
  | some src => mediaOutTest src (modRemaining src (· - d) s)
  | none => s

/-- Media has moved back by `d` µm (R148, R160). -/
def mediaReverse (d : Nat) (s : State) : State :=
  let s := setPath { s.fdc.path with position := sat32 (s.fdc.path.position - d) } s
  match s.fdc.path.source with
  | some src => modRemaining src (fun n => min (n + d) Config.mediaMax) s
  | none => s

/-- The end sensor of a source reads its end reading (R153). -/
def endReading (s : State) : Source → Bool
  | .roll1 => s.fdc.path.rollEnd1
  | .roll2 => s.fdc.path.rollEnd2
  | .sheet => !s.fdc.path.sheetPresent

/-- The end sensor's recorded reading is set to `atEnd`. -/
def setEndReading (src : Source) (atEnd : Bool) (s : State) : State :=
  match src with
  | .roll1 => setPath { s.fdc.path with rollEnd1 := atEnd } s
  | .roll2 => setPath { s.fdc.path with rollEnd2 := atEnd } s
  | .sheet => setPath { s.fdc.path with sheetPresent := !atEnd } s

/-- A source's end has been seen (R153). -/
def endSeen (src : Source) (s : State) : State :=
  let x := sourceRec s src
  match x.state with
  | .loaded | .inPath =>
    let tail := s.params.tailLength
    let cutDown : Option Nat → Option Nat
      | some n => some (min n tail)
      | none => some tail
    let s := setSource s src
      { state := .endOfRoll, rollEndSeen := true
        media := x.media.map fun m => { m with remaining := cutDown m.remaining } }
    mediaOutTest src (raise .endOfRoll (one (sourceCode src)) none s)
  | .empty | .endOfRoll | .out => s

/-! ### Completions (R149, R150, R152, R158, R160) -/

/-- The request kind of a motion request. -/
def MotionReq.kind : MotionReq → Kind
  | .load _ _ _ _ => .loadMedia
  | .unload => .unloadMedia
  | .advance _ _ => .advance
  | .cut => .cut
  | .manual _ => .manualFeed

/-- The request kind of a running motion. -/
def MotionKind.request : MotionKind → Kind
  | .load _ => .loadMedia
  | .unload => .unloadMedia
  | .advance _ => .advance
  | .cut => .cut
  | .manualForward | .manualReverse => .manualFeed

/-- The motor is stopped and free. -/
def motorFree (s : State) : State := setFdc { s.fdc with motion := none } s

/-- A running motion's reply is given, if it is still held (R145, R148). -/
def answerMotion (m : Motion) (r : Result) (body : List Byte) (s : State) : State :=
  if m.replyHeld then answer m.port m.kind.request r body s else s

/-- A load completes (R149). -/
def loadDone (src : Source) (s : State) : State :=
  let x := sourceRec s src
  let s := setSource s src
    { x with state := match x.state with
        | .endOfRoll => .endOfRoll
        | .out => .out
        | .empty | .loaded | .inPath => .inPath }
  let s := setPath { s.fdc.path with state := .ready, position := 0, residue := 0 } (motorFree s)
  let s := raise .loadDone (one (sourceCode src)) none s
  if endReading s src ∧ ¬ (sourceRec s src).rollEndSeen then endSeen src s else s

/-- An unload completes, having rewound `d` µm (R150). -/
def unloadDone (d : Nat) (s : State) : State :=
  match s.fdc.path.source with
  | none => motorFree s
  | some src =>
    let s := modRemaining src (fun n => min (n + d) Config.mediaMax) (motorFree s)
    let x := sourceRec s src
    let s := match src with
      | .sheet => setSource s src { x with state := .empty, media := none }
      | .roll1 | .roll2 => setSource s src { x with state := if x.rollEndSeen then .endOfRoll else .loaded }
    raise .unloadDone (one (sourceCode src)) none
      (setPath { s.fdc.path with state := .empty, source := none, position := 0 } s)

/-- An ADVANCE completes (R152). -/
def advanceDone (m : Motion) (tag : Nat) (s : State) : State :=
  let s := setPath { s.fdc.path with residue := m.newResidue } (motorFree s)
  let s := pauAdvanceDone tag m.dist (mediaForward m.dist s)
  answerMotion m .ok (le 4 (m.target.getD 0) ++ le 8 m.newResidue)
    (setPath { s.fdc.path with state := .ready } s)

/-- The cut offset advance completes; the FDC places its CUT_PASS (R158). -/
def cutAdvanceDone (m : Motion) (s : State) : Run :=
  let s := setPath { s.fdc.path with residue := m.newResidue } (motorFree s)
  let s := mediaForward m.dist s
  (setPath { s.fdc.path with cut := some .orderWait } s, [.place .fdc .cutPass])

/-- A forward jog completes (R160). -/
def jogForwardDone (m : Motion) (s : State) : State :=
  let s := setPath { s.fdc.path with residue := m.newResidue } (motorFree s)
  let s := mediaForward m.dist s
  answerMotion m .ok (le 4 (m.target.getD 0)) (setPath { s.fdc.path with state := .ready } s)

/-- A reverse jog completes after `counts` counts, having moved `d` µm (R160). -/
def jogReverseDone (m : Motion) (counts d : Nat) (s : State) : State :=
  let s := mediaReverse d (motorFree s)
  answerMotion m .ok (le 4 counts) (setPath { s.fdc.path with state := .ready } s)

/-- The completion of a motion at its target (R148). -/
def motionDone (m : Motion) (s : State) : Run :=
  match m.kind with
  | .load src => Run.done (loadDone src s)
  | .unload => Run.done (unloadDone (m.microns m.counts) s)
  | .advance tag => Run.done (advanceDone m tag s)
  | .cut => cutAdvanceDone m s
  | .manualForward => Run.done (jogForwardDone m s)
  | .manualReverse => Run.done (jogReverseDone m (m.target.getD 0) m.dist s)

/-! ### The arbiter (R145, R146, R149 to R151, R158, R160) -/

/-- The ports in cyclic order, from the one after the last port served (R146). -/
def portsAfter : Option Port → List Port
  | none => [.job, .raster, .panel]
  | some .job => [.raster, .panel, .job]
  | some .raster => [.panel, .job, .raster]
  | some .panel => [.job, .raster, .panel]

/-- The waiting port the arbiter takes: the HIGH group (0) before the LOW (R146, R186). -/
def nextPort (s : State) : Option Port :=
  let waiting := (portsAfter s.fdc.lastServed).filter fun p => (s.fdc.waiting.get p).isSome
  match waiting.find? fun p => s.params.feedGroup.get p == 0 with
  | some p => some p
  | none => waiting.head?

/-- A motion begins; with a target of 0 it completes at once (R148). -/
def beginMotion (m : Motion) (st : PathState) (s : State) : Run :=
  let s := setPath { s.fdc.path with state := st } (setFdc { s.fdc with motion := some m } s)
  if m.target = some 0 then motionDone m s else Run.done s

/-- A motion of kind `k` for port `p`, its timer at 0, with the counts per metre as they stand (R147, R148, R171). -/
def motionOf (s : State) (k : MotionKind) (p : Port) (dist : Nat) (target : Option Nat) (residue : Nat)
    (held : Bool) : Motion :=
  { kind := k, port := p, dist := dist, target := target, newResidue := residue, perMetre := s.params.countsPerMetre,
    counts := 0, timer := 0, replyHeld := held }

/-- LOAD_MEDIA as judged when served; none when it passes (R149). -/
def loadCheck (s : State) (src : Source) : Option Result :=
  let x := s.fdc.path
  if x.source.isSome ∧ x.source ≠ some src then some .pathOccupied
  else if x.state ≠ .empty ∧ x.state ≠ .unregistered then some .busy
  else if x.coverOpen then some .mediaHeld
  else if src = .sheet ∧ ¬ x.sheetPresent then some .notLoaded
  else none

/-- UNLOAD_MEDIA and CUT as judged when served (R150, R158). -/
def threadedCheck (s : State) : Option Result :=
  let x := s.fdc.path
  if anyPrinting s then some .busy
  else if x.state = .held ∨ x.coverOpen then some .mediaHeld
  else if x.state = .cutting then some .busy
  else if x.state ≠ .ready then some .notLoaded
  else none

/-- The state of the source in path. -/
def sourceInPath (s : State) : Option SourceState := s.fdc.path.source.map fun src => (sourceRec s src).state

/-- ADVANCE as judged when served (R151). -/
def advanceCheck (s : State) (tag : Nat) : Option Result :=
  let x := s.fdc.path
  if x.state = .held ∨ x.coverOpen then some .mediaHeld
  else if x.source = none ∨ x.state ≠ .ready then some .notLoaded
  else if sourceInPath s = some .out then some .mediaOut
  else match tagCheck s tag with
    | some r => some r
    | none => if supplyStop s then some .supplyStop else none

/-- MANUAL_FEED as judged when served (R160). -/
def manualCheck (s : State) (dist : Int) : Option Result :=
  let x := s.fdc.path
  if anyPrinting s then some .busy
  else if x.state = .cutting then some .busySequence
  else if x.state = .held ∨ x.coverOpen then some .mediaHeld
  else if x.state ≠ .ready then some .notLoaded
  else if 0 < dist ∧ sourceInPath s = some .out then some .mediaOut
  else none

/-- The check of a served request (R146). -/
def motionCheck (s : State) : MotionReq → Option Result
  | .load src _ _ _ => loadCheck s src
  | .unload => threadedCheck s
  | .advance tag _ => advanceCheck s tag
  | .cut => threadedCheck s
  | .manual d => manualCheck s d

/-- A LOAD_MEDIA that passes (R149). -/
def beginLoad (p : Port) (src : Source) (kind : Fin 8) (width : Nat) (length : Option Nat) (s : State) : Run :=
  let unregistered := decide (s.fdc.path.state = .unregistered)
  let s := setSource s src ⟨.loaded, some ⟨kind, width, length⟩, false⟩
  let s := setPath { s.fdc.path with source := some src } (answer p .loadMedia .accepted [] s)
  if unregistered ∨ s.fdc.path.leadingEdge then Run.done (loadDone src s)
  else beginMotion (motionOf s (.load src) p 0 none 0 false) .loading s

/-- An UNLOAD_MEDIA that passes (R150). -/
def beginUnload (p : Port) (s : State) : Run :=
  let s := answer p .unloadMedia .accepted [] s
  if s.fdc.path.pathEntry then beginMotion (motionOf s .unload p 0 none 0 false) .unloading s
  else Run.done (unloadDone 0 s)

/-- An ADVANCE that passes (R151, R152). -/
def beginAdvance (p : Port) (tag dist : Nat) (s : State) : Run :=
  beginMotion (motionOf s (.advance tag) p dist (some (forwardTarget s dist)) (forwardResidue s dist) true) .moving
    (pauAdvanceBegins tag s)

/-- A CUT that passes (R158). -/
def beginCut (p : Port) (s : State) : Run :=
  let d := s.params.cutOffset
  let s := setPath { s.fdc.path with cut := some .advancing } (answer p .cut .accepted [] s)
  beginMotion (motionOf s .cut p d (some (forwardTarget s d)) (forwardResidue s d) false) .cutting s

/-- A MANUAL_FEED that passes (R160). -/
def beginManual (p : Port) (dist : Int) (s : State) : Run :=
  let d := dist.natAbs
  if 0 < dist then
    beginMotion (motionOf s .manualForward p d (some (forwardTarget s d)) (forwardResidue s d) true) .moving s
  else beginMotion (motionOf s .manualReverse p d (some (reverseTarget s d)) 0 true) .moving s

/-- A request that passes its check begins (R146). -/
def beginRequest (p : Port) (req : MotionReq) (s : State) : Run :=
  match req with
  | .load src kind width length => beginLoad p src kind width length s
  | .unload => beginUnload p s
  | .advance tag dist => beginAdvance p tag dist s
  | .cut => beginCut p s
  | .manual dist => beginManual p dist s

/-- The arbiter serves one waiting motion (R146). -/
def serveOne (p : Port) (req : MotionReq) (s : State) : Run :=
  let s := setFdc { s.fdc with waiting := s.fdc.waiting.set p none, lastServed := some p } s
  match motionCheck s req with
  | some r => Run.done (answer p req.kind r [] s)
  | none => beginRequest p req s

/-- The arbiter serves while the motor is free, at most `n` motions (R146). -/
def serveLoop : Nat → State → Run
  | 0, s => Run.done s
  | n + 1, s =>
    if s.fdc.motion.isSome then Run.done s
    else match nextPort s with
      | none => Run.done s
      | some p =>
        match s.fdc.waiting.get p with
        | none => Run.done s
        | some req => (serveOne p req s).andThen (serveLoop n)

/-- The arbiter serves every waiting motion it can: at most one waits per port (R145, R146). -/
def serve (s : State) : Run := serveLoop 3 s

/-- A port has a motion waiting or running (R145). -/
def portBusy (s : State) (p : Port) : Bool :=
  (s.fdc.waiting.get p).isSome || match s.fdc.motion with
    | some m => m.port == p
    | none => false

/-- A motion request enters the arbiter, its reply held, and is served at once if the motor is free (R145). -/
def enterMotion (p : Port) (req : MotionReq) (s : State) : Run :=
  serve (setFdc { s.fdc with waiting := s.fdc.waiting.set p (some req) } s)

/-- A motion completes and the arbiter serves the next (R146, R148). -/
def completeMotion (m : Motion) (s : State) : Run := (motionDone m s).andThen serve

/-! ### Stops, jams and the cover (R148, R155, R156) -/

/-- The partial distance of a stopped motion is accounted; a load's is not (R148, R149). -/
def accountPartial (m : Motion) (counts : Nat) (s : State) : State :=
  match m.kind with
  | .load _ => s
  | .advance _ | .cut | .manualForward => mediaForward (m.microns counts) s
  | .unload | .manualReverse => mediaReverse (m.microns counts) s

/-- The running motion, if any, is stopped and accounted (R148). -/
def stopMotion (encoder : Nat) (s : State) : State :=
  match s.fdc.motion with
  | none => s
  | some m => accountPartial m (m.countsAt encoder) (motorFree s)

/-- A cut in progress ends: CUT_FAILED, and the FDC's waiting placement is withdrawn (R155, R156). -/
def endCut (s : State) : State :=
  let s := withdraw .fdc s
  if s.fdc.path.cut.isSome then raise .cutFailed 0 none (setPath { s.fdc.path with cut := none } s) else s

/-- One waiting motion is answered MEDIA_HELD and removed. -/
def holdWaiting (p : Port) (s : State) : State :=
  match s.fdc.waiting.get p with
  | none => s
  | some req =>
    answer p req.kind .mediaHeld [] (setFdc { s.fdc with waiting := s.fdc.waiting.set p none } s)

/-- The running request, as `m` stood, and every waiting one are answered MEDIA_HELD (R155, R156). -/
def answerHeld (m : Option Motion) (encoder : Nat) (s : State) : State :=
  let s := match m with
    | some m => answerMotion m .mediaHeld (le 4 (m.countsAt encoder)) s
    | none => s
  allPorts.foldl (fun s p => holdWaiting p s) s

/-- The path becomes HELD (R155, R156). -/
def holdPath (cause : PathHold) (s : State) : State :=
  setPath { s.fdc.path with state := .held, hold := some cause, cycled := false } s

/-- The FDC declares a jam (R155). Placements that enter the places freed, and their ORDERS_PENDING, come after CUT_FAILED
and JAM; R89 and R155 give no order (log entry 60, DESIGN CHOICE). -/
def declareJam (encoder : Nat) (s : State) : Run :=
  let m := s.fdc.motion
  let s := pauJam (holdPath .jam (stopMotion encoder s))
  let r := removeQueued .feed (withdraw .fdc s)
  (answerHeld m encoder (raise .jam 0 none (endCut r.1)), r.2)

/-- The cover sensor turns to open (R156). -/
def openCover (encoder : Nat) (s : State) : State :=
  if s.fdc.path.coverOpen then s
  else
    let s := raise .coverOpened 0 none (setPath { s.fdc.path with coverOpen := true } s)
    if s.fdc.path.state = .held then s
    else
      let m := s.fdc.motion
      answerHeld m encoder (holdPath .cover (endCut (stopMotion encoder s)))

/-- The cover sensor turns to closed (R156). -/
def closeCover (s : State) : State :=
  let x := s.fdc.path
  if x.coverOpen then
    setPath { x with coverOpen := false, cycled := if x.state = .held then true else x.cycled } s
  else s

/-! ### Sensors (R144, R148, R149, R150, R160) -/

/-- The leading-edge sensor changes while a motion runs (R148, R149, R160). -/
def edgeInMotion (m : Motion) (media : Bool) (encoder : Nat) (s : State) : Run :=
  match m.kind with
  | .load src => if media then (Run.done (loadDone src s)).andThen serve else Run.done s
  | .unload => Run.done s
  | .advance _ | .cut | .manualForward => if media then Run.done s else declareJam encoder s
  | .manualReverse =>
    if media then Run.done s
    else
      let n := m.countsAt encoder
      (Run.done (jogReverseDone m n (m.microns n) s)).andThen serve

/-- The leading-edge sensor changes while no motion runs (R144). -/
def edgeAtRest (media : Bool) (s : State) : Run :=
  match s.fdc.path.state with
  | .empty => Run.done (if media then setPath { s.fdc.path with state := .unregistered } s else s)
  | .unregistered => Run.done (if media then s else setPath { s.fdc.path with state := .empty } s)
  | .ready | .cutting => if media then Run.done s else declareJam 0 s
  | .loading | .moving | .unloading | .held => Run.done s

/-- The leading-edge sensor changes to `media` (R144, R148). -/
def edgeTo (media : Bool) (encoder : Nat) (s : State) : Run :=
  if media = s.fdc.path.leadingEdge then Run.done s
  else
    let s := setPath { s.fdc.path with leadingEdge := media } s
    match s.fdc.motion with
    | some m => edgeInMotion m media encoder s
    | none => edgeAtRest media s

/-- The path-entry sensor changes to `media`; no media ends an unload (R144, R150). -/
def entryTo (media : Bool) (encoder : Nat) (s : State) : Run :=
  if media = s.fdc.path.pathEntry then Run.done s
  else
    let s := setPath { s.fdc.path with pathEntry := media } s
    match s.fdc.motion with
    | some m =>
      if m.kind = .unload ∧ ¬ media then (Run.done (unloadDone (m.microns (m.countsAt encoder)) s)).andThen serve
      else Run.done s
    | none => Run.done s

/-- A source's end sensor turns to its end reading (R153). -/
def sourceEnds (src : Source) (s : State) : State :=
  if endReading s src then s else endSeen src (setEndReading src true s)

/-- A source's end sensor turns back (R153). -/
def sourceEndClears (src : Source) (s : State) : State :=
  if endReading s src then setEndReading src false s else s

/-! ### Release and the cut's order (R157, R159) -/

/-- RELEASE_HOLD as judged; none when it passes (R157). -/
def releaseCheck (s : State) : Option Result :=
  let x := s.fdc.path
  if x.state ≠ .held then some .badState
  else if (x.hold = some .jam ∧ ¬ x.cycled) ∨ x.coverOpen then some .coverNotCycled
  else none

/-- A source's state after a release that finds no media at the leading edge (R157). -/
def releaseEmptied (src : Source) (x : SourceRec) : SourceRec :=
  match src with
  | .sheet => { x with state := .empty, media := none }
  | .roll1 | .roll2 => if x.state = .inPath then { x with state := .loaded } else x

/-- A source's state after a release that finds media (R157). -/
def releaseThreaded (x : SourceRec) : SourceRec := if x.state = .loaded then { x with state := .inPath } else x

/-- A hold is released: path and source are set from the leading-edge sensor (R157). -/
def releasePath (s : State) : State :=
  let x := { s.fdc.path with hold := none, cycled := false, residue := 0, position := 0 }
  let s := match x.leadingEdge, x.source with
    | true, some src =>
      setPath { x with state := .ready } (setSource s src (releaseThreaded (sourceRec s src)))
    | true, none => setPath { x with state := .unregistered } s
    | false, some src =>
      setPath { x with state := .empty, source := none } (setSource s src (releaseEmptied src (sourceRec s src)))
    | false, none => setPath { x with state := .empty } s
  raise .holdReleased 0 none s

/-- The CUT_PASS order has entered the queue (R158). -/
def fdcEntered (id : Nat) (s : State) : State :=
  if s.fdc.path.cut = some .orderWait then setPath { s.fdc.path with cut := some (.orderOut id) } s else s

/-- The FDC is told that an order of origin FEED has ended (R159). -/
def fdcOrderEnded (o : Order) (how : OrderEnd) (s : State) : State :=
  if s.fdc.path.cut = some (.orderOut o.id) then
    if how.carriedOut then
      raise .cutDone 0 none (setPath { s.fdc.path with position := 0, residue := 0, cut := none, state := .ready } s)
    else raise .cutFailed 0 none (setPath { s.fdc.path with cut := none, state := .ready } s)
  else s

/-! ### Link reset (R145) -/

/-- A LINK_RESET on a port withdraws its waiting motion and drops the reply of its running one (R145). -/
def resetFeed (p : Port) (s : State) : State :=
  setFdc { s.fdc with
    waiting := s.fdc.waiting.set p none
    motion := s.fdc.motion.map fun m => if m.port = p then { m with replyHeld := false } else m } s

end Sys2Proof.Machine
end

