-- ==== Sys2Proof/Machine/Agenda.lean ====
section
/-!
DEFINITION. How the consequences of a command are taken: `perform` hands each to the block that owns it, and `settle` takes
them in order until none is left (log entry 8).
-/

namespace Sys2Proof.Machine

/-- The step that commanded the sled is told it is done (R58). -/
def sledDone (s : State) : Run :=
  if s.stc.state = .servicing then
    if s.stc.handingBack then handBack s
    else match s.stc.holder with
      | some .cls => clsSledDone s
      | some .dtu => dtuSledDone s
      | none => Run.done s
  else stcSledDone s

/-- The step that commanded the wiper is told it is done (R58). -/
def wiperDone (s : State) : Run :=
  if s.stc.state = .servicing then
    if s.stc.handingBack then handBack s
    else match s.stc.holder with
      | some .cls => clsWiperDone s
      | some .dtu | none => Run.done s
  else stcWiperDone s

/-- A unit is told its order has entered (R80, R81). -/
def enteredFor (who : Placer) (id : Nat) (s : State) : Run :=
  match who with
  | .cls => clsEntered id s
  | .dtu => Run.done (dtuEntered id s)
  | .fdc => Run.done (fdcEntered id s)

/-- The origin block is told an order has ended (R87); the EXT takes no action (R134). -/
def orderEndedFor (o : Order) (how : OrderEnd) (sample : Option Sample) (s : State) : Run :=
  match o.origin with
  | .exposure => Run.done s
  | .cleaning => clsOrderEnded o how s
  | .check => dtuOrderEnded o how sample s
  | .feed => Run.done (fdcOrderEnded o how s)

/-- What a Raster Port link reset does to the order queue (R90). ORDERS_PENDING is judged and raised before the STC acts on
the free moment of the returned order; R90 gives no order (log entry 59, DESIGN CHOICE). -/
def returnOrders (s : State) : Run :=
  let r := returnTaken s
  (if r.1.orq.queue.isEmpty then r.1 else raise .ordersPending 0 none r.1, r.2)

/-- The end of a return to RUN: the refill start test of every channel, and the unwatched home sensor read afresh (R139,
R140). -/
def wakeEnd (s : State) : Run :=
  let s' := refillTestAll s
  (homeTo s'.pins.home s').plus (supplyActs s s')

/-- One consequence is taken by the block that owns it. -/
def perform (a : Act) (s : State) : Run :=
  match a with
  | .freeMoment e => freeMoment e s
  | .extEntry => extEntry s
  | .askCapping => askCapping s
  | .sessionBegun .cls => clsSession s
  | .sessionBegun .dtu => dtuSession s
  | .handBack => handBack s
  | .sledCommand e => holderSled e s
  | .wiperCommand e => holderWiper e s
  | .sledDone => sledDone s
  | .wiperDone => wiperDone s
  | .pumpDone => clsPumpDone s
  | .enterWaiting => enterWaiting s
  | .place who body => placeOrder who body s
  | .entered who id => enteredFor who id s
  | .orderEnded o how sample => orderEndedFor o how sample s
  | .takenEnded => freeMoment false s
  | .clsClaim => clsClaim s
  | .clsFolded urgent => clsFolded urgent s
  | .wasteChanged => clsWasteChanged s
  | .supplyChanged c => supplyChanged c s
  | .formCycle => nextCycle s
  | .stageEntered => stageEntered s
  | .nextSpit => nextSpit s
  | .abortCycle c => abortCycle c s
  | .safePoint => safePoint s
  | .dtuPlace => dtuPlace s
  | .dtuFinish => dtuFinish s
  | .checkResults rs => checkResults rs s
  | .checkFailed => abortCycle .orderFailed s
  | .returnOrders => returnOrders s
  | .wakeEnd => wakeEnd s

/-- The consequences taken in order, at most `n` of them; those of the first stand before the rest. -/
def runActs : Nat → Run → Run
  | 0, r => r
  | _ + 1, (s, []) => (s, [])
  | n + 1, (s, a :: rest) => let r := perform a s; runActs n (r.1, r.2 ++ rest)

/-- The outcome of a command: the state once no consequence is left (log entry 8). -/
def settle (r : Run) : Host.Outcome State Fault Refusal :=
  match runActs Config.cascadeLimit r with
  | (s, []) => .next s
  | (_, _ :: _) => .fault .cascadeUnsettled

end Sys2Proof.Machine
end

