-- ==== Sys2Proof/Machine/Replies.lean ====
section
/-!
DEFINITION. Reply bodies (R180, R183, R185). A choice is coded as its position in the rule that names it, which is the
constructor's position; layouts that R185 does not tabulate are formed from their rules by R180 (log entry 14).
-/

namespace Sys2Proof.Machine

/-- One byte. -/
def byte (n : Nat) : List Byte := le 1 n

/-- A choice whose list opens with "none" (R180). -/
def optCode {α : Type} (code : α → Nat) : Option α → Nat
  | none => 0
  | some x => code x + 1

/-- A list of varying length: a count byte and the entries (R180). -/
def counted (entries : List (List Byte)) : List Byte := byte entries.length ++ entries.flatten

/-! ### Supply (R3, R13, R25, R40) -/

/-- READ_CHANNEL (R3, R185). -/
def channelBody (s : State) (c : Fin 6) : List Byte :=
  let x := chan s c
  byte c.val ++ le 4 x.estimate ++ byte x.float.ctorIdx ++ leSigned 4 x.drift
    ++ leOr 1 0xFF (x.active.map fun side => (bayOf c side).val) ++ byte x.refill.ctorIdx ++ byte x.strokes
    ++ byte x.stroke.ctorIdx ++ byte x.supply.ctorIdx

/-- READ_BAY (R13, R185). -/
def bayBody (s : State) (b : Fin 12) : List Byte :=
  let x := bay s b
  byte b.val ++ byte x.state.ctorIdx ++ byte (maskOf [x.chip.isSome, x.ink.isSome])
    ++ (match x.chip with
      | some k => k.serial.toList ++ byte k.code
      | none => le 9 0)
    ++ (match x.ink with
      | some i => le 2 i.capacity ++ le 4 i.estimate
      | none => le 6 0)
    ++ (match x.chip with
      | some k => le 4 k.drawn ++ le 2 k.expiry
      | none => le 6 0)
    ++ byte (maskOf [x.chip.any BayChip.refilled, x.confirmed, x.stale, x.scanRead]) ++ byte x.dry ++ le 4 x.overdraw

/-- READ_WASTE (R34, R40). -/
def wasteBody (s : State) : List Byte :=
  let w := s.uau.waste
  bit w.data.isSome ++ byte w.state.ctorIdx
    ++ (match w.data with
      | some d => le 2 d.capacity ++ le 4 d.fill ++ le 8 d.estimate ++ le 4 d.added
      | none => le 18 0)
    ++ bit w.stale ++ le 4 s.uau.orphan

/-- READ_TOTALS (R25). -/
def totalsBody (s : State) (c : Fin 6) : List Byte :=
  let x := book s c
  le 4 x.residue ++ le 8 x.total ++ le 8 x.media ++ le 8 x.waste ++ le 8 x.usage ++ le 8 x.suction ++ le 4 x.overdraw
    ++ le 8 (s.pau.unmatchedInk.get c) ++ le 4 s.uau.applied ++ le 2 s.uau.lastTag ++ le 2 s.uau.lastSwath
    ++ le 4 s.uau.orphan

/-! ### Pages (R41, R55, R56) -/

/-- An admission table entry (R41). -/
def pageBody (e : Page) : List Byte :=
  le 2 e.tag ++ byte (sourceCode e.source) ++ byte e.state.ctorIdx ++ (allChannels.flatMap fun c => le 4 (e.reserved.get c))
    ++ (allChannels.flatMap fun c => le 4 (e.consumed.get c)) ++ le 4 e.mediaReserved ++ le 4 e.mediaConsumed
    ++ bit e.overrun

/-- END_PAGE: the final record and how the removal was recorded, complete 0 or aborted 1 (R55). -/
def endPageBody (e : Page) (aborted : Bool) : List Byte := pageBody e ++ bit (!endsComplete aborted e)

/-- Tag and state of one table position in LIST_PAGES; zeros where it holds no entry (R56, log entry 40). -/
def pageSlot : Option Page → List Byte
  | some e => le 2 e.tag ++ byte e.state.ctorIdx
  | none => le 3 0

/-- LIST_PAGES (R56), of one length whatever the table holds (R164): the number of entries, four places oldest first, and
the record of the entry at `pos` opened by its position, FFH where it is absent (R180). The layout is the model's (log entry
40, DESIGN CHOICE). -/
def listBody (s : State) (pos : Nat) : List Byte :=
  let e := s.pau.pages[pos]?
  byte s.pau.pages.length ++ ([0, 1, 2, 3].flatMap fun i => pageSlot s.pau.pages[i]?)
    ++ byte (maskOf s.pau.overSet.toList) ++ le 4 s.pau.unmatchedCount ++ le 2 s.pau.endedComplete ++ le 2 s.pau.endedAborted
    ++ leOr 1 0xFF (e.map fun _ => pos)
    ++ (match e with
      | some e => pageBody e
      | none => le 61 0)

/-! ### Station and orders (R75, R83, R85) -/

/-- Sled position: DOWN, UP, RAISING, LOWERING, UNKNOWN (R57). -/
def sledCode (m : Moved SledEnd) : Nat :=
  match m.motion, m.reached with
  | some (.up, _), _ => 2
  | some (.down, _), _ => 3
  | none, some .down => 0
  | none, some .up => 1
  | none, none => 4

/-- Wiper position: RETRACTED, RAISED, RAISING, RETRACTING, UNKNOWN (R57). -/
def wiperCode (m : Moved WiperEnd) : Nat :=
  match m.motion, m.reached with
  | some (.raised, _), _ => 2
  | some (.retracted, _), _ => 3
  | none, some .retracted => 0
  | none, some .raised => 1
  | none, none => 4

/-- READ_STATION (R75). The selector's join is coded by R57's list, none 0 and then H0 1 to H2 3, though R180 codes a head
on its own as 0 to 2 (log entry 53, DESIGN CHOICE). The home sensor, capping due and park timeout raised are 1 where true
or set, against their place in R57's 'true or false' and 'set or clear' (log entry 55, DESIGN CHOICE). -/
def stationBody (s : State) : List Byte :=
  let x := s.stc
  byte (maskOf [x.hold.isSome, x.idle.isSome, x.park.isSome]) ++ byte x.state.ctorIdx ++ byte (sledCode x.sled)
    ++ byte (wiperCode x.wiper) ++ byte (optCode Fin.val x.selector) ++ bit x.pump.running ++ byte x.pump.target
    ++ byte x.pump.revs ++ bit x.home ++ byte x.entry.ctorIdx ++ leOr 2 0 x.hold ++ leOr 4 0 x.idle ++ leOr 2 0 x.park
    ++ bit x.cappingDue ++ counted (x.claims.map fun c => byte c.who.ctorIdx ++ bit c.urgent)
    ++ byte (optCode Claimant.ctorIdx x.holder) ++ byte (optCode StationCause.ctorIdx x.lastFault) ++ bit x.parkRaised
    ++ bit s.pins.sledUp ++ bit s.pins.sledDown ++ bit s.pins.wiperRaised ++ bit s.pins.wiperRetracted

/-- The kind code and the parameter area of an order (R185). -/
def orderParams : OrderBody → Nat × List Byte
  | .spit h drops => (0, byte h.val ++ byte drops ++ le 3 0)
  | .wipePass hs => (1, byte (headMask hs) ++ le 4 0)
  | .checkFire c first last delay => (2, byte c.val ++ byte first ++ byte last ++ le 2 delay)
  | .cutPass => (3, le 5 0)

/-- FETCH_ORDER: the order given, if any, and whether it is a repeat (R83, R185). -/
def fetchBody (s : State) (o : Option Order) (again : Bool) : List Byte :=
  byte (maskOf [o.isSome, again, s.orq.lastTimedOut.isSome]) ++ byte s.orq.queue.length ++ le 2 s.orq.timeouts
    ++ leOr 1 0xFF s.orq.lastTimedOut
    ++ (match o with
      | some o => byte o.id ++ byte (orderParams o.body).1 ++ byte o.origin.ctorIdx ++ (orderParams o.body).2
      | none => byte 0xFF ++ le 7 0)

/-- The OK reply to ORDER_DONE: for a CHECK_FIRE, the strobes counted and the groups detected (R85, R185). -/
def orderDoneBody (s : State) (o : Order) : List Byte :=
  if o.body.isCheckFire then
    match s.dtu.sample with
    | some r => le 2 (sat Config.u16Max r.strobes) ++ counted (r.detected.map byte)
    | none => le 3 0
  else []

/-! ### Cleaning and detector (R96, R97, R129) -/

/-- A cleaning table entry (R94). -/
def cleanEntryBody (e : CleanEntry) : List Byte :=
  let o := e.origins
  leOr 1 0xFF (e.level.map Level.ctorIdx) ++ bit e.urgent
    ++ byte (maskOf [o.job, o.panel, o.dropCount, o.prime, o.escalation, o.sweep]) ++ byte e.step ++ le 4 e.drops
    ++ bit e.dropPlaced

/-- A head of the last cycle: level, revolutions done and outcome; FFH and zeros for a head that was not in it (R100, log
entry 40). -/
def lastHeadBody : Option LastHead → List Byte
  | some x => byte x.level.ctorIdx ++ byte x.revs ++ byte (optCode HeadOutcome.ctorIdx x.outcome)
  | none => byte 0xFF ++ le 2 0

/-- A cleaning cause in R100's list, which opens with none. WASTE_FULL and INK_SHORT (R102, R103) stand in no list of the
spec and take the next codes, 5 and 6 (log entry 41, DESIGN CHOICE). -/
def causeCode (c : Option CleanCause) : Nat := optCode CleanCause.ctorIdx c

/-- The body of CLEAN and CANCEL_CLEAN (R96, R97), of one length whatever the last cycle was (R164): the three entries,
stage, hold, the last cycle's head mask, a place for each head, and its cause. The layout is the model's (log entry 40,
DESIGN CHOICE). -/
def cleanBody (s : State) : List Byte :=
  let last := s.cls.last
  (allHeads.flatMap fun h => cleanEntryBody (entryOf s h)) ++ byte s.cls.stage.ctorIdx
    ++ byte (optCode CleanHold.ctorIdx s.cls.hold) ++ byte (headMask (last.heads.map LastHead.head))
    ++ (allHeads.flatMap fun h => lastHeadBody (last.heads.find? fun x => x.head == h)) ++ byte (causeCode last.cause)

/-- Check holder: none, DTU, CLS (R114). -/
def holderCode : Option Claimant → Nat
  | none => 0
  | some .dtu => 1
  | some .cls => 2

/-- READ_HEALTH (R129, R185). -/
def healthBody (s : State) (c : Fin 6) : List Byte :=
  let x := health s c
  let task := match s.dtu.task with
    | some t => maskOf [true, decide (t.kind = .check), decide (t.phase = .running)]
    | none => 0
  byte c.val ++ byte (maskOf [x.fields.isSome, x.time.isSome]) ++ byte x.groupCount ++ le 2 x.delay
    ++ byte x.sweep.ctorIdx ++ byte x.check.ctorIdx ++ bit x.degraded
    ++ (match x.fields with
      | some f => le 2 f.begin_ ++ le 2 f.end_ ++ le 2 f.width
      | none => le 6 0)
    ++ leOr 4 0 x.time ++ byte s.dtu.machine.ctorIdx ++ byte (holderCode s.dtu.holder) ++ byte task ++ le 4 s.timeBase
    ++ counted (x.failed.map byte)

/-! ### Rest and feed (R138, R161) -/

/-- Kind and identity of a wake cause: FRAME 0 with the port, SENSOR 1 with the sensor and its index (R140). -/
def wakeIdentity : WakeCause → List Byte
  | .frame p => byte 0 ++ byte p.ctorIdx ++ byte 0
  | .bayPresence b => byte 1 ++ byte 0 ++ byte b.val
  | .wastePresence => byte 1 ++ byte 1 ++ byte 0
  | .float c => byte 1 ++ byte 2 ++ byte c.val
  | .cover => byte 1 ++ byte 3 ++ byte 0
  | .rollEnd src => byte 1 ++ byte 4 ++ byte (sourceCode src)
  | .sheetPresent => byte 1 ++ byte 5 ++ byte 0
  | .pathEntry => byte 1 ++ byte 6 ++ byte 0
  | .leadingEdge => byte 1 ++ byte 7 ++ byte 0

/-- The wake cause record and the rest count (R136, R138). -/
def restRecordBody (s : State) : List Byte :=
  (match s.rsc.wake with
    | some w => byte 1 ++ wakeIdentity w.cause ++ le 4 w.entered ++ le 4 w.woke
    | none => le 12 0) ++ le 2 s.rsc.restCount

/-- A source record (R142). -/
def sourceBody (x : SourceRec) : List Byte :=
  bit x.media.isSome ++ byte x.state.ctorIdx
    ++ (match x.media with
      | some m => byte m.kind.val ++ le 2 m.width ++ leOr 4 0xFFFFFFFF m.remaining
      | none => le 7 0)
    ++ bit x.rollEndSeen

/-- Phase and order id of the cut record (R143): none, then the phases as R158 names them, ADVANCING, ORDER_OUT and
ORDER_WAIT. -/
def cutBody : Option CutRec → List Byte
  | none => byte 0 ++ byte 0xFF
  | some .advancing => byte 1 ++ byte 0xFF
  | some (.orderOut id) => byte 2 ++ byte id
  | some .orderWait => byte 3 ++ byte 0xFF

/-- The code of a motion's kind: its position where section 9.2 names the five, LOAD_MEDIA, UNLOAD_MEDIA, ADVANCE, CUT,
MANUAL_FEED. No numbered rule lists them, and R182 gives the five other codes as requests (log entry 52, DESIGN CHOICE). -/
def MotionReq.code : MotionReq → Nat
  | .load _ _ _ _ => 0
  | .unload => 1
  | .advance _ _ => 2
  | .cut => 3
  | .manual _ => 4

/-- The running motion's code, as `MotionReq.code` has it, and its direction, forward 0 or reverse 1, which no list of the
spec codes (log entry 52, DESIGN CHOICE). -/
def MotionKind.code : MotionKind → Nat × Nat
  | .load _ => (0, 0)
  | .unload => (1, 1)
  | .advance _ => (2, 0)
  | .cut => (3, 0)
  | .manualForward => (4, 0)
  | .manualReverse => (4, 1)

/-- The running motion (R161); presence bit 0 a motion, bit 1 a target. -/
def motionBody (m : Option Motion) (encoder : Nat) : List Byte :=
  match m with
  | none => le 12 0
  | some m =>
    byte (maskOf [true, m.target.isSome]) ++ byte m.kind.code.1 ++ byte m.port.ctorIdx ++ byte m.kind.code.2
      ++ leOr 4 0 m.target ++ le 4 (m.countsAt encoder)

/-- The waiting motions of the ports by kind (R161): a presence byte, bit n for port n, and the three kinds, 0 where a port
has none waiting (R180; the cut is log entry 52, DESIGN CHOICE). -/
def waitingBody (waiting : PerPort (Option MotionReq)) : List Byte :=
  byte (maskOf (allPorts.map fun p => (waiting.get p).isSome))
    ++ (allPorts.flatMap fun p => leOr 1 0 ((waiting.get p).map MotionReq.code))

/-- READ_FEED, with the encoder counts of the running motion at that moment (R161). Of the sensor readings, whose codes
R143 does not give, 1 is media or a sheet seen, a roll's end reached and the cover open (log entry 55, DESIGN CHOICE). -/
def feedBody (s : State) (encoder : Nat) : List Byte :=
  let x := s.fdc.path
  sourceBody s.fdc.sources.roll1 ++ sourceBody s.fdc.sources.roll2 ++ sourceBody s.fdc.sources.sheet
    ++ byte x.state.ctorIdx ++ leOr 1 3 (x.source.map sourceCode) ++ leSigned 4 x.position ++ le 8 x.residue
    ++ byte (optCode PathHold.ctorIdx x.hold) ++ bit x.cycled ++ cutBody x.cut
    ++ bit x.leadingEdge ++ bit x.pathEntry ++ bit x.coverOpen ++ bit x.sheetPresent ++ bit x.rollEnd1 ++ bit x.rollEnd2
    ++ motionBody s.fdc.motion encoder
    ++ waitingBody s.fdc.waiting
    ++ (allPorts.flatMap fun p => byte (s.params.feedGroup.get p)) ++ leOr 1 3 (s.fdc.lastServed.map Port.ctorIdx)

/-! ### Events (R178, R179) -/

/-- The two summaries of each group: some flag set, some flag set with its enable set (R178). -/
def summaryBody (e : PortEvents) : List Byte :=
  allGroups.flatMap fun g => bit (e.anySet fun k => k.group == g) ++ bit (e.anyDue fun k => k.group == g)

/-- Bytes of the subject set of a kind: 2 for bays and chips, 1 for every other set, the set of a kind with no subject, which
R175 keeps empty, among them (R175, R176, R180). -/
def EventKind.subjectWidth : EventKind → Nat
  | .bayInserted | .confirmNeeded | .bayLow | .bayOut | .switchover | .chipStale => 2
  | .channelStarved | .refillFault | .overcommitted | .exposed | .cleanDone | .cleanAborted | .checkDone | .healthChanged
  | .degraded | .endOfRoll | .mediaOut | .loadDone | .unloadDone
  | .wasteNearFull | .wasteFull | .wasteRemoved | .ordersPending | .orderTimeout | .grantDiscarded | .parkTimeout
  | .pauseForService | .stationFault | .jam | .coverOpened | .holdReleased | .cutDone | .cutFailed | .frameError | .woke
  | .clampedUsage => 1

/-- Bytes of the last detail of a kind; 0 for kinds with none (R176). -/
def EventKind.detailWidth : EventKind → Nat
  | .orderTimeout | .cleanAborted | .degraded | .stationFault | .frameError | .woke => 1
  | .clampedUsage => 2
  | .checkDone => 3
  | .bayInserted | .confirmNeeded | .bayLow | .bayOut | .switchover | .chipStale | .channelStarved | .refillFault
  | .overcommitted | .exposed | .cleanDone | .healthChanged | .endOfRoll | .mediaOut | .loadDone | .unloadDone
  | .wasteNearFull | .wasteFull | .wasteRemoved | .ordersPending | .grantDiscarded | .parkTimeout | .pauseForService
  | .jam | .coverOpened | .holdReleased | .cutDone | .cutFailed => 0

/-- A last detail (R176). The causes of CLEAN_ABORTED and STATION_FAULT are coded in the lists of R100 and R57, which open
with none. CHECK_DONE: task kind, outcome COMPLETE 0 or ABORTED 1, and a cause in the order of R126 and R127 after none (log
entry 41, DESIGN CHOICE). -/
def detailBody : Detail → List Byte
  | .orderId id => byte id
  | .cleanCause c => byte (causeCode (some c))
  | .check kind cause => byte kind.ctorIdx ++ bit cause.isSome ++ byte (optCode CheckCause.ctorIdx cause)
  | .head h => byte h.val
  | .stationCause c => byte (optCode StationCause.ctorIdx (some c))
  | .errorKind e => byte e.code
  | .wakeKind sensor => bit sensor
  | .swath n => le 2 n

/-- An absent last detail: FFH for an order id, zeros for the others (R180). -/
def EventKind.noDetail (k : EventKind) : List Byte :=
  match k with
  | .orderTimeout => byte 0xFF
  | _ => le k.detailWidth 0

/-- A flag record, opened by a presence byte where its kind has a detail (R175, R180). -/
def flagRecBody (k : EventKind) (f : FlagRec) : List Byte :=
  (if k.detailWidth = 0 then [] else bit f.detail.isSome) ++ bit f.set ++ byte f.count ++ le k.subjectWidth f.subjects.toNat
    ++ (match f.detail with
      | some d => detailBody d
      | none => k.noDetail)
    ++ le 2 f.raisedAt

/-- A kind's enable and flag record (R178). -/
def flagBody (e : PortEvents) (k : EventKind) : List Byte :=
  bit (e.enables.get k.index) ++ flagRecBody k (e.flags.get k.index)

/-- READ_EVENTS of group `g` on port `p` (R178). -/
def eventsBody (s : State) (p : Port) (g : EventGroup) : List Byte :=
  let e := s.evu.get p
  let x := engine s p
  le 2 e.raises ++ summaryBody e
    ++ ((allEvents.filter fun k => k.routed p && k.group == g).flatMap fun k => flagBody e k)
    ++ byte (match x.errorKind with
      | some k => k.code
      | none => 0)
    ++ le 2 x.errorCount ++ (if p = .job then restRecordBody s else [])

/-- A mask of event kinds, 5 bytes (R180). -/
def eventMask (sel : EventKind → Bool) : List Byte := le 5 (maskOf (allEvents.map sel))

/-- The enables of a port as stored; kinds not routed to it read as clear (R177). -/
def enablesBody (s : State) (p : Port) : List Byte :=
  eventMask fun k => k.routed p && (s.evu.get p).enables.get k.index

/-- GET_PARAM: value, range and default (R170). -/
def paramBody (q : Params) (id : ParamId) (i : Nat) : List Byte :=
  leSigned 8 (q.read id i) ++ leSigned 8 id.range.1 ++ leSigned 8 id.range.2 ++ leSigned 8 (Params.default.read id i)

end Sys2Proof.Machine
end

