-- ==== Sys2Proof/Machine/Links.lean ====
section
/-!
DEFINITION. The Link Interface Unit's side of a command (chapter 10), rest and waking (chapter 8), parameters, event
requests (chapter 11), resets, and the millisecond tick.
-/

namespace Sys2Proof.Machine

/-! ### Waking (R140) -/

/-- The part returns from REST to RUN: the wake record is written and WOKE raised (R140). -/
def wake (cause : WakeCause) (s : State) : State :=
  let sensor := match cause with
    | .frame _ => false
    | _ => true
  raise .woke 0 (some (.wakeKind sensor))
    { s with rsc := { s.rsc with power := .run, wake := some ⟨cause, s.rsc.restEntered, s.timeBase⟩ } }

/-- What is taken, with the return to RUN before and after it when the part is in REST (R140). -/
def waking (cause : WakeCause) (f : State → Run) (s : State) : Run :=
  if s.rsc.power = .rest then (f (wake cause s)).plus [.wakeEnd] else f s

/-! ### Transactions (R162 to R168) -/

/-- A transaction on port `p` that carries a frame: nothing while RESET_N is low (R174); the status byte, the return from
REST unless `silent`, then the frame (R140, R162). -/
def transaction (p : Port) (silent : State → Bool) (f : State → Run) (s : State) : Run :=
  if s.resetLow then Run.done s
  else
    let s := beginTransaction p s
    if silent s then f s else waking (.frame p) f s

/-- No frame leaves the part in REST but the READ_REPLY of `keepsRest`. -/
def neverSilent (_ : State) : Bool := false

/-- The frame's body is longer than a frame may hold: a frame error of kind LENGTH (R165). -/
def fitting (p : Port) (body : List Byte) (f : State → Run) (s : State) : Run :=
  if Config.bodyMax < body.length then Run.done (countError p .length s) else f s

/-- Steps 4 to 7 of the dispatch of a frame (R166). -/
def dispatch (k : Kind) (p : Port) (body : List Byte) (handle : State → Run) (s : State) : Run :=
  match (engine s p).slot with
  | .held _ | .ready _ => Run.done (setEngine s p { engine s p with busy := true })
  | .empty | .collected _ =>
    if k.permitted p = false then Run.done (answer p k .notPermitted [] s)
    else if body.length ≠ k.bodyLength then Run.done (answer p k .badLength [] s)
    else handle (holdSlot p k s)

/-- A request frame of kind `k` on port `p`, handed to its owner (R162 to R166). -/
def request (k : Kind) (p : Port) (body : List Byte) (handle : State → Run) (s : State) : Run :=
  transaction p neverSilent (fitting p body (dispatch k p body handle)) s

/-- An answer with no further consequence. -/
def reply (p : Port) (k : Kind) (r : Result) (body : List Byte) (s : State) : Run := Run.done (answer p k r body s)

/-- The READ_REPLY that may collect the OK reply to REST leaves the part in REST (R140). -/
def keepsRest (p : Port) (s : State) : Bool :=
  p == .job && match (engine s p).slot with
    | .ready r => r.kind == .rest && r.result == .ok
    | _ => false

/-- The length of a request frame with body `body`: kind, body length, body and CRC (R164). -/
def requestBytes (body : List Byte) : Nat := body.length + 4

/-- A reply frame is shifted out behind the request frame that asked for it (R162): the status byte, FFH while the request
frame's `taken` bytes are clocked in, where R162 says nothing (log entry 50, DESIGN CHOICE), then the reply frame. -/
def shiftOut (p : Port) (taken : Nat) (frame : List Byte) (collecting : Bool) (s : State) : State :=
  let x := engine s p
  setEngine s p { x with out := x.out ++ List.replicate taken 0xFF ++ frame, collecting := collecting }

/-- READ_REPLY with body `body`: the reply frame chosen by the slot (R168). -/
def readReply (p : Port) (body : List Byte) (s : State) : State :=
  let n := requestBytes body
  match (engine s p).slot with
  | .ready r | .collected r => shiftOut p n r.frame true s
  | .held _ => shiftOut p n (Reply.frame ⟨.readReply, .notReady, []⟩) false s
  | .empty => shiftOut p n (Reply.frame ⟨.readReply, .badState, []⟩) false s

/-- The reply of a READ_REPLY has been shifted out whole (R168). -/
def replyShifted (p : Port) (s : State) : State :=
  let x := engine s p
  if x.collecting then
    setEngine s p
      { x with collecting := false
               slot := match x.slot with
                 | .ready r => .collected r
                 | slot => slot }
  else s

/-- A USAGE frame on the Raster Port (R165, R169). -/
def postUsage (body : List Byte) (s : State) : State :=
  if body.length ≠ Kind.usage.bodyLength then countError .raster .length s
  else if s.liu.posted.length < Config.postedDepth then
    { s with liu := { s.liu with posted := s.liu.posted ++ [body], placed := (s.liu.placed + 1) % 4294967296 } }
  else setEngine s .raster { engine s .raster with postedFull := true }

/-! ### FENCE (R33) -/

/-- The applied count has reached the number a FENCE noted, or passed it on their wrapping scale (R33); with the posted
queue empty nothing is left to wait for (log entry 7). -/
def fenceReached (s : State) (noted : Nat) : Bool :=
  s.liu.posted.isEmpty || decide ((s.uau.applied + 4294967296 - noted) % 4294967296 < 2147483648)

/-- The FENCE reply is released (R33). -/
def releaseFence (s : State) : State :=
  answer .raster .fence .ok (le 4 s.uau.applied) { s with liu := { s.liu with fence := none } }

/-- A FENCE is taken (R33). -/
def takeFence (s : State) : State :=
  if fenceReached s s.liu.placed then releaseFence s else { s with liu := { s.liu with fence := some s.liu.placed } }

/-- FENCE_RELEASE is due (R33). -/
def fenceDue (s : State) : Bool := s.liu.fence.any fun n => fenceReached s n

/-! ### Parameters (R170, R171) -/

/-- The owner's actions on a parameter that has been set (R171). On the reserve mark every supply state is evaluated before
the first overcommitment check, an order that R2 and R54 do not give (log entry 54, DESIGN CHOICE). -/
def paramActions (id : ParamId) (s : State) : Run :=
  match id with
  | .reserveMark => Run.done (checkOverAll allChannels (allChannels.foldl (fun s c => evalSupply c s) s))
  | .refillMark => let s' := refillTestAll s; (s', supplyActs s s')
  | _ => Run.done s

/-- SET_PARAM (R171). -/
def setParam (body : List Byte) (p : Port) (s : State) : Run :=
  match paramNamed? body with
  | none => reply p .setParam .badField [] s
  | some (id, i) =>
    let v := fieldSigned body 2 8
    let stored := id.clamp v
    let s := { s with params := s.params.write id i stored }
    paramActions id (answer p .setParam (if stored = v then .ok else .okClamped) (leSigned 8 stored) s)

/-- GET_PARAM (R170). -/
def getParam (body : List Byte) (p : Port) (s : State) : Run :=
  match paramNamed? body with
  | none => reply p .getParam .badField [] s
  | some (id, i) => reply p .getParam .ok (paramBody s.params id i) s

/-! ### Event requests (R177 to R179) -/

/-- A mask bit above the highest event kind (R180). -/
def maskTooLong (m : Nat) : Bool := decide (2 ^ 36 ≤ m)

/-- READ_EVENTS (R178, R163). -/
def readEvents (body : List Byte) (p : Port) (s : State) : Run :=
  match group? (field body 0 1) with
  | none => reply p .readEvents .badField [] s
  | some g =>
    let s' := answer p .readEvents .ok (eventsBody s p g) s
    Run.done (setEngine s' p { engine s' p with lastError := false, errorKind := none })

/-- A kind's flag is cleared by CLEAR_EVENTS (R179). -/
def clearsFlag (e : PortEvents) (k : EventKind) (mode seen : Nat) : Bool :=
  mode == 0 || decide ((seen + 65536 - (e.flags.get k.index).raisedAt) % 65536 < 32768)

/-- The event state of a port after CLEAR_EVENTS (R179). -/
def clearFlags (e : PortEvents) (p : Port) (mask mode seen : Nat) : PortEvents :=
  allEvents.foldl (fun e k =>
    if maskBit mask k.index.val && k.routed p && clearsFlag e k mode seen then
      { e with flags := vset e.flags k.index FlagRec.clear }
    else e) e

/-- CLEAR_EVENTS (R179). The reply's set of kept kinds holds the named kinds whose flags are set after the clear, not one
whose flag was already clear, whatever the CONDITIONAL test says of it (log entry 51, DESIGN CHOICE). -/
def clearEvents (body : List Byte) (p : Port) (s : State) : Run :=
  let mask := field body 0 5
  let mode := field body 5 1
  let seen := field body 6 2
  if mode > 1 ∨ maskTooLong mask then reply p .clearEvents .badField [] s
  else
    let e := clearFlags (s.evu.get p) p mask mode seen
    let kept := eventMask fun k => maskBit mask k.index.val && k.routed p && (e.flags.get k.index).set
    reply p .clearEvents .ok (kept ++ summaryBody e) { s with evu := s.evu.set p e }

/-- The enables of a port with a mask taken for the kinds routed to it (R177). -/
def enabledBy (e : PortEvents) (p : Port) (mask : Nat) : PortEvents :=
  allEvents.foldl (fun e k =>
    if k.routed p then { e with enables := vset e.enables k.index (maskBit mask k.index.val) } else e) e

/-- SET_EVENT_ENABLE (R177). -/
def setEnables (body : List Byte) (p : Port) (s : State) : Run :=
  let mask := field body 0 5
  if maskTooLong mask then reply p .setEventEnable .badField [] s
  else
    let s := { s with evu := s.evu.set p (enabledBy (s.evu.get p) p mask) }
    reply p .setEventEnable .ok (enablesBody s p) s

/-! ### REST (R137, R138) -/

/-- The ports whose attention line is asserted. -/
def attentionPorts (s : State) : List Bool := allPorts.map fun p => (s.evu.get p).attention

/-- The conditions of the first stage (R137); a FENCE that is held refuses REST by the third (log entry 7, DEDUCED). -/
def restFirst (s : State) : List Bool :=
  [(attentionPorts s).any id, s.stc.entry != .none, !s.liu.posted.isEmpty || s.liu.fence.isSome]

/-- The conditions of the second stage (R138). -/
def restSecond (s : State) : List Bool :=
  [s.stc.state != .capped,
   allChannels.any fun c => (chan s c).refill == .refilling,
   s.stc.pump.running || s.stc.sled.motion.isSome || s.stc.wiper.motion.isSome,
   s.fdc.motion.isSome || allPorts.any fun p => (s.fdc.waiting.get p).isSome,
   !s.spu.bus.queue.isEmpty,
   !s.orq.queue.isEmpty || !s.orq.waiting.isEmpty,
   anyPending s || s.cls.stage != .none,
   s.dtu.task.isSome || s.dtu.machine != .idle,
   !s.pau.pages.isEmpty]

/-- The body of a REST refused: conditions, ports, wake record, rest count (R183). -/
def restRefusal (s : State) (conditions : List Bool) : List Byte :=
  le 2 (maskOf conditions) ++ byte (maskOf (attentionPorts s)) ++ restRecordBody s

/-- REST (R137, R138). -/
def takeRest (p : Port) (s : State) : State :=
  if (restFirst s).any id then answer p .rest .notRested (restRefusal s (restFirst s)) s
  else if (restSecond s).any id then answer p .rest .busy (restRefusal s ([false, false, false] ++ restSecond s)) s
  else
    answer p .rest .ok (restRecordBody s)
      { s with rsc := { s.rsc with power := .rest, restCount := sat Config.u16Max (s.rsc.restCount + 1),
                                   restEntered := s.timeBase } }

/-! ### Resets (R173, R174) -/

/-- The port engine and the event state of a port after the first two steps of a link reset (R163, R173, R175, R177). -/
def resetPort (p : Port) (s : State) : State :=
  let s := setEngine s p
    { engine s p with lastError := false, busy := false, postedFull := false, resetSeen := false, errorKind := none,
                      errorCount := 0 }
  { s with evu := s.evu.set p PortEvents.reset }

/-- What a Raster Port link reset does to the posted queue and a held FENCE (R33, R169). -/
def resetPosted (s : State) : State :=
  { s with liu := { s.liu with posted := [], placed := s.uau.applied, fence := none } }

/-- LINK_RESET on port `p` (R173). -/
def linkReset (p : Port) (s : State) : Run :=
  let s := resetFeed p (resetPort p s)
  let r := if p = .raster then (resetZone (resetPosted s)).plus [.returnOrders] else Run.done s
  (answer p .linkReset .ok [] r.1, r.2)

/-- The start-up scan: each closed bay as an insertion with a scan read, in bay order, then the waste read (R4, R34). -/
def startScan (s : State) : Run :=
  let s := allBays.foldl (fun s b => if s.pins.presence.get b then insertBay b true s else s) s
  if s.pins.wastePresence then insertWaste s else Run.done s

/-- The start-up actions (R60, R174). -/
def startUp (s : State) : Run :=
  (startScan { s with startup := false }).andThen beginHoming

/-- A device reset ends: every block takes its device-reset values with the sensors as `r` reads them, and the start-up
actions begin (R174). The queue of commands is the model's own. -/
def deviceReset (r : Readings) (s : State) : Run := startUp { State.resetWith r with pending := s.pending }

/-- RESET_N is asserted: actuators stop where they stand, transactions are abandoned (R174). -/
def assertReset (s : State) : State :=
  let quiet (x : Engine) : Engine := { x with out := [], collecting := false }
  { s with
    resetLow := true
    stc := { s.stc with
      sled := s.stc.sled.halt false, wiper := s.stc.wiper.halt false
      pump := { s.stc.pump with running := false }, stall := none, hold := none, idle := none, park := none }
    fdc := { s.fdc with motion := none }
    spu := { channels := Vector.ofFn fun c => { s.spu.channels.get c with stroke := .none }
             bays := s.spu.bays, bus := { s.spu.bus with executing := false } }
    liu := { s.liu with engines :=
      ⟨quiet s.liu.engines.job, quiet s.liu.engines.raster, quiet s.liu.engines.panel⟩ } }

/-! ### Events that are no frame -/

/-- An event: nothing while RESET_N is low (R174). -/
def event (f : State → Run) (s : State) : Run := if s.resetLow then Run.done s else f s

/-- A change of a watched sensor, which wakes the part in REST (R139, R140); no change has no effect. -/
def watched (cause : WakeCause) (changed : State → Bool) (f : State → Run) (s : State) : Run :=
  event (fun s => if changed s then waking cause f s else Run.done s) s

/-! ### The bus (R20, R22, R39) -/

/-- The oldest transaction begins: a WRITE takes the value standing now, in µL (R22, R39). -/
def startTrans (s : State) : State :=
  match s.spu.bus.queue with
  | [] => s
  | t :: _ =>
    if s.spu.bus.executing then s
    else
      let value := match t.kind, t.chip with
        | .read, _ => s.spu.bus.value
        | .write, .bay b => (bay s b).estimate / 1000
        | .write, .waste => match s.uau.waste.data with
          | some d => sat Config.u32Max (d.estimate / 1000)
          | none => 0
      onBus (fun x => { x with executing := true, value := value }) s

/-- The executing transaction with its chip and kind, and the attempts it has left unacknowledged. -/
def executing (s : State) : Option Trans := s.spu.bus.current

/-- What one attempt of a transaction carries over the cartridge bus (R187): the chip, the offset it starts at, the bytes
written, and how many bytes are read. -/
structure Transfer where
  chip : Chip
  offset : Nat
  written : List Byte
  read : Nat
  deriving DecidableEq, Repr

/-- The transfer of a transaction with the value `v` standing for a WRITE (R187): a READ takes the whole record from offset
00H, a WRITE the volume field alone. -/
def Trans.transfer (t : Trans) (v : Nat) : Transfer :=
  match t.kind, t.chip with
  | .read, .bay b => ⟨.bay b, 0x00, [], 18⟩
  | .read, .waste => ⟨.waste, 0x00, [], 6⟩
  | .write, .bay b => ⟨.bay b, 0x0B, le 4 v, 0⟩
  | .write, .waste => ⟨.waste, 0x02, le 4 v, 0⟩

/-- An attempt is not acknowledged; the transfer is repeated whole (R20, R187). -/
def attemptFails (s : State) : State :=
  match executing s with
  | none => s
  | some t =>
    onBus (fun x => { x with queue := { t with attempts := sat Config.busAttempts (t.attempts + 1) } :: x.queue.tail }) s

/-- The executing transaction ends acknowledged and leaves the queue (R20). -/
def ended (s : State) : State := onBus Bus.finish s

/-- The executing transaction may end acknowledged: fewer than four attempts have failed. -/
def canSucceed (t : Trans) : Bool := decide (t.attempts < Config.busAttempts)

/-- The executing transaction fails: its fourth attempt is the one not acknowledged (R20). -/
def canFail (t : Trans) : Bool := decide (Config.busAttempts ≤ t.attempts + 1)

/-- The chip's number in a subject set (R176, R180). -/
def Chip.code : Chip → Nat
  | .bay b => b.val
  | .waste => 12

/-- A chip's stale flag is set or cleared (R22, R39). -/
def setStale (chip : Chip) (stale : Bool) (s : State) : State :=
  match chip with
  | .bay b => setBay s b { bay s b with stale := stale }
  | .waste => setWaste { s.uau.waste with stale := stale } s

/-! ### The millisecond (log entry 1) -/

/-- A running timer one millisecond on. -/
def tickTimer (t : Option Nat) : Option Nat := t.map (· + 1)

/-- A motion timer one millisecond on. -/
def Moved.tick {ε : Type} (m : Moved ε) : Moved ε := { m with motion := m.motion.map fun x => (x.1, x.2 + 1) }

/-- The order timer one millisecond on. -/
def Order.tick (o : Order) : Order :=
  match o.state with
  | .taken n limit => { o with state := .taken (n + 1) limit }
  | .queued => o

/-- An exposure timer one millisecond on, held while expiry is due (R131, R133). -/
def Exposure.tick (x : Exposure) : Exposure := if x.due then x else { x with count := x.count + 1 }

/-- Every running timer one millisecond on. -/
def tickTimers (s : State) : State :=
  { s with
    stc := { s.stc with
      sled := s.stc.sled.tick, wiper := s.stc.wiper.tick, stall := tickTimer s.stc.stall, hold := tickTimer s.stc.hold
      idle := tickTimer s.stc.idle, park := tickTimer s.stc.park }
    orq := { s.orq with queue := s.orq.queue.map Order.tick }
    ext := if exposureCounts s then Vector.ofFn fun h => (s.ext.get h).tick else s.ext
    fdc := { s.fdc with motion := s.fdc.motion.map fun m => { m with timer := m.timer + 1 } } }

/-- A motion of a station part has reached its limit (R58). -/
def motionLate {ε : Type} (m : Moved ε) : Bool :=
  match m.motion with
  | some (_, n) => decide (Config.motionLimit ≤ n)
  | none => false

/-- The TAKEN order whose timer has reached its limit (R84, R86). -/
def lateOrder (s : State) : Option Order :=
  match takenOrder s with
  | some o =>
    match o.state with
    | .taken n limit => if limit ≤ n then some o else none
    | .queued => none
  | none => none

/-- The running feed motion's timer has reached its limit, the feed motion timeout as it stands (R148, R171). -/
def feedLate (s : State) : Bool := s.fdc.motion.any fun m => decide (s.params.feedTimeout ≤ m.timer)

/-- A bus transaction whose fourth attempt has failed, as the command that ends it. -/
def failCommand (s : State) : List Instr :=
  match executing s with
  | none => []
  | some t =>
    if Config.busAttempts ≤ t.attempts then
      match t.kind, t.chip with
      | .read, .bay _ => [.chipReadFail]
      | .read, .waste => [.wasteReadFail]
      | .write, _ => [.chipWriteFail]
    else []

/-- The autonomous steps that are due, in the order the model takes them (log entries 1 and 24). A feed motion's timeout
brings the encoder's counts, a free value (log entry 38); a held FENCE is looked at after the report is applied (R33). -/
def dueSteps (s : State) : List Instr :=
  (if motionLate s.stc.sled then [.sledMotionTimeout] else [])
    ++ (if motionLate s.stc.wiper then [.wiperMotionTimeout] else [])
    ++ (if reached s.stc.stall Config.motionLimit then [.pumpStall] else [])
    ++ (if reached s.stc.park s.params.parkTimeout then [.parkTimerExpiry] else [])
    ++ (if reached s.stc.idle s.params.idleCapTime then [.idleCapExpiry] else [])
    ++ (if reached s.stc.hold s.params.grantHoldTime then [.grantHoldExpiry] else [])
    ++ (if (lateOrder s).isSome then [.orderTimerExpiry] else [])
    ++ ((allHeads.filter fun h => expiryReached s h).map .exposureExpiry)
    ++ (if feedLate s then [.feedMotionTimeout (Config.freeCounts s.freeUsed).toNat] else [])
    ++ failCommand s
    ++ (if s.liu.posted.isEmpty then [] else [.usageApply])
    ++ (if s.liu.fence.isSome then [.fenceRelease] else [])
    ++ (if s.spu.bus.queue.isEmpty || s.spu.bus.executing then [] else [.busTransactionStart])

/-- One millisecond of the time base: in REST the timers are held (R139); with RESET_N low nothing counts (R174). -/
def tick (s : State) : State :=
  if s.resetLow then s
  else
    let s := { s with timeBase := (s.timeBase + 1) % 4294967296 }
    if s.rsc.power = .rest then s
    else
      let s := tickTimers s
      { s with pending := dueSteps s, freeUsed := if feedLate s then s.freeUsed + 1 else s.freeUsed }

end Sys2Proof.Machine
end

