-- ==== Sys2Proof/Machine/FeedRows.lean ====
section
/-!
DEFINITION. The commands of the Feed Controller (chapter 9).
-/

namespace Sys2Proof.Machine

/-- A motion request whose fields are in range: BUSY if the port already has one, else it enters the arbiter (R145). -/
def askMotion (p : Port) (req : MotionReq) (s : State) : Run :=
  if portBusy s p then reply p req.kind .busy [] s else enterMotion p req s

/-- The remaining length LOAD_MEDIA gives: FFFFFFFFH is UNKNOWN (R149, R180); none when out of range. -/
def lengthField (n : Nat) : Option (Option Nat) :=
  if n = 0xFFFFFFFF then some none
  else if 0 < n ∧ n ≤ Config.mediaMax then some (some n)
  else none

/-- LOAD_MEDIA at entry (R145, R149). -/
def loadMedia (p : Port) (body : List Byte) (s : State) : Run :=
  let width := field body 2 2
  match source? (field body 0 1), index? 8 (field body 1 1), lengthField (field body 4 4) with
  | some src, some kind, some length =>
    if width < 1000 ∨ 11176 < width then reply p .loadMedia .badField [] s
    else askMotion p (.load src kind width length) s
  | _, _, _ => reply p .loadMedia .badField [] s

/-- LOAD_MEDIA (R149). -/
def execLoadMedia (p : Port) (body : List Byte) (s : State) : Host.Outcome State Fault Refusal :=
  settle (request .loadMedia p body (loadMedia p body) s)

/-- UNLOAD_MEDIA (R150). -/
def execUnloadMedia (p : Port) (body : List Byte) (s : State) : Host.Outcome State Fault Refusal :=
  settle (request .unloadMedia p body (askMotion p .unload) s)

/-- ADVANCE at entry (R145, R151). -/
def advanceMedia (p : Port) (body : List Byte) (s : State) : Run :=
  let dist := field body 2 4
  if dist = 0 ∨ Config.motionMax < dist then reply p .advance .badField [] s
  else askMotion p (.advance (field body 0 2) dist) s

/-- ADVANCE (R151). -/
def execAdvance (p : Port) (body : List Byte) (s : State) : Host.Outcome State Fault Refusal :=
  settle (request .advance p body (advanceMedia p body) s)

/-- CUT (R158). -/
def execCut (p : Port) (body : List Byte) (s : State) : Host.Outcome State Fault Refusal :=
  settle (request .cut p body (askMotion p .cut) s)

/-- MANUAL_FEED at entry (R145, R160). -/
def manualFeed (p : Port) (body : List Byte) (s : State) : Run :=
  let dist := fieldSigned body 0 4
  if dist = 0 ∨ Config.motionMax < dist.natAbs then reply p .manualFeed .badField [] s
  else askMotion p (.manual dist) s

/-- MANUAL_FEED (R160). -/
def execManualFeed (p : Port) (body : List Byte) (s : State) : Host.Outcome State Fault Refusal :=
  settle (request .manualFeed p body (manualFeed p body) s)

/-- RELEASE_HOLD (R157). -/
def releaseHold (p : Port) (s : State) : Run :=
  match releaseCheck s with
  | some r => reply p .releaseHold r [] s
  | none => Run.done (releasePath (answer p .releaseHold .ok [] s))

/-- RELEASE_HOLD (R157). -/
def execReleaseHold (p : Port) (body : List Byte) (s : State) : Host.Outcome State Fault Refusal :=
  settle (request .releaseHold p body (releaseHold p) s)

/-- READ_FEED (R161). -/
def execReadFeed (p : Port) (body : List Byte) (encoder : Nat) (s : State) : Host.Outcome State Fault Refusal :=
  settle (request .readFeed p body (fun s => reply p .readFeed .ok (feedBody s encoder) s) s)

/-- ARBITER_SERVE (R146). -/
def execArbiterServe (s : State) : Host.Outcome State Fault Refusal := settle (event serve s)

/-- The running motion is one that `sel` picks; it is taken by `f`. -/
def onMotion (sel : MotionKind → Bool) (f : Motion → State → Run) (s : State) : Run :=
  match s.fdc.motion with
  | some m => if sel m.kind then f m s else Run.done s
  | none => Run.done s

/-- The leading-edge sensor has seen media in a loading motion (R149). -/
def loadArrives (m : Motion) (s : State) : Run :=
  completeMotion m (setPath { s.fdc.path with leadingEdge := true } s)

/-- LOAD_MOTION_DONE (R149). -/
def execLoadMotionDone (s : State) : Host.Outcome State Fault Refusal :=
  settle (event (onMotion (fun k => match k with
    | .load _ => true
    | _ => false) loadArrives) s)

/-- The path-entry sensor reads no media in an unload (R150). -/
def unloadArrives (encoder : Nat) (m : Motion) (s : State) : Run :=
  completeMotion { m with counts := m.countsAt encoder } (setPath { s.fdc.path with pathEntry := false } s)

/-- UNLOAD_MOTION_DONE (R150). -/
def execUnloadMotionDone (counts : Nat) (s : State) : Host.Outcome State Fault Refusal :=
  settle (event (onMotion (fun k => k == .unload) (unloadArrives counts)) s)

/-- ADVANCE_DONE (R152). -/
def execAdvanceDone (s : State) : Host.Outcome State Fault Refusal :=
  settle (event (onMotion (fun k => match k with
    | .advance _ => true
    | _ => false) completeMotion) s)

/-- CUT_ADVANCE_DONE (R158). -/
def execCutAdvanceDone (s : State) : Host.Outcome State Fault Refusal :=
  settle (event (onMotion (fun k => k == .cut) completeMotion) s)

/-- MANUAL_FEED_DONE (R160). -/
def execManualFeedDone (s : State) : Host.Outcome State Fault Refusal :=
  settle (event (onMotion (fun k => k == .manualForward || k == .manualReverse) completeMotion) s)

/-- FEED_MOTION_TIMEOUT (R148, R155). -/
def execFeedMotionTimeout (counts : Nat) (s : State) : Host.Outcome State Fault Refusal :=
  settle (event (fun s => if feedLate s then declareJam counts s else Run.done s) s)

/-- LEADING_EDGE_CHANGE (R144, R148, R160). -/
def execLeadingEdgeChange (media : Bool) (counts : Nat) (s : State) : Host.Outcome State Fault Refusal :=
  settle (watched .leadingEdge (fun s => s.fdc.path.leadingEdge != media) (edgeTo media counts) s)

/-- PATH_ENTRY_CHANGE (R144, R150). -/
def execPathEntryChange (media : Bool) (counts : Nat) (s : State) : Host.Outcome State Fault Refusal :=
  settle (watched .pathEntry (fun s => s.fdc.path.pathEntry != media) (entryTo media counts) s)

/-- The wake cause of a source's end sensor (R140). -/
def endCause : Source → WakeCause
  | .roll1 => .rollEnd .roll1
  | .roll2 => .rollEnd .roll2
  | .sheet => .sheetPresent

/-- SOURCE_END_SENSOR (R153). -/
def execSourceEndSensor (src : Source) (s : State) : Host.Outcome State Fault Refusal :=
  settle (watched (endCause src) (fun s => !endReading s src) (fun s => Run.done (sourceEnds src s)) s)

/-- SOURCE_END_SENSOR_CLEAR (R153). -/
def execSourceEndSensorClear (src : Source) (s : State) : Host.Outcome State Fault Refusal :=
  settle (watched (endCause src) (fun s => endReading s src) (fun s => Run.done (sourceEndClears src s)) s)

/-- COVER_SENSOR_OPEN (R156). -/
def execCoverSensorOpen (counts : Nat) (s : State) : Host.Outcome State Fault Refusal :=
  settle (watched .cover (fun s => !s.fdc.path.coverOpen) (fun s => Run.done (openCover counts s)) s)

/-- COVER_SENSOR_CLOSE (R156). -/
def execCoverSensorClose (s : State) : Host.Outcome State Fault Refusal :=
  settle (watched .cover (fun s => s.fdc.path.coverOpen) (fun s => Run.done (closeCover s)) s)

end Sys2Proof.Machine
end

