-- ==== Sys2Proof/Machine/LinkRows.lean ====
section
/-!
DEFINITION. The commands of the links: resets, polls, frame errors, READ_REPLY, LINK_RESET, event requests, parameters and
the date (chapters 10 and 11), and REST (chapter 8).
-/

namespace Sys2Proof.Machine

/-- RESET_N_ASSERT (R174). -/
def execResetNAssert (s : State) : Host.Outcome State Fault Refusal := settle (Run.done (assertReset s))

/-- DEVICE_RESET (R174). -/
def execDeviceReset (r : Readings) (s : State) : Host.Outcome State Fault Refusal := settle (deviceReset r s)

/-- STATUS_POLL (R162, R163). -/
def execStatusPoll (p : Port) (s : State) : Host.Outcome State Fault Refusal :=
  settle (event (fun s => Run.done (beginTransaction p s)) s)

/-- FRAME_ERROR (R165); bytes that are no frame error leave only the status byte shown. -/
def execFrameError (p : Port) (bytes : List Byte) (s : State) : Host.Outcome State Fault Refusal :=
  match takenAs p bytes with
  | .error e => settle (transaction p neverSilent (fun s => Run.done (countError p e s)) s)
  | .poll | .frame _ _ => settle (event (fun s => Run.done (beginTransaction p s)) s)

/-- READ_REPLY (R168). -/
def execReadReply (p : Port) (body : List Byte) (s : State) : Host.Outcome State Fault Refusal :=
  settle (transaction p (fun s => decide (body.length ≤ Config.bodyMax) && keepsRest p s)
    (fitting p body fun s => Run.done (readReply p body s)) s)

/-- REPLY_SHIFTED_OUT (R168). -/
def execReplyShiftedOut (p : Port) (s : State) : Host.Outcome State Fault Refusal :=
  settle (event (fun s => Run.done (replyShifted p s)) s)

/-- LINK_RESET (R173). -/
def execLinkReset (p : Port) (body : List Byte) (s : State) : Host.Outcome State Fault Refusal :=
  settle (transaction p neverSilent (fitting p body (linkReset p)) s)

/-- READ_EVENTS (R178). -/
def execReadEvents (p : Port) (body : List Byte) (s : State) : Host.Outcome State Fault Refusal :=
  settle (request .readEvents p body (readEvents body p) s)

/-- CLEAR_EVENTS (R179). -/
def execClearEvents (p : Port) (body : List Byte) (s : State) : Host.Outcome State Fault Refusal :=
  settle (request .clearEvents p body (clearEvents body p) s)

/-- SET_EVENT_ENABLE (R177). -/
def execSetEventEnable (p : Port) (body : List Byte) (s : State) : Host.Outcome State Fault Refusal :=
  settle (request .setEventEnable p body (setEnables body p) s)

/-- GET_PARAM (R170). -/
def execGetParam (p : Port) (body : List Byte) (s : State) : Host.Outcome State Fault Refusal :=
  settle (request .getParam p body (getParam body p) s)

/-- SET_PARAM (R171). -/
def execSetParam (p : Port) (body : List Byte) (s : State) : Host.Outcome State Fault Refusal :=
  settle (request .setParam p body (setParam body p) s)

/-- SET_DATE (R172). -/
def setDate (body : List Byte) (p : Port) (s : State) : Run :=
  let date := field body 0 2
  reply p .setDate .ok (le 2 s.date ++ le 2 date) { s with date := date }

/-- SET_DATE (R172). -/
def execSetDate (p : Port) (body : List Byte) (s : State) : Host.Outcome State Fault Refusal :=
  settle (request .setDate p body (setDate body p) s)

/-- REST (R137, R138). -/
def execRest (p : Port) (body : List Byte) (s : State) : Host.Outcome State Fault Refusal :=
  settle (request .rest p body (fun s => Run.done (takeRest p s)) s)

end Sys2Proof.Machine
end

