-- ==== Sys2Proof/Machine/PageRows.lean ====
section
/-!
DEFINITION. The commands of the Page Admission Unit (chapter 3).
-/

namespace Sys2Proof.Machine

/-- ADMIT_PAGE (R44 to R46). -/
def admitPage (p : Port) (body : List Byte) (s : State) : Run :=
  match admitVerdict s (admitFields body) with
  | .error (r, b) => reply p .admitPage r b s
  | .ok e => Run.done (joinTable e (answer p .admitPage .ok [] s))

/-- ADMIT_PAGE (R44 to R46). -/
def execAdmitPage (p : Port) (body : List Byte) (s : State) : Host.Outcome State Fault Refusal :=
  settle (request .admitPage p body (admitPage p body) s)

/-- END_PAGE (R55). A flag above 1 is answered BAD_FIELD before the tag is looked up; R55 and R180 give no order between it
and UNKNOWN_TAG (log entry 62, DESIGN CHOICE). -/
def endPageRun (p : Port) (body : List Byte) (s : State) : Run :=
  let tag := field body 0 2
  let flag := field body 2 1
  if tag = 0 ∨ flag > 1 then reply p .endPage .badField [] s
  else match s.pau.pages.find? fun e => e.tag == tag with
    | none => reply p .endPage .unknownTag [] s
    | some e =>
      let aborted := flag == 1
      Run.done (endPage e aborted (answer p .endPage .ok (endPageBody e aborted) s))

/-- END_PAGE (R55). -/
def execEndPage (p : Port) (body : List Byte) (s : State) : Host.Outcome State Fault Refusal :=
  settle (request .endPage p body (endPageRun p body) s)

/-- LIST_PAGES (R56). -/
def listPages (p : Port) (body : List Byte) (s : State) : Run :=
  let pos := field body 0 1
  if pos > 3 then reply p .listPages .badField [] s else reply p .listPages .ok (listBody s pos) s

/-- LIST_PAGES (R56). -/
def execListPages (p : Port) (body : List Byte) (s : State) : Host.Outcome State Fault Refusal :=
  settle (request .listPages p body (listPages p body) s)

end Sys2Proof.Machine
end

