-- ==== Sys2Proof/Machine/ServiceRows.lean ====
section
/-!
DEFINITION. The commands of the Station Controller, the Order Queue, the Cleaning Sequencer, the Detector Unit and the
exposure timers (chapters 4 to 8).
-/

namespace Sys2Proof.Machine

/-! ### Station requests (chapter 4) -/

/-- ZONE_REQUEST (R65, R70). -/
def takeZoneRequest (p : Port) (s : State) : Run :=
  let r := zoneRequest s
  (answer p .zoneRequest r.1 [] r.2.1, r.2.2)

/-- ZONE_REQUEST (R65, R70). -/
def execZoneRequest (p : Port) (body : List Byte) (s : State) : Host.Outcome State Fault Refusal :=
  settle (request .zoneRequest p body (takeZoneRequest p) s)

/-- ZONE_RELEASE (R67). -/
def takeZoneRelease (p : Port) (s : State) : Run :=
  if s.stc.state = .granted then releaseZone (answer p .zoneRelease .ok [] s)
  else reply p .zoneRelease .badState [] s

/-- ZONE_RELEASE (R67). -/
def execZoneRelease (p : Port) (body : List Byte) (s : State) : Host.Outcome State Fault Refusal :=
  settle (request .zoneRelease p body (takeZoneRelease p) s)

/-- READ_STATION (R75). -/
def execReadStation (p : Port) (body : List Byte) (s : State) : Host.Outcome State Fault Refusal :=
  settle (request .readStation p body (fun s => reply p .readStation .ok (stationBody s) s) s)

/-- STATION_RETRY (R62). -/
def retryStation (p : Port) (s : State) : Run :=
  if s.stc.state = .fault then beginHoming (answer p .stationRetry .ok [] s)
  else reply p .stationRetry .badState [] s

/-- STATION_RETRY (R62). -/
def execStationRetry (p : Port) (body : List Byte) (s : State) : Host.Outcome State Fault Refusal :=
  settle (request .stationRetry p body (retryStation p) s)

/-! ### Orders (chapter 5) -/

/-- FETCH_ORDER (R83). -/
def fetchOrder (p : Port) (s : State) : Run :=
  match takenOrder s with
  | some o => reply p .fetchOrder .ok (fetchBody s (some o) true) s
  | none =>
    match s.orq.queue with
    | [] => reply p .fetchOrder .noOrder (fetchBody s none false) s
    | o :: _ => reply p .fetchOrder .ok (fetchBody s (some o) false) (takeOldest s)

/-- FETCH_ORDER (R83). -/
def execFetchOrder (p : Port) (body : List Byte) (s : State) : Host.Outcome State Fault Refusal :=
  settle (request .fetchOrder p body (fetchOrder p) s)

/-- ORDER_DONE (R85). -/
def orderDone (p : Port) (body : List Byte) (s : State) : Run :=
  let id := field body 0 1
  let flag := field body 1 1
  if flag > 1 then reply p .orderDone .badField [] s
  else match takenOrder s with
    | some o =>
      if o.id = id then endTaken o (.done (flag == 1)) (answer p .orderDone .ok (orderDoneBody s o) s)
      else reply p .orderDone .late [] s
    | none => reply p .orderDone .late [] s

/-- ORDER_DONE (R85). -/
def execOrderDone (p : Port) (body : List Byte) (s : State) : Host.Outcome State Fault Refusal :=
  settle (request .orderDone p body (orderDone p body) s)

/-! ### Cleaning and detector requests (chapters 6 and 7) -/

/-- The origin of a cleaning request by the port it was taken on (R96). -/
def originOf : Port → CleanOrigin
  | .panel => .panel
  | .job | .raster => .job

/-- CLEAN (R96). -/
def clean (p : Port) (body : List Byte) (s : State) : Run :=
  match headSet? (field body 0 1), level? (field body 1 1), field body 2 1 with
  | some (h :: hs), some l, u =>
    if u > 1 then reply p .clean .badField [] s
    else
      let s := cleanRequest (h :: hs) l (u == 1) (originOf p) s
      (answer p .clean .accepted (cleanBody s) s, [.clsFolded (u == 1)])
  | _, _, _ => reply p .clean .badField [] s

/-- CLEAN (R96). -/
def execClean (p : Port) (body : List Byte) (s : State) : Host.Outcome State Fault Refusal :=
  settle (request .clean p body (clean p body) s)

/-- CANCEL_CLEAN (R97). The reply is formed after the entries and a hold have been cleared and before the cancel acts on the
cycle record; R97 gives no moment (log entry 61, DESIGN CHOICE). -/
def cancelClean (p : Port) (body : List Byte) (s : State) : Run :=
  match headSet? (field body 0 1) with
  | some (h :: hs) =>
    let s := cancelEntries (h :: hs) s
    cancelCycle (h :: hs) (answer p .cancelClean .ok (cleanBody s) s)
  | _ => reply p .cancelClean .badField [] s

/-- CANCEL_CLEAN (R97). -/
def execCancelClean (p : Port) (body : List Byte) (s : State) : Host.Outcome State Fault Refusal :=
  settle (request .cancelClean p body (cancelClean p body) s)

/-- CHECK_NOZZLES and CALIBRATE_DETECTOR (R118). -/
def askTask (k : Kind) (kind : TaskKind) (p : Port) (body : List Byte) (s : State) : Run :=
  match channelSet? (field body 0 1) with
  | some (c :: cs) =>
    if dtuBusy s then reply p k .busySequence [] s
    else createTask kind (c :: cs) p (answer p k .accepted [] s)
  | _ => reply p k .badField [] s

/-- CHECK_NOZZLES (R118). -/
def execCheckNozzles (p : Port) (body : List Byte) (s : State) : Host.Outcome State Fault Refusal :=
  settle (request .checkNozzles p body (askTask .checkNozzles .check p body) s)

/-- CALIBRATE_DETECTOR (R118). -/
def execCalibrateDetector (p : Port) (body : List Byte) (s : State) : Host.Outcome State Fault Refusal :=
  settle (request .calibrateDetector p body (askTask .calibrateDetector .sweep p body) s)

/-- READ_HEALTH (R129). -/
def readHealth (p : Port) (body : List Byte) (s : State) : Run :=
  match index? 6 (field body 0 1) with
  | some c => reply p .readHealth .ok (healthBody s c) s
  | none => reply p .readHealth .badField [] s

/-- READ_HEALTH (R129). -/
def execReadHealth (p : Port) (body : List Byte) (s : State) : Host.Outcome State Fault Refusal :=
  settle (request .readHealth p body (readHealth p body) s)

/-- The degraded flag of a row is cleared (R128). -/
def clearRow (c : Fin 6) (s : State) : State := setHealth s c { health s c with degraded := false }

/-- CLEAR_DEGRADED (R128). -/
def clearDegraded (p : Port) (body : List Byte) (s : State) : Run :=
  match channelSet? (field body 0 1) with
  | some (c :: cs) =>
    Run.done ((c :: cs).foldl (fun s c => clearRow c s) (answer p .clearDegraded .ok [] s))
  | _ => reply p .clearDegraded .badField [] s

/-- CLEAR_DEGRADED (R128). -/
def execClearDegraded (p : Port) (body : List Byte) (s : State) : Host.Outcome State Fault Refusal :=
  settle (request .clearDegraded p body (clearDegraded p body) s)

/-! ### Events of the station -/

/-- WAIT_INK_END (R104). -/
def execWaitInkEnd (s : State) : Host.Outcome State Fault Refusal := settle (event waitInkTest s)

/-- The end sensor of the sled's motion reads true (R58). -/
def sledEnds (s : State) : Run :=
  match s.stc.sled.motion with
  | some (e, _) => sledArrives (sledPins e s)
  | none => Run.done s

/-- SLED_MOTION_DONE (R58). -/
def execSledMotionDone (s : State) : Host.Outcome State Fault Refusal := settle (event sledEnds s)

/-- The end sensor of the wiper's motion reads true (R58). -/
def wiperEnds (s : State) : Run :=
  match s.stc.wiper.motion with
  | some (e, _) => wiperArrives (wiperPins e s)
  | none => Run.done s

/-- WIPER_MOTION_DONE (R58). -/
def execWiperMotionDone (s : State) : Host.Outcome State Fault Refusal := settle (event wiperEnds s)

/-- SLED_MOTION_TIMEOUT (R58, R61). -/
def execSledMotionTimeout (s : State) : Host.Outcome State Fault Refusal :=
  settle (event (fun s => if motionLate s.stc.sled then stationFault .sled s else Run.done s) s)

/-- WIPER_MOTION_TIMEOUT (R58, R61). -/
def execWiperMotionTimeout (s : State) : Host.Outcome State Fault Refusal :=
  settle (event (fun s => if motionLate s.stc.wiper then stationFault .wiper s else Run.done s) s)

/-- The raw reading of an end sensor is `reading` from now on (R75). -/
def setEndPin (e : EndSensor) (reading : Bool) (s : State) : State :=
  match e with
  | .sledDown => { s with pins := { s.pins with sledDown := reading } }
  | .sledUp => { s with pins := { s.pins with sledUp := reading } }
  | .wiperRetracted => { s with pins := { s.pins with wiperRetracted := reading } }
  | .wiperRaised => { s with pins := { s.pins with wiperRaised := reading } }

/-- An end sensor changes: no motion of its part, no effect but the reading; the named end of a motion reading true
completes it (R58). -/
def endSensor (e : EndSensor) (reading : Bool) (s : State) : Run :=
  let s := setEndPin e reading s
  match e, reading with
  | .sledDown, true => if s.stc.sled.motion.any fun m => m.1 == .down then sledArrives s else Run.done s
  | .sledUp, true => if s.stc.sled.motion.any fun m => m.1 == .up then sledArrives s else Run.done s
  | .wiperRetracted, true => if s.stc.wiper.motion.any fun m => m.1 == .retracted then wiperArrives s else Run.done s
  | .wiperRaised, true => if s.stc.wiper.motion.any fun m => m.1 == .raised then wiperArrives s else Run.done s
  | _, false => Run.done s

/-- END_SENSOR_CHANGE_IDLE (R58). -/
def execEndSensorChangeIdle (e : EndSensor) (reading : Bool) (s : State) : Host.Outcome State Fault Refusal :=
  settle (event (endSensor e reading) s)

/-- PUMP_REVOLUTION (R59). -/
def execPumpRevolution (s : State) : Host.Outcome State Fault Refusal := settle (event countRevolution s)

/-- PUMP_STALL (R59, R61). -/
def execPumpStall (s : State) : Host.Outcome State Fault Refusal :=
  settle (event (fun s =>
    if s.stc.pump.running && reached s.stc.stall Config.motionLimit then stationFault .pump s else Run.done s) s)

/-- The home sensor changes; in REST it is not sampled (R139). -/
def homeChange (reading : Bool) (s : State) : Run :=
  if s.rsc.power = .rest then Run.done { s with pins := { s.pins with home := reading } } else homeTo reading s

/-- HOME_SENSOR_CHANGE (R68). -/
def execHomeSensorChange (reading : Bool) (s : State) : Host.Outcome State Fault Refusal :=
  settle (event (homeChange reading) s)

/-- PARK_TIMER_EXPIRY (R68). -/
def execParkTimerExpiry (s : State) : Host.Outcome State Fault Refusal :=
  settle (event (fun s =>
    Run.done (if s.stc.state == .unparked && reached s.stc.park s.params.parkTimeout then parkExpires s else s)) s)

/-- IDLE_CAP_EXPIRY (R69). -/
def execIdleCapExpiry (s : State) : Host.Outcome State Fault Refusal :=
  settle (event (fun s =>
    if s.stc.state == .opened && reached s.stc.idle s.params.idleCapTime then idleExpires s else Run.done s) s)

/-- GRANT_HOLD_EXPIRY (R71). -/
def execGrantHoldExpiry (s : State) : Host.Outcome State Fault Refusal :=
  settle (event (fun s =>
    if s.stc.entry == .ready && reached s.stc.hold s.params.grantHoldTime then holdExpires s else Run.done s) s)

/-- The TAKEN order's timer has reached its limit (R86). -/
def orderExpires (s : State) : Run :=
  match lateOrder s with
  | some o => orderTimeout o s
  | none => Run.done s

/-- ORDER_TIMER_EXPIRY (R86). -/
def execOrderTimerExpiry (s : State) : Host.Outcome State Fault Refusal := settle (event orderExpires s)

/-- WAITING_PLACEMENT_ENTRY (R81). -/
def execWaitingPlacementEntry (s : State) : Host.Outcome State Fault Refusal := settle (event enterWaiting s)

/-- FIRE_SYNC_STROBE (R91, R116); in REST no edge is taken (R139). -/
def execFireSyncStrobe (edge : Edge) (s : State) : Host.Outcome State Fault Refusal :=
  settle (event (fun s => Run.done (if s.rsc.power = .rest then s else strobe edge s)) s)

/-- DETECTOR_SAMPLE (R116). -/
def execDetectorSample (interrupted : Bool) (s : State) : Host.Outcome State Fault Refusal :=
  settle (event (fun s => Run.done (takeSample interrupted s)) s)

/-- EXPOSURE_EXPIRY (R133). -/
def execExposureExpiry (h : Fin 3) (s : State) : Host.Outcome State Fault Refusal :=
  settle (event (fun s => if expiryReached s h then exposureExpires h s else Run.done s) s)

end Sys2Proof.Machine
end

