-- ==== Sys2Proof/Machine/SupplyRows.lean ====
section
/-!
DEFINITION. The commands of the Supply Unit, the cartridge bus, the Usage Accounting Unit and the waste account
(chapters 1 and 2), with the posted queue and FENCE.
-/

namespace Sys2Proof.Machine

/-- A reading of one channel's records: index 0 to 5, BAD_FIELD above. -/
def readByChannel (k : Kind) (p : Port) (body : List Byte) (make : State → Fin 6 → List Byte) (s : State) : Run :=
  match index? 6 (field body 0 1) with
  | some c => reply p k .ok (make s c) s
  | none => reply p k .badField [] s

/-- READ_CHANNEL (R3). -/
def execReadChannel (p : Port) (body : List Byte) (s : State) : Host.Outcome State Fault Refusal :=
  settle (request .readChannel p body (readByChannel .readChannel p body channelBody) s)

/-- READ_BAY (R13). -/
def readBay (p : Port) (body : List Byte) (s : State) : Run :=
  match index? 12 (field body 0 1) with
  | some b => reply p .readBay .ok (bayBody s b) s
  | none => reply p .readBay .badField [] s

/-- READ_BAY (R13). -/
def execReadBay (p : Port) (body : List Byte) (s : State) : Host.Outcome State Fault Refusal :=
  settle (request .readBay p body (readBay p body) s)

/-- A cartridge in AWAIT_CONFIRM is confirmed (R9). -/
def confirmBay (p : Port) (body : List Byte) (s : State) : Run :=
  match index? 12 (field body 0 1) with
  | none => reply p .confirmCartridge .badField [] s
  | some b =>
    if (bay s b).state = .awaitConfirm then
      standbyRun b (setBay (answer p .confirmCartridge .ok [] s) b { bay s b with confirmed := true })
    else reply p .confirmCartridge .badState [] s

/-- CONFIRM_CARTRIDGE (R9). -/
def execConfirmCartridge (p : Port) (body : List Byte) (s : State) : Host.Outcome State Fault Refusal :=
  settle (request .confirmCartridge p body (confirmBay p body) s)

/-- A cartridge in AWAIT_CONFIRM is rejected (R9); the PAU is handed the channel as for every change of a bay's state
(R54). -/
def rejectBay (p : Port) (body : List Byte) (s : State) : Run :=
  match index? 12 (field body 0 1) with
  | none => reply p .rejectCartridge .badField [] s
  | some b =>
    if (bay s b).state = .awaitConfirm then
      Run.done (checkOver (channelOf b)
        (setBay (answer p .rejectCartridge .ok [] s) b { bay s b with state := .rejected }))
    else reply p .rejectCartridge .badState [] s

/-- REJECT_CARTRIDGE (R9). -/
def execRejectCartridge (p : Port) (body : List Byte) (s : State) : Host.Outcome State Fault Refusal :=
  settle (request .rejectCartridge p body (rejectBay p body) s)

/-- A refill FAULT is cleared (R17). -/
def clearRefill (p : Port) (body : List Byte) (s : State) : Run :=
  match index? 6 (field body 0 1) with
  | none => reply p .clearRefillFault .badField [] s
  | some c =>
    if (chan s c).refill = .fault then
      let s' := clearFault c (answer p .clearRefillFault .ok [] s)
      (s', supplyActs s s')
    else reply p .clearRefillFault .badState [] s

/-- CLEAR_REFILL_FAULT (R17). -/
def execClearRefillFault (p : Port) (body : List Byte) (s : State) : Host.Outcome State Fault Refusal :=
  settle (request .clearRefillFault p body (clearRefill p body) s)

/-- READ_WASTE (R40). -/
def execReadWaste (p : Port) (body : List Byte) (s : State) : Host.Outcome State Fault Refusal :=
  settle (request .readWaste p body (fun s => reply p .readWaste .ok (wasteBody s) s) s)

/-- READ_TOTALS (R25). -/
def execReadTotals (p : Port) (body : List Byte) (s : State) : Host.Outcome State Fault Refusal :=
  settle (request .readTotals p body (readByChannel .readTotals p body totalsBody) s)

/-- USAGE: posted on the Raster Port (R169), refused elsewhere (R166). -/
def execUsage (p : Port) (body : List Byte) (s : State) : Host.Outcome State Fault Refusal :=
  settle (transaction p neverSilent
    (fitting p body fun s =>
      if p = .raster then Run.done (postUsage body s) else dispatch .usage p body Run.done s) s)

/-- FENCE (R33). -/
def execFence (p : Port) (body : List Byte) (s : State) : Host.Outcome State Fault Refusal :=
  settle (request .fence p body (fun s => Run.done (takeFence s)) s)

/-- USAGE_APPLY (R26). -/
def execUsageApply (s : State) : Host.Outcome State Fault Refusal := settle (event usageStep s)

/-- FENCE_RELEASE (R33). -/
def execFenceRelease (s : State) : Host.Outcome State Fault Refusal :=
  settle (event (fun s => Run.done (if fenceDue s then releaseFence s else s)) s)

/-- BUS_TRANSACTION_START (R20, R22). -/
def execBusTransactionStart (s : State) : Host.Outcome State Fault Refusal :=
  settle (event (fun s => Run.done (startTrans s)) s)

/-- BUS_ATTEMPT_UNACKNOWLEDGED (R20). -/
def execBusAttemptUnacknowledged (s : State) : Host.Outcome State Fault Refusal :=
  settle (event (fun s => Run.done (attemptFails s)) s)

/-- The bay chip being read answers with `r` (R6, R20). -/
def chipRead (r : Vector Byte 18) (s : State) : Run :=
  match executing s with
  | some ⟨.bay b, .read, scan, n⟩ =>
    if n < Config.busAttempts then
      let s := ended s
      if (bay s b).state = .reading then judgeBay b scan (chipFields r) s else Run.done s
    else Run.done s
  | _ => Run.done s

/-- CHIP_READ_DONE (R6). -/
def execChipReadDone (record : Vector Byte 18) (s : State) : Host.Outcome State Fault Refusal :=
  settle (event (chipRead record) s)

/-- The read of a bay chip fails (R7, R20). -/
def chipReadFails (s : State) : State :=
  match executing s with
  | some ⟨.bay b, .read, scan, n⟩ =>
    if canFail ⟨.bay b, .read, scan, n⟩ then
      let s := ended s
      if (bay s b).state = .reading then checkOver (channelOf b) (setBay s b { bay s b with state := .fault }) else s
    else s
  | _ => s

/-- CHIP_READ_FAIL (R7). -/
def execChipReadFail (s : State) : Host.Outcome State Fault Refusal :=
  settle (event (fun s => Run.done (chipReadFails s)) s)

/-- The waste chip answers with `r` (R35). -/
def wasteRead (r : Vector Byte 6) (s : State) : Run :=
  match executing s with
  | some ⟨.waste, .read, _, n⟩ =>
    if n < Config.busAttempts then
      let s := ended s
      if s.uau.waste.state = .reading then fitWaste r s else Run.done s
    else Run.done s
  | _ => Run.done s

/-- WASTE_READ_DONE (R35). -/
def execWasteReadDone (record : Vector Byte 6) (s : State) : Host.Outcome State Fault Refusal :=
  settle (event (wasteRead record) s)

/-- The read of the waste chip fails (R35). -/
def wasteReadFails (s : State) : Run :=
  match executing s with
  | some ⟨.waste, .read, scan, n⟩ =>
    if canFail ⟨.waste, .read, scan, n⟩ then
      let s := ended s
      if s.uau.waste.state = .reading then wasteFault s else Run.done s
    else Run.done s
  | _ => Run.done s

/-- WASTE_READ_FAIL (R35). -/
def execWasteReadFail (s : State) : Host.Outcome State Fault Refusal := settle (event wasteReadFails s)

/-- An acknowledged write clears the chip-stale flag (R22, R39). -/
def chipWritten (s : State) : State :=
  match executing s with
  | some ⟨chip, .write, _, n⟩ => if n < Config.busAttempts then setStale chip false (ended s) else s
  | _ => s

/-- CHIP_WRITE_DONE (R22, R39). -/
def execChipWriteDone (s : State) : Host.Outcome State Fault Refusal :=
  settle (event (fun s => Run.done (chipWritten s)) s)

/-- A write that fails sets the chip-stale flag and raises CHIP_STALE (R22, R39). -/
def chipWriteFails (s : State) : State :=
  match executing s with
  | some ⟨chip, .write, scan, n⟩ =>
    if canFail ⟨chip, .write, scan, n⟩ then
      raise .chipStale (one (Chip.code chip)) none (setStale chip true (ended s))
    else s
  | _ => s

/-- CHIP_WRITE_FAIL (R22, R39). -/
def execChipWriteFail (s : State) : Host.Outcome State Fault Refusal :=
  settle (event (fun s => Run.done (chipWriteFails s)) s)

/-- A bay's presence switch reads `closed` from now on. -/
def setPresence (b : Fin 12) (closed : Bool) (s : State) : State :=
  { s with pins := { s.pins with presence := vset s.pins.presence b closed } }

/-- BAY_PRESENCE_CLOSE (R5). -/
def execBayPresenceClose (b : Fin 12) (s : State) : Host.Outcome State Fault Refusal :=
  settle (watched (.bayPresence b) (fun s => !s.pins.presence.get b)
    (fun s => Run.done (insertBay b false (setPresence b true s))) s)

/-- The bay's cartridge is taken out (R10). -/
def bayGone (b : Fin 12) (s : State) : Run :=
  let s' := removeBay b (setPresence b false s)
  (s', supplyActs s s')

/-- BAY_PRESENCE_OPEN (R10). -/
def execBayPresenceOpen (b : Fin 12) (s : State) : Host.Outcome State Fault Refusal :=
  settle (watched (.bayPresence b) (fun s => s.pins.presence.get b) (bayGone b) s)

/-- The waste presence switch reads `closed` from now on. -/
def setWastePresence (closed : Bool) (s : State) : State := { s with pins := { s.pins with wastePresence := closed } }

/-- WASTE_PRESENCE_CLOSE (R35). -/
def execWastePresenceClose (s : State) : Host.Outcome State Fault Refusal :=
  settle (watched .wastePresence (fun s => !s.pins.wastePresence) (fun s => insertWaste (setWastePresence true s)) s)

/-- WASTE_PRESENCE_OPEN (R38). -/
def execWastePresenceOpen (s : State) : Host.Outcome State Fault Refusal :=
  settle (watched .wastePresence (fun s => s.pins.wastePresence) (fun s => removeWaste (setWastePresence false s)) s)

/-- A stroke ends (R15). -/
def strokeRun (c : Fin 6) (ink : Bool) (s : State) : Run :=
  let s' := strokeDone c ink s
  (s', supplyActs s s')

/-- STROKE_COMPLETE (R15). -/
def execStrokeComplete (c : Fin 6) (ink : Bool) (s : State) : Host.Outcome State Fault Refusal :=
  settle (event (strokeRun c ink) s)

/-- A float changes (R18). -/
def floatRun (c : Fin 6) (f : FloatLevel) (s : State) : Run :=
  let s' := floatTo c f s
  (s', supplyActs s s')

/-- FLOAT_CHANGE (R18). -/
def execFloatChange (c : Fin 6) (f : FloatLevel) (s : State) : Host.Outcome State Fault Refusal :=
  settle (watched (.float c) (fun s => decide ((chan s c).float ≠ f)) (floatRun c f) s)

end Sys2Proof.Machine
end

