-- ==== Sys2Proof/Machine/Dispatch.lean ====
section
/-!
DEFINITION. The meaning of each command: one arm per constructor of `Instr`.
-/

namespace Sys2Proof.Machine

def exec (i : Instr) (s : State) : Host.Outcome State Fault Refusal :=
  match i with
  | .resetNAssert => Sys2Proof.Machine.execResetNAssert s
  | .deviceReset r => Sys2Proof.Machine.execDeviceReset r s
  | .statusPoll p => Sys2Proof.Machine.execStatusPoll p s
  | .frameError p bytes => Sys2Proof.Machine.execFrameError p bytes s
  | .readReply p body => Sys2Proof.Machine.execReadReply p body s
  | .linkReset p body => Sys2Proof.Machine.execLinkReset p body s
  | .readEvents p body => Sys2Proof.Machine.execReadEvents p body s
  | .clearEvents p body => Sys2Proof.Machine.execClearEvents p body s
  | .setEventEnable p body => Sys2Proof.Machine.execSetEventEnable p body s
  | .getParam p body => Sys2Proof.Machine.execGetParam p body s
  | .setParam p body => Sys2Proof.Machine.execSetParam p body s
  | .setDate p body => Sys2Proof.Machine.execSetDate p body s
  | .readChannel p body => Sys2Proof.Machine.execReadChannel p body s
  | .readBay p body => Sys2Proof.Machine.execReadBay p body s
  | .confirmCartridge p body => Sys2Proof.Machine.execConfirmCartridge p body s
  | .rejectCartridge p body => Sys2Proof.Machine.execRejectCartridge p body s
  | .clearRefillFault p body => Sys2Proof.Machine.execClearRefillFault p body s
  | .readWaste p body => Sys2Proof.Machine.execReadWaste p body s
  | .readTotals p body => Sys2Proof.Machine.execReadTotals p body s
  | .usage p body => Sys2Proof.Machine.execUsage p body s
  | .fence p body => Sys2Proof.Machine.execFence p body s
  | .admitPage p body => Sys2Proof.Machine.execAdmitPage p body s
  | .endPage p body => Sys2Proof.Machine.execEndPage p body s
  | .listPages p body => Sys2Proof.Machine.execListPages p body s
  | .zoneRequest p body => Sys2Proof.Machine.execZoneRequest p body s
  | .zoneRelease p body => Sys2Proof.Machine.execZoneRelease p body s
  | .readStation p body => Sys2Proof.Machine.execReadStation p body s
  | .stationRetry p body => Sys2Proof.Machine.execStationRetry p body s
  | .fetchOrder p body => Sys2Proof.Machine.execFetchOrder p body s
  | .orderDone p body => Sys2Proof.Machine.execOrderDone p body s
  | .clean p body => Sys2Proof.Machine.execClean p body s
  | .cancelClean p body => Sys2Proof.Machine.execCancelClean p body s
  | .checkNozzles p body => Sys2Proof.Machine.execCheckNozzles p body s
  | .calibrateDetector p body => Sys2Proof.Machine.execCalibrateDetector p body s
  | .readHealth p body => Sys2Proof.Machine.execReadHealth p body s
  | .clearDegraded p body => Sys2Proof.Machine.execClearDegraded p body s
  | .rest p body => Sys2Proof.Machine.execRest p body s
  | .loadMedia p body => Sys2Proof.Machine.execLoadMedia p body s
  | .unloadMedia p body => Sys2Proof.Machine.execUnloadMedia p body s
  | .advance p body => Sys2Proof.Machine.execAdvance p body s
  | .cut p body => Sys2Proof.Machine.execCut p body s
  | .manualFeed p body => Sys2Proof.Machine.execManualFeed p body s
  | .releaseHold p body => Sys2Proof.Machine.execReleaseHold p body s
  | .readFeed p body encoder => Sys2Proof.Machine.execReadFeed p body encoder s
  | .usageApply => Sys2Proof.Machine.execUsageApply s
  | .fenceRelease => Sys2Proof.Machine.execFenceRelease s
  | .busTransactionStart => Sys2Proof.Machine.execBusTransactionStart s
  | .busAttemptUnacknowledged => Sys2Proof.Machine.execBusAttemptUnacknowledged s
  | .chipReadDone record => Sys2Proof.Machine.execChipReadDone record s
  | .chipReadFail => Sys2Proof.Machine.execChipReadFail s
  | .wasteReadDone record => Sys2Proof.Machine.execWasteReadDone record s
  | .wasteReadFail => Sys2Proof.Machine.execWasteReadFail s
  | .chipWriteDone => Sys2Proof.Machine.execChipWriteDone s
  | .chipWriteFail => Sys2Proof.Machine.execChipWriteFail s
  | .bayPresenceClose b => Sys2Proof.Machine.execBayPresenceClose b s
  | .bayPresenceOpen b => Sys2Proof.Machine.execBayPresenceOpen b s
  | .wastePresenceClose => Sys2Proof.Machine.execWastePresenceClose s
  | .wastePresenceOpen => Sys2Proof.Machine.execWastePresenceOpen s
  | .strokeComplete c ink => Sys2Proof.Machine.execStrokeComplete c ink s
  | .floatChange c reading => Sys2Proof.Machine.execFloatChange c reading s
  | .waitInkEnd => Sys2Proof.Machine.execWaitInkEnd s
  | .sledMotionDone => Sys2Proof.Machine.execSledMotionDone s
  | .wiperMotionDone => Sys2Proof.Machine.execWiperMotionDone s
  | .sledMotionTimeout => Sys2Proof.Machine.execSledMotionTimeout s
  | .wiperMotionTimeout => Sys2Proof.Machine.execWiperMotionTimeout s
  | .endSensorChangeIdle e reading => Sys2Proof.Machine.execEndSensorChangeIdle e reading s
  | .pumpRevolution => Sys2Proof.Machine.execPumpRevolution s
  | .pumpStall => Sys2Proof.Machine.execPumpStall s
  | .homeSensorChange reading => Sys2Proof.Machine.execHomeSensorChange reading s
  | .parkTimerExpiry => Sys2Proof.Machine.execParkTimerExpiry s
  | .idleCapExpiry => Sys2Proof.Machine.execIdleCapExpiry s
  | .grantHoldExpiry => Sys2Proof.Machine.execGrantHoldExpiry s
  | .orderTimerExpiry => Sys2Proof.Machine.execOrderTimerExpiry s
  | .waitingPlacementEntry => Sys2Proof.Machine.execWaitingPlacementEntry s
  | .fireSyncStrobe edge => Sys2Proof.Machine.execFireSyncStrobe edge s
  | .detectorSample interrupted => Sys2Proof.Machine.execDetectorSample interrupted s
  | .exposureExpiry h => Sys2Proof.Machine.execExposureExpiry h s
  | .arbiterServe => Sys2Proof.Machine.execArbiterServe s
  | .loadMotionDone => Sys2Proof.Machine.execLoadMotionDone s
  | .unloadMotionDone counts => Sys2Proof.Machine.execUnloadMotionDone counts s
  | .advanceDone => Sys2Proof.Machine.execAdvanceDone s
  | .cutAdvanceDone => Sys2Proof.Machine.execCutAdvanceDone s
  | .manualFeedDone => Sys2Proof.Machine.execManualFeedDone s
  | .feedMotionTimeout counts => Sys2Proof.Machine.execFeedMotionTimeout counts s
  | .leadingEdgeChange media counts => Sys2Proof.Machine.execLeadingEdgeChange media counts s
  | .pathEntryChange media counts => Sys2Proof.Machine.execPathEntryChange media counts s
  | .sourceEndSensor src => Sys2Proof.Machine.execSourceEndSensor src s
  | .coverSensorOpen counts => Sys2Proof.Machine.execCoverSensorOpen counts s
  | .coverSensorClose => Sys2Proof.Machine.execCoverSensorClose s
  | .sourceEndSensorClear src => Sys2Proof.Machine.execSourceEndSensorClear src s
  | .replyShiftedOut p => Sys2Proof.Machine.execReplyShiftedOut p s

end Sys2Proof.Machine
end

