-- ==== Sys2Proof/Machine/Step.lean ====
section
/-!
DEFINITION. The step: the command at the front of the queue, or what the part does of itself on an empty queue.
-/

namespace Sys2Proof.Machine

/-- On an empty queue the part begins its start-up actions if they are still to begin (R174), and otherwise one
millisecond of its time base passes (log entries 1 and 3). -/
def idleStep (s : State) : Host.Outcome State Fault Refusal :=
  if s.startup && !s.resetLow then settle (startUp s) else .next (tick s)

/-- One step: take the command at the front of the queue and run it on the state with the queue's rest. -/
def step (s : State) : Host.Outcome State Fault Refusal :=
  match s.pending with
  | [] => idleStep s
  | c :: rest => exec c { s with pending := rest }

/-- `s` with the command a table word spells put at the front of its queue; no word spells one. -/
def State.withFetchWord (s : State) (nbits w : Nat) : State :=
  match decodeTableWord nbits w with
  | some c => { s with pending := c :: s.pending }
  | none => s

end Sys2Proof.Machine
end

