-- ==== Sys2Proof/Machine/Outputs.lean ====
section
/-!
DEFINITION. What the part drives, as functions of its state: the data outputs of the ports, the cartridge bus and the
actuators (00_scope section 4, R139, R162, R174, R187). The attention lines and the status byte are in Flags.lean.
-/

namespace Sys2Proof.Machine

/-- Byte `n` of port `p`'s present transaction as the part shifts it out: byte 0 the status byte; behind the request frame
the reply frame of a READ_REPLY, and the filler FFH for every other kind and once the reply frame is out (R162, R165); none,
undriven, while RESET_N is held low (R174). While the request frame's own bytes are clocked in, from byte 1 on, R162 gives
no output, and the model shifts out FFH (log entry 50, DESIGN CHOICE). -/
def dataByte (s : State) (p : Port) (n : Nat) : Option Byte :=
  if s.resetLow then none else some ((engine s p).out.getD n 0xFF)

/-- The transfer under way on the cartridge bus (R20, R187). -/
def busTransfer (s : State) : Option Transfer := (executing s).map fun t => t.transfer s.spu.bus.value

/-- The actuators are energized at all: not in REST and not while RESET_N is low (R139, R174). -/
def energized (s : State) : Bool := s.rsc.power == .run && !s.resetLow

/-- The refill pump of channel `c` is driven: a stroke is in flight (R14, R15). -/
def refillPump (s : State) (c : Fin 6) : Bool := energized s && (chan s c).stroke != .none

/-- The suction pump is driven (R59). -/
def suctionPump (s : State) : Bool := energized s && s.stc.pump.running

/-- The head the selector valve joins (R59). -/
def selectorValve (s : State) : Option (Fin 3) := if energized s then s.stc.selector else none

/-- The end the sled drive runs to (R58). -/
def sledDrive (s : State) : Option SledEnd := if energized s then s.stc.sled.motion.map Prod.fst else none

/-- The end the wiper drive runs to (R58). -/
def wiperDrive (s : State) : Option WiperEnd := if energized s then s.stc.wiper.motion.map Prod.fst else none

/-- The feed motor's direction while it runs: true is reverse (R148). -/
def feedMotor (s : State) : Option Bool :=
  if energized s then s.fdc.motion.map fun m => m.kind.code.2 == 1 else none

end Sys2Proof.Machine
end

