-- ==== Sys2Proof/Safety.lean ====
section
/-!
DEFINITION. What a safe step is, when the part takes a frame, and the laws of the records that every step keeps.
-/

namespace Sys2Proof.Machine

/-- A step is safe when it answers a next state: no fault and no refusal. -/
def Safe (o : Host.Outcome State Fault Refusal) : Prop := ∃ t, o = .next t

/-- RESET_N is high and the part is in RUN. -/
def Awake (s : State) : Prop := s.resetLow = false ∧ s.rsc.power = .run

/-- The reply slot of port `p` is EMPTY or COLLECTED, so that a request is not answered BUSY (R166 step 4). -/
def SlotFree (s : State) (p : Port) : Prop := (engine s p).slot = .empty ∨ ∃ r, (engine s p).slot = .collected r

/-- The reply slot of port `p` is HELD or READY (R166 step 4). -/
def SlotTaken (s : State) (p : Port) : Prop :=
  (∃ k, (engine s p).slot = .held k) ∨ ∃ r, (engine s p).slot = .ready r

/-- The part takes a request of kind `k` with body `body` on port `p` to its owner: it is awake, the slot is free, the port
may send the kind and the body has its fixed length (R166). -/
def Takes (s : State) (k : Kind) (p : Port) (body : List Byte) : Prop :=
  Awake s ∧ SlotFree s p ∧ k.permitted p = true ∧ body.length = k.bodyLength

/-- Port `p`'s transaction with the request of kind `k` has been answered with `r` and `body`, and nothing else has
changed (R162, R163, R167). -/
def answered (p : Port) (k : Kind) (r : Result) (body : List Byte) (s : State) : State :=
  answer p k r body (beginTransaction p s)

/-- `Inv` is kept by every step that answers a next state. -/
def KeptByStep (Inv : State → Prop) : Prop := ∀ s t : State, Inv s → step s = .next t → Inv t

/-- No free moment moves the station on: no claim waits, no grant is waited for and no capping is due (R73). -/
def Unclaimed (s : State) : Prop := s.stc.claims = [] ∧ s.stc.entry ≠ .waiting ∧ s.stc.cappingDue = false

/-- No head has expiry due, so that the EXT does nothing on a state the station enters (R135). -/
def NoneDue (s : State) : Prop := ∀ h, (exposure s h).due = false

/-! ### Words the statements share -/

/-- Event `k` has been raised once since `s`, with subjects `m` and detail `d`: on every port of its routing set its flag is
set, its counter one higher, its subject set joined and the detail kept (R175). -/
def Told (k : EventKind) (m : BitVec 16) (d : Option Detail) (s t : State) : Prop :=
  ∀ p, k.routed p = true →
    let f := (s.evu.get p).flags.get k.index
    let g := (t.evu.get p).flags.get k.index
    g.set = true ∧ g.count = min (f.count + 1) 255 ∧ g.subjects = f.subjects ||| m ∧ g.detail = d

/-- Event `k` has not been raised since `s`: its flag record stands on every port (R175). -/
def Untold (k : EventKind) (s t : State) : Prop :=
  ∀ p, (t.evu.get p).flags.get k.index = (s.evu.get p).flags.get k.index

/-- The record of a channel on which the bay of `side` becomes active with refill mark `mark` (R8, R11): SUPPLIED, a FAULT
turned to IDLE, and a refill begun where R14 calls for one. -/
def Channel.promoted (x : Channel) (side : Side) (mark : Nat) : Channel :=
  let y := { x with active := some side, supply := .supplied }
  if x.refill = .refilling then y
  else if (x.float = .low ∨ x.estimate < mark) ∧ x.float ≠ .high then
    { y with refill := .refilling, strokes := 0, stroke := strokeFrom (some side) }
  else { y with refill := .idle }

/-- Waste-attributed debits of `amount` nL together have been taken since `s` (R36, R37, R39): a fitted cartridge's account
and state, with the event of the state entered and the write-back step; the orphan-waste counter where none is fitted. -/
def WasteTaken (amount : Nat) (s t : State) : Prop :=
  let w := s.uau.waste
  (∀ d, w.fittedData = some d →
    let e := d.estimate + amount
    let a := d.added + amount
    let now : WasteState :=
      if e < d.capacity * 900000 then .fitted else if e < d.capacity * 980000 then .nearFull else .full
    t.uau.waste = { w with state := now, data := some { d with estimate := e, added := if a < 1000000 then a else 0 } } ∧
      t.uau.orphan = s.uau.orphan ∧ t.spu.bus = (if a < 1000000 then s.spu.bus else s.spu.bus.pushWrite .waste) ∧
      (now = .nearFull → w.state ≠ now → Told .wasteNearFull 0 none s t) ∧
      (now = .full → w.state ≠ now → Told .wasteFull 0 none s t)) ∧
  (w.fittedData = none →
    t.uau.waste = w ∧ t.spu.bus = s.spu.bus ∧ (amount ≠ 0 → t.uau.orphan = min (s.uau.orphan + amount) 4294967295) ∧
      (amount = 0 → s.uau.orphan ≤ 4294967295 → t.uau.orphan = s.uau.orphan))

/-- A cleaning cycle is in stage `st` with no abort pending, in the session of the CLS (R100, R105). -/
def CycleIn (s : State) (st : Stage) : Prop :=
  s.cls.stage = st ∧ s.cls.abort = none ∧ s.stc.state = .servicing ∧ s.stc.holder = some .cls ∧ s.stc.handingBack = false

/-- The DTU's own task `k` runs with the values `x` captured, in the DTU's session, no check of the CLS beside it (R119). -/
def TaskRuns (s : State) (k : Task) (x : Captured) : Prop :=
  s.dtu.task = some k ∧ k.phase = .running ∧ k.captured = some x ∧ s.dtu.clsCheck = none ∧ s.dtu.machine ≠ .idle ∧
    s.stc.state = .servicing ∧ s.stc.holder = some .dtu ∧ s.stc.handingBack = false

/-- The sled is DOWN, the wiper RETRACTED and the carriage out of park, so that a zone handed back goes to UNPARKED with no
motion (R74), and no head has expiry due. -/
def HandsBackUnparked (s : State) : Prop :=
  sledIsDown s = true ∧ wiperIsRetracted s = true ∧ s.stc.home = false ∧ NoneDue s

/-- The station's record once a zone has been handed back to UNPARKED (R68, R74). -/
def Stc.handedBack (x : Stc) : Stc :=
  { x with
    state := .unparked, holder := none, handingBack := false, park := some 0, parkRaised := false, idle := none }

/-- A free moment at which the arbiter acts (R73): the station is OPEN or CAPPED, no order is TAKEN and the entry is not
READY. -/
def FreeToServe (s : State) : Prop :=
  (s.stc.state = .opened ∨ s.stc.state = .capped) ∧ anyTaken s = false ∧ s.stc.entry ≠ .ready

/-- The station's record once the zone has been handed to `who` as a session, its claim gone from the list (R74). -/
def Stc.inSession (x : Stc) (who : Claimant) : Stc :=
  { x with
    state := .servicing, claims := x.claims.filter fun c => c.who != who, holder := some who, handingBack := false
    idle := none, cappingDue := false }

/-- The station's record as the CLS hands the zone back: the pump stopped and the selector released (R59, R74, R111). -/
def Stc.handsBack (x : Stc) : Stc :=
  { x with
    selector := none, pump := { x.pump with running := false }, stall := if x.pump.running then none else x.stall
    handingBack := true }

/-- A sled or wiper motion is in progress. -/
def Moving (s : State) : Prop := s.stc.sled.motion ≠ none ∨ s.stc.wiper.motion ≠ none

/-- A zone handed back from `s` waits for a motion: one in progress, the wiper's to RETRACTED, or, out of park, the sled's
to DOWN (R74). -/
def HandBackWaits (s : State) : Prop :=
  Moving s ∨ (wiperIsRetracted s = false ∧ s.pins.wiperRetracted = false) ∨
    (wiperIsRetracted s = true ∧ sledIsUp s = true ∧ s.stc.home = false ∧ s.pins.sledDown = false)

/-- The station's record once the CLS has handed the zone back from `s` and the handback waits for its motion (R74). -/
def HandBackBegun (s t : State) : Prop :=
  let x : Stc := { s.stc.handsBack with claims := t.stc.claims }
  (Moving s → t.stc = x) ∧
    (¬ Moving s → wiperIsRetracted s = false → s.pins.wiperRetracted = false →
      t.stc = { x with wiper := { x.wiper with motion := some (.retracted, 0) } }) ∧
    (wiperIsRetracted s = true → sledIsUp s = true → s.stc.home = false → s.pins.sledDown = false →
      t.stc = { x with sled := { x.sled with motion := some (.down, 0) } })

/-- A suction run of `revs` revolutions at head `h` has been debited since `s` (R32): the books of the head's two channels
and their estimates, and no other channel's. -/
def SuctionBooked (h : Fin 3) (revs : Nat) (s t : State) : Prop :=
  ∀ c,
    let amount := if headOf c = h then revs * s.params.suctionYield.get c else 0
    (chan t c).estimate = (chan s c).estimate - amount ∧
      book t c =
        { book s c with
          total := (book s c).total + amount, suction := (book s c).suction + amount, waste := (book s c).waste + amount
          overdraw :=
            if amount = 0 then (book s c).overdraw
            else min ((book s c).overdraw + (amount - (chan s c).estimate)) 4294967295 }

/-- The cycle's heads as a stopped run leaves them: its revolutions counted to the head the selector joins (R111). -/
def headsStopped (s : State) : List CycleHead :=
  s.cls.heads.map fun x =>
    if s.stc.pump.running = true ∧ s.stc.selector = some x.head then { x with done := s.stc.pump.revs } else x

/-- The cleaning record once a cycle with the heads `hs` has been aborted with `cause` and handed back, the table and the
cancelled heads aside (R111). -/
def Cls.aborted (x : Cls) (cause : CleanCause) (hs : List CycleHead) : Cls :=
  { x with
    stage := .none, heads := [], suckLeft := [], spitLeft := [], outstanding := [], escalated := 0, abort := none
    last := ⟨hs.map fun y => ⟨y.head, y.level, y.done, none⟩, some cause⟩ }

/-- Row `c` has been recorded since `s` with group count `g` and pass limit `limit` from the groups `seen`, and no other
row, and HEALTH_CHANGED raised if its failed set differs (R123). -/
def RowRecorded (c : Fin 6) (g limit : Nat) (seen : List Nat) (s t : State) : Prop :=
  let x := health s c
  let failed := (List.range g).filter fun n => !seen.contains n
  health t c =
      { x with
        groupCount := g, failed := failed, check := if failed.length ≤ limit then .pass else .fail
        degraded := x.degraded && decide (limit < failed.length), time := some s.timeBase } ∧
    (∀ d, d ≠ c → health t d = health s d) ∧
    (failed ≠ x.failed ∨ g ≠ x.groupCount → Told .healthChanged (one c.val) none s t) ∧
    (failed = x.failed → g = x.groupCount → Untold .healthChanged s t)

/-- The heads `hs` of a cycle have been folded back into the table since `s`, the cancelled left out (R111). -/
def FoldedBack (hs : List CycleHead) (cancelled : List (Fin 3)) (s t : State) : Prop :=
  ∀ h, entryOf t h =
    (hs.filter fun x => x.head == h && !cancelled.contains h).foldl (fun e x => e.fold x.level x.urgent x.origins)
      (entryOf s h)

/-- The requests of the rows a sweep finished with `results` have been folded into the table since `s` (R99, R122). -/
def SweepFolded (results : List (Fin 6 × SweepResult)) (s t : State) : Prop :=
  ∀ h, entryOf t h =
    (results.filter fun r => headOf r.1 == h).foldl
      (fun e r => match r.2 with
        | .narrow => e.fold .light false (OriginSet.of .sweep)
        | .noSignal => e.fold .normal false (OriginSet.of .sweep)
        | .none | .ok | .clipped => e)
      (entryOf s h)

/-! ### Laws of the records -/

/-- Every channel's total debit equals its media total plus its waste total, and its usage debit plus its suction debit;
its residue is below one nanolitre, and its overdraw fits four bytes (R24, R30). -/
def BooksBalance (s : State) : Prop :=
  ∀ c, (book s c).total = (book s c).media + (book s c).waste ∧ (book s c).total = (book s c).usage + (book s c).suction ∧
    (book s c).residue < Config.residueUnit ∧ (book s c).overdraw ≤ Config.u32Max

/-- No sub-tank estimate exceeds 30,000,000 nL (R1). -/
def TanksBounded (s : State) : Prop := ∀ c, (chan s c).estimate ≤ Config.subTankMax

/-- Every supply state follows from its channel's record and the reserve mark (R2). -/
def SupplyFollows (s : State) : Prop := ∀ c, (chan s c).supply = supplyOf s.params.reserveMark (chan s c)

/-- A bay is ACTIVE exactly when it is its channel's active bay, so that each channel has at most one; a stroke that draws
from a bay draws from the active bay; and no bay's estimate exceeds its labelled capacity (R1, R4). -/
def BaysLawful (s : State) : Prop :=
  (∀ c side, (chan s c).active = some side ↔ (bay s (bayOf c side)).state = .active) ∧
    (∀ c, (chan s c).stroke = .a → (chan s c).active = some .a) ∧
    (∀ c, (chan s c).stroke = .b → (chan s c).active = some .b) ∧
    ∀ b, ∀ i, (bay s b).ink = some i → i.estimate ≤ i.capacity * 1000000

/-- The admission table: at most four entries with distinct non-zero tags, only the oldest PRINTING or FAULTED (R41). -/
def PagesLawful (s : State) : Prop :=
  s.pau.pages.length ≤ Config.pageDepth ∧ (s.pau.pages.map Page.tag).Nodup ∧ (∀ e ∈ s.pau.pages, e.tag ≠ 0) ∧
    ∀ e ∈ s.pau.pages.tail, e.state = .admitted

/-- The order queue: at most 16 orders with distinct ids, none but the oldest TAKEN, at most one EXPOSURE spit per head
(R78). -/
def OrdersLawful (s : State) : Prop :=
  s.orq.queue.length ≤ Config.orderDepth ∧ (orderIds s).Nodup ∧ (∀ o ∈ s.orq.queue.tail, o.state = .queued) ∧
    ∀ h, (s.orq.queue.filter fun o => o.spitsFor h).length ≤ 1

/-- The posted queue: at most 8 frames, each of a USAGE body's length (R165, R169). -/
def PostedLawful (s : State) : Prop :=
  s.liu.posted.length ≤ Config.postedDepth ∧ ∀ b ∈ s.liu.posted, b.length = Kind.usage.bodyLength

/-- Every health row's failed set holds distinct groups, each below its group count (R115). -/
def HealthLawful (s : State) : Prop := ∀ c, (health s c).failed.Nodup ∧ ∀ g ∈ (health s c).failed, g < (health s c).groupCount

/-- The suction pump runs only while the station is SERVICING, the sled is UP and the selector is joined to a head (R59),
in the suction of a cycle of the session holder, the CLS (R105). -/
def PumpLawful (s : State) : Prop :=
  s.stc.pump.running = true →
    s.stc.state = .servicing ∧ sledIsUp s = true ∧ s.stc.selector.isSome = true ∧ s.stc.holder = some .cls ∧
      s.stc.handingBack = false ∧ s.cls.stage = .sucking

/-- Outside HOMING, SERVICING and FAULT the wiper is RETRACTED, in OPEN, GRANTED and UNPARKED the sled is DOWN, and in CAPPED
it is UP (R66 and the table of 4.2). -/
def ZoneClear (s : State) : Prop :=
  (s.stc.state = .homing ∨ s.stc.state = .servicing ∨ s.stc.state = .fault ∨ wiperIsRetracted s = true) ∧
    (s.stc.state = .opened ∨ s.stc.state = .granted ∨ s.stc.state = .unparked → sledIsDown s = true) ∧
    (s.stc.state = .capped → sledIsUp s = true)

end Sys2Proof.Machine
end

