-- ==== Sys2Proof/WellFormed.lean ====
section
/-!
DEFINITION. Well-formed commands: a frame command's body fits a frame (R164) and, for USAGE on the Raster Port, has the
fixed length (R165); FRAME_ERROR's bytes are a frame error; encoder counts fit the four bytes a reply gives them.
-/

namespace Sys2Proof

open Sys2Proof.Machine

/-- The body of a frame of kind `k` on port `p` does not make it a frame error. -/
def frameOk (k : Kind) (p : Port) (body : List Byte) : Bool :=
  decide (body.length ≤ Config.bodyMax) &&
    (!(k == .usage && p == .raster) || decide (body.length = Kind.usage.bodyLength))

/-- The bytes of a transaction are a frame error on port `p`. -/
def isError (p : Port) (bytes : List Byte) : Bool :=
  match takenAs p bytes with
  | .error _ => true
  | _ => false

/-- An encoder count fits four bytes (R180). -/
def countsOk (n : Nat) : Bool := decide (n ≤ Config.u32Max)

/-- Well-formedness of a command. -/
def WellFormed (i : Instr) : Bool :=
  match i with
  | .frameError p bytes => isError p bytes
  | .readFeed p body encoder => frameOk .readFeed p body && countsOk encoder
  | .unloadMotionDone n | .feedMotionTimeout n | .leadingEdgeChange _ n | .pathEntryChange _ n | .coverSensorOpen n =>
    countsOk n
  | i =>
    match frameOf i with
    | some (k, p, body) => frameOk k p body
    | none => true

end Sys2Proof
end

