-- ==== Sys2Proof/Certificates/Slice0/Obligations.lean ====
section
/-!
DEFINITION. The statements for the provers, each a proposition about `Sys2Proof.Machine.exec` or `step`. A statement that
names a next state by an equation says with it that nothing else changes.
-/

open Sys2Proof Sys2Proof.Machine

/-! ### The queue, time and resets -/

/-- A step with command `c` at the front of the queue is `exec c` on the state with the queue's rest. The queue of
commands is the model's own (log entry 37, DESIGN CHOICE): the spec says how requests reach their blocks and which
signals come in (00_scope sections 3.2 and 4) and speaks of no queue of them. -/
def Obligations.FrontCommandRuns : Prop :=
  ∀ (c : Instr) (s : State), step { s with pending := c :: s.pending } = exec c s

/-- On an empty queue, with the start-up actions begun, one millisecond passes (model's choice, log entry 1). In REST
only the time base counts (R139), with RESET_N low nothing does (R174). In RUN the exposure timers count while the
sled is not UP and the station is not SERVICING, and hold while expiry is due (R131, R133). Every running timer of the
station, the TAKEN order's timer and the motion timers of the sled, the wiper and the feed motor count one on (R58,
R59, R63, R68, R71, R84, R148), and nothing else of their blocks changes. -/
def Obligations.EmptyQueueMillisecond : Prop :=
  ∀ s : State, s.pending = [] → s.startup = false →
    (s.resetLow = true → step s = .next s) ∧
    (s.resetLow = false → s.rsc.power = .rest →
      step s = .next { s with timeBase := (s.timeBase + 1) % 2 ^ 32 }) ∧
    (Awake s → ∃ t, step s = .next t ∧ t.timeBase = (s.timeBase + 1) % 2 ^ 32 ∧
      (∀ h, exposure t h =
        if sledIsUp s = false ∧ s.stc.state ≠ .servicing ∧ (exposure s h).due = false then
          { exposure s h with count := (exposure s h).count + 1 }
        else exposure s h) ∧
      t.stc =
        { s.stc with
          sled := { s.stc.sled with motion := s.stc.sled.motion.map fun x => (x.1, x.2 + 1) }
          wiper := { s.stc.wiper with motion := s.stc.wiper.motion.map fun x => (x.1, x.2 + 1) }
          idle := s.stc.idle.map (· + 1), hold := s.stc.hold.map (· + 1), park := s.stc.park.map (· + 1)
          stall := s.stc.stall.map (· + 1) } ∧
      t.orq =
        { s.orq with
          queue := s.orq.queue.map fun o => match o.state with
            | .taken n limit => { o with state := .taken (n + 1) limit }
            | .queued => o } ∧
      t.fdc = { s.fdc with motion := s.fdc.motion.map fun m => { m with timer := m.timer + 1 } } ∧
      { t with timeBase := s.timeBase, ext := s.ext, stc := s.stc, orq := s.orq, fdc := s.fdc, pending := []
               freeUsed := s.freeUsed } = s)

/-- RESET_N asserted: every actuator is de-energized, every attention line released and no data output driven (R174).
That positions and records stand, and what the registers hold while RESET_N is low, is the model's reading of R174
(log entry 23, DEDUCED). -/
def Obligations.ResetAssertReleasesOutputs : Prop :=
  ∀ s : State, ∃ t, exec .resetNAssert s = .next t ∧ t.resetLow = true ∧
    (∀ c, refillPump t c = false) ∧ suctionPump t = false ∧ selectorValve t = none ∧ sledDrive t = none ∧
    wiperDrive t = none ∧ feedMotor t = none ∧ (∀ p, attentionLine t p = false) ∧ (∀ p n, dataByte t p n = none) ∧
    t.stc.sled.motion = none ∧ t.stc.wiper.motion = none ∧ t.stc.pump.running = false ∧ t.fdc.motion = none ∧
    t.spu.bus.executing = false ∧ t.stc.sled.reached = s.stc.sled.reached ∧ t.stc.wiper.reached = s.stc.wiper.reached ∧
    { t with resetLow := s.resetLow, stc := s.stc, fdc := s.fdc, spu := s.spu, liu := s.liu } = s

/-- A device reset answers a next state in which the registers that the start-up actions leave alone hold their reset
values, the bays with a closed switch are READING with scan reads queued in bay order before the waste read, and
homing has begun (R4, R24, R34, R41, R42, R57, R60, R78, R94, R100, R114, R115, R130, R136, R142, R143, R163, R167,
R169, R170, R172, R174). -/
def Obligations.DeviceResetValues : Prop :=
  ∀ (r : Readings) (s : State), ∃ t, exec (.deviceReset r) s = .next t ∧
    t.pending = s.pending ∧ t.startup = false ∧ t.resetLow = false ∧ t.timeBase = 0 ∧ t.date = 0 ∧
    t.params = Params.default ∧
    (∀ c, chan t c = Channel.reset (r.floats.get c)) ∧
    (∀ b, bay t b = if r.presence.get b then { Bay.reset with state := .reading } else Bay.reset) ∧
    t.spu.bus.queue =
      ((allBays.filter fun b => r.presence.get b).map fun b => ⟨.bay b, .read, true, 0⟩) ++
        (if r.wastePresence then [⟨.waste, .read, false, 0⟩] else []) ∧
    t.spu.bus.executing = false ∧
    (∀ c, book t c = ⟨0, 0, 0, 0, 0, 0, 0⟩) ∧ t.uau.applied = 0 ∧ t.uau.lastTag = 0 ∧ t.uau.lastSwath = 0 ∧
    t.uau.orphan = 0 ∧ t.uau.waste = ⟨if r.wastePresence then .reading else .absent, none, false⟩ ∧
    t.pau = ⟨[], Vector.replicate 6 false, 0, Vector.replicate 6 0, 0, 0⟩ ∧
    t.orq = ⟨[], 0, 0, none, []⟩ ∧ t.cls = Cls.reset ∧ t.dtu = Dtu.reset ∧
    (∀ h, exposure t h = ⟨0, false, false⟩) ∧ t.rsc.power = .run ∧ t.rsc.restCount = 0 ∧ t.rsc.wake = none ∧
    (∀ src, sourceRec t src = ⟨.empty, none, false⟩) ∧ t.fdc.motion = none ∧ t.fdc.lastServed = none ∧
    t.fdc.path.state = (if r.leadingEdge then .unregistered else .empty) ∧ t.fdc.path.source = none ∧
    t.fdc.path.position = 0 ∧ t.fdc.path.residue = 0 ∧ t.fdc.path.hold = none ∧
    (∀ p, engine t p = ⟨.empty, false, false, false, true, none, 0, [], false⟩) ∧ t.liu.posted = [] ∧ t.liu.placed = 0 ∧
    t.liu.fence = none ∧
    (∀ p (k : EventKind), k ≠ .bayInserted → ((t.evu.get p).flags.get k.index) = FlagRec.clear) ∧
    (∀ p (k : EventKind), (t.evu.get p).enables.get k.index = true) ∧
    (r.wiperRetracted = false → t.stc = { Stc.reset r.home with wiper := ⟨none, some (.retracted, 0), none⟩ })

/-! ### The links -/

/-- A status poll shows the status byte and clears BUSY and POSTED_FULL once shown; it changes nothing else and does
not wake the part (R162, R163). A frame error on an awake part sets LAST_ERROR and the last error kind, counts on the
port saturating at 65535, raises FRAME_ERROR on that port, and leaves every other record as it stands (R165). Either
shifts out the status byte and then the filler FFH (R162, R165); that FFH also stands while a frame's own bytes are
clocked in is log entry 50 (DESIGN CHOICE). -/
def Obligations.PollAndFrameError : Prop :=
  let shown (p : Port) (s t : State) : Prop :=
    dataByte t p 0 = some (statusByte s p) ∧ ∀ n, dataByte t p (n + 1) = some 0xFF
  (∀ (p : Port) (s : State), s.resetLow = false →
     let t := setEngine s p
       { engine s p with busy := false, postedFull := false, out := [statusByte s p], collecting := false }
     exec (.statusPoll p) s = .next t ∧ shown p s t) ∧
  ∀ (p : Port) (bytes : List Byte) (e : ErrorKind) (s : State), Awake s → takenAs p bytes = .error e →
    let t := raiseOn p .frameError (some (.errorKind e))
      (setEngine s p
        { engine s p with
          busy := false, postedFull := false, out := [statusByte s p], collecting := false, lastError := true
          errorKind := some e, errorCount := min ((engine s p).errorCount + 1) 65535 })
    exec (.frameError p bytes) s = .next t ∧ shown p s t

/-- READ_REPLY shifts out the reply of a READY or COLLECTED slot, NOT_READY from a HELD slot and BAD_STATE from an
EMPTY one, behind the request frame, and then the filler FFH, and leaves the slot; when a slot's reply has been
shifted out whole, READY becomes COLLECTED (R162, R168). That FFH is shifted out while the request frame's own bytes
are clocked in, after the status byte, is log entry 50 (DESIGN CHOICE). A REPLY_SHIFTED_OUT with nothing being
collected has no effect (log entry 2). -/
def Obligations.ReplyCollected : Prop :=
  ∀ (p : Port) (body : List Byte) (s : State), Awake s → body.length ≤ 128 →
    let read (frame : List Byte) (collecting : Bool) : Prop :=
      let t := setEngine s p
        { engine s p with
          busy := false, postedFull := false
          out := statusByte s p :: (List.replicate (body.length + 4) 0xFF ++ frame), collecting := collecting }
      exec (.readReply p body) s = .next t ∧ dataByte t p 0 = some (statusByte s p) ∧
        (∀ n, n < body.length + 4 → dataByte t p (n + 1) = some 0xFF) ∧
        (∀ n (h : n < frame.length), dataByte t p (n + body.length + 5) = some frame[n]) ∧
        ∀ n, frame.length ≤ n → dataByte t p (n + body.length + 5) = some 0xFF
    (∀ r, (engine s p).slot = .ready r ∨ (engine s p).slot = .collected r → read r.frame true) ∧
    (∀ k, (engine s p).slot = .held k → read (Reply.frame ⟨.readReply, .notReady, []⟩) false) ∧
    ((engine s p).slot = .empty → read (Reply.frame ⟨.readReply, .badState, []⟩) false) ∧
    (∀ r, (engine s p).collecting = true → (engine s p).slot = .ready r ∨ (engine s p).slot = .collected r →
      exec (.replyShiftedOut p) s = .next (setEngine s p { engine s p with collecting := false, slot := .collected r })) ∧
    ((engine s p).collecting = false → exec (.replyShiftedOut p) s = .next s)

/-- A LINK_RESET clears the port's error state, flags and enables, withdraws its waiting motion, drops the reply of
its running one, and leaves the slot READY with OK (R173). On the Raster Port it also empties the posted queue,
withdraws a FENCE, clears the entry, and raises ORDERS_PENDING if the queue holds an order (R76, R90). It releases a
grant, to UNPARKED out of park and to OPEN in park; a READY entry restarts the idle-cap timer; a TAKEN order returns
to QUEUED with its samples discarded. -/
def Obligations.LinkResetClearsPort : Prop :=
  ∀ (p : Port) (body : List Byte) (s : State), Awake s → body.length ≤ 128 →
    let x : Engine :=
      { slot := .ready ⟨.linkReset, .ok, []⟩, lastError := false, busy := false, postedFull := false, resetSeen := false,
        errorKind := none, errorCount := 0, out := [statusByte s p], collecting := false }
    let fdc : Fdc :=
      { s.fdc with
        waiting := s.fdc.waiting.set p none
        motion := s.fdc.motion.map fun m => if m.port = p then { m with replyHeld := false } else m }
    let reset : PortEvents := ⟨0, Vector.replicate 36 FlagRec.clear, Vector.replicate 36 true⟩
    (p ≠ .raster → exec (.linkReset p body) s = .next { setEngine s p x with fdc := fdc, evu := s.evu.set p reset }) ∧
    (p = .raster →
      let cleared (stc : Stc) : State :=
        let t : State := { setEngine s p x with fdc := fdc, evu := s.evu.set p reset, stc := stc }
        { t with liu := { t.liu with posted := [], placed := s.uau.applied, fence := none } }
      let told (t : State) : State := match s.orq.queue with
        | [] => t
        | o :: os =>
          raise .ordersPending 0 none
            (if o.isTaken then
              { t with
                orq := { s.orq with queue := { o with state := .queued } :: os }, dtu := { s.dtu with sample := none } }
            else t)
      let stc : Stc := { s.stc with entry := .none, hold := none }
      let resets (t : Stc) : Prop := exec (.linkReset p body) s = .next (told (cleared t))
      (s.stc.state ≠ .granted → s.stc.entry ≠ .ready → anyTaken s = false → resets stc) ∧
      (s.cls.abort = none →
        (s.stc.state = .granted → s.stc.home = false → NoneDue s →
          resets { stc with state := .unparked, park := some 0, parkRaised := false, idle := none }) ∧
        (s.stc.claims = [] → s.stc.cappingDue = false →
          (s.stc.state = .granted → s.stc.home = true → NoneDue s →
            resets { stc with state := .opened, park := none, idle := some 0 }) ∧
          (s.stc.state ≠ .granted → s.stc.entry = .ready → resets { stc with idle := some 0 }) ∧
          (s.stc.state ≠ .granted → s.stc.entry ≠ .ready → anyTaken s = true → resets stc))))

/-- A frame that needs the reply slot and finds it HELD or READY is discarded: BUSY is set and nothing else changes
(R166 step 4, R167). With the slot free, a kind not permitted on the port is answered NOT_PERMITTED, and a permitted
one with a body of the wrong length BAD_LENGTH; nothing outside the port engine changes (R166 steps 5 and 6). -/
def Obligations.RefusedByThePort : Prop :=
  (∀ (i : Instr) (k : Kind) (p : Port) (body : List Byte) (s : State), frameOf i = some (k, p, body) →
     k ≠ .readReply → k ≠ .linkReset → (k = .usage → p ≠ .raster) → body.length ≤ 128 → Awake s → SlotTaken s p →
     exec i s
       = .next (setEngine s p
           { engine s p with busy := true, postedFull := false, out := [statusByte s p], collecting := false })) ∧
  ∀ (i : Instr) (k : Kind) (p : Port) (body : List Byte) (s : State), frameOf i = some (k, p, body) →
    k ≠ .readReply → k ≠ .linkReset → (k = .usage → p ≠ .raster) → body.length ≤ 128 → Awake s → SlotFree s p →
    (k.permitted p = false → exec i s = .next (answered p k .notPermitted [] s)) ∧
    (k.permitted p = true → body.length ≠ k.bodyLength → exec i s = .next (answered p k .badLength [] s))

/-- A frame command's bytes are taken as a frame, and read back as that command, whatever its kind, port, body and CRC
(R164, R165, R181, R182). -/
def Obligations.FrameRoundTrip : Prop :=
  ∀ (i : Instr) (k : Kind) (p : Port) (body : List Byte), frameOf i = some (k, p, body) → frameOk k p body = true →
    encodeFrame i = some (p, requestFrame k body) ∧ takenAs p (requestFrame k body) = .frame k body ∧
      ∃ e, decodeFrame p (requestFrame k body) e = some i

/-! ### Event requests, parameters, the date and rest -/

/-- READ_EVENTS: a selector naming no group is answered BAD_FIELD and clears no error; otherwise the reply carries the
raise count, each group's summaries, the enable and flag record of each kind of the group routed to the port, the last
error kind and the error count, and on the Job Port the wake record and rest count; LAST_ERROR and the last error kind
are cleared (R178, R163). The body is the model's forming by R180: one byte a summary, the presence byte of a flag
record after the enable and only where its kind has a detail, the cut of the detail and the wake record are log entry
14 (DEDUCED), the codes of causes and outcomes in a detail log entry 41, and the value 1 of a flag that is set log
entry 55 (DESIGN CHOICE). -/
def Obligations.EventsRead : Prop :=
  ∀ (p : Port) (body : List Byte) (s : State), Takes s .readEvents p body →
    (group? (field body 0 1) = none → exec (.readEvents p body) s = .next (answered p .readEvents .badField [] s)) ∧
    ∀ g, group? (field body 0 1) = some g →
      let e := s.evu.get p
      let b (x : Bool) : List Byte := le 1 (if x then 1 else 0)
      let record (k : EventKind) : List Byte :=
        let f := e.flags.get k.index
        (if k.detailWidth = 0 then [] else b f.detail.isSome) ++ b f.set ++ le 1 f.count
          ++ le k.subjectWidth f.subjects.toNat
          ++ (match f.detail with
            | some d => detailBody d
            | none => k.noDetail)
          ++ le 2 f.raisedAt
      let events : List Byte :=
        le 2 e.raises
          ++ ([EventGroup.supply, .service, .feed, .link].flatMap fun h =>
            b (allEvents.any fun k => k.group == h && (e.flags.get k.index).set)
              ++ b (allEvents.any fun k => k.group == h && (e.flags.get k.index).set && e.enables.get k.index))
          ++ ((allEvents.filter fun k => k.routed p && k.group == g).flatMap fun k =>
            b (e.enables.get k.index) ++ record k)
          ++ le 1 (match (engine s p).errorKind with
            | some k => k.code
            | none => 0)
          ++ le 2 (engine s p).errorCount ++ (if p = .job then restRecordBody s else [])
      let t := answered p .readEvents .ok events s
      exec (.readEvents p body) s = .next (setEngine t p { engine t p with lastError := false, errorKind := none })

/-- CLEAR_EVENTS clears the named flags routed to the port, in CONDITIONAL mode only those raised at or before the
seen value, and answers OK; SET_EVENT_ENABLE takes the mask for the kinds routed to the port and answers OK. Flags,
counters and enables not named, and the other ports, are unchanged (R177, R179). A mask of 2^36 or above is BAD_FIELD
(log entry 15). -/
def Obligations.EventsClearedAndEnabled : Prop :=
  ∀ (p : Port) (body : List Byte) (s : State),
    (Takes s .clearEvents p body →
      let mask := field body 0 5
      let mode := field body 5 1
      let seen := field body 6 2
      (1 < mode ∨ 2 ^ 36 ≤ mask → exec (.clearEvents p body) s = .next (answered p .clearEvents .badField [] s)) ∧
      (mode ≤ 1 → mask < 2 ^ 36 → ∃ reply e,
        exec (.clearEvents p body) s = .next { answered p .clearEvents .ok reply s with evu := s.evu.set p e } ∧
        e.raises = (s.evu.get p).raises ∧ e.enables = (s.evu.get p).enables ∧
        ∀ k : EventKind, e.flags.get k.index =
          if maskBit mask k.index.val = true ∧ k.routed p = true ∧
              (mode = 0 ∨ (seen + 65536 - ((s.evu.get p).flags.get k.index).raisedAt) % 65536 < 32768) then
            FlagRec.clear
          else (s.evu.get p).flags.get k.index)) ∧
    (Takes s .setEventEnable p body →
      let mask := field body 0 5
      (2 ^ 36 ≤ mask → exec (.setEventEnable p body) s = .next (answered p .setEventEnable .badField [] s)) ∧
      (mask < 2 ^ 36 → ∃ reply e,
        exec (.setEventEnable p body) s = .next { answered p .setEventEnable .ok reply s with evu := s.evu.set p e } ∧
        e.raises = (s.evu.get p).raises ∧ e.flags = (s.evu.get p).flags ∧
        ∀ k : EventKind, e.enables.get k.index =
          if k.routed p = true then maskBit mask k.index.val else (s.evu.get p).enables.get k.index))

/-- GET_PARAM and SET_PARAM answer BAD_FIELD for an identifier or index that names no instance. GET_PARAM carries the
value, range and default. SET_PARAM stores the value clamped to the range, answers OK or OK_CLAMPED with the value
stored, and reads back as stored, here with no cycle in WAIT_INK (R170, R171); the reserve mark has every supply state
evaluated and then every overcommitment checked, an order that is log entry 54 (DESIGN CHOICE). SET_DATE stores the
month index, answers OK with the date before and the date after, and changes nothing else. -/
def Obligations.ParametersAndDate : Prop :=
  (∀ (p : Port) (body : List Byte) (s : State),
     (Takes s .getParam p body →
       (paramNamed? body = none → exec (.getParam p body) s = .next (answered p .getParam .badField [] s)) ∧
       ∀ id i, paramNamed? body = some (id, i) →
         exec (.getParam p body) s
           = .next (answered p .getParam .ok
               (leSigned 8 (s.params.read id i) ++ leSigned 8 id.range.1 ++ leSigned 8 id.range.2
                 ++ leSigned 8 (Params.default.read id i)) s)) ∧
     (Takes s .setParam p body →
       (paramNamed? body = none → exec (.setParam p body) s = .next (answered p .setParam .badField [] s)) ∧
       ∀ id i, paramNamed? body = some (id, i) → s.cls.stage ≠ .waitInk →
         let v := fieldSigned body 2 8
         let stored := max id.range.1 (min v id.range.2)
         let u : State :=
           { answered p .setParam (if stored = v then .ok else .okClamped) (leSigned 8 stored) s with
             params := s.params.write id i stored }
         u.params.read id i = stored ∧
         (id ≠ .reserveMark → id ≠ .refillMark → exec (.setParam p body) s = .next u) ∧
         (id = .reserveMark → exec (.setParam p body) s
           = .next (checkOverAll allChannels (allChannels.foldl (fun s c => evalSupply c s) u))) ∧
         (id = .refillMark → exec (.setParam p body) s = .next (allChannels.foldl (fun s c => refillTest c s) u)))) ∧
  ∀ (p : Port) (body : List Byte) (s : State), Takes s .setDate p body →
    exec (.setDate p body) s
      = .next { answered p .setDate .ok (le 2 s.date ++ le 2 (field body 0 2)) s with date := field body 0 2 }

/-- REST is judged in two stages: NOT_RESTED, then BUSY, each changing nothing; otherwise the part goes to REST,
counts it, and answers OK (R137, R138). A held FENCE is among the first stage's conditions (log entry 7). In REST a
frame wakes the part before it is taken: here READ_STATION, with no refill due and the home sensor unchanged. WOKE is
raised and the wake record names the port and the two times (R140). The READ_REPLY that first collects the OK reply to
REST does not wake it. A change of a watched sensor wakes the part, its wake record naming the sensor, and is then
taken as in RUN; every channel's refill start test follows, and the home sensor, which REST does not sample, is read
afresh: here each of the watched sensors with the station CAPPED, no cycle in WAIT_INK and no hold of the CLS on the
waste (R139, R140). A watched reading that is no change leaves the part in REST (log entry 2). -/
def Obligations.RestAndWaking : Prop :=
  (∀ (p : Port) (body : List Byte) (s : State), Takes s .rest p body →
     let first :=
       (∃ q, attentionLine s q = true) ∨ s.stc.entry ≠ .none ∨ s.liu.posted ≠ [] ∨ s.liu.fence ≠ none
     let second :=
       s.stc.state ≠ .capped ∨ (∃ c, (chan s c).refill = .refilling) ∨ s.stc.pump.running = true ∨
         s.stc.sled.motion ≠ none ∨ s.stc.wiper.motion ≠ none ∨ s.fdc.motion ≠ none ∨
         (∃ q, s.fdc.waiting.get q ≠ none) ∨ s.spu.bus.queue ≠ [] ∨ s.orq.queue ≠ [] ∨ s.orq.waiting ≠ [] ∨
         (∃ h, (entryOf s h).level ≠ none) ∨ s.cls.stage ≠ .none ∨ s.dtu.task ≠ none ∨ s.dtu.machine ≠ .idle ∨
         s.pau.pages ≠ []
     (first → ∃ b, exec (.rest p body) s = .next (answered p .rest .notRested b s)) ∧
     (¬ first → second → ∃ b, exec (.rest p body) s = .next (answered p .rest .busy b s)) ∧
     (¬ first → ¬ second → ∃ b, exec (.rest p body) s
       = .next { answered p .rest .ok b s with
           rsc := { s.rsc with power := .rest, restCount := min (s.rsc.restCount + 1) 65535, restEntered := s.timeBase } })) ∧
  (∀ (p : Port) (s : State), s.resetLow = false → s.rsc.power = .rest →
    (SlotFree s p → s.pins.home = s.stc.home → (∀ c, refillDue { s with rsc := { s.rsc with power := .run } } c = false) →
      let u := beginTransaction p s
      ∃ b, exec (.readStation p []) s
        = .next (answer p .readStation .ok b
            (raise .woke 0 (some (.wakeKind false))
              { u with rsc := { s.rsc with
                  power := .run, wake := some ⟨.frame p, s.rsc.restEntered, s.timeBase⟩ } }))) ∧
    (∀ b, (engine s .job).slot = .ready ⟨.rest, .ok, b⟩ → p = .job →
      ∃ t, exec (.readReply p []) s = .next t ∧ t.rsc = s.rsc ∧ t.evu = s.evu)) ∧
  ∀ s : State, s.resetLow = false → s.rsc.power = .rest →
    let x := s.fdc.path
    let woken (cause : WakeCause) : State :=
      raise .woke 0 (some (.wakeKind true))
        { s with rsc := { s.rsc with power := .run, wake := some ⟨cause, s.rsc.restEntered, s.timeBase⟩ } }
    let back (t : State) : State :=
      let u := allChannels.foldl (fun s c => refillTest c s) t
      setStc { u.stc with home := u.pins.home } u
    let pathIs (cause : WakeCause) (y : Path) (i : Instr) : Prop := exec i s = .next (back (setPath y (woken cause)))
    (s.stc.state = .capped → s.cls.stage ≠ .waitInk → s.cls.hold ≠ some .wasteFull → s.cls.hold ≠ some .wasteAbsent →
      (∀ b, s.pins.presence.get b = false → (bay s b).state = .empty →
        let t : State := { woken (.bayPresence b) with pins := { s.pins with presence := vset s.pins.presence b true } }
        exec (.bayPresenceClose b) s
          = .next (back (onBus (·.pushRead (.bay b) false)
              (raise .bayInserted (one b.val) none (setBay t b { bay s b with state := .reading }))))) ∧
      (∀ b, s.pins.presence.get b = true → (bay s b).state ≠ .active →
        let t : State := { woken (.bayPresence b) with pins := { s.pins with presence := vset s.pins.presence b false } }
        exec (.bayPresenceOpen b) s
          = .next (back (checkOver (channelOf b) (onBus (·.removeChip (.bay b)) (setBay t b Bay.reset))))) ∧
      (s.pins.wastePresence = false → s.uau.waste.state = .absent →
        let t : State := { woken .wastePresence with pins := { s.pins with wastePresence := true } }
        exec .wastePresenceClose s
          = .next (back (onBus (·.pushRead .waste false) (setWaste { s.uau.waste with state := .reading } t)))) ∧
      (s.pins.wastePresence = true → s.uau.waste.state ≠ .absent → s.cls.stage ≠ .sucking →
        let t : State := { woken .wastePresence with pins := { s.pins with wastePresence := false } }
        exec .wastePresenceOpen s
          = .next (back (raise .wasteRemoved 0 none
              (onBus (·.removeChip .waste) (setWaste ⟨.absent, none, false⟩ t))))) ∧
      (∀ c f, (chan s c).float ≠ f →
        let y := chan s c
        let e := match f with
          | .high => 27000000
          | .mid => y.estimate
          | .low => min y.estimate 8000000
        let z : Channel := { y with float := f, estimate := e, drift := sat32 (y.drift + ((e : Int) - y.estimate)) }
        exec (.floatChange c f) s
          = .next (back (checkOver c (evalSupply c (refillTest c (setChan (woken (.float c)) c z)))))) ∧
      (∀ n, x.coverOpen = false → x.state = .held →
        exec (.coverSensorOpen n) s
          = .next (back (raise .coverOpened 0 none (setPath { x with coverOpen := true } (woken .cover))))) ∧
      (x.coverOpen = true →
        pathIs .cover { x with coverOpen := false, cycled := x.state == .held || x.cycled } .coverSensorClose) ∧
      (x.rollEnd1 = true → pathIs (.rollEnd .roll1) { x with rollEnd1 := false } (.sourceEndSensorClear .roll1)) ∧
      (x.rollEnd2 = true → pathIs (.rollEnd .roll2) { x with rollEnd2 := false } (.sourceEndSensorClear .roll2)) ∧
      (x.sheetPresent = false → pathIs .sheetPresent { x with sheetPresent := true } (.sourceEndSensorClear .sheet)) ∧
      (∀ media n, x.pathEntry ≠ media → s.fdc.motion = none →
        pathIs .pathEntry { x with pathEntry := media } (.pathEntryChange media n)) ∧
      (∀ n, x.leadingEdge = false → x.state = .empty → s.fdc.motion = none →
        pathIs .leadingEdge { x with leadingEdge := true, state := .unregistered } (.leadingEdgeChange true n))) ∧
    (∀ reading, exec (.homeSensorChange reading) s = .next { s with pins := { s.pins with home := reading } }) ∧
    (∀ b, s.pins.presence.get b = true → exec (.bayPresenceClose b) s = .next s) ∧
    (∀ c, exec (.floatChange c (chan s c).float) s = .next s) ∧
    (x.coverOpen = false → exec .coverSensorClose s = .next s) ∧
    ∀ n, exec (.pathEntryChange x.pathEntry n) s = .next s ∧ exec (.leadingEdgeChange x.leadingEdge n) s = .next s

/-! ### Supply and the cartridge bus -/

/-- READ_CHANNEL is taken on any port: a channel above 5 is answered BAD_FIELD; otherwise OK with the channel supply
record as it stands: channel, estimate, float, drift, active bay (FFH for none), refill state, stroke count, stroke in
flight, supply state. Nothing else changes (R3). The layout is R185's, formed by R180; the code of the supply state,
SUPPLIED 0, DRY_SUPPLY 1, STARVED 2, is the model's (log entry 39, DESIGN CHOICE). -/
def Obligations.ChannelRead : Prop :=
  (∀ p, Kind.permitted .readChannel p = true) ∧
  ∀ (p : Port) (body : List Byte) (s : State), Takes s .readChannel p body →
    (5 < field body 0 1 → exec (.readChannel p body) s = .next (answered p .readChannel .badField [] s)) ∧
    ∀ c : Fin 6, field body 0 1 = c.val →
      let x := chan s c
      exec (.readChannel p body) s
        = .next (answered p .readChannel .ok
            (le 1 c.val ++ le 4 x.estimate ++ le 1 x.float.ctorIdx ++ leSigned 4 x.drift
              ++ le 1 (match x.active with
                | some side => (bayOf c side).val
                | none => 0xFF)
              ++ le 1 x.refill.ctorIdx ++ le 1 x.strokes ++ le 1 x.stroke.ctorIdx ++ le 1 x.supply.ctorIdx) s)

/-- READ_BAY is taken on any port: an index above 11 is answered BAD_FIELD; otherwise OK with the bay record as it
stands, opened by its index, state and the two presence marks, with zeros for absent fields. Nothing else changes
(R13). -/
def Obligations.BayRead : Prop :=
  (∀ p, Kind.permitted .readBay p = true) ∧
  ∀ (p : Port) (body : List Byte) (s : State), Takes s .readBay p body →
    (11 < field body 0 1 → exec (.readBay p body) s = .next (answered p .readBay .badField [] s)) ∧
    ∀ b : Fin 12, field body 0 1 = b.val →
      let x := bay s b
      exec (.readBay p body) s
        = .next (answered p .readBay .ok
            (le 1 b.val ++ le 1 x.state.ctorIdx ++ le 1 (maskOf [x.chip.isSome, x.ink.isSome])
              ++ (match x.chip with
                | some k => k.serial.toList ++ le 1 k.code
                | none => le 9 0)
              ++ (match x.ink with
                | some i => le 2 i.capacity ++ le 4 i.estimate
                | none => le 6 0)
              ++ (match x.chip with
                | some k => le 4 k.drawn ++ le 2 k.expiry
                | none => le 6 0)
              ++ le 1 (maskOf [x.chip.any BayChip.refilled, x.confirmed, x.stale, x.scanRead]) ++ le 1 x.dry
              ++ le 4 x.overdraw) s)

/-- READ_WASTE is taken on any port: OK with the waste record as it stands, a mark for the chip-dependent fields, and
the orphan-waste counter (R40). Nothing else changes. The body's layout is formed by R180 from R34 and R40 (log entry
14, DEDUCED), and a flag that is set is 1 (log entry 55, DESIGN CHOICE). -/
def Obligations.WasteRead : Prop :=
  (∀ p, Kind.permitted .readWaste p = true) ∧
  ∀ (p : Port) (body : List Byte) (s : State), Takes s .readWaste p body →
    let w := s.uau.waste
    exec (.readWaste p body) s
      = .next (answered p .readWaste .ok
          (le 1 (if w.data.isSome then 1 else 0) ++ le 1 w.state.ctorIdx
            ++ (match w.data with
              | some d => le 2 d.capacity ++ le 4 d.fill ++ le 8 d.estimate ++ le 4 d.added
              | none => le 18 0)
            ++ le 1 (if w.stale then 1 else 0) ++ le 4 s.uau.orphan) s)

/-- The other reads answer OK with their records and change nothing else: READ_TOTALS and READ_HEALTH by channel,
LIST_PAGES by position, READ_STATION and READ_FEED; a selector out of range is answered BAD_FIELD (R25, R56, R75,
R129, R161). The layouts are formed by R180 (log entry 14); that of LIST_PAGES, the entry asked for opened by its
position or FFH, is the model's (log entry 40), as are the codes of the motions, of their direction and the presence
byte of the waiting motions in READ_FEED (log entry 52) and the code of the selector's join in READ_STATION (log entry
53). A flag or reading is 1 where it is set, true, seen or open (log entry 55, DESIGN CHOICE). -/
def Obligations.RecordsRead : Prop :=
  ∀ (p : Port) (body : List Byte) (s : State),
    let b (x : Bool) : List Byte := le 1 (if x then 1 else 0)
    let list (xs : List (List Byte)) : List Byte := le 1 xs.length ++ xs.flatten
    let page (e : Page) : List Byte :=
      le 2 e.tag ++ le 1 (sourceCode e.source) ++ le 1 e.state.ctorIdx
        ++ (allChannels.flatMap fun c => le 4 (e.reserved.get c)) ++ (allChannels.flatMap fun c => le 4 (e.consumed.get c))
        ++ le 4 e.mediaReserved ++ le 4 e.mediaConsumed ++ b e.overrun
    (Takes s .readTotals p body →
      (5 < field body 0 1 → exec (.readTotals p body) s = .next (answered p .readTotals .badField [] s)) ∧
      ∀ c : Fin 6, field body 0 1 = c.val →
        let x := book s c
        exec (.readTotals p body) s
          = .next (answered p .readTotals .ok
              (le 4 x.residue ++ le 8 x.total ++ le 8 x.media ++ le 8 x.waste ++ le 8 x.usage ++ le 8 x.suction
                ++ le 4 x.overdraw ++ le 8 (s.pau.unmatchedInk.get c) ++ le 4 s.uau.applied ++ le 2 s.uau.lastTag
                ++ le 2 s.uau.lastSwath ++ le 4 s.uau.orphan) s)) ∧
    (Takes s .readHealth p body →
      (5 < field body 0 1 → exec (.readHealth p body) s = .next (answered p .readHealth .badField [] s)) ∧
      ∀ c : Fin 6, field body 0 1 = c.val →
        let x := health s c
        let task : List Bool := match s.dtu.task with
          | some t => [true, decide (t.kind = .check), decide (t.phase = .running)]
          | none => []
        exec (.readHealth p body) s
          = .next (answered p .readHealth .ok
              (le 1 c.val ++ le 1 (maskOf [x.fields.isSome, x.time.isSome]) ++ le 1 x.groupCount ++ le 2 x.delay
                ++ le 1 x.sweep.ctorIdx ++ le 1 x.check.ctorIdx ++ b x.degraded
                ++ (match x.fields with
                  | some f => le 2 f.begin_ ++ le 2 f.end_ ++ le 2 f.width
                  | none => le 6 0)
                ++ le 4 (x.time.getD 0) ++ le 1 s.dtu.machine.ctorIdx
                ++ le 1 (match s.dtu.holder with
                  | none => 0
                  | some .dtu => 1
                  | some .cls => 2)
                ++ le 1 (maskOf task) ++ le 4 s.timeBase ++ list (x.failed.map (le 1))) s)) ∧
    (Takes s .listPages p body →
      (3 < field body 0 1 → exec (.listPages p body) s = .next (answered p .listPages .badField [] s)) ∧
      (field body 0 1 ≤ 3 →
        let entry := s.pau.pages[field body 0 1]?
        exec (.listPages p body) s
          = .next (answered p .listPages .ok
              (le 1 s.pau.pages.length
                ++ ([0, 1, 2, 3].flatMap fun i => match s.pau.pages[i]? with
                  | some e => le 2 e.tag ++ le 1 e.state.ctorIdx
                  | none => le 3 0)
                ++ le 1 (maskOf s.pau.overSet.toList) ++ le 4 s.pau.unmatchedCount ++ le 2 s.pau.endedComplete
                ++ le 2 s.pau.endedAborted
                ++ le 1 (if entry.isSome then field body 0 1 else 0xFF)
                ++ (match entry with
                  | some e => page e
                  | none => le 61 0)) s))) ∧
    (Takes s .readStation p body →
      let x := s.stc
      let sled : Nat := match x.sled.motion, x.sled.reached with
        | some (.up, _), _ => 2
        | some (.down, _), _ => 3
        | none, some .down => 0
        | none, some .up => 1
        | none, none => 4
      let wiper : Nat := match x.wiper.motion, x.wiper.reached with
        | some (.raised, _), _ => 2
        | some (.retracted, _), _ => 3
        | none, some .retracted => 0
        | none, some .raised => 1
        | none, none => 4
      exec (.readStation p body) s
        = .next (answered p .readStation .ok
            (le 1 (maskOf [x.hold.isSome, x.idle.isSome, x.park.isSome]) ++ le 1 x.state.ctorIdx ++ le 1 sled ++ le 1 wiper
              ++ le 1 (match x.selector with
                | none => 0
                | some h => h.val + 1)
              ++ b x.pump.running ++ le 1 x.pump.target ++ le 1 x.pump.revs ++ b x.home ++ le 1 x.entry.ctorIdx
              ++ le 2 (x.hold.getD 0) ++ le 4 (x.idle.getD 0) ++ le 2 (x.park.getD 0) ++ b x.cappingDue
              ++ list (x.claims.map fun c => le 1 c.who.ctorIdx ++ b c.urgent)
              ++ le 1 (match x.holder with
                | none => 0
                | some .cls => 1
                | some .dtu => 2)
              ++ le 1 (match x.lastFault with
                | none => 0
                | some .sled => 1
                | some .wiper => 2
                | some .pump => 3)
              ++ b x.parkRaised ++ b s.pins.sledUp ++ b s.pins.sledDown ++ b s.pins.wiperRaised
              ++ b s.pins.wiperRetracted) s)) ∧
    (Takes s .readFeed p body → ∀ n,
      let x := s.fdc.path
      let source (r : SourceRec) : List Byte :=
        b r.media.isSome ++ le 1 r.state.ctorIdx
          ++ (match r.media with
            | some m => le 1 m.kind.val ++ le 2 m.width ++ le 4 (m.remaining.getD 0xFFFFFFFF)
            | none => le 7 0)
          ++ b r.rollEndSeen
      let cut : List Byte := match x.cut with
        | none => [0x00, 0xFF]
        | some .advancing => [0x01, 0xFF]
        | some (.orderOut id) => 0x02 :: le 1 id
        | some .orderWait => [0x03, 0xFF]
      let motion : List Byte := match s.fdc.motion with
        | none => le 12 0
        | some m =>
          let code : Nat × Nat := match m.kind with
            | .load _ => (0, 0)
            | .unload => (1, 1)
            | .advance _ => (2, 0)
            | .cut => (3, 0)
            | .manualForward => (4, 0)
            | .manualReverse => (4, 1)
          le 1 (maskOf [true, m.target.isSome]) ++ le 1 code.1 ++ le 1 m.port.ctorIdx ++ le 1 code.2
            ++ le 4 (m.target.getD 0) ++ le 4 (m.countsAt n)
      exec (.readFeed p body n) s
        = .next (answered p .readFeed .ok
            (source s.fdc.sources.roll1 ++ source s.fdc.sources.roll2 ++ source s.fdc.sources.sheet ++ le 1 x.state.ctorIdx
              ++ le 1 (match x.source with
                | none => 3
                | some src => sourceCode src)
              ++ leSigned 4 x.position ++ le 8 x.residue
              ++ le 1 (match x.hold with
                | none => 0
                | some .jam => 1
                | some .cover => 2)
              ++ b x.cycled ++ cut ++ b x.leadingEdge ++ b x.pathEntry ++ b x.coverOpen ++ b x.sheetPresent ++ b x.rollEnd1
              ++ b x.rollEnd2 ++ motion
              ++ le 1 (maskOf [s.fdc.waiting.job.isSome, s.fdc.waiting.raster.isSome, s.fdc.waiting.panel.isSome])
              ++ (allPorts.flatMap fun q => le 1 (match s.fdc.waiting.get q with
                | none => 0
                | some (.load _ _ _ _) => 0
                | some .unload => 1
                | some (.advance _ _) => 2
                | some .cut => 3
                | some (.manual _) => 4))
              ++ (allPorts.flatMap fun q => le 1 (s.params.feedGroup.get q))
              ++ le 1 (match s.fdc.lastServed with
                | none => 3
                | some q => q.ctorIdx)) s))

/-- CONFIRM_CARTRIDGE and REJECT_CARTRIDGE: BAD_FIELD above index 11, BAD_STATE for a bay not in AWAIT_CONFIRM. A
confirmed bay takes the confirmed-override flag and goes to STANDBY, with BAY_LOW below its mark; on a channel with no
active bay it becomes ACTIVE at once, and places a PRIME request unless it came by a scan read. A rejected one goes to
REJECTED. The channel's overcommitment is examined (R8, R9, R54, R99). -/
def Obligations.CartridgeConfirmedOrRejected : Prop :=
  ∀ (p : Port) (body : List Byte) (s : State),
    (Takes s .confirmCartridge p body →
      (11 < field body 0 1 → exec (.confirmCartridge p body) s = .next (answered p .confirmCartridge .badField [] s)) ∧
      ∀ b : Fin 12, field body 0 1 = b.val →
        let c := channelOf b
        let low := (bay s b).estimate < bayLowLine s (bay s b)
        ((bay s b).state ≠ .awaitConfirm →
          exec (.confirmCartridge p body) s = .next (answered p .confirmCartridge .badState [] s)) ∧
        ((bay s b).state = .awaitConfirm → (chan s c).active ≠ none →
          let t := setBay (answered p .confirmCartridge .ok [] s) b { bay s b with confirmed := true, state := .standby }
          exec (.confirmCartridge p body) s = .next (checkOver c (if low then raise .bayLow (one b.val) none t else t))) ∧
        ((bay s b).state = .awaitConfirm → (chan s c).active = none → s.cls.stage ≠ .waitInk →
          (bay s b).scanRead = true ∨ (s.stc.state ≠ .opened ∧ s.stc.state ≠ .capped) →
          ∃ t, exec (.confirmCartridge p body) s = .next t ∧ (engine t p).slot = .ready ⟨.confirmCartridge, .ok, []⟩ ∧
            bay t b = { bay s b with confirmed := true, state := .active, dry := 0 } ∧
            (∀ d, d ≠ b → bay t d = bay s d) ∧
            chan t c = (chan s c).promoted (sideOf b) s.params.refillMark ∧ (∀ d, d ≠ c → chan t d = chan s d) ∧
            (low → Told .bayLow (one b.val) none s t) ∧ (¬ low → Untold .bayLow s t) ∧
            (∀ h, entryOf t h =
              if h = headOf c ∧ (bay s b).scanRead = false then (entryOf s h).fold .normal false (OriginSet.of .prime)
              else entryOf s h) ∧
            { t with liu := s.liu, spu := s.spu, pau := s.pau, evu := s.evu, cls := s.cls, stc := s.stc } = s)) ∧
    (Takes s .rejectCartridge p body →
      (11 < field body 0 1 → exec (.rejectCartridge p body) s = .next (answered p .rejectCartridge .badField [] s)) ∧
      ∀ b : Fin 12, field body 0 1 = b.val →
        ((bay s b).state ≠ .awaitConfirm →
          exec (.rejectCartridge p body) s = .next (answered p .rejectCartridge .badState [] s)) ∧
        ((bay s b).state = .awaitConfirm →
          exec (.rejectCartridge p body) s
            = .next (checkOver (channelOf b)
                (setBay (answered p .rejectCartridge .ok [] s) b { bay s b with state := .rejected }))))

/-- CLEAR_REFILL_FAULT: BAD_FIELD above channel 5, BAD_STATE with no change unless the refill state is FAULT; in FAULT
the refill state becomes IDLE and the stroke count 0, the answer is OK, and the evaluation of R2 and the test of R14
follow (R17). No cycle is in WAIT_INK, where the CLS would act on the change (R104). -/
def Obligations.RefillFaultCleared : Prop :=
  ∀ (p : Port) (body : List Byte) (s : State), Takes s .clearRefillFault p body → s.cls.stage ≠ .waitInk →
    (5 < field body 0 1 → exec (.clearRefillFault p body) s = .next (answered p .clearRefillFault .badField [] s)) ∧
    ∀ c : Fin 6, field body 0 1 = c.val →
      ((chan s c).refill ≠ .fault →
        exec (.clearRefillFault p body) s = .next (answered p .clearRefillFault .badState [] s)) ∧
      ((chan s c).refill = .fault →
        exec (.clearRefillFault p body) s
          = .next (refillTest c (evalSupply c
              (setChan (answered p .clearRefillFault .ok [] s) c { chan s c with refill := .idle, strokes := 0 }))))

/-- A waiting transaction begins executing when none executes; a WRITE takes the estimate at that moment in µL,
rounded down, and carries it as four bytes at its volume field, where a READ takes the whole record (R20, R22, R187).
An attempt not acknowledged is counted, up to 4. A WRITE that is acknowledged clears its chip's stale flag; one that
fails sets it and raises CHIP_STALE; either leaves the queue (R20, R22, R39). A due write-back joins the queue unless
one for the chip waits unexecuted or the queue is full (R21). That a transaction ends acknowledged before its fourth
failed attempt and fails from then on is the model's reading of the two rows (log entry 19, DESIGN CHOICE); an attempt
or a start that nothing waits for has no effect (log entry 2). A read joins the queue always: a full queue makes room
by dropping its youngest WRITE that is not executing (R20). -/
def Obligations.BusTransactionsAndWrites : Prop :=
  (∀ s : State, Awake s →
     (s.spu.bus.queue = [] ∨ s.spu.bus.executing = true → exec .busTransactionStart s = .next s) ∧
     (∀ t ts, s.spu.bus.queue = t :: ts → s.spu.bus.executing = false →
       ∃ v, exec .busTransactionStart s = .next (onBus (fun x => { x with executing := true, value := v }) s) ∧
         (∀ b, t.kind = .write → t.chip = .bay b → v = (bay s b).estimate / 1000) ∧
         (∀ d, t.kind = .write → t.chip = .waste → s.uau.waste.data = some d → d.estimate / 1000 ≤ 4294967295 →
           v = d.estimate / 1000)) ∧
     (∀ t ts, s.spu.bus.queue = t :: ts → s.spu.bus.executing = true →
       exec .busAttemptUnacknowledged s
         = .next (onBus (fun x => { x with queue := { t with attempts := min (t.attempts + 1) 4 } :: ts }) s)) ∧
     (s.spu.bus.executing = false → exec .busAttemptUnacknowledged s = .next s ∧ busTransfer s = none) ∧
     (∀ scan n ts, s.spu.bus.executing = true →
       (∀ b, s.spu.bus.queue = ⟨.bay b, .read, scan, n⟩ :: ts → busTransfer s = some ⟨.bay b, 0x00, [], 18⟩) ∧
       (∀ b, s.spu.bus.queue = ⟨.bay b, .write, scan, n⟩ :: ts →
         busTransfer s = some ⟨.bay b, 0x0B, le 4 s.spu.bus.value, 0⟩) ∧
       (s.spu.bus.queue = ⟨.waste, .read, scan, n⟩ :: ts → busTransfer s = some ⟨.waste, 0x00, [], 6⟩) ∧
       (s.spu.bus.queue = ⟨.waste, .write, scan, n⟩ :: ts →
         busTransfer s = some ⟨.waste, 0x02, le 4 s.spu.bus.value, 0⟩))) ∧
  (∀ (x : Bus) (chip : Chip),
     let unexecuted := if x.executing then x.queue.tail else x.queue
     ((∃ t ∈ unexecuted, t.chip = chip ∧ t.kind = .write) ∨ 16 ≤ x.queue.length → x.pushWrite chip = x) ∧
     ((∀ t ∈ unexecuted, t.chip = chip → t.kind ≠ .write) → x.queue.length < 16 →
       x.pushWrite chip = { x with queue := x.queue ++ [⟨chip, .write, false, 0⟩] })) ∧
  (∀ (x : Bus) (chip : Chip) (scan : Bool),
     let read : Trans := ⟨chip, .read, scan, 0⟩
     (x.queue.length < 16 → x.pushRead chip scan = { x with queue := x.queue ++ [read] }) ∧
     ∀ older youngest newer, 16 ≤ x.queue.length → x.queue = older ++ youngest :: newer → youngest.kind = .write →
       (∀ t ∈ newer, t.kind = .read) → (x.executing = true → older ≠ []) →
       x.pushRead chip scan = { x with queue := older ++ newer ++ [read] }) ∧
  ∀ (scan : Bool) (n : Nat) (ts : List Trans) (s : State), Awake s → s.spu.bus.executing = true →
    let u := onBus Bus.finish s
    (∀ b, s.spu.bus.queue = ⟨.bay b, .write, scan, n⟩ :: ts →
      (n < 4 → exec .chipWriteDone s = .next (setBay u b { bay s b with stale := false })) ∧
      (3 ≤ n → exec .chipWriteFail s
        = .next (raise .chipStale (one b.val) none (setBay u b { bay s b with stale := true })))) ∧
    (s.spu.bus.queue = ⟨.waste, .write, scan, n⟩ :: ts →
      (n < 4 → exec .chipWriteDone s = .next (setWaste { s.uau.waste with stale := false } u)) ∧
      (3 ≤ n → exec .chipWriteFail s
        = .next (raise .chipStale (one 12) none (setWaste { s.uau.waste with stale := true } u))))

/-- The read of a READING bay's chip ends the transaction. On success the record is stored and the first test that
applies decides: REJECTED, REJECTED, OUT, AWAIT_CONFIRM with CONFIRM_NEEDED, or STANDBY, and ACTIVE where the channel
has no active bay, with a PRIME request after an insertion read. On failure the bay goes to FAULT (R6, R7, R8, R20,
R23, R99). That a read is acknowledged before its fourth failed attempt and fails from then on is the model's reading
of the two rows (log entry 19, DESIGN CHOICE). -/
def Obligations.ChipReadJudged : Prop :=
  ∀ (r : Vector Byte 18) (b : Fin 12) (scan : Bool) (n : Nat) (ts : List Trans) (s : State), Awake s →
    s.spu.bus.executing = true → s.spu.bus.queue = ⟨.bay b, .read, scan, n⟩ :: ts → (bay s b).state = .reading →
    let f := chipFields r
    let c := channelOf b
    let valid := 0 < f.capacity ∧ f.capacity ≤ 1000
    let x : Bay :=
      { bay s b with
        chip := some { serial := f.serial, code := f.code, drawn := 0, expiry := f.expiry, refilled := f.refilled }
        ink := if valid then some { capacity := f.capacity, estimate := min (f.remaining * 1000) (f.capacity * 1000000) }
               else none
        scanRead := scan }
    let goes (st : BayState) : State := checkOver c (setBay (onBus Bus.finish s) b { x with state := st })
    let doubtful := f.refilled = true ∨ (s.date ≠ 0 ∧ f.expiry < s.date)
    (n < 4 → ¬ valid → exec (.chipReadDone r) s = .next (goes .rejected)) ∧
    (n < 4 → valid → f.code ≠ c.val → exec (.chipReadDone r) s = .next (goes .rejected)) ∧
    (n < 4 → valid → f.code = c.val → f.remaining = 0 → exec (.chipReadDone r) s = .next (goes .out)) ∧
    (n < 4 → valid → f.code = c.val → f.remaining ≠ 0 → doubtful →
      exec (.chipReadDone r) s = .next (raise .confirmNeeded (one b.val) none (goes .awaitConfirm))) ∧
    (n < 4 → valid → f.code = c.val → f.remaining ≠ 0 → ¬ doubtful → s.cls.stage ≠ .waitInk →
      ((chan s c).active ≠ none → ∃ t, exec (.chipReadDone r) s = .next t ∧ bay t b = { x with state := .standby } ∧
        chan t c = chan s c ∧ t.spu.bus = s.spu.bus.finish ∧ t.cls = s.cls) ∧
      ((chan s c).active = none → scan = true → ∃ t, exec (.chipReadDone r) s = .next t ∧
        bay t b = { x with state := .active, dry := 0 } ∧ (chan t c).active = some (sideOf b) ∧
        t.spu.bus = s.spu.bus.finish ∧ t.cls = s.cls) ∧
      ((chan s c).active = none → scan = false → s.stc.state ≠ .opened → s.stc.state ≠ .capped →
        ∃ t, exec (.chipReadDone r) s = .next t ∧ bay t b = { x with state := .active, dry := 0 } ∧
          (chan t c).active = some (sideOf b) ∧ t.spu.bus = s.spu.bus.finish ∧
          entryOf t (headOf c) = (entryOf s (headOf c)).fold .normal false (OriginSet.of .prime))) ∧
    (3 ≤ n → exec .chipReadFail s
      = .next (checkOver c (setBay (onBus Bus.finish s) b { bay s b with state := .fault })))

/-- The read of the waste chip ends the transaction: a capacity of 0 or a failure sends the state to FAULT; otherwise
the cartridge is fitted at the state of its thresholds, with the event of NEAR_FULL or FULL (R35, R37). The presence
switch: closing in ABSENT gives READING and queues the read; opening in any other state gives ABSENT, discards the
chip's fields and its transactions, and raises WASTE_REMOVED (R35, R38). No hold of the CLS waits on the waste here
(R100, R112). Opening in SUCKING it also aborts the cycle with cause WASTE_ABSENT and that hold: a running pump is
stopped, its revolutions debited and given to the orphan-waste counter, the heads folded back but for the cancelled,
the cycle recorded and the zone handed back (R32, R36, R38, R111, R112). That a read is acknowledged before its fourth
failed attempt and fails from then on is the model's reading of the two rows (log entry 19, DESIGN CHOICE). -/
def Obligations.WasteCartridgeRead : Prop :=
  (∀ (r : Vector Byte 6) (scan : Bool) (n : Nat) (ts : List Trans) (s : State), Awake s →
     s.spu.bus.executing = true → s.spu.bus.queue = ⟨.waste, .read, scan, n⟩ :: ts → s.uau.waste.state = .reading →
     s.cls.hold ≠ some .wasteFull → s.cls.hold ≠ some .wasteAbsent →
     let capacity := field r.toList 0 2
     let fill := field r.toList 2 4
     let u := onBus Bus.finish s
     let fitted (st : WasteState) : State := setWaste ⟨st, some ⟨capacity, fill, fill * 1000, 0⟩, false⟩ u
     (n < 4 → capacity = 0 → exec (.wasteReadDone r) s = .next (setWaste { s.uau.waste with state := .fault } u)) ∧
     (n < 4 → capacity ≠ 0 → fill * 1000 < capacity * 900000 → exec (.wasteReadDone r) s = .next (fitted .fitted)) ∧
     (n < 4 → capacity ≠ 0 → capacity * 900000 ≤ fill * 1000 → fill * 1000 < capacity * 980000 →
       exec (.wasteReadDone r) s = .next (raise .wasteNearFull 0 none (fitted .nearFull))) ∧
     (n < 4 → capacity ≠ 0 → capacity * 980000 ≤ fill * 1000 →
       exec (.wasteReadDone r) s = .next (raise .wasteFull 0 none (fitted .full))) ∧
     (3 ≤ n → exec .wasteReadFail s = .next (setWaste { s.uau.waste with state := .fault } u))) ∧
  (∀ s : State, Awake s → s.cls.stage ≠ .sucking → s.cls.hold ≠ some .wasteFull → s.cls.hold ≠ some .wasteAbsent →
    let u (closed : Bool) : State := { s with pins := { s.pins with wastePresence := closed } }
    (s.pins.wastePresence = false → s.uau.waste.state = .absent →
      exec .wastePresenceClose s
        = .next (onBus (·.pushRead .waste false) (setWaste { s.uau.waste with state := .reading } (u true)))) ∧
    (s.pins.wastePresence = true → s.uau.waste.state ≠ .absent →
      exec .wastePresenceOpen s
        = .next (raise .wasteRemoved 0 none (onBus (·.removeChip .waste) (setWaste ⟨.absent, none, false⟩ (u false)))))) ∧
  ∀ s : State, Awake s → s.pins.wastePresence = true → s.uau.waste.state ≠ .absent → CycleIn s .sucking →
    s.dtu.clsCheck = none → (∀ o ∈ s.orq.queue, o.isTaken = true → o.id ∉ s.cls.outstanding) →
    let capped :=
      ¬ Moving s ∧ wiperIsRetracted s = true ∧ sledIsUp s = true ∧ s.stc.home = true ∧ Unclaimed s ∧ s.orq.waiting = []
    HandBackWaits s ∨ capped → ∃ t, exec .wastePresenceOpen s = .next t ∧
      t.pins = { s.pins with wastePresence := false } ∧ t.uau.waste = ⟨.absent, none, false⟩ ∧
      t.spu.bus = s.spu.bus.removeChip .waste ∧ Told .wasteRemoved 0 none s t ∧
      Told .cleanAborted (several (s.cls.heads.map fun x => x.head.val)) (some (.cleanCause .wasteAbsent)) s t ∧
      FoldedBack s.cls.heads s.cls.cancelled s t ∧
      t.cls = { s.cls.aborted .wasteAbsent (headsStopped s) with table := t.cls.table, hold := some .wasteAbsent } ∧
      (s.stc.pump.running = false → SuctionBooked 0 0 s t ∧ t.uau.orphan = s.uau.orphan) ∧
      (∀ h, s.stc.pump.running = true → s.stc.selector = some h →
        let amount := s.stc.pump.revs
          * (s.params.suctionYield.get (firstChannel h) + s.params.suctionYield.get (secondChannel h))
        SuctionBooked h s.stc.pump.revs s t ∧
          t.uau.orphan = if amount = 0 then s.uau.orphan else min (s.uau.orphan + amount) 4294967295) ∧
      (HandBackWaits s → HandBackBegun s t ∧ t.stc.claims = s.stc.claims) ∧
      (capped → t.stc = { s.stc.handsBack with state := .capped, holder := none, handingBack := false })

/-- A presence switch that closes on an EMPTY bay sends it to READING with BAY_INSERTED and an insertion read. One
that opens sends the bay to EMPTY with its reset values and its transactions removed; an active bay's removal leaves a
stroke from it LOST, and hands over to the other bay if that is in STANDBY, with SWITCHOVER, the refill going on from
it with its stroke count at 0 or being tested afresh; otherwise the channel has no active bay, and a refill ends at
once unless a stroke is in flight (R2, R5, R10, R11, R14). No other channel or bay changes. -/
def Obligations.BayPresence : Prop :=
  ∀ (b : Fin 12) (s : State), Awake s →
    (s.pins.presence.get b = false → (bay s b).state = .empty →
      let u : State := { s with pins := { s.pins with presence := vset s.pins.presence b true } }
      exec (.bayPresenceClose b) s
        = .next (onBus (·.pushRead (.bay b) false)
            (raise .bayInserted (one b.val) none (setBay u b { bay s b with state := .reading })))) ∧
    (s.pins.presence.get b = true →
      let u : State := { s with pins := { s.pins with presence := vset s.pins.presence b false } }
      let v := onBus (·.removeChip (.bay b)) (setBay u b Bay.reset)
      let c := channelOf b
      let other := bayOf c (sideOf b).other
      ((bay s b).state ≠ .active → exec (.bayPresenceOpen b) s = .next (checkOver c v)) ∧
      ((bay s b).state = .active → s.cls.stage ≠ .waitInk → ∃ t, exec (.bayPresenceOpen b) s = .next t ∧
        let x : Channel :=
          if (chan s c).stroke = strokeFrom (some (sideOf b)) then { chan s c with stroke := .lost } else chan s c
        bay t b = Bay.reset ∧ t.pins = u.pins ∧ t.spu.bus = v.spu.bus ∧
        (chan t c).estimate = (chan s c).estimate ∧
        ((chan s c).stroke = strokeFrom (some (sideOf b)) → (chan s c).refill = .refilling → (chan t c).stroke = .lost) ∧
        ((bay s other).state = .standby →
          (chan t c).active = some (sideOf b).other ∧ bay t other = { bay s other with state := .active, dry := 0 } ∧
          chan t c = (if x.refill = .refilling then { x with strokes := 0 } else x).promoted (sideOf b).other
            s.params.refillMark ∧
          Told .switchover (one other.val) none s t) ∧
        ((bay s other).state ≠ .standby →
          let y : Channel :=
            { x with active := none, refill := if x.refill = .refilling ∧ x.stroke = .none then .idle else x.refill }
          (chan t c).active = none ∧ bay t other = bay s other ∧
          chan t c = { y with supply := supplyOf s.params.reserveMark y } ∧ Untold .switchover s t) ∧
        (∀ d, d ≠ c → chan t d = chan s d) ∧ (∀ d, d ≠ b → d ≠ other → bay t d = bay s d) ∧
        { t with spu := s.spu, pau := s.pau, evu := s.evu, pins := s.pins } = s))

/-- A stroke completed from bay `side` of channel `c`. With ink the bay is debited, clamped at 0 with the rest in its
overdraw, with BAY_LOW as it falls below its mark and a write-back at 1,000,000 nL drawn, and the sub-tank credited,
clamped at 30,000,000 with the rest in drift. A first dry stroke only counts; the second in a row sends the bay to OUT
with estimate 0, BAY_OUT and a write-back, and the other bay, in STANDBY, becomes active with SWITCHOVER and the
refill goes on from it unless the float reads HIGH. A LOST stroke credits the sub-tank and debits no bay. Otherwise
the refill ends at HIGH or without an active bay, faults with REFILL_FAULT at the maximum strokes, or begins its next
stroke from the active bay, by the float and the bay as they stand (R2, R11, R12, R15, R16, R21; log entry 42, DESIGN
CHOICE, where they have changed during the stroke). With no stroke in flight there is no effect (log entry 2). -/
def Obligations.StrokeAccounted : Prop :=
  ∀ (c : Fin 6) (ink : Bool) (s : State), Awake s → s.cls.stage ≠ .waitInk →
    let x := chan s c
    let vol := s.params.strokeVolume.get c
    let supplied (y : Channel) : Channel := { y with supply := supplyOf s.params.reserveMark y }
    let counted : Channel := { x with stroke := .none, strokes := min (x.strokes + 1) 255 }
    let goesOn := x.float ≠ .high ∧ x.active ≠ none
    let faults := goesOn ∧ s.params.maxStrokes ≤ min (x.strokes + 1) 255
    let next (y : Channel) : Channel :=
      supplied (if faults then { y with refill := .fault }
        else if goesOn then { y with stroke := strokeFrom x.active } else { y with refill := .idle })
    let credited : Channel :=
      { counted with
        estimate := min (x.estimate + vol) 30000000
        drift := sat32 (x.drift - ((x.estimate + vol - 30000000 : Nat) : Int)) }
    let refillFault (t : State) : Prop :=
      (faults → Told .refillFault (one c.val) none s t) ∧ (¬ faults → Untold .refillFault s t)
    (x.stroke = .none → exec (.strokeComplete c ink) s = .next s) ∧
    (x.stroke = .lost → ∃ t, exec (.strokeComplete c ink) s = .next t ∧ chan t c = next credited ∧ refillFault t ∧
      (∀ d, d ≠ c → chan t d = chan s d) ∧ t.spu.bays = s.spu.bays ∧ t.spu.bus = s.spu.bus ∧
      { t with spu := s.spu, pau := s.pau, evu := s.evu } = s) ∧
    ∀ side : Side, x.stroke = (match side with
        | .a => .a
        | .b => .b) →
      let b := bayOf c side
      let y := bay s b
      let other := bayOf c side.other
      let kept (t : State) : Prop :=
        t.pins = { s.pins with ink := vset s.pins.ink b ink } ∧ (∀ d, d ≠ c → chan t d = chan s d) ∧
          (∀ d, d ≠ b → d ≠ other → bay t d = bay s d) ∧
          { t with spu := s.spu, pau := s.pau, evu := s.evu, pins := s.pins } = s
      (ink = true → ∃ t, exec (.strokeComplete c ink) s = .next t ∧ chan t c = next credited ∧ refillFault t ∧ kept t ∧
        let drawn (k : BayChip) : Nat := k.drawn + min vol y.estimate
        let line := bayLowLine s y
        bay t b =
          { y with
            ink := y.ink.map fun i => { i with estimate := i.estimate - vol }
            chip := y.chip.map fun k => { k with drawn := if drawn k < 1000000 then drawn k else 0 }
            overdraw := min (y.overdraw + (vol - y.estimate)) 4294967295, dry := 0 } ∧
        bay t other = bay s other ∧
        ((∀ k, y.chip = some k → drawn k < 1000000) → t.spu.bus = s.spu.bus) ∧
        (∀ k, y.chip = some k → 1000000 ≤ drawn k → t.spu.bus = s.spu.bus.pushWrite (.bay b)) ∧
        (line ≤ y.estimate ∧ y.estimate - vol < line → Told .bayLow (one b.val) none s t) ∧
        (¬ (line ≤ y.estimate ∧ y.estimate - vol < line) → Untold .bayLow s t)) ∧
      (ink = false → y.dry + 1 < 2 → ∃ t, exec (.strokeComplete c ink) s = .next t ∧ chan t c = next counted ∧
        refillFault t ∧ kept t ∧ bay t b = { y with dry := y.dry + 1 } ∧ bay t other = bay s other ∧
        t.spu.bus = s.spu.bus) ∧
      (ink = false → 2 ≤ y.dry + 1 → ∃ t, exec (.strokeComplete c ink) s = .next t ∧ kept t ∧
        bay t b =
          { y with
            state := .out, ink := y.ink.map fun i => { i with estimate := 0 }
            chip := y.chip.map fun k => { k with drawn := 0 }, dry := y.dry + 1 } ∧
        t.spu.bus = s.spu.bus.pushWrite (.bay b) ∧ Told .bayOut (one b.val) none s t ∧
        ((bay s other).state = .standby →
          bay t other = { bay s other with state := .active, dry := 0 } ∧ (chan t c).active = some side.other ∧
          (chan t c).estimate = x.estimate ∧ Told .switchover (one other.val) none s t ∧
          (x.refill = .refilling →
            let going : Channel := { counted with active := some side.other, strokes := 0, supply := .supplied }
            chan t c =
              if x.float = .high then { going with refill := .idle }
              else { going with stroke := strokeFrom (some side.other) })) ∧
        ((bay s other).state ≠ .standby →
          bay t other = bay s other ∧ Untold .switchover s t ∧
          chan t c
            = supplied { counted with active := none, refill := if x.refill = .refilling then .idle else x.refill }))

/-- A float change: HIGH sets the estimate to 27,000,000, LOW to the lesser of itself and 8,000,000, and the
correction enters drift; the refill start test, the supply state and the overcommitment follow (R18). A reading that
is no change has no effect (log entry 2). -/
def Obligations.FloatCorrects : Prop :=
  ∀ (c : Fin 6) (f : FloatLevel) (s : State), Awake s → s.cls.stage ≠ .waitInk →
    let x := chan s c
    let e := match f with
      | .high => 27000000
      | .mid => x.estimate
      | .low => min x.estimate 8000000
    (x.float = f → exec (.floatChange c f) s = .next s) ∧
    (x.float ≠ f →
      exec (.floatChange c f) s
        = .next (checkOver c (evalSupply c (refillTest c
            (setChan s c { x with float := f, estimate := e, drift := sat32 (x.drift + ((e : Int) - x.estimate)) })))))

/-! ### Usage and FENCE -/

/-- A USAGE frame on the Raster Port joins the posted queue and is counted as placed while the queue holds fewer than
8; with 8 it is discarded and POSTED_FULL set. The reply slot is not consulted (R166 step 3, R169). FENCE is answered
at once, with the applied report count, when the posted queue is empty or the applied count has reached the count
placed, or passed it on its wrapping scale; otherwise its reply is held with the count placed, and FENCE_RELEASE gives
it once that count is reached (R33). That a count passed by less than 2^31 counts as reached, and what an empty queue
does to a held FENCE, is log entry 7; with no FENCE due a FENCE_RELEASE has no effect (log entry 2). -/
def Obligations.UsagePostedAndFence : Prop :=
  (∀ (body : List Byte) (s : State), Awake s → body.length = 80 →
     let u := beginTransaction .raster s
     (s.liu.posted.length < 8 →
       exec (.usage .raster body) s
         = .next { u with liu :=
             { u.liu with posted := s.liu.posted ++ [body], placed := (s.liu.placed + 1) % 4294967296 } }) ∧
     (8 ≤ s.liu.posted.length →
       exec (.usage .raster body) s = .next (setEngine u .raster { engine u .raster with postedFull := true }))) ∧
  ∀ (p : Port) (body : List Byte) (s : State),
    let reached (n : Nat) := s.liu.posted = [] ∨ (s.uau.applied + 2 ^ 32 - n) % 2 ^ 32 < 2 ^ 31
    (Takes s .fence p body →
      (reached s.liu.placed →
        let t := answered p .fence .ok (le 4 s.uau.applied) s
        exec (.fence p body) s = .next { t with liu := { t.liu with fence := none } }) ∧
      (¬ reached s.liu.placed →
        let t := holdSlot p .fence (beginTransaction p s)
        exec (.fence p body) s = .next { t with liu := { t.liu with fence := some s.liu.placed } })) ∧
    (Awake s →
      (∀ n, s.liu.fence = some n → reached n →
        let t := answer .raster .fence .ok (le 4 s.uau.applied) s
        exec .fenceRelease s = .next { t with liu := { t.liu with fence := none } }) ∧
      (∀ n, s.liu.fence = some n → ¬ reached n → exec .fenceRelease s = .next s) ∧
      (s.liu.fence = none → exec .fenceRelease s = .next s))

/-- USAGE_APPLY takes the oldest report and counts it. A destination that is neither MEDIA nor WASTE is a frame error
of kind FIELD on the Raster Port. Otherwise each channel's scaled volume and residue give its debit in nL, which
enters the totals of its destination and lowers the sub-tank, the part beyond the estimate going to overdraw, with the
refill start test and the supply state (R14, R19, R26 to R30); a clamped count raises CLAMPED_USAGE (R27). A report
that fires anything hands on: WASTE to the waste account or the orphan-waste counter (R36, R37, R39), MEDIA to the
page its tag names or to the unmatched counters (R52, R53) and to the heads' drop counts with their threshold (R98),
and each fired head's exposure count restarts (R132). The station is neither OPEN nor CAPPED and no cycle in WAIT_INK,
where a claim or the cycle would go on. -/
def Obligations.UsageApplied : Prop :=
  ∀ (body : List Byte) (rest : List (List Byte)) (s : State), Awake s → s.liu.posted = body :: rest →
    (usageDestination body = none →
      let t : State := { s with liu := { s.liu with posted := rest }
                                uau := { s.uau with applied := (s.uau.applied + 1) % 4294967296 } }
      exec .usageApply s
        = .next (raiseOn .raster .frameError (some (.errorKind .field))
            (setEngine t .raster
              { engine s .raster with
                lastError := true, errorKind := some .field
                errorCount := min ((engine s .raster).errorCount + 1) 65535 }))) ∧
    (∀ d, usageDestination body = some d → BooksBalance s → s.cls.stage ≠ .waitInk → s.stc.state ≠ .opened →
      s.stc.state ≠ .capped →
      let drops (c : Fin 6) (k : Fin 3) : Nat := min (usageCount body c k) 268435455
      let raw (c : Fin 6) : Nat :=
        drops c 0 * dropVolumeOf s.params c 0 + drops c 1 * dropVolumeOf s.params c 1
          + drops c 2 * dropVolumeOf s.params c 2
      let units (c : Fin 6) : Nat :=
        raw c * tempFactor (s.params.tempSlope.get c) s.params.refTemp (usageTemp body (headOf c)) + (book s c).residue
      let debit (c : Fin 6) : Nat := units c / 10000000
      let fired (c : Fin 6) : Nat := drops c 0 + drops c 1 + drops c 2
      let firing := ∃ c, fired c ≠ 0
      let clamped := ∃ (c : Fin 6) (k : Fin 3), 268435455 < usageCount body c k
      ∃ t, exec .usageApply s = .next t ∧ t.liu = { s.liu with posted := rest } ∧
        t.uau.applied = (s.uau.applied + 1) % 4294967296 ∧ t.uau.lastTag = usageTag body ∧
        t.uau.lastSwath = usageSwath body ∧
        (∀ c : Fin 6,
          book t c =
            { residue := units c % 10000000
              total := (book s c).total + debit c
              media := (book s c).media + (if d = .media then debit c else 0)
              waste := (book s c).waste + (if d = .waste then debit c else 0)
              usage := (book s c).usage + debit c
              suction := (book s c).suction
              overdraw := min ((book s c).overdraw + (debit c - (chan s c).estimate)) 4294967295 } ∧
          let x : Channel := { chan s c with estimate := (chan s c).estimate - debit c }
          let due :=
            x.active ≠ none ∧ x.refill = .idle ∧ (x.float = .low ∨ x.estimate < s.params.refillMark) ∧ x.float ≠ .high
          let y : Channel :=
            if due then { x with refill := .refilling, strokes := 0, stroke := strokeFrom x.active } else x
          chan t c = if debit c = 0 then chan s c else { y with supply := supplyOf s.params.reserveMark y }) ∧
        (clamped → Told .clampedUsage 0 (some (.swath (usageSwath body))) s t) ∧
        (¬ clamped → Untold .clampedUsage s t) ∧
        (firing → d = .waste → WasteTaken (debit 0 + debit 1 + debit 2 + debit 3 + debit 4 + debit 5) s t) ∧
        (¬ firing ∨ d = .media →
          t.uau.waste = s.uau.waste ∧ t.uau.orphan = s.uau.orphan ∧ t.spu.bus = s.spu.bus) ∧
        (¬ firing ∨ d = .waste → { t.pau with overSet := s.pau.overSet } = s.pau) ∧
        (firing → d = .media →
          (∀ e es, s.pau.pages = e :: es → e.tag = usageTag body → e.tag ≠ 0 →
            let used : Vector Nat 6 := Vector.ofFn fun c => min (e.consumed.get c + debit c) 4294967295
            let e' : Page :=
              { e with
                consumed := used, state := if e.state = .admitted then .printing else e.state
                overrun := e.overrun || allChannels.any fun c => decide (e.reserved.get c < used.get c) }
            { t.pau with overSet := s.pau.overSet } = { s.pau with pages := e' :: es }) ∧
          ((∀ e es, s.pau.pages = e :: es → e.tag = 0 ∨ e.tag ≠ usageTag body) →
            { t.pau with overSet := s.pau.overSet } =
              { s.pau with
                unmatchedCount := min (s.pau.unmatchedCount + 1) 4294967295
                unmatchedInk := Vector.ofFn fun c => s.pau.unmatchedInk.get c + debit c })) ∧
        (∀ h : Fin 3,
          let x := entryOf s h
          let n := min (x.drops + fired (firstChannel h) + fired (secondChannel h)) 4294967295
          let limit := s.params.dropThreshold.get h
          (¬ firing ∨ d = .waste → entryOf t h = x) ∧
          (firing → d = .media → entryOf t h =
            if limit ≠ 0 ∧ limit ≤ n ∧ x.dropPlaced = false then
              { x with drops := n, dropPlaced := true }.fold .light false (OriginSet.of .dropCount)
            else { x with drops := n }) ∧
          exposure t h =
            if fired (firstChannel h) = 0 ∧ fired (secondChannel h) = 0 then exposure s h
            else { exposure s h with count := 0, due := false }) ∧
        t.fdc = s.fdc ∧ t.rsc = s.rsc ∧ t.dtu = s.dtu ∧ t.params = s.params ∧ t.spu.bays = s.spu.bays)

/-! ### Page admission -/

/-- ADMIT_PAGE: the six checks in order give TABLE_FULL, BAD_FIELD, DUPLICATE_TAG, NOT_LOADED, WASTE_FULL,
WASTE_ABSENT, MEDIA_SHORT or INK_SHORT with the short channels and change nothing; a page that passes joins the table
at the young end as ADMITTED and the overcommitment of its channels is examined (R44, R45, R46). A channel's available
ink is its sub-tank estimate and the estimates of its ACTIVE and STANDBY bays less the reserve mark, its outstanding
ink the sum over the table (R43); that this also holds of a STARVED channel whose refill is in FAULT, where R46 says
0, is log entry 43 (DESIGN CHOICE). The overcommitment check sets the channel's flag with OVERCOMMITTED as outstanding
ink comes to exceed available ink, clears it with no event as it no longer does, and otherwise does nothing (R54). -/
def Obligations.PageAdmitted : Prop :=
  (∀ (c : Fin 6) (s : State),
    let held (side : Side) : Nat :=
      let x := bay s (bayOf c side)
      if x.state = .active ∨ x.state = .standby then x.estimate else 0
    let exceeds := availableInk s c < outstandingInk s c
    let flagged (b : Bool) : State := { s with pau := { s.pau with overSet := vset s.pau.overSet c b } }
    availableInk s c = (chan s c).estimate + held .a + held .b - s.params.reserveMark ∧
      outstandingInk s c = (s.pau.pages.map fun e => e.reserved.get c - e.consumed.get c).sum ∧
      (exceeds → s.pau.overSet.get c = false → checkOver c s = raise .overcommitted (one c.val) none (flagged true)) ∧
      (¬ exceeds → s.pau.overSet.get c = true → checkOver c s = flagged false) ∧
      (s.pau.overSet.get c = decide exceeds → checkOver c s = s) ∧
      checkOverAll [] s = s ∧ ∀ cs, checkOverAll (c :: cs) s = checkOverAll cs (checkOver c s)) ∧
  ∀ (p : Port) (body : List Byte) (s : State), Takes s .admitPage p body →
    let f := admitFields body
    let refused (r : Result) (b : List Byte) : Prop :=
      exec (.admitPage p body) s = .next (answered p .admitPage r b s)
    let bad := f.source = none ∨ f.tag = 0 ∨ f.length = 0 ∨ 200000000 < f.length ∨ ∃ c : Fin 6, 100000 < f.ink.get c
    (4 ≤ s.pau.pages.length → refused .tableFull []) ∧
    (s.pau.pages.length < 4 → bad → refused .badField []) ∧
    ∀ src, s.pau.pages.length < 4 → ¬ bad → f.source = some src →
      let state := (sourceRec s src).state
      let waste := s.uau.waste.state
      let short := ∃ n, remainingOf s src = some n ∧ n < f.length + outstandingMediaOf s src
      let nl (c : Fin 6) : Nat := f.ink.get c * 1000
      let lacks (c : Fin 6) : Prop := nl c ≠ 0 ∧ availableInk s c < nl c + outstandingInk s c
      ((∃ e ∈ s.pau.pages, e.tag = f.tag) → refused .duplicateTag []) ∧
      ((∀ e ∈ s.pau.pages, e.tag ≠ f.tag) →
        (state = .empty ∨ state = .endOfRoll ∨ state = .out → refused .notLoaded []) ∧
        (state = .loaded ∨ state = .inPath →
          (waste = .full → refused .wasteFull []) ∧
          (waste = .absent ∨ waste = .fault → refused .wasteAbsent []) ∧
          (waste = .reading ∨ waste = .fitted ∨ waste = .nearFull →
            (short → refused .mediaShort []) ∧
            (¬ short →
              ((∃ c, lacks c) → ∃ cs, (∀ c, c ∈ cs ↔ lacks c) ∧ refused .inkShort (le 1 (channelMask cs))) ∧
              ((∀ c, ¬ lacks c) →
                let e : Page :=
                  { tag := f.tag, source := src, state := .admitted, reserved := Vector.ofFn nl
                    consumed := Vector.replicate 6 0, mediaReserved := f.length, mediaConsumed := 0, overrun := false }
                exec (.admitPage p body) s
                  = .next (checkOverAll (allChannels.filter fun c => nl c != 0)
                      { answered p .admitPage .ok [] s with
                        pau := { s.pau with pages := s.pau.pages ++ [e] } }))))))

/-- END_PAGE: tag 0 or a flag above 1 is answered BAD_FIELD, a tag of no entry UNKNOWN_TAG; otherwise the entry is
removed, counted as complete, or as aborted if the flag says so or it was FAULTED, its final record answered, and the
overcommitment of its channels examined (R55). That a flag above 1 is BAD_FIELD is the model's inference (log entry
16, DEDUCED); R55 says it of tag 0; that it is tested before UNKNOWN_TAG is log entry 62 (DESIGN CHOICE). The reply's
layout is log entry 14 (DEDUCED), its overrun flag 1 where set log entry 55 (DESIGN CHOICE). -/
def Obligations.PageEnded : Prop :=
  ∀ (p : Port) (body : List Byte) (s : State), Takes s .endPage p body →
    let tag := field body 0 2
    let flag := field body 2 1
    (tag = 0 ∨ 1 < flag → exec (.endPage p body) s = .next (answered p .endPage .badField [] s)) ∧
    (tag ≠ 0 → flag ≤ 1 →
      ((∀ e ∈ s.pau.pages, e.tag ≠ tag) → exec (.endPage p body) s = .next (answered p .endPage .unknownTag [] s)) ∧
      ∀ e pre post, s.pau.pages = pre ++ e :: post → e.tag = tag → (∀ x ∈ pre, x.tag ≠ tag) →
        let complete := flag = 0 ∧ e.state ≠ .faulted
        exec (.endPage p body) s
          = .next (checkOverAll (allChannels.filter fun c => e.outstanding c != 0)
              { answered p .endPage .ok (pageBody e ++ le 1 (if complete then 0 else 1)) s with
                pau := { s.pau with
                  pages := pre ++ post
                  endedComplete := if complete then min (s.pau.endedComplete + 1) 65535 else s.pau.endedComplete
                  endedAborted := if complete then s.pau.endedAborted else min (s.pau.endedAborted + 1) 65535 } }))

/-! ### The station and the zone -/

/-- ZONE_REQUEST and ZONE_RELEASE by station state. In OPEN and UNPARKED the zone is granted: entry NONE, hold,
idle-cap and park timers stopped, capping due cleared, PAUSE_FOR_SERVICE if an urgent claim waits. In CAPPED the entry
becomes WAITING and uncapping begins; in UNCAPPING, CAPPING and SERVICING it becomes WAITING; in GRANTED nothing
changes; HOMING and FAULT refuse. A release in GRANTED leads to UNPARKED out of park and to OPEN in park; elsewhere it
is BAD_STATE (R64 to R67). That a repeat in CAPPED with the entry WAITING begins uncapping follows R65's table against
the sentence below it (log entry 44, DESIGN CHOICE). -/
def Obligations.ZoneRequestedAndReleased : Prop :=
  ∀ (p : Port) (body : List Byte) (s : State),
    (Takes s .zoneRequest p body →
      let ok (r : Result) : State := answered p .zoneRequest r [] s
      let granted : Stc :=
        { s.stc with state := .granted, entry := .none, hold := none, idle := none, park := none, cappingDue := false }
      (s.stc.state = .opened ∨ s.stc.state = .unparked → NoneDue s →
        exec (.zoneRequest p body) s
          = .next (if s.stc.claims.any fun c => c.urgent then raise .pauseForService 0 none (setStc granted (ok .granted))
            else setStc granted (ok .granted))) ∧
      (s.stc.state = .opened ∨ s.stc.state = .unparked → ∃ t, exec (.zoneRequest p body) s = .next t ∧ t.stc = granted) ∧
      (s.stc.state = .granted → exec (.zoneRequest p body) s = .next (ok .granted)) ∧
      (s.stc.state = .capped → s.stc.pump.running = false → s.stc.sled.motion = none → s.pins.sledDown = false →
        exec (.zoneRequest p body) s
          = .next (setStc { s.stc with
              state := .uncapping, entry := .waiting, sled := { s.stc.sled with motion := some (.down, 0) } }
              (ok .pending))) ∧
      (s.stc.state = .uncapping ∨ s.stc.state = .capping ∨ s.stc.state = .servicing →
        exec (.zoneRequest p body) s = .next (setStc { s.stc with entry := .waiting } (ok .pending))) ∧
      (s.stc.state = .homing ∨ s.stc.state = .fault →
        exec (.zoneRequest p body) s = .next (ok .stationFault))) ∧
    (Takes s .zoneRelease p body →
      let ok : State := answered p .zoneRelease .ok [] s
      (s.stc.state ≠ .granted → exec (.zoneRelease p body) s = .next (answered p .zoneRelease .badState [] s)) ∧
      (s.stc.state = .granted → s.stc.home = false → NoneDue s →
        exec (.zoneRelease p body) s
          = .next (setStc { s.stc with state := .unparked, park := some 0, parkRaised := false, idle := none } ok)) ∧
      (s.stc.state = .granted → s.stc.home = true → NoneDue s → Unclaimed s →
        exec (.zoneRelease p body) s = .next (setStc { s.stc with state := .opened, park := none, idle := some 0 } ok)))

/-- STATION_RETRY in FAULT is answered OK and homing begins: the pump stopped, the selector released, the wiper
commanded to RETRACTED, and where it already is there the sled to DOWN; the last fault cause is kept. In any other
state it is BAD_STATE (R60, R62). -/
def Obligations.StationRetried : Prop :=
  ∀ (p : Port) (body : List Byte) (s : State), Takes s .stationRetry p body →
    (s.stc.state ≠ .fault → exec (.stationRetry p body) s = .next (answered p .stationRetry .badState [] s)) ∧
    (s.stc.state = .fault → s.stc.sled.motion = none → s.stc.wiper.motion = none →
      let ok : State := answered p .stationRetry .ok [] s
      let homing : Stc :=
        { s.stc with
          state := .homing, selector := none, pump := { s.stc.pump with running := false }, stall := none }
      (s.pins.wiperRetracted = false →
        exec (.stationRetry p body) s
          = .next (setStc { homing with wiper := { s.stc.wiper with motion := some (.retracted, 0) } } ok)) ∧
      (s.pins.wiperRetracted = true → s.pins.sledDown = false →
        exec (.stationRetry p body) s
          = .next (setStc { homing with
              wiper := { s.stc.wiper with reached := some .retracted }
              sled := { s.stc.sled with motion := some (.down, 0) } } ok)))

/-- A motion ends at its named end sensor. The end of capping gives CAPPED, the EXPOSURE orders removed and the
exposure timers reset; the end of uncapping OPEN; in homing the wiper's end commands the sled DOWN, and the sled's end
gives UNPARKED out of park and CAPPING in park. With no motion a done event has no effect (log entry 2), and an end
sensor that changes changes its raw reading only (R58, R60, R63, R64). That a done event sets the end sensors as they
read at that end is log entry 17. -/
def Obligations.StationMotionsEnd : Prop :=
  ∀ s : State, Awake s →
    let sled (e : SledEnd) : Moved SledEnd := ⟨some e, none, none⟩
    (s.stc.sled.motion = none → exec .sledMotionDone s = .next s) ∧
    (∀ n, s.stc.sled.motion = some (.up, n) → s.stc.sled.queued = none → s.stc.state = .capping → Unclaimed s →
      s.orq.waiting = [] →
      exec .sledMotionDone s
        = .next { s with
            pins := { s.pins with sledDown := false, sledUp := true }
            stc := { s.stc with state := .capped, sled := sled .up }
            ext := Vector.replicate 3 ⟨0, false, false⟩
            orq := { s.orq with queue := s.orq.queue.filter fun o => o.isTaken || o.origin != .exposure } }) ∧
    (∀ n, s.stc.sled.motion = some (.down, n) → s.stc.sled.queued = none →
      let u (x : Stc) : State := { s with pins := { s.pins with sledDown := true, sledUp := false }, stc := x }
      (s.stc.state = .uncapping → Unclaimed s → NoneDue s →
        exec .sledMotionDone s
          = .next (u { s.stc with state := .opened, sled := sled .down, park := none, idle := some 0 })) ∧
      (s.stc.state = .homing → wiperIsRetracted s = true → s.stc.home = false → NoneDue s →
        exec .sledMotionDone s
          = .next (u { s.stc with
              state := .unparked, sled := sled .down, park := some 0, parkRaised := false, idle := none })) ∧
      (s.stc.state = .homing → wiperIsRetracted s = true → s.stc.home = true → s.stc.pump.running = false →
        exec .sledMotionDone s
          = .next (u { s.stc with
              state := .capping, sled := ⟨some .down, some (.up, 0), none⟩, cappingDue := false, idle := none }))) ∧
    (s.stc.wiper.motion = none → exec .wiperMotionDone s = .next s) ∧
    (∀ n, s.stc.wiper.motion = some (.retracted, n) → s.stc.wiper.queued = none → s.stc.state = .homing →
      s.stc.pump.running = false → s.stc.sled.motion = none → s.pins.sledDown = false →
      exec .wiperMotionDone s
        = .next { s with
            pins := { s.pins with wiperRetracted := true, wiperRaised := false }
            stc := { s.stc with
              wiper := ⟨some .retracted, none, none⟩, sled := { s.stc.sled with motion := some (.down, 0) } } }) ∧
    (∀ e reading, s.stc.sled.motion = none → s.stc.wiper.motion = none →
      exec (.endSensorChangeIdle e reading) s = .next (setEndPin e reading s))

/-- A sled or wiper motion that reaches 1,500 ms sends the station to FAULT with its cause: motors and pump off, the
position of the late part UNKNOWN, selector, holder, entry and timers ended, STATION_FAULT raised, and GRANT_DISCARDED
if a grant was waited for. A pump that has stalled in a cycle does the same with cause PUMP, and its revolutions are
debited and the cycle aborted with STATION_FAULT (R32, R58, R59, R61, R113). A motion late in a session of the CLS
aborts its cycle, the heads folded back and nothing handed back (R113); in a session of the DTU it ends the own task
with CHECK_DONE, the outstanding order left to end (R127). That a fault ends the cycle also with another abort pending
is log entry 21, that its cancelled heads stay out of the fold-back log entry 34, and that the check holder becomes
none with the aborted task log entry 28 (DEDUCED); the order of the events of one fault is log entry 47. A timeout or
stall before its 1,500 ms has no effect (log entry 2). -/
def Obligations.StationFaults : Prop :=
  ∀ s : State, Awake s →
    let faulted (c : StationCause) (u : Bool) (w : Bool) : Stc :=
      { s.stc with
        state := .fault
        sled := ⟨if u then none else s.stc.sled.reached, none, none⟩
        wiper := ⟨if w then none else s.stc.wiper.reached, none, none⟩
        pump := { s.stc.pump with running := false }, stall := none, selector := none, lastFault := some c, holder := none
        handingBack := false, entry := .none, hold := none, idle := none, park := none, cappingDue := false }
    let told (c : StationCause) (t : State) : State :=
      let t := raise .stationFault 0 (some (.stationCause c)) t
      if s.stc.entry = .none then t else raise .grantDiscarded 0 none t
    let inSession (c : StationCause) (u : Bool) (w : Bool) (i : Instr) : Prop :=
      (s.stc.holder = some .cls → s.cls.stage.running = true → s.stc.pump.running = false →
        ∃ t, exec i s = .next t ∧ t.stc = { faulted c u w with claims := t.stc.claims } ∧
          Told .stationFault 0 (some (.stationCause c)) s t ∧
          Told .cleanAborted (several (s.cls.heads.map fun x => x.head.val)) (some (.cleanCause .stationFault)) s t ∧
          FoldedBack s.cls.heads s.cls.cancelled s t ∧ t.cls.heads = [] ∧ t.cls.outstanding = [] ∧ t.cls.abort = none ∧
          t.cls.escalated = 0 ∧
          t.cls.last = ⟨s.cls.heads.map fun x => ⟨x.head, x.level, x.done, none⟩, some .stationFault⟩) ∧
      (∀ k, s.stc.holder = some .dtu → s.dtu.task = some k → k.phase = .running →
        ∃ t, exec i s = .next t ∧ t.stc = { faulted c u w with claims := t.stc.claims } ∧
          Told .checkDone (several (k.channels.map Fin.val)) (some (.check k.kind (some .stationFault))) s t ∧
          SweepFolded k.results s t ∧
          t.dtu =
            { s.dtu with
              task := none, machine := .idle, holder := none, outstanding := none
              abandoned := s.dtu.abandoned ++ s.dtu.outstanding.toList } ∧
          t.orq = { s.orq with waiting := s.orq.waiting.filter fun w => w.who != .dtu })
    (∀ e n, s.stc.sled.motion = some (e, n) →
      (n < 1500 → exec .sledMotionTimeout s = .next s) ∧
      (1500 ≤ n → s.stc.holder = none → NoneDue s →
        exec .sledMotionTimeout s = .next (told .sled (setStc (faulted .sled true false) s))) ∧
      (1500 ≤ n → inSession .sled true false .sledMotionTimeout)) ∧
    (∀ e n, s.stc.wiper.motion = some (e, n) →
      (n < 1500 → exec .wiperMotionTimeout s = .next s) ∧
      (1500 ≤ n → s.stc.holder = none → NoneDue s →
        exec .wiperMotionTimeout s = .next (told .wiper (setStc (faulted .wiper false true) s))) ∧
      (1500 ≤ n → inSession .wiper false true .wiperMotionTimeout)) ∧
    (∀ n, s.stc.pump.running = true → s.stc.stall = some n →
      (n < 1500 → exec .pumpStall s = .next s) ∧
      (∀ h, 1500 ≤ n → PumpLawful s → s.stc.selector = some h → ∃ t, exec .pumpStall s = .next t ∧
        t.stc = { faulted .pump false false with claims := t.stc.claims } ∧
        t.cls.heads = [] ∧ t.cls.abort = none ∧ t.cls.last.cause = some .stationFault ∧
        ∀ c, book t c =
          if headOf c = h then
            let amount := s.stc.pump.revs * s.params.suctionYield.get c
            if amount = 0 then book s c
            else
              { book s c with
                total := (book s c).total + amount, suction := (book s c).suction + amount
                waste := (book s c).waste + amount
                overdraw := min ((book s c).overdraw + (amount - (chan s c).estimate)) 4294967295 }
          else book s c))

/-- The home sensor and the station's timers. In UNPARKED the sensor turning true gives OPEN, in OPEN its turning
false gives UNPARKED with a READY entry back to WAITING, elsewhere it is only recorded. The park timer raises
PARK_TIMEOUT once; the idle-cap timer asks for capping; the hold timer gives up the grant with GRANT_DISCARDED (R63,
R68, R69, R71). An expiry before its limit has no effect (log entry 2). -/
def Obligations.HomeSensorAndTimers : Prop :=
  ∀ s : State, Awake s →
    (∀ reading,
      let u : State := { s with pins := { s.pins with home := reading } }
      (s.stc.state = .unparked → s.stc.home = false → reading = true → Unclaimed s → NoneDue s →
        exec (.homeSensorChange reading) s
          = .next (setStc { s.stc with home := true, state := .opened, park := none, idle := some 0 } u)) ∧
      (s.stc.state = .opened → s.stc.home = true → reading = false → NoneDue s →
        exec (.homeSensorChange reading) s
          = .next (setStc { s.stc with
              home := false, state := .unparked, park := some 0, parkRaised := false, idle := none, hold := none
              entry := if s.stc.entry = .ready then .waiting else s.stc.entry } u)) ∧
      (s.stc.state ≠ .unparked → s.stc.state ≠ .opened →
        exec (.homeSensorChange reading) s = .next (setStc { s.stc with home := reading } u))) ∧
    (∀ n, s.stc.park = some n → s.stc.state = .unparked →
      (n < s.params.parkTimeout → exec .parkTimerExpiry s = .next s) ∧
      (s.params.parkTimeout ≤ n →
        exec .parkTimerExpiry s
          = .next (raise .parkTimeout 0 none (setStc { s.stc with park := none, parkRaised := true } s)))) ∧
    (∀ n, s.stc.idle = some n → s.stc.state = .opened →
      (n < s.params.idleCapTime → exec .idleCapExpiry s = .next s) ∧
      (s.params.idleCapTime ≤ n → anyTaken s = true ∨ s.stc.entry = .ready →
        exec .idleCapExpiry s = .next (setStc { s.stc with idle := none, cappingDue := true } s)) ∧
      (s.params.idleCapTime ≤ n → anyTaken s = false → s.stc.entry ≠ .ready → s.stc.pump.running = false →
        s.stc.sled.motion = none → s.pins.sledUp = false →
        exec .idleCapExpiry s
          = .next (setStc { s.stc with
              state := .capping, idle := none, cappingDue := false
              sled := { s.stc.sled with motion := some (.up, 0) } } s))) ∧
    (∀ n, s.stc.hold = some n → s.stc.entry = .ready →
      (n < s.params.grantHoldTime → exec .grantHoldExpiry s = .next s) ∧
      (s.params.grantHoldTime ≤ n → Unclaimed s →
        exec .grantHoldExpiry s
          = .next (raise .grantDiscarded 0 none (setStc { s.stc with entry := .none, hold := none, idle := some 0 } s))))

/-- A head's timer that counts and reaches its limit expires by station state: in GRANTED its count restarts and an
EXPOSURE spit is placed unless one is there or the queue is full; in OPEN its count restarts and capping is asked for,
begun at once or deferred by a TAKEN order or a READY entry; in UNPARKED and FAULT expiry is due, the count held at
the limit, and EXPOSED raised once; in UNCAPPING, CAPPING and HOMING expiry is due, the count held at the limit (R63,
R80, R82, R131, R133, R134). One that does not count or has not reached its limit does nothing (log entry 2). -/
def Obligations.ExposureExpires : Prop :=
  ∀ (h : Fin 3) (s : State), Awake s →
    let x := exposure s h
    let limit := s.params.exposureLimit.get h
    let counts := sledIsUp s = false ∧ s.stc.state ≠ .servicing ∧ x.due = false ∧ limit ≤ x.count
    let restarted := setExposure s h { x with count := 0, due := false }
    (¬ counts → exec (.exposureExpiry h) s = .next s) ∧
    (counts →
      (s.stc.state = .granted →
        ((∃ o ∈ s.orq.queue, o.spitsFor h = true) ∨ 16 ≤ s.orq.queue.length →
          exec (.exposureExpiry h) s = .next restarted) ∧
        ((∀ o ∈ s.orq.queue, o.spitsFor h = false) → s.orq.queue.length < 16 →
          let t := setOrq { s.orq with
            queue := s.orq.queue ++ [⟨nextOrderId s, .spit h s.params.exposureSpitDrops, .exposure, .queued⟩]
            nextId := (nextOrderId s + 1) % 256 } restarted
          exec (.exposureExpiry h) s = .next (if s.orq.queue.isEmpty then raise .ordersPending 0 none t else t))) ∧
      (s.stc.state = .opened → anyTaken s = true ∨ s.stc.entry = .ready →
        exec (.exposureExpiry h) s
          = .next (setStc { s.stc with cappingDue := true } (setExposure s h { x with count := 0 }))) ∧
      (s.stc.state = .opened → anyTaken s = false → s.stc.entry ≠ .ready → s.stc.pump.running = false →
        s.stc.sled.motion = none → s.pins.sledUp = false →
        exec (.exposureExpiry h) s
          = .next (setStc { s.stc with
              state := .capping, cappingDue := false, idle := none
              sled := { s.stc.sled with motion := some (.up, 0) } } (setExposure s h { x with count := 0 }))) ∧
      (s.stc.state = .unparked ∨ s.stc.state = .fault →
        let due : Exposure := { x with count := limit, due := true }
        exec (.exposureExpiry h) s
          = .next (if x.raised then setExposure s h due
            else raise .exposed (one h.val) none (setExposure s h { due with raised := true }))) ∧
      (s.stc.state = .uncapping ∨ s.stc.state = .capping ∨ s.stc.state = .homing →
        exec (.exposureExpiry h) s = .next (setExposure s h { x with count := limit, due := true })))

/-! ### Orders -/

/-- FETCH_ORDER answers NO_ORDER on an empty queue; a TAKEN order is given again unchanged, marked as a repeat;
otherwise the oldest order becomes TAKEN with its timer at 0 and its limit latched, and a CHECK_FIRE begins a sample
record (R83, R84, R91, R116). Every reply carries the number of orders in the queue, the timeout count and the last
timed-out id, and one with an order its id, kind, origin and the fields of its kind, laid out as R185 tables them. -/
def Obligations.OrderFetched : Prop :=
  ∀ (p : Port) (body : List Byte) (s : State), Takes s .fetchOrder p body →
    let fields : OrderBody → Nat × List Byte
      | .spit h drops => (0, le 1 h.val ++ le 1 drops ++ le 3 0)
      | .wipePass hs => (1, le 1 (maskOf [hs.contains 0, hs.contains 1, hs.contains 2]) ++ le 4 0)
      | .checkFire c first last delay => (2, le 1 c.val ++ le 1 first ++ le 1 last ++ le 2 delay)
      | .cutPass => (3, le 5 0)
    let opening (given again : Bool) : List Byte :=
      le 1 (maskOf [given, again, s.orq.lastTimedOut.isSome]) ++ le 1 s.orq.queue.length ++ le 2 s.orq.timeouts
        ++ le 1 (match s.orq.lastTimedOut with
          | some n => n
          | none => 0xFF)
    let order (o : Order) : List Byte :=
      le 1 o.id ++ le 1 (fields o.body).1 ++ le 1 o.origin.ctorIdx ++ (fields o.body).2
    (s.orq.queue = [] →
      exec (.fetchOrder p body) s
        = .next (answered p .fetchOrder .noOrder (opening false false ++ (le 1 0xFF ++ le 7 0)) s)) ∧
    ∀ o os, s.orq.queue = o :: os →
      (o.isTaken = true →
        exec (.fetchOrder p body) s = .next (answered p .fetchOrder .ok (opening true true ++ order o) s)) ∧
      (o.state = .queued →
        let limit := if o.body = .cutPass then s.params.cutPassTimeout else s.params.orderTimeout
        let t := setOrq { s.orq with queue := { o with state := .taken 0 limit } :: os }
          (answered p .fetchOrder .ok (opening true false ++ order o) s)
        exec (.fetchOrder p body) s
          = .next (if o.body.isCheckFire then
              { t with dtu := { s.dtu with
                  sample := some ⟨if s.params.fireEdge = 0 then .rising else .falling, 0, [], []⟩ } }
            else t))

/-- ORDER_DONE names the TAKEN order or is answered LATE, and a flag above 1 is BAD_FIELD. An EXPOSURE spit leaves the
queue; a cut's order, carried out, zeroes the path position and residue and raises CUT_DONE, and faulted raises
CUT_FAILED; both leave the path READY. The timer of a TAKEN order at its limit removes it, counts the timeout and
raises ORDER_TIMEOUT (R84 to R87, R134, R159). A cycle's WIPE_PASS carried out has the wiper retracted; a spit leaves
the outstanding orders, and with the last one the cycle goes to CHECKING, the DTU placing its first CHECK_FIRE, or
ends with CLEAN_DONE, its last cycle recorded and the sucked heads' drop counts zeroed; a cleaning order that fails
aborts the cycle with ORDER_FAILED, the heads folded back and held (R106 to R112). No placement waits and nothing
waits for the zone. An order timer before its limit has no effect (log entry 2). -/
def Obligations.OrderEnded : Prop :=
  (∀ (p : Port) (body : List Byte) (s : State),
    (Takes s .orderDone p body →
      let id := field body 0 1
      let flag := field body 1 1
      (1 < flag → exec (.orderDone p body) s = .next (answered p .orderDone .badField [] s)) ∧
      (flag ≤ 1 → (∀ o, takenOrder s = some o → o.id ≠ id) →
        exec (.orderDone p body) s = .next (answered p .orderDone .late [] s)) ∧
      ∀ o os, flag ≤ 1 → s.orq.queue = o :: os → o.isTaken = true → o.id = id → o.body.isCheckFire = false →
        s.orq.waiting = [] → Unclaimed s →
        let t : State :=
          { answered p .orderDone .ok [] s with
            orq := { s.orq with queue := os }, dtu := { s.dtu with sample := none } }
        (o.origin = .exposure → exec (.orderDone p body) s = .next t) ∧
        (o.origin = .feed → s.fdc.path.cut = some (.orderOut id) →
          (flag = 0 → exec (.orderDone p body) s
            = .next (raise .cutDone 0 none
                (setPath { s.fdc.path with position := 0, residue := 0, cut := none, state := .ready } t))) ∧
          (flag = 1 → exec (.orderDone p body) s
            = .next (raise .cutFailed 0 none (setPath { s.fdc.path with cut := none, state := .ready } t))))) ∧
    (Awake s → ∀ o os n limit, s.orq.queue = o :: os → o.state = .taken n limit →
      (n < limit → exec .orderTimerExpiry s = .next s) ∧
      (limit ≤ n → o.origin = .exposure → s.orq.waiting = [] → Unclaimed s →
        exec .orderTimerExpiry s
          = .next (raise .orderTimeout 0 (some (.orderId o.id))
              { s with
                orq := { s.orq with
                  queue := os, timeouts := min (s.orq.timeouts + 1) 65535, lastTimedOut := some o.id }
                dtu := { s.dtu with sample := none } })))) ∧
  ∀ (s : State) (o : Order) (os : List Order) (st : Stage), s.orq.queue = o :: os → s.orq.waiting = [] →
    o.origin = .cleaning → o.body.isCheckFire = false → o.id ∈ s.cls.outstanding → CycleIn s st →
    let left := s.cls.outstanding.filter fun n => n != o.id
    let sucked := s.cls.heads.filter CycleHead.sucked
    (∀ p body, Takes s .orderDone p body → o.isTaken = true → field body 0 1 = o.id → field body 1 1 = 0 →
      let t : State :=
        { answered p .orderDone .ok [] s with
          orq := { s.orq with queue := os }, dtu := { s.dtu with sample := none }
          cls := { s.cls with outstanding := left } }
      (st = .wiping → s.stc.wiper.motion = none → s.pins.wiperRetracted = false →
        exec (.orderDone p body) s
          = .next (setStc { s.stc with wiper := { s.stc.wiper with motion := some (.retracted, 0) } } t)) ∧
      (st = .spitting → left ≠ [] ∨ s.cls.spitLeft ≠ [] → exec (.orderDone p body) s = .next t) ∧
      (∀ x xs, st = .spitting → left = [] → s.cls.spitLeft = [] → s.params.autoCheck = 1 → sucked = x :: xs →
        os.length < 16 →
        let c := firstChannel x.head
        let id := nextOrderId t
        let u : State :=
          { t with
            cls := { t.cls with
              stage := .checking
              heads := s.cls.heads.map fun y => if y.sucked then y else { y with outcome := some .unchecked } }
            dtu := { t.dtu with
              machine := .checking, holder := some .cls, outstanding := some id
              clsCheck := some
                ⟨sucked.flatMap fun y => [firstChannel y.head, secondChannel y.head], s.params.groupCount,
                  s.params.passLimit, []⟩ }
            orq := { t.orq with
              queue := os ++ [⟨id, .checkFire c 0 (s.params.groupCount - 1) (health s c).delay, .check, .queued⟩]
              nextId := (id + 1) % 256 } }
        exec (.orderDone p body) s = .next (if os.isEmpty then raise .ordersPending 0 none u else u)) ∧
      (st = .spitting → left = [] → s.cls.spitLeft = [] → s.params.autoCheck ≠ 1 ∨ sucked = [] →
        (∀ h, (entryOf s h).level = none) → HandsBackUnparked s →
        ∃ u, exec (.orderDone p body) s = .next u ∧
          Told .cleanDone (several (s.cls.heads.map fun x => x.head.val)) none s u ∧
          (∀ h, entryOf u h =
            if ∃ x ∈ sucked, x.head = h then { entryOf s h with drops := 0, dropPlaced := false } else entryOf s h) ∧
          u.cls =
            { t.cls with
              table := u.cls.table, stage := .none, heads := [], suckLeft := [], spitLeft := [], escalated := 0
              last := ⟨s.cls.heads.map fun x => ⟨x.head, x.level, x.done, some .unchecked⟩, none⟩ } ∧
          u.stc = s.stc.handedBack ∧ { u with cls := t.cls, stc := t.stc, evu := t.evu } = t)) ∧
    (st = .wiping ∨ st = .spitting → (∀ y ∈ os, y.isTaken = false) → s.dtu.clsCheck = none → s.stc.pump.running = false →
      s.stc.sled.motion = none → s.stc.wiper.motion = none → wiperIsRetracted s = false → s.pins.wiperRetracted = false →
      let failed (i : Instr) : Prop :=
        ∃ u, exec i s = .next u ∧
          Told .cleanAborted (several (s.cls.heads.map fun x => x.head.val)) (some (.cleanCause .orderFailed)) s u ∧
          FoldedBack s.cls.heads s.cls.cancelled s u ∧
          u.cls =
            { s.cls with
              table := u.cls.table, stage := .none, heads := [], suckLeft := [], spitLeft := [], outstanding := []
              escalated := 0, hold := some .orderFailed
              last := ⟨s.cls.heads.map fun x => ⟨x.head, x.level, x.done, none⟩, some .orderFailed⟩ } ∧
          u.orq.queue = os ∧
          u.stc =
            { s.stc with
              selector := none, handingBack := true
              wiper := { s.stc.wiper with motion := some (.retracted, 0) } }
      (∀ p body, Takes s .orderDone p body → o.isTaken = true → field body 0 1 = o.id → field body 1 1 = 1 →
        failed (.orderDone p body)) ∧
      (∀ n limit, Awake s → o.state = .taken n limit → limit ≤ n → failed .orderTimerExpiry))

/-- A waiting placement enters when the queue has room, with the next free id, and the unit is told: here the FDC's
CUT_PASS, which is then the order of the cut. That held ids are passed over as the order enters is log entry 58
(DESIGN CHOICE). With no placement waiting or the queue full nothing enters (R79 to R81, R158; log entry 2). -/
def Obligations.WaitingPlacementEnters : Prop :=
  ∀ s : State, Awake s →
    (s.orq.waiting = [] ∨ 16 ≤ s.orq.queue.length → exec .waitingPlacementEntry s = .next s) ∧
    (s.orq.waiting = [⟨.fdc, .cutPass⟩] → s.orq.queue.length < 16 → s.fdc.path.cut = some .orderWait →
      let id := nextOrderId s
      let t := setPath { s.fdc.path with cut := some (.orderOut id) }
        (setOrq { s.orq with
          queue := s.orq.queue ++ [⟨id, .cutPass, .feed, .queued⟩], nextId := (id + 1) % 256, waiting := [] } s)
      exec .waitingPlacementEntry s = .next (if s.orq.queue.isEmpty then raise .ordersPending 0 none t else t)) ∧
    (s.orq.queue.length < 16 → ∀ o ∈ s.orq.queue, o.id ≠ nextOrderId s)

/-- An active FIRE_SYNC edge of a TAKEN CHECK_FIRE is counted, and schedules a sample for its group while groups are
left; another edge changes nothing. A sample that finds the beam interrupted adds its group to the detected set (R91,
R116). When a CHECK_FIRE of a cycle's check ends carried out, its row is recorded and the next row's order placed;
with the last row the cycle, here of one head, takes its outcome and ends with CLEAN_DONE: PASS; ESCALATED, with a
request one level higher, here with three escalated cycles behind it; DEGRADED, with its rows marked and the event, or
with neither where every FAIL row was degraded (R85, R108 to R110, R123, R125). An abandoned order's ending is
discarded (R126). -/
def Obligations.DetectorSamples : Prop :=
  (∀ s : State, Awake s →
    (∀ o os c first last delay (r : Sample) edge, s.orq.queue = o :: os → o.isTaken = true →
      o.body = .checkFire c first last delay →
      s.dtu.sample = some r →
      (edge ≠ r.edge → exec (.fireSyncStrobe edge) s = .next s) ∧
      (edge = r.edge → exec (.fireSyncStrobe edge) s
        = .next (setDtu { s.dtu with
            sample := some { r with
              strobes := r.strobes + 1
              scheduled := if first + r.strobes ≤ last then r.scheduled ++ [first + r.strobes] else r.scheduled } } s))) ∧
    (takenOrder s = none → ∀ edge, exec (.fireSyncStrobe edge) s = .next s) ∧
    (∀ (r : Sample) g gs interrupted, s.dtu.sample = some r → r.scheduled = g :: gs →
      exec (.detectorSample interrupted) s
        = .next (setDtu { s.dtu with
            sample := some { r with
              scheduled := gs, detected := if interrupted then r.detected ++ [g] else r.detected } } s)) ∧
    (s.dtu.sample = none → ∀ interrupted, exec (.detectorSample interrupted) s = .next s)) ∧
  ∀ (p : Port) (body : List Byte) (s : State) (o : Order) (os : List Order) (r : Sample), Takes s .orderDone p body →
    s.orq.queue = o :: os → o.isTaken = true → o.origin = .check → o.body.isCheckFire = true → s.dtu.sample = some r →
    field body 0 1 = o.id → field body 1 1 ≤ 1 → s.orq.waiting = [] →
    let reply := le 2 (min r.strobes 65535) ++ le 1 r.detected.length ++ r.detected.flatMap (le 1)
    let t : State :=
      { answered p .orderDone .ok reply s with
        orq := { s.orq with queue := os }, dtu := { s.dtu with sample := none } }
    (o.id ∈ s.dtu.abandoned → Unclaimed s →
      exec (.orderDone p body) s
        = .next (setDtu { t.dtu with abandoned := s.dtu.abandoned.filter fun n => n != o.id } t)) ∧
    (∀ (k : ClsCheck) (c : Fin 6) (rows : List (Fin 6)), o.id ∉ s.dtu.abandoned → s.dtu.outstanding = some o.id →
      s.dtu.clsCheck = some k → k.rows = c :: rows → s.dtu.machine ≠ .idle → CycleIn s .checking → field body 1 1 = 0 →
      let missed := (List.range k.groupCount).filter fun n => !r.detected.contains n
      let results := k.results ++ [⟨c, decide (missed.length ≤ k.passLimit), (health s c).degraded⟩]
      (∀ d ds, rows = d :: ds → os.length < 16 →
        let id := nextOrderId t
        ∃ u, exec (.orderDone p body) s = .next u ∧ RowRecorded c k.groupCount k.passLimit r.detected s u ∧
          u.dtu =
            { t.dtu with
              health := u.dtu.health, outstanding := some id
              clsCheck := some { k with rows := rows, results := results } } ∧
          u.orq =
            { t.orq with
              queue := os ++ [⟨id, .checkFire d 0 (k.groupCount - 1) (health s d).delay, .check, .queued⟩]
              nextId := (id + 1) % 256 } ∧
          { u with dtu := t.dtu, orq := t.orq, evu := t.evu } = t) ∧
      (∀ x, rows = [] → s.cls.heads = [x] → x.sucked = true → HandsBackUnparked s →
        (∀ h, (entryOf s h).level = none) →
        let fails := results.filter fun y => headOf y.channel == x.head && !y.pass
        let fresh := ∃ y ∈ fails, y.wasDegraded = false
        let ends (outcome : HeadOutcome) (u : State) : Prop :=
          exec (.orderDone p body) s = .next u ∧
            u.dtu =
              { t.dtu with
                health := u.dtu.health, outstanding := none, clsCheck := none, machine := .idle, holder := none } ∧
            u.cls.last = ⟨[⟨x.head, x.level, x.done, some outcome⟩], none⟩ ∧ u.cls.heads = [] ∧ u.cls.escalated = 0 ∧
            Told .cleanDone (one x.head.val) none s u ∧ u.stc = { s.stc.handedBack with claims := u.stc.claims } ∧
            (∀ h, h ≠ x.head → entryOf u h = entryOf s h)
        let counted : CleanEntry := { entryOf s x.head with drops := 0, dropPlaced := false }
        (fails = [] → ∃ u, ends .pass u ∧ RowRecorded c k.groupCount k.passLimit r.detected s u ∧
          entryOf u x.head = { counted with step := 0 } ∧ u.cls.stage = .none) ∧
        (fails ≠ [] → ¬ fresh → ∃ u, ends .degraded u ∧ RowRecorded c k.groupCount k.passLimit r.detected s u ∧
          entryOf u x.head = { counted with step := 0 } ∧ u.cls.stage = .none ∧ Untold .degraded s u) ∧
        (fresh → x.level = .strong → ∃ u, ends .degraded u ∧ entryOf u x.head = { counted.cleared with step := 0 } ∧
          u.cls.stage = .none ∧ (∀ y ∈ fails, (health u y.channel).degraded = true) ∧
          Told .degraded (several (fails.map fun y => y.channel.val)) (some (.head x.head)) s u) ∧
        (fresh → x.level ≠ .strong → s.cls.escalated = 3 → (∀ y ∈ s.stc.claims, y.who ≠ .cls) →
          ∃ u, ends .escalated u ∧ RowRecorded c k.groupCount k.passLimit r.detected s u ∧
            entryOf u x.head =
              { counted.fold x.level.next false (OriginSet.of .escalation) with
                step := min ((entryOf s x.head).step + 1) 255, urgent := false } ∧
            u.cls.stage = .waitZone ∧ u.stc.claims = s.stc.claims ++ [⟨.cls, false⟩])))

/-! ### Cleaning and the detector -/

/-- CLEAN folds one request per named head: the higher level, urgent if either is, the origins together; a hold is
cleared. With no cycle, session or claim of its own, the CLS then waits for the zone with a claim, urgent if a pending
entry is. Fields out of range are BAD_FIELD (R72, R95, R96, R101). The claim's free moment comes with the station OPEN
or CAPPED, no order TAKEN and the entry not READY: an urgent claim goes before a WAITING entry, that before a claim
that is not urgent, and the older claim first (R73). The print side makes the entry READY in OPEN and begins uncapping
in CAPPED (R70); a unit chosen is handed the zone as a session, its claim gone, the idle-cap timer and capping due
ended (R74). The CLS's session forms a cycle of the pending entries: refused at the waste check with CLEAN_ABORTED,
the hold and the cycle recorded, the table kept and the zone handed back (R102); its heads whose ink cannot be served
dropped with CLEAN_ABORTED, all of them ending the cycle, whose record then is log entry 45 (DESIGN CHOICE); the rest
copied, their entries cleared, into WAIT_INK, which passes into SUCKING at once where no channel is both short and
refilling, or, with none of them sucked, into SPITTING (R93, R94, R102 to R105, R107). A zone handed back at once is
CAPPED again with the sled UP, and caps with it DOWN (R63, R73, R74). -/
def Obligations.CleaningRequested : Prop :=
  ∀ (p : Port) (body : List Byte) (s : State), Takes s .clean p body →
    let mask := field body 0 1
    (mask = 0 ∨ 8 ≤ mask ∨ 3 < field body 1 1 ∨ 1 < field body 2 1 →
      exec (.clean p body) s = .next (answered p .clean .badField [] s)) ∧
    ∀ l, 0 < mask → mask < 8 → level? (field body 1 1) = some l → field body 2 1 ≤ 1 →
      let urgent := decide (field body 2 1 = 1)
      let origin : CleanOrigin := if p = .panel then .panel else .job
      let asked (h : Fin 3) : CleanEntry :=
        if maskBit mask h.val then (entryOf s h).fold l urgent (OriginSet.of origin) else entryOf s h
      let claim : Claim := ⟨.cls, allHeads.any fun h => (asked h).level.isSome && (asked h).urgent⟩
      let idle := s.cls.stage = .none ∧ s.stc.holder = none ∧ ∀ c ∈ s.stc.claims, c.who ≠ .cls
      let accepted (t : State) : Prop :=
        exec (.clean p body) s = .next t ∧ ∃ b, (engine t p).slot = .ready ⟨.clean, .accepted, b⟩
      let folded (t : State) : Prop := accepted t ∧ (∀ h, entryOf t h = asked h) ∧ t.cls.hold = none ∧
        { t with cls := s.cls, stc := s.stc, evu := s.evu, liu := s.liu } = s
      let claims := s.stc.claims ++ [claim]
      (¬ FreeToServe s → ∃ t, folded t ∧
        (idle → t.cls.stage = .waitZone ∧ t.stc = { s.stc with claims := claims }) ∧
        (s.cls.stage ≠ .none → t.cls.stage = s.cls.stage)) ∧
      (FreeToServe s → idle → (∀ c ∈ s.stc.claims, c.urgent = false) →
        let lowered (x : Stc) : Stc := { x with sled := { x.sled with motion := some (.down, 0) } }
        let raised (x : Stc) : Stc := { x with sled := { x.sled with motion := some (.up, 0) } }
        let still := s.stc.sled.motion = none ∧ s.stc.pump.running = false
        let waits (x : Stc) : Prop := ∃ t, folded t ∧ t.cls.stage = .waitZone ∧ t.stc = { x with claims := claims }
        (claim.urgent = false → s.stc.entry = .waiting →
          (s.stc.state = .opened → waits { s.stc with entry := .ready, hold := some 0, idle := none }) ∧
          (s.stc.state = .capped → still → s.pins.sledDown = false → waits (lowered { s.stc with state := .uncapping }))) ∧
        (claim.urgent = false → s.stc.entry ≠ .waiting → s.stc.claims = [⟨.dtu, false⟩] → s.dtu.task ≠ none → still →
          sledIsDown s = false → s.pins.sledDown = false →
          ∃ t, accepted t ∧ (∀ h, entryOf t h = asked h) ∧ t.cls.stage = .waitZone ∧
            t.stc = { lowered (s.stc.inSession .dtu) with claims := [claim] }) ∧
        (claim.urgent = true ∨ (s.stc.claims = [] ∧ s.stc.entry ≠ .waiting) →
          let revs : Level → Nat
            | .spitOnly => 0
            | .light => s.params.revsLight
            | .normal => s.params.revsNormal
            | .strong => s.params.revsStrong
          let heads : List CycleHead := allHeads.filterMap fun h => (asked h).level.map fun k =>
            { head := h, level := k, urgent := (asked h).urgent, origins := (asked h).origins, target := revs k, done := 0
              plannedFirst := revs k * s.params.suctionYield.get (firstChannel h)
              plannedSecond := revs k * s.params.suctionYield.get (secondChannel h), outcome := none }
          let planned := (heads.map fun x => x.plannedFirst + x.plannedSecond).sum
          let w := s.uau.waste
          let fittedNow := w.state = .fitted ∨ w.state = .nearFull
          let full := w.state = .full ∨ (fittedNow ∧ ∃ d, w.data = some d ∧ d.capacity * 980000 < d.estimate + planned)
          let absent := w.state = .absent ∨ w.state = .reading ∨ w.state = .fault
          let fits := fittedNow ∧ ∃ d, w.data = some d ∧ d.estimate + planned ≤ d.capacity * 980000
          let short (c : Fin 6) (n : Nat) := decide ((chan s c).estimate < n + s.params.reserveMark)
          let unserved (c : Fin 6) (n : Nat) : Bool :=
            short c n && ((chan s c).active.isNone || (chan s c).refill == .fault)
          let drops (x : CycleHead) : Bool :=
            unserved (firstChannel x.head) x.plannedFirst || unserved (secondChannel x.head) x.plannedSecond
          let slow (c : Fin 6) (n : Nat) : Bool := short c n && (chan s c).refill == .refilling
          let waitsInk (x : CycleHead) : Bool :=
            slow (firstChannel x.head) x.plannedFirst || slow (secondChannel x.head) x.plannedSecond
          let dropped := heads.filter drops
          let rest := heads.filter fun x => !drops x
          let sucked := rest.filter fun x => x.level != .spitOnly
          let named (hs : List CycleHead) : BitVec 16 := several (hs.map fun x => x.head.val)
          let last (hs : List CycleHead) (cause : CleanCause) : LastCycle :=
            ⟨hs.map fun x => ⟨x.head, x.level, 0, none⟩, some cause⟩
          let ended : Cls :=
            { s.cls with
              stage := .none, heads := [], suckLeft := [], spitLeft := [], outstanding := [], escalated := 0, abort := none }
          let cleared (t : State) : Prop := ∀ h, entryOf t h =
            if (asked h).level = none then asked h
            else { asked h with level := none, urgent := false, origins := OriginSet.empty }
          let restful := wiperIsRetracted s = true ∧ s.stc.home = true ∧ Unclaimed s ∧ s.orq.waiting = [] ∧ still
          let back : Stc := { s.stc with holder := none, handingBack := false, idle := none, cappingDue := false }
          let handed (x : Stc) : Prop := restful ∧
            ((s.stc.state = .capped ∧ sledIsUp s = true ∧ x = back) ∨
              (s.stc.state = .opened ∧ sledIsDown s = true ∧ s.pins.sledUp = false ∧
                x = raised { back with state := .capping, park := none }))
          let refused (cause : CleanCause) (hold : CleanHold) (x : Stc) : Prop := ∃ t, accepted t ∧
            (∀ h, entryOf t h = asked h) ∧ Told .cleanAborted (named heads) (some (.cleanCause cause)) s t ∧
            t.cls = { ended with table := t.cls.table, hold := some hold, last := last heads cause } ∧ t.stc = x
          (∀ x, handed x →
            (full → refused .wasteFull .wasteFull x) ∧ (absent → refused .wasteAbsent .wasteAbsent x) ∧
            (fits → rest = [] → ∃ t, accepted t ∧ cleared t ∧
              Told .cleanAborted (named heads) (some (.cleanCause .inkShort)) s t ∧
              t.cls = { ended with table := t.cls.table, hold := none, last := last heads .inkShort } ∧ t.stc = x)) ∧
          (fits → rest ≠ [] →
            let begun (st : Stage) (x : Stc) : Prop := ∃ t, accepted t ∧ cleared t ∧
              (dropped = [] → Untold .cleanAborted s t) ∧
              (dropped ≠ [] → Told .cleanAborted (named dropped) (some (.cleanCause .inkShort)) s t) ∧
              t.cls =
                { s.cls with
                  table := t.cls.table, stage := st, heads := rest, cancelled := [], outstanding := [], abort := none
                  suckLeft := sucked.map CycleHead.head, spitLeft := rest.map CycleHead.head, hold := none } ∧
              t.stc = x ∧ { t with cls := s.cls, stc := s.stc, evu := s.evu, liu := s.liu } = s
            let session := s.stc.inSession .cls
            (sucked ≠ [] → (∃ x ∈ rest, waitsInk x = true) → begun .waitInk session) ∧
            (sucked ≠ [] → (∀ x ∈ rest, waitsInk x = false) → still → s.pins.sledUp = false →
              begun .sucking (raised session)) ∧
            (sucked = [] → still → sledIsDown s = false → s.pins.sledDown = false →
              begun .spitting (lowered session)))))

/-- CANCEL_CLEAN clears the named entries but for their escalation steps and drop counts; with none left pending a
hold is cleared, and a CLS that waited for the zone withdraws its claim. A running cycle with no named head, or in
FINISHING, runs on. A head set that is empty or out of range is BAD_FIELD (R72, R94, R97). A named head of a running
cycle is added to the cancelled heads; with an abort pending, that is all. With none pending the cycle is aborted with
cause CANCELLED: the waiting placement of the CLS and a check under way end (R108, R111), and while an order of the
cycle is TAKEN the abort waits for it. At the safe point a running pump has been stopped and its revolutions debited,
CLEAN_ABORTED names the cycle's heads, those not cancelled are folded back, the cycle is recorded, and the zone is
handed back with a claim for what is pending (R32, R36, R97, R101, R111, R112). That the event names all the cycle's
heads, the cancelled among them, is log entry 34 (DEDUCED). -/
def Obligations.CleaningCancelled : Prop :=
  ∀ (p : Port) (body : List Byte) (s : State), Takes s .cancelClean p body →
    let mask := field body 0 1
    let left (h : Fin 3) : CleanEntry :=
      if maskBit mask h.val then { entryOf s h with level := none, urgent := false, origins := OriginSet.empty }
      else entryOf s h
    let answeredOk (t : State) : Prop :=
      exec (.cancelClean p body) s = .next t ∧ ∃ b, (engine t p).slot = .ready ⟨.cancelClean, .ok, b⟩
    (mask = 0 ∨ 8 ≤ mask → exec (.cancelClean p body) s = .next (answered p .cancelClean .badField [] s)) ∧
    (0 < mask → mask < 8 →
      s.cls.stage = .none ∨ s.cls.stage = .waitZone ∨ s.cls.stage = .finishing ∨
        (∀ x ∈ s.cls.heads, maskBit mask x.head.val = false) →
      ∃ t, answeredOk t ∧ (∀ h, entryOf t h = left h) ∧
        (anyPending t = true → t.cls.hold = s.cls.hold ∧ t.cls.stage = s.cls.stage ∧ t.stc = s.stc) ∧
        (anyPending t = false → t.cls.hold = none ∧
          (s.cls.stage = .waitZone →
            t.cls.stage = .none ∧ t.stc = { s.stc with claims := s.stc.claims.filter fun c => c.who != .cls }) ∧
          (s.cls.stage ≠ .waitZone → t.cls.stage = s.cls.stage ∧ t.stc = s.stc)) ∧
        t.cls = { s.cls with table := t.cls.table, stage := t.cls.stage, hold := t.cls.hold } ∧
        { t with cls := s.cls, stc := s.stc, liu := s.liu } = s) ∧
    (0 < mask → mask < 8 → s.cls.stage.running = true → s.cls.stage ≠ .finishing →
      let named := allHeads.filter fun h => maskBit mask h.val && s.cls.heads.any fun x => x.head == h
      let cancelled := s.cls.cancelled ++ named.filter fun h => !s.cls.cancelled.contains h
      let hold := if allHeads.any fun h => (left h).level.isSome then s.cls.hold else none
      let taken := ∃ o ∈ s.orq.queue, o.isTaken = true ∧ o.id ∈ s.cls.outstanding
      let checks := s.dtu.clsCheck.isSome
      let dtu : Dtu :=
        if checks then
          { s.dtu with
            clsCheck := none, machine := .idle, holder := none, outstanding := none
            abandoned := s.dtu.abandoned ++ s.dtu.outstanding.toList }
        else s.dtu
      let orq : Orq :=
        { s.orq with waiting := s.orq.waiting.filter fun w => w.who != .cls && !(checks && w.who == .dtu) }
      named ≠ [] →
        (s.cls.abort ≠ none →
          ∃ t, answeredOk t ∧ (∀ h, entryOf t h = left h) ∧
            t.cls = { s.cls with table := t.cls.table, hold := hold, cancelled := cancelled } ∧
            { t with cls := s.cls, liu := s.liu } = s) ∧
        (s.cls.abort = none → taken → s.stc.pump.running = false →
          ∃ t, answeredOk t ∧ (∀ h, entryOf t h = left h) ∧
            t.cls =
              { s.cls with table := t.cls.table, hold := hold, cancelled := cancelled, abort := some .cancelled } ∧
            t.dtu = dtu ∧ t.orq = orq ∧ { t with cls := s.cls, dtu := s.dtu, orq := s.orq, liu := s.liu } = s) ∧
        (∀ st, CycleIn s st → ¬ taken → HandBackWaits s → (∀ c ∈ s.stc.claims, c.who ≠ .cls) →
          s.cls.hold ≠ some .wasteFull → s.cls.hold ≠ some .wasteAbsent →
          ∃ t, answeredOk t ∧
            Told .cleanAborted (several (s.cls.heads.map fun x => x.head.val)) (some (.cleanCause .cancelled)) s t ∧
            FoldedBack s.cls.heads cancelled { s with cls := { s.cls with table := Vector.ofFn left } } t ∧
            (let held := if s.cls.heads.all fun x => cancelled.contains x.head then hold else none
             let claims := anyPending t && held.isNone
             t.cls =
               { s.cls.aborted .cancelled (headsStopped s) with
                 table := t.cls.table, cancelled := cancelled, hold := held
                 stage := if claims then .waitZone else .none } ∧
             t.stc.claims = s.stc.claims ++ if claims then [⟨.cls, anyUrgent t⟩] else []) ∧
            HandBackBegun s t ∧ t.dtu = dtu ∧ t.orq = orq ∧
            (s.stc.pump.running = false →
              { t with
                cls := s.cls, stc := s.stc, dtu := s.dtu, orq := s.orq, evu := s.evu, liu := s.liu } = s) ∧
            ∀ h, s.stc.pump.running = true → s.stc.selector = some h →
              SuctionBooked h s.stc.pump.revs s t ∧
                (0 < s.stc.pump.revs → WasteTaken (s.stc.pump.revs
                  * (s.params.suctionYield.get (firstChannel h) + s.params.suctionYield.get (secondChannel h))) s t)))

/-- WAIT_INK ends when no channel of the cycle is both short and refilling. Then, with no head to be dropped, the sled
is commanded UP; with the UP end sensor reading true suction begins, the selector joined to the first sucked head and
the pump started for its target, otherwise the sled motion begins, and its end begins the suction (R58, R59, R103 to
R105). Until then nothing happens. Each revolution of the running pump is counted and restarts the stall timer; at the
target the pump stops, the run is debited, into the waste account too, and the selector released, and after the last
head's run the cycle goes on to WIPING, the sled commanded DOWN (R32, R36, R59, R105, R106). There the sled's end
raises the wiper, the wiper raised the WIPE_PASS for the sucked heads is placed, and the wiper retracted the first
post-wipe spit, in a cycle of one head its only one (R106, R107). That a done event sets the end sensor it names and
clears the opposite one is log entry 17 (DEDUCED). What comes at another moment has no effect (log entry 2). -/
def Obligations.SuctionBeginsAndEnds : Prop :=
  (∀ s : State, Awake s →
     (s.cls.stage ≠ .waitInk ∨ s.cls.abort ≠ none ∨ inkWaits s = true → exec .waitInkEnd s = .next s) ∧
     (∀ x xs, s.cls.stage = .waitInk → s.cls.abort = none → inkWaits s = false →
       (∀ y ∈ s.cls.heads, dropsHead s y = false) → s.cls.heads.filter CycleHead.sucked = x :: xs →
       s.stc.state = .servicing → s.stc.holder = some .cls → s.stc.handingBack = false → s.stc.sled.motion = none →
       s.stc.pump.running = false →
       (s.pins.sledUp = true →
         exec .waitInkEnd s
           = .next (setStc { s.stc with
               sled := { s.stc.sled with reached := some .up }, selector := some x.head
               pump := ⟨true, targetOf s x.head, 0⟩, stall := some 0 }
               (setCls { s.cls with
                 stage := .sucking, suckLeft := xs.map CycleHead.head, spitLeft := s.cls.heads.map CycleHead.head } s))) ∧
       (s.pins.sledUp = false →
         exec .waitInkEnd s
           = .next (setStc { s.stc with sled := { s.stc.sled with motion := some (.up, 0) } }
               (setCls { s.cls with
                 stage := .sucking, suckLeft := (x :: xs).map CycleHead.head
                 spitLeft := s.cls.heads.map CycleHead.head } s))))) ∧
  (∀ s : State, Awake s →
    (s.stc.pump.running = false → exec .pumpRevolution s = .next s) ∧
    (s.stc.pump.running = true → s.stc.pump.revs + 1 < s.stc.pump.target →
      exec .pumpRevolution s
        = .next (setStc { s.stc with pump := { s.stc.pump with revs := s.stc.pump.revs + 1 }, stall := some 0 } s)) ∧
    (s.stc.pump.running = true → s.stc.pump.revs + 1 = s.stc.pump.target → PumpLawful s → s.cls.abort = none →
      s.cls.suckLeft = [] → s.pins.sledDown = false →
      ∃ t, exec .pumpRevolution s = .next t ∧ t.cls.stage = .wiping ∧
        t.stc = { s.stc with
          pump := ⟨false, s.stc.pump.target, s.stc.pump.target⟩, stall := none, selector := none
          sled := ⟨some .up, some (.down, 0), s.stc.sled.queued⟩ } ∧
        (∀ c, (book t c).suction = (book s c).suction +
          if s.stc.selector = some (headOf c) then s.stc.pump.target * s.params.suctionYield.get c else 0) ∧
        ∀ h, s.stc.selector = some h →
          WasteTaken (s.stc.pump.target
            * (s.params.suctionYield.get (firstChannel h) + s.params.suctionYield.get (secondChannel h))) s t)) ∧
  ∀ s : State, Awake s →
    let sledAt (e : SledEnd) : State :=
      { s with
        pins := { s.pins with sledDown := e == .down, sledUp := e == .up }
        stc := { s.stc with sled := ⟨some e, none, none⟩ } }
    let wiperAt (e : WiperEnd) : State :=
      { s with
        pins := { s.pins with wiperRetracted := e == .retracted, wiperRaised := e == .raised }
        stc := { s.stc with wiper := ⟨some e, none, none⟩ } }
    let placed (b : OrderBody) (t : State) : State :=
      let id := nextOrderId s
      let u : State :=
        { t with
          orq := { s.orq with queue := s.orq.queue ++ [⟨id, b, .cleaning, .queued⟩], nextId := (id + 1) % 256 }
          cls := { t.cls with outstanding := s.cls.outstanding ++ [id] } }
      if s.orq.queue.isEmpty then raise .ordersPending 0 none u else u
    (∀ h hs n, CycleIn s .sucking → s.stc.sled.motion = some (.up, n) → s.stc.sled.queued = none →
      s.stc.pump.running = false → s.cls.suckLeft = h :: hs →
      exec .sledMotionDone s
        = .next (setStc { (sledAt .up).stc with
            selector := some h, pump := ⟨true, targetOf s h, 0⟩, stall := some 0 }
            (setCls { s.cls with suckLeft := hs } (sledAt .up)))) ∧
    (∀ n, CycleIn s .wiping → s.stc.sled.motion = some (.down, n) → s.stc.sled.queued = none →
      s.stc.wiper.motion = none → s.pins.wiperRaised = false →
      exec .sledMotionDone s
        = .next (setStc { (sledAt .down).stc with wiper := { s.stc.wiper with motion := some (.raised, 0) } }
            (sledAt .down))) ∧
    (∀ n, CycleIn s .wiping → s.stc.wiper.motion = some (.raised, n) → s.stc.wiper.queued = none →
      s.orq.waiting = [] → s.orq.queue.length < 16 →
      exec .wiperMotionDone s
        = .next (placed (.wipePass ((s.cls.heads.filter CycleHead.sucked).map CycleHead.head)) (wiperAt .raised))) ∧
    (∀ h n, CycleIn s .wiping → s.stc.wiper.motion = some (.retracted, n) → s.stc.wiper.queued = none →
      s.orq.waiting = [] → s.orq.queue.length < 16 → sledIsDown s = true → s.cls.spitLeft = [h] →
      exec .wiperMotionDone s
        = .next (placed (.spit h s.params.postWipeSpitDrops)
            (setCls { s.cls with stage := .spitting, spitLeft := [] } (wiperAt .retracted))))

/-- CHECK_NOZZLES and CALIBRATE_DETECTOR: a channel set that is empty or out of range is BAD_FIELD; a DTU at work or a
running cycle is BUSY_SEQUENCE; otherwise the request is ACCEPTED and an own task waits for the zone with a claim that
is not urgent (R72, R118); the list holds no claim of the DTU here. At a free moment, with no other claim and no entry
WAITING, the zone is handed to the DTU at once: the task runs with its values captured, and the sled is commanded DOWN
or, with it DOWN, the first CHECK_FIRE placed (R73, R74, R119, R120). CLEAR_DEGRADED clears the degraded flag of every
row named and changes no other field of a row; a channel set that is empty or out of range is BAD_FIELD (R128). A
task's CHECK_FIRE carried out records its row in a check, and in a sweep takes the step's outcome and places the next
step or records the row's sweep result; with the last row the task ends with CHECK_DONE and the requests of a sweep,
and the zone is handed back. One that fails ends the task with cause ORDER_FAILED (R120 to R124, R126); that the check
holder then is none is log entry 28 (DEDUCED). -/
def Obligations.DetectorRequests : Prop :=
  (∀ (p : Port) (body : List Byte) (s : State),
     let mask := field body 0 1
     let task (k : TaskKind) : Task :=
       let cs := allChannels.filter fun c => maskBit mask c.val
       { kind := k, channels := cs, port := p, phase := .waitZone, rows := cs, delay := 0, begin_ := none, results := []
         captured := none }
     let law (k : Kind) (kind : TaskKind) (i : Instr) : Prop :=
       Takes s k p body →
         (mask = 0 ∨ 64 ≤ mask → exec i s = .next (answered p k .badField [] s)) ∧
         (0 < mask → mask < 64 → s.cls.stage.running = true ∨ s.dtu.machine ≠ .idle ∨ s.dtu.task ≠ none →
           exec i s = .next (answered p k .busySequence [] s)) ∧
         (0 < mask → mask < 64 → s.cls.stage.running = false → s.dtu.machine = .idle → s.dtu.task = none →
           (¬ FreeToServe s → (∀ c ∈ s.stc.claims, c.who ≠ .dtu) →
             exec i s
               = .next { answered p k .accepted [] s with
                   dtu := { s.dtu with task := some (task kind) }
                   stc := { s.stc with claims := s.stc.claims ++ [⟨.dtu, false⟩] } }) ∧
           (FreeToServe s → s.stc.claims = [] → s.stc.entry ≠ .waiting →
             let q := s.params
             let x : Captured :=
               { start := q.sweepStart, stop := q.sweepEnd, step := q.sweepStep, minWidth := q.minWidth
                 refGroup := q.refGroup, groupCount := q.groupCount, passLimit := q.passLimit, offsets := q.sweepOffset }
             let session := s.stc.inSession .dtu
             let begun : State :=
               { answered p k .accepted [] s with
                 dtu := { s.dtu with
                   task := some { task kind with phase := .running, captured := some x, delay := x.start } }
                 stc := session }
             (sledIsDown s = false → s.pins.sledDown = false → s.stc.sled.motion = none → s.stc.pump.running = false →
               exec i s = .next (setStc { session with sled := { session.sled with motion := some (.down, 0) } } begun)) ∧
             (∀ c cs, sledIsDown s = true → s.dtu.clsCheck = none → s.orq.waiting = [] → s.orq.queue.length < 16 →
               (task kind).channels = c :: cs →
               let id := nextOrderId s
               let group := if x.refGroup < x.groupCount then x.refGroup else x.groupCount - 1
               let order : OrderBody :=
                 if kind = .sweep then .checkFire c group group x.start
                 else .checkFire c 0 (x.groupCount - 1) (health s c).delay
               let t : State :=
                 { begun with
                   dtu := { begun.dtu with
                     machine := if kind = .sweep then .sweeping else .checking, holder := some .dtu
                     outstanding := some id }
                   orq := { s.orq with
                     queue := s.orq.queue ++ [⟨id, order, .check, .queued⟩], nextId := (id + 1) % 256 } }
               exec i s = .next (if s.orq.queue.isEmpty then raise .ordersPending 0 none t else t))))
     law .checkNozzles .check (.checkNozzles p body) ∧ law .calibrateDetector .sweep (.calibrateDetector p body)) ∧
  (∀ (p : Port) (body : List Byte) (s : State), Takes s .clearDegraded p body →
    let mask := field body 0 1
    (mask = 0 ∨ 64 ≤ mask → exec (.clearDegraded p body) s = .next (answered p .clearDegraded .badField [] s)) ∧
    (0 < mask → mask < 64 → ∃ rows,
      exec (.clearDegraded p body) s
        = .next { answered p .clearDegraded .ok [] s with dtu := { s.dtu with health := rows } } ∧
      ∀ c : Fin 6, rows.get c = if maskBit mask c.val then { health s c with degraded := false } else health s c)) ∧
  ∀ (p : Port) (body : List Byte) (s : State) (o : Order) (os : List Order) (r : Sample) (k : Task) (x : Captured)
    (c : Fin 6) (rows : List (Fin 6)), Takes s .orderDone p body → s.orq.queue = o :: os → o.isTaken = true →
    o.origin = .check → o.body.isCheckFire = true → s.dtu.sample = some r → field body 0 1 = o.id → s.orq.waiting = [] →
    o.id ∉ s.dtu.abandoned → s.dtu.outstanding = some o.id → TaskRuns s k x → k.rows = c :: rows →
    let reply := le 2 (min r.strobes 65535) ++ le 1 r.detected.length ++ r.detected.flatMap (le 1)
    let t : State :=
      { answered p .orderDone .ok reply s with
        orq := { s.orq with queue := os }, dtu := { s.dtu with sample := none, outstanding := none } }
    let goesOn (k' : Task) (b : OrderBody) (u : State) : Prop :=
      let id := nextOrderId t
      exec (.orderDone p body) s = .next u ∧
        u.dtu = { t.dtu with health := u.dtu.health, outstanding := some id, task := some k' } ∧
        u.orq =
          { t.orq with queue := os ++ [⟨id, b, .check, .queued⟩], nextId := (id + 1) % 256 } ∧
        { u with dtu := t.dtu, orq := t.orq, evu := t.evu } = t
    let ends (cause : Option CheckCause) (results : List (Fin 6 × SweepResult)) (u : State) : Prop :=
      exec (.orderDone p body) s = .next u ∧
        Told .checkDone (several (k.channels.map Fin.val)) (some (.check k.kind cause)) s u ∧
        u.dtu = { t.dtu with health := u.dtu.health, task := none, machine := .idle, holder := none } ∧
        SweepFolded results s u ∧ u.stc = { s.stc.handedBack with claims := u.stc.claims }
    (field body 1 1 = 1 → HandsBackUnparked s → ∃ u, ends (some .orderFailed) k.results u ∧ u.dtu.health = s.dtu.health) ∧
    (field body 1 1 = 0 → k.kind = .check →
      (∀ d ds, rows = d :: ds → os.length < 16 →
        ∃ u, goesOn { k with rows := rows } (.checkFire d 0 (x.groupCount - 1) (health s d).delay) u ∧
          RowRecorded c x.groupCount x.passLimit r.detected s u) ∧
      (rows = [] → HandsBackUnparked s →
        ∃ u, ends none k.results u ∧ RowRecorded c x.groupCount x.passLimit r.detected s u)) ∧
    (field body 1 1 = 0 → k.kind = .sweep →
      let group := if x.refGroup < x.groupCount then x.refGroup else x.groupCount - 1
      let step := if x.step = 0 then 1 else x.step
      let stop := max x.start x.stop
      let seen := group ∈ r.detected
      let first := if k.begin_ = none ∧ seen then some k.delay else k.begin_
      let found : Option Nat := if k.begin_ ≠ none ∧ ¬ seen then some k.delay else none
      let finished := found ≠ none ∨ stop < k.delay + step
      let row : Health := match first with
        | none => { health s c with sweep := .noSignal }
        | some b =>
          let e := found.getD stop
          let middle : Int := ((b + (e - b) / 2 : Nat) : Int) + x.offsets.get c
          { health s c with
            sweep := if e - b < x.minWidth then .narrow else if found.isSome then .ok else .clipped
            fields := some ⟨b, e, e - b⟩, delay := (max 0 (min middle 4095)).toNat }
      let recorded (u : State) : Prop := health u c = row ∧ (∀ d, d ≠ c → health u d = health s d)
      (¬ finished → os.length < 16 →
        ∃ u, goesOn { k with delay := k.delay + step, begin_ := first } (.checkFire c group group (k.delay + step)) u ∧
          u.dtu.health = s.dtu.health) ∧
      (∀ d ds, finished → rows = d :: ds → os.length < 16 →
        ∃ u, goesOn { k with rows := rows, delay := x.start, begin_ := none, results := k.results ++ [(c, row.sweep)] }
            (.checkFire d group group x.start) u ∧ recorded u) ∧
      (finished → rows = [] → HandsBackUnparked s →
        ∃ u, ends none (k.results ++ [(c, row.sweep)]) u ∧ recorded u))

/-! ### The media path -/

/-- A motion request with a field out of range is BAD_FIELD; on a port that has a motion waiting or running it is
BUSY; with the motor running for another port it waits in the arbiter, its reply held (R145, R149, R150, R151, R158,
R160). -/
def Obligations.MotionRequestsEnter : Prop :=
  ∀ (p : Port) (body : List Byte) (s : State),
    let busy := s.fdc.waiting.get p ≠ none ∨ ∃ m, s.fdc.motion = some m ∧ m.port = p
    let law (k : Kind) (i : Instr) (req : MotionReq) : Prop :=
      (busy → exec i s = .next (answered p k .busy [] s)) ∧
      (¬ busy → s.fdc.motion ≠ none →
        exec i s
          = .next (setFdc { s.fdc with waiting := s.fdc.waiting.set p (some req) }
              (holdSlot p k (beginTransaction p s))))
    let badField (k : Kind) (i : Instr) : Prop := exec i s = .next (answered p k .badField [] s)
    (Takes s .loadMedia p body →
      let width := field body 2 2
      let length := field body 4 4
      let bad := 2 < field body 0 1 ∨ 7 < field body 1 1 ∨ width < 1000 ∨ 11176 < width ∨ length = 0 ∨
        (200000000 < length ∧ length ≠ 0xFFFFFFFF)
      (bad → badField .loadMedia (.loadMedia p body)) ∧
      ∀ src (kind : Fin 8), ¬ bad → source? (field body 0 1) = some src → field body 1 1 = kind.val →
        law .loadMedia (.loadMedia p body)
          (.load src kind width (if length = 0xFFFFFFFF then none else some length))) ∧
    (Takes s .unloadMedia p body → law .unloadMedia (.unloadMedia p body) .unload) ∧
    (Takes s .advance p body →
      let dist := field body 2 4
      (dist = 0 ∨ 200000 < dist → badField .advance (.advance p body)) ∧
      (0 < dist → dist ≤ 200000 → law .advance (.advance p body) (.advance (field body 0 2) dist))) ∧
    (Takes s .cut p body → law .cut (.cut p body) .cut) ∧
    (Takes s .manualFeed p body →
      let dist := fieldSigned body 0 4
      (dist = 0 ∨ 200000 < dist ∨ dist < -200000 → badField .manualFeed (.manualFeed p body)) ∧
      (dist ≠ 0 → -200000 ≤ dist → dist ≤ 200000 → law .manualFeed (.manualFeed p body) (.manual dist)))

/-- With the motor free and no request waiting, a motion request is served at once. One that fails its checks is
answered with their result. One that passes begins its motion in its direction, with the counts of its distance as
target, the counts per metre kept for the conversion back, and its timer at 0: LOAD_MEDIA, UNLOAD_MEDIA and CUT are
ACCEPTED, ADVANCE and MANUAL_FEED keep their reply held. A load of an UNREGISTERED path, or with media already at the
leading edge, completes at once; where the source's end has been reached END_OF_ROLL follows; an unload with no media
at the path entry completes at once (R145 to R153, R158, R160). A target of 0 counts completes at once too, with every
effect of its completion (R148, R152, R158, R160). An ADVANCE that begins makes the oldest entry its tag names, where
that is ADMITTED, PRINTING, and touches no other entry (R49). -/
def Obligations.MotionsBegin : Prop :=
  (∀ (tag : Nat) (s : State),
    (∀ e es, s.pau.pages = e :: es → tag ≠ 0 → e.tag = tag → e.state = .admitted →
      pauAdvanceBegins tag s = { s with pau := { s.pau with pages := { e with state := .printing } :: es } }) ∧
    (tag = 0 ∨ s.pau.pages = [] → pauAdvanceBegins tag s = s) ∧
    ∀ e es, s.pau.pages = e :: es → e.tag ≠ tag ∨ e.state ≠ .admitted → pauAdvanceBegins tag s = s) ∧
  ∀ (p : Port) (body : List Byte) (s : State), s.fdc.waiting = ⟨none, none, none⟩ → s.fdc.motion = none →
    let served (t : State) : State := setFdc { s.fdc with lastServed := some p } t
    let held (k : Kind) : State := served (holdSlot p k (beginTransaction p s))
    let refused (k : Kind) (r : Result) (i : Instr) : Prop := exec i s = .next (served (answered p k r [] s))
    let begun (k : MotionKind) (dist : Nat) (target : Option Nat) (residue : Nat) (reply : Bool) (x : Path) (t : State) :
        State :=
      setFdc { t.fdc with
        path := x
        motion := some { kind := k, port := p, dist := dist, target := target, newResidue := residue
                         perMetre := s.params.countsPerMetre, counts := 0, timer := 0
                         replyHeld := reply } } t
    (Takes s .advance p body →
      let d := field body 2 4
      let tag := field body 0 2
      0 < d → d ≤ 200000 →
        (∀ r, advanceCheck s tag = some r → refused .advance r (.advance p body)) ∧
        (advanceCheck s tag = none → forwardTarget s d ≠ 0 →
          exec (.advance p body) s
            = .next (begun (.advance tag) d (some (forwardTarget s d)) (forwardResidue s d) true
                { s.fdc.path with state := .moving } (pauAdvanceBegins tag (held .advance)))) ∧
        (advanceCheck s tag = none → forwardTarget s d = 0 →
          let r := forwardResidue s d
          let t := pauAdvanceDone tag d (mediaForward d
            (setPath { s.fdc.path with state := .moving, residue := r } (pauAdvanceBegins tag (held .advance))))
          exec (.advance p body) s
            = .next (answer p .advance .ok (le 4 0 ++ le 8 r) (setPath { t.fdc.path with state := .ready } t)))) ∧
    (Takes s .manualFeed p body →
      let dist := fieldSigned body 0 4
      let d := dist.natAbs
      dist ≠ 0 → -200000 ≤ dist → dist ≤ 200000 →
        (∀ r, manualCheck s dist = some r → refused .manualFeed r (.manualFeed p body)) ∧
        (manualCheck s dist = none → 0 < dist → forwardTarget s d ≠ 0 →
          exec (.manualFeed p body) s
            = .next (begun .manualForward d (some (forwardTarget s d)) (forwardResidue s d) true
                { s.fdc.path with state := .moving } (held .manualFeed))) ∧
        (manualCheck s dist = none → dist < 0 → reverseTarget s d ≠ 0 →
          exec (.manualFeed p body) s
            = .next (begun .manualReverse d (some (reverseTarget s d)) 0 true
                { s.fdc.path with state := .moving } (held .manualFeed))) ∧
        (let moved (t : State) : Prop := exec (.manualFeed p body) s
           = .next (answer p .manualFeed .ok (le 4 0) (setPath { t.fdc.path with state := .ready } t))
         (manualCheck s dist = none → 0 < dist → forwardTarget s d = 0 →
           moved (mediaForward d
             (setPath { s.fdc.path with state := .moving, residue := forwardResidue s d } (held .manualFeed)))) ∧
         (manualCheck s dist = none → dist < 0 → reverseTarget s d = 0 →
           moved (mediaReverse d (setPath { s.fdc.path with state := .moving } (held .manualFeed)))))) ∧
    (Takes s .cut p body →
      let d := s.params.cutOffset
      (∀ r, threadedCheck s = some r → refused .cut r (.cut p body)) ∧
      (threadedCheck s = none → forwardTarget s d ≠ 0 →
        exec (.cut p body) s
          = .next (begun .cut d (some (forwardTarget s d)) (forwardResidue s d) false
              { s.fdc.path with state := .cutting, cut := some .advancing } (served (answered p .cut .accepted [] s)))) ∧
      (threadedCheck s = none → forwardTarget s d = 0 → hasRoom s = true → isWaiting s .fdc = false →
        let t := mediaForward d (setPath
          { s.fdc.path with state := .cutting, cut := some .advancing, residue := forwardResidue s d }
          (served (answered p .cut .accepted [] s)))
        let id := nextOrderId s
        let u := setPath { t.fdc.path with cut := some (.orderOut id) } (setOrq { s.orq with
          queue := s.orq.queue ++ [⟨id, .cutPass, .feed, .queued⟩], nextId := (id + 1) % 256 } t)
        exec (.cut p body) s = .next (if s.orq.queue.isEmpty then raise .ordersPending 0 none u else u))) ∧
    (Takes s .unloadMedia p body →
      (∀ r, threadedCheck s = some r → refused .unloadMedia r (.unloadMedia p body)) ∧
      (threadedCheck s = none → s.fdc.path.pathEntry = true →
        exec (.unloadMedia p body) s
          = .next (begun .unload 0 none 0 false { s.fdc.path with state := .unloading }
              (served (answered p .unloadMedia .accepted [] s)))) ∧
      (∀ src, threadedCheck s = none → s.fdc.path.pathEntry = false → s.fdc.path.source = some src →
        let r := sourceRec s src
        let media := r.media.map fun m => { m with remaining := m.remaining.map fun n => min n 200000000 }
        exec (.unloadMedia p body) s
          = .next (raise .unloadDone (one (sourceCode src)) none
              (setPath { s.fdc.path with state := .empty, source := none, position := 0 }
                (setSource (served (answered p .unloadMedia .accepted [] s)) src
                  (if src = .sheet then ⟨.empty, none, r.rollEndSeen⟩
                    else { r with state := if r.rollEndSeen then .endOfRoll else .loaded, media := media })))))) ∧
    (Takes s .loadMedia p body → ∀ src (kind : Fin 8),
      let width := field body 2 2
      let length := field body 4 4
      let x := s.fdc.path
      source? (field body 0 1) = some src → field body 1 1 = kind.val → 1000 ≤ width → width ≤ 11176 → 0 < length →
      length ≤ 200000000 ∨ length = 0xFFFFFFFF →
        let t := served (answered p .loadMedia .accepted [] s)
        let media : Media := ⟨kind, width, if length = 0xFFFFFFFF then none else some length⟩
        (∀ r, loadCheck s src = some r → refused .loadMedia r (.loadMedia p body)) ∧
        (loadCheck s src = none → x.state = .empty → x.leadingEdge = false →
          exec (.loadMedia p body) s
            = .next (begun (.load src) 0 none 0 false { x with state := .loading, source := some src }
                (setSource t src ⟨.loaded, some media, false⟩))) ∧
        (loadCheck s src = none → x.state = .unregistered ∨ x.leadingEdge = true →
          let done (r : SourceRec) : State :=
            raise .loadDone (one (sourceCode src)) none
              (setPath { x with state := .ready, source := some src, position := 0, residue := 0 } (setSource t src r))
          (endReading s src = false →
            exec (.loadMedia p body) s = .next (done ⟨.inPath, some media, false⟩)) ∧
          (endReading s src = true →
            let left := (match media.remaining with
              | none => s.params.tailLength
              | some n => min n s.params.tailLength)
            left ≠ 0 →
              exec (.loadMedia p body) s
                = .next (raise .endOfRoll (one (sourceCode src)) none
                    (done ⟨.endOfRoll, some { media with remaining := some left }, true⟩)))))

/-- The checks of ADVANCE in their order: MEDIA_HELD with the path held or the cover open, NOT_LOADED without a source
in a READY path, MEDIA_OUT, then the tag: 0 passes, the oldest entry's passes unless it is FAULTED or on another
source (BAD_STATE), a younger entry's is OUT_OF_ORDER and any other UNKNOWN_TAG; and last SUPPLY_STOP where the oldest
entry holds reserved ink on a STARVED channel (R49, R50, R151). The checks of the other motions in their orders: of
UNLOAD_MEDIA and CUT (R150, R158), of MANUAL_FEED (R160) and of LOAD_MEDIA (R149). -/
def Obligations.AdvanceChecks : Prop :=
  (∀ (s : State) (tag : Nat),
    let x := s.fdc.path
    let stop := ∃ e es, s.pau.pages = e :: es ∧ ∃ c, e.reserved.get c ≠ 0 ∧ (chan s c).supply = .starved
    let last := if supplyStop s then some Result.supplyStop else none
    (supplyStop s = true ↔ stop) ∧
    (x.state = .held ∨ x.coverOpen = true → advanceCheck s tag = some .mediaHeld) ∧
    (x.state ≠ .held → x.coverOpen = false →
      (x.source = none ∨ x.state ≠ .ready → advanceCheck s tag = some .notLoaded) ∧
      ∀ src, x.source = some src → x.state = .ready →
        ((sourceRec s src).state = .out → advanceCheck s tag = some .mediaOut) ∧
        ((sourceRec s src).state ≠ .out →
          (tag = 0 → advanceCheck s tag = last) ∧
          (tag ≠ 0 → s.pau.pages = [] → advanceCheck s tag = some .unknownTag) ∧
          (∀ e es, tag ≠ 0 → s.pau.pages = e :: es →
            (e.tag = tag → e.state = .faulted ∨ e.source ≠ src → advanceCheck s tag = some .badState) ∧
            (e.tag = tag → e.state ≠ .faulted → e.source = src → advanceCheck s tag = last) ∧
            (e.tag ≠ tag → (∃ y ∈ es, y.tag = tag) → advanceCheck s tag = some .outOfOrder) ∧
            (e.tag ≠ tag → (∀ y ∈ es, y.tag ≠ tag) → advanceCheck s tag = some .unknownTag))))) ∧
  (∀ s : State,
    let x := s.fdc.path
    let printing := ∃ e ∈ s.pau.pages, e.state = .printing
    let held := x.state = .held ∨ x.coverOpen = true
    (printing → threadedCheck s = some .busy) ∧
    (¬ printing → held → threadedCheck s = some .mediaHeld) ∧
    (¬ printing → ¬ held → x.state = .cutting → threadedCheck s = some .busy) ∧
    (¬ printing → ¬ held → x.state ≠ .cutting → x.state ≠ .ready → threadedCheck s = some .notLoaded) ∧
    (¬ printing → ¬ held → x.state = .ready → threadedCheck s = none) ∧
    (∀ d : Int,
      let out := 0 < d ∧ ∃ src, x.source = some src ∧ (sourceRec s src).state = .out
      (printing → manualCheck s d = some .busy) ∧
      (¬ printing → x.state = .cutting → manualCheck s d = some .busySequence) ∧
      (¬ printing → x.state ≠ .cutting → held → manualCheck s d = some .mediaHeld) ∧
      (¬ printing → x.state ≠ .cutting → ¬ held → x.state ≠ .ready → manualCheck s d = some .notLoaded) ∧
      (¬ printing → ¬ held → x.state = .ready → out → manualCheck s d = some .mediaOut) ∧
      (¬ printing → ¬ held → x.state = .ready → ¬ out → manualCheck s d = none)) ∧
    (∀ src,
      let other := ∃ y, x.source = some y ∧ y ≠ src
      let free := x.state = .empty ∨ x.state = .unregistered
      let noSheet := src = .sheet ∧ x.sheetPresent = false
      (other → loadCheck s src = some .pathOccupied) ∧
      (¬ other → ¬ free → loadCheck s src = some .busy) ∧
      (¬ other → free → x.coverOpen = true → loadCheck s src = some .mediaHeld) ∧
      (¬ other → free → x.coverOpen = false → noSheet → loadCheck s src = some .notLoaded) ∧
      (¬ other → free → x.coverOpen = false → ¬ noSheet → loadCheck s src = none)))

/-- The arbiter takes a waiting port of the HIGH group before one of the LOW group, within a group in the cyclic order
Job, Raster, Panel from the port after the last port served, and serves only with the motor free: here a single
waiting ADVANCE, refused with its checks' result, begun, or, with a target of 0, completed at once (R146, R148, R151).
With the motor running or nothing waiting it does nothing (log entry 2). -/
def Obligations.ArbiterServes : Prop :=
  ∀ s : State, Awake s →
    (s.fdc.motion ≠ none ∨ (∀ p, s.fdc.waiting.get p = none) → exec .arbiterServe s = .next s) ∧
    (∀ p, nextPort s = some p → s.fdc.waiting.get p ≠ none ∧
      ((∃ q, s.fdc.waiting.get q ≠ none ∧ s.params.feedGroup.get q = 0) → s.params.feedGroup.get p = 0)) ∧
    ((∃ p, s.fdc.waiting.get p ≠ none) → nextPort s ≠ none) ∧
    (let cycle : List Port := match s.fdc.lastServed with
       | none | some .panel => [.job, .raster, .panel]
       | some .job => [.raster, .panel, .job]
       | some .raster => [.panel, .job, .raster]
     ∀ p q, nextPort s = some p → s.fdc.waiting.get q ≠ none →
       (s.params.feedGroup.get q = 0 ↔ s.params.feedGroup.get p = 0) → cycle.idxOf p ≤ cycle.idxOf q) ∧
    (∀ p tag d, s.fdc.motion = none → s.fdc.waiting.get p = some (.advance tag d) →
      (∀ q, q ≠ p → s.fdc.waiting.get q = none) →
      let t := setFdc { s.fdc with waiting := ⟨none, none, none⟩, lastServed := some p } s
      (∀ r, advanceCheck s tag = some r → exec .arbiterServe s = .next (answer p .advance r [] t)) ∧
      (advanceCheck s tag = none → forwardTarget s d ≠ 0 →
        exec .arbiterServe s
          = .next (setFdc { t.fdc with
              path := { s.fdc.path with state := .moving }
              motion := some { kind := .advance tag, port := p, dist := d, target := some (forwardTarget s d)
                               newResidue := forwardResidue s d, perMetre := s.params.countsPerMetre, counts := 0
                               timer := 0, replyHeld := true } }
              (pauAdvanceBegins tag t))) ∧
      (advanceCheck s tag = none → forwardTarget s d = 0 →
        let r := forwardResidue s d
        let u := pauAdvanceDone tag d (mediaForward d
          (setPath { s.fdc.path with state := .moving, residue := r } (pauAdvanceBegins tag t)))
        exec .arbiterServe s
          = .next (answer p .advance .ok (le 4 0 ++ le 8 r) (setPath { u.fdc.path with state := .ready } u))))

/-- A motion's completion with no other request waiting. A load leaves its source in path and the path READY at
position 0; an unload gives the length back, empties the path and the sheet source; an ADVANCE and a jog move the
position and the remaining length, store the residue of a forward motion and answer; the cut's advance then places its
CUT_PASS (R148, R149, R150, R152, R158, R160). Media forward lowers the remaining length, at 0 making the source OUT
with MEDIA_OUT; media back raises it, saturating; UNKNOWN stays (R148, R152, R154, R160). An unload's counts are the
larger of those held and those given (log entry 5, DESIGN CHOICE); with no motion running none of these commands has
an effect (log entry 2). A completed ADVANCE adds its distance to the media consumed of the oldest entry its tag
names, where that is PRINTING or FAULTED, with overrun past the media reserved, and touches no other entry (R51). -/
def Obligations.MotionsComplete : Prop :=
  (∀ (tag dist : Nat) (s : State),
    (∀ e es, s.pau.pages = e :: es → tag ≠ 0 → e.tag = tag → e.state = .printing ∨ e.state = .faulted →
      let used := min (e.mediaConsumed + dist) 4294967295
      pauAdvanceDone tag dist s
        = { s with pau := { s.pau with pages :=
              { e with mediaConsumed := used, overrun := e.overrun || decide (e.mediaReserved < used) } :: es } }) ∧
    (tag = 0 ∨ s.pau.pages = [] → pauAdvanceDone tag dist s = s) ∧
    ∀ e es, s.pau.pages = e :: es → e.tag ≠ tag ∨ e.state = .admitted → pauAdvanceDone tag dist s = s) ∧
  ∀ s : State, Awake s →
    (s.fdc.motion = none →
      exec .loadMotionDone s = .next s ∧ (∀ n, exec (.unloadMotionDone n) s = .next s) ∧ exec .advanceDone s = .next s ∧
      exec .cutAdvanceDone s = .next s ∧ exec .manualFeedDone s = .next s) ∧
    (∀ m, s.fdc.motion = some m → s.fdc.waiting = ⟨none, none, none⟩ →
      let free : State := setFdc { s.fdc with motion := none } s
      let replied (r : Result) (b : List Byte) (t : State) : State :=
        if m.replyHeld then answer m.port m.kind.request r b t else t
      let forward : State := mediaForward m.dist (setPath { s.fdc.path with residue := m.newResidue } free)
      (∀ src, m.kind = .load src → endReading s src = false → (sourceRec s src).state = .loaded →
        exec .loadMotionDone s
          = .next (raise .loadDone (one (sourceCode src)) none
              (setPath { s.fdc.path with state := .ready, position := 0, residue := 0, leadingEdge := true }
                (setSource free src { sourceRec s src with state := .inPath })))) ∧
      (∀ n src media, m.kind = .unload → m.target = none → s.fdc.path.source = some src →
        (sourceRec s src).media = some media →
        let d := max m.counts n * 1000000 / m.perMetre
        let back : Media := { media with remaining := media.remaining.map fun r => min (r + d) 200000000 }
        let x : SourceRec :=
          if src = .sheet then ⟨.empty, none, (sourceRec s src).rollEndSeen⟩
          else if (sourceRec s src).rollEndSeen then ⟨.endOfRoll, some back, true⟩ else ⟨.loaded, some back, false⟩
        exec (.unloadMotionDone n) s
          = .next (raise .unloadDone (one (sourceCode src)) none
              (setPath { s.fdc.path with state := .empty, source := none, position := 0, pathEntry := false }
                (setSource free src x)))) ∧
      (∀ tag n, m.kind = .advance tag → m.target = some n →
        let t := pauAdvanceDone tag m.dist forward
        exec .advanceDone s
          = .next (replied .ok (le 4 n ++ le 8 m.newResidue) (setPath { t.fdc.path with state := .ready } t))) ∧
      (m.kind = .cut → hasRoom s = true → isWaiting s .fdc = false →
        let id := nextOrderId s
        let t := setPath { forward.fdc.path with cut := some (.orderOut id) }
          (setOrq { s.orq with
            queue := s.orq.queue ++ [⟨id, .cutPass, .feed, .queued⟩], nextId := (id + 1) % 256 } forward)
        exec .cutAdvanceDone s = .next (if s.orq.queue.isEmpty then raise .ordersPending 0 none t else t)) ∧
      (∀ n, m.kind = .manualForward → m.target = some n →
        exec .manualFeedDone s
          = .next (replied .ok (le 4 n) (setPath { forward.fdc.path with state := .ready } forward))) ∧
      (∀ n, m.kind = .manualReverse → m.target = some n →
        let t := mediaReverse m.dist free
        exec .manualFeedDone s = .next (replied .ok (le 4 n) (setPath { t.fdc.path with state := .ready } t))) ∧
      (mediaForward m.dist free).fdc.path.position = sat32 (s.fdc.path.position + m.dist) ∧
      (mediaReverse m.dist free).fdc.path.position = sat32 (s.fdc.path.position - m.dist)) ∧
    ∀ (d : Nat) src, s.fdc.path.source = some src →
      let r := sourceRec s src
      let ahead := setPath { s.fdc.path with position := sat32 (s.fdc.path.position + d) } s
      let behind := setPath { s.fdc.path with position := sat32 (s.fdc.path.position - d) } s
      (remainingOf s src = none → mediaForward d s = ahead ∧ mediaReverse d s = behind) ∧
      ∀ media n, r.media = some media → media.remaining = some n →
        let left : SourceRec := { r with media := some { media with remaining := some (n - d) } }
        (n - d ≠ 0 ∨ r.state = .out → mediaForward d s = setSource ahead src left) ∧
        (n - d = 0 → r.state ≠ .out →
          mediaForward d s
            = raise .mediaOut (one (sourceCode src)) none (setSource ahead src { left with state := .out })) ∧
        mediaReverse d s
          = setSource behind src { r with media := some { media with remaining := some (min (n + d) 200000000) } }

/-- A motion timeout, a loss at the leading edge in a forward motion, and one in a READY or CUTTING path at rest, are
jams: the motion stops with its partial distance accounted, a load's excepted, the path is HELD by JAM with
cover-cycled clear, the PRINTING page is FAULTED, the queued FEED orders leave, a cut in progress ends with
CUT_FAILED, JAM is raised, and a held reply is MEDIA_HELD with the counts moved. The same loss ends a reverse jog
short of its target, with OK, and is ignored in an unload. Nothing else waits (R48, R89, R144, R148, R149, R155,
R160). The counts moved are the larger of those held and those given, at most the target (log entry 5, DESIGN CHOICE);
a timeout with no motion or before the feed motion timeout as it then stands has no effect (R171; log entry 2). -/
def Obligations.JamHoldsPath : Prop :=
  (∀ s : State, Awake s → s.fdc.waiting = ⟨none, none, none⟩ → s.orq.waiting = [] →
    let jammed (t : State) : State :=
      let t := pauJam (setPath { t.fdc.path with state := .held, hold := some .jam, cycled := false } t)
      let t := setOrq { s.orq with queue := s.orq.queue.filter fun o => o.isTaken || o.origin != .feed } t
      raise .jam 0 none
        (if s.fdc.path.cut = none then t else raise .cutFailed 0 none (setPath { t.fdc.path with cut := none } t))
    let lost : State := setPath { s.fdc.path with leadingEdge := false } s
    (s.fdc.motion = none → ∀ n, exec (.feedMotionTimeout n) s = .next s) ∧
    (∀ m n, s.fdc.motion = some m →
      let moved := m.countsAt n
      let stopped (t : State) : State := accountPartial m moved (setFdc { t.fdc with motion := none } t)
      let replied (r : Result) (t : State) : State :=
        if m.replyHeld then answer m.port m.kind.request r (le 4 moved) t else t
      let forward := m.kind = .cut ∨ m.kind = .manualForward ∨ ∃ tag, m.kind = .advance tag
      (m.timer < s.params.feedTimeout → exec (.feedMotionTimeout n) s = .next s) ∧
      (s.params.feedTimeout ≤ m.timer → exec (.feedMotionTimeout n) s = .next (replied .mediaHeld (jammed (stopped s)))) ∧
      (s.fdc.path.leadingEdge = true →
        (forward → exec (.leadingEdgeChange false n) s = .next (replied .mediaHeld (jammed (stopped lost)))) ∧
        (m.kind = .manualReverse →
          let t := stopped lost
          exec (.leadingEdgeChange false n) s = .next (replied .ok (setPath { t.fdc.path with state := .ready } t))) ∧
        (m.kind = .unload → exec (.leadingEdgeChange false n) s = .next lost))) ∧
    (∀ n, s.fdc.motion = none → s.fdc.path.state = .ready ∨ s.fdc.path.state = .cutting →
      s.fdc.path.leadingEdge = true → exec (.leadingEdgeChange false n) s = .next (jammed lost)) ∧
    (∀ e es, s.pau.pages = e :: es → e.state = .printing →
      (pauJam s).pau.pages = { e with state := .faulted } :: es)) ∧
  ∀ (m : Motion) (counts : Nat) (s : State),
    let d := counts * 1000000 / m.perMetre
    (∀ src, m.kind = .load src → accountPartial m counts s = s) ∧
    (m.kind = .cut ∨ m.kind = .manualForward ∨ (∃ tag, m.kind = .advance tag) →
      accountPartial m counts s = mediaForward d s) ∧
    (m.kind = .unload ∨ m.kind = .manualReverse → accountPartial m counts s = mediaReverse d s) ∧
    (m.target = none → m.countsAt counts = max m.counts counts) ∧
    ∀ n, m.target = some n → m.countsAt counts = max m.counts (min counts n)

/-- The cover opening raises COVER_OPENED; a path already HELD keeps its hold, any other is HELD by COVER: a running
motion is stopped with its partial distance accounted and a held reply answered MEDIA_HELD, and a cut in progress ends
with CUT_FAILED. Its closing sets cover-cycled on a HELD path. RELEASE_HOLD is BAD_STATE unless HELD and
COVER_NOT_CYCLED while the cover is open or a jam has not had it cycled; otherwise the path is set from the
leading-edge sensor, HOLD_RELEASED raised and the answer OK (R148, R156, R157). The encoder counts at the opening are
the larger of those held and those given, at most the target (log entry 5, DESIGN CHOICE). A cover reading that is no
change has no effect (log entry 2). -/
def Obligations.CoverAndRelease : Prop :=
  ∀ s : State, Awake s →
    let x := s.fdc.path
    (∀ n, x.coverOpen = true → exec (.coverSensorOpen n) s = .next s) ∧
    (∀ n, x.coverOpen = false → x.state = .held →
      exec (.coverSensorOpen n) s = .next (raise .coverOpened 0 none (setPath { x with coverOpen := true } s))) ∧
    (∀ n, x.coverOpen = false → x.state ≠ .held → s.fdc.waiting = ⟨none, none, none⟩ → s.orq.waiting = [] →
      let opened : State := raise .coverOpened 0 none (setPath { x with coverOpen := true } s)
      let held (t : State) : State :=
        let t := if x.cut = none then t else raise .cutFailed 0 none (setPath { t.fdc.path with cut := none } t)
        setPath { t.fdc.path with state := .held, hold := some .cover, cycled := false } t
      (s.fdc.motion = none → exec (.coverSensorOpen n) s = .next (held opened)) ∧
      (∀ m, s.fdc.motion = some m →
        let t := held (accountPartial m (m.countsAt n) (setFdc { opened.fdc with motion := none } opened))
        exec (.coverSensorOpen n) s
          = .next (if m.replyHeld then answer m.port m.kind.request .mediaHeld (le 4 (m.countsAt n)) t else t))) ∧
    (x.coverOpen = false → exec .coverSensorClose s = .next s) ∧
    (x.coverOpen = true →
      exec .coverSensorClose s
        = .next (setPath { x with coverOpen := false, cycled := x.state == .held || x.cycled } s)) ∧
    ∀ p body, Takes s .releaseHold p body →
      let ok : State := answered p .releaseHold .ok [] s
      let free : Path := { x with hold := none, cycled := false, residue := 0, position := 0 }
      let released (t : State) : Prop := exec (.releaseHold p body) s = .next (raise .holdReleased 0 none t)
      (x.state ≠ .held → exec (.releaseHold p body) s = .next (answered p .releaseHold .badState [] s)) ∧
      (x.state = .held → x.coverOpen = true ∨ (x.hold = some .jam ∧ x.cycled = false) →
        exec (.releaseHold p body) s = .next (answered p .releaseHold .coverNotCycled [] s)) ∧
      (x.state = .held → x.coverOpen = false → x.hold ≠ some .jam ∨ x.cycled = true →
        (x.leadingEdge = true → x.source = none → released (setPath { free with state := .unregistered } ok)) ∧
        (x.leadingEdge = false → x.source = none → released (setPath { free with state := .empty } ok)) ∧
        (∀ src, x.leadingEdge = true → x.source = some src →
          released (setPath { free with state := .ready }
            (setSource ok src
              (if (sourceRec s src).state = .loaded then { sourceRec s src with state := .inPath }
               else sourceRec s src)))) ∧
        (x.leadingEdge = false → x.source = some .sheet →
          released (setPath { free with state := .empty, source := none }
            (setSource ok .sheet { sourceRec s .sheet with state := .empty, media := none }))) ∧
        (∀ src, src ≠ .sheet → x.leadingEdge = false → x.source = some src →
          released (setPath { free with state := .empty, source := none }
            (setSource ok src
              (if (sourceRec s src).state = .inPath then { sourceRec s src with state := .loaded }
               else sourceRec s src)))))

/-- Media sensors at rest. Media at the leading edge of an EMPTY path makes it UNREGISTERED and its loss EMPTY again;
the path-entry sensor is recorded. A source's end reading on a LOADED or IN_PATH source makes it END_OF_ROLL with at
most the tail length remaining, and raises END_OF_ROLL; on any other it is recorded; its end is recorded too (R144,
R153, R154). A reading that is no change has no effect (log entry 2). -/
def Obligations.MediaSensorsAtRest : Prop :=
  ∀ s : State, Awake s → s.fdc.motion = none →
    let x := s.fdc.path
    (∀ n, x.leadingEdge = false → x.state = .empty →
      exec (.leadingEdgeChange true n) s = .next (setPath { x with leadingEdge := true, state := .unregistered } s)) ∧
    (∀ n, x.leadingEdge = true → x.state = .unregistered →
      exec (.leadingEdgeChange false n) s = .next (setPath { x with leadingEdge := false, state := .empty } s)) ∧
    (∀ n, exec (.leadingEdgeChange x.leadingEdge n) s = .next s) ∧
    (∀ media n, exec (.pathEntryChange media n) s = .next (setPath { x with pathEntry := media } s)) ∧
    ∀ src,
      (endReading s src = true →
        exec (.sourceEndSensor src) s = .next s ∧ exec (.sourceEndSensorClear src) s = .next (setEndReading src false s)) ∧
      (endReading s src = false → exec (.sourceEndSensorClear src) s = .next s) ∧
      (endReading s src = false → (sourceRec s src).state ≠ .loaded → (sourceRec s src).state ≠ .inPath →
        exec (.sourceEndSensor src) s = .next (setEndReading src true s)) ∧
      (∀ media, endReading s src = false → (sourceRec s src).media = some media →
        (sourceRec s src).state = .loaded ∨ (sourceRec s src).state = .inPath →
        let left := match media.remaining with
          | some n => min n s.params.tailLength
          | none => s.params.tailLength
        let t := raise .endOfRoll (one (sourceCode src)) none
          (setSource (setEndReading src true s) src ⟨.endOfRoll, some { media with remaining := some left }, true⟩)
        (left ≠ 0 → exec (.sourceEndSensor src) s = .next t) ∧
        (left = 0 → exec (.sourceEndSensor src) s
          = .next (raise .mediaOut (one (sourceCode src)) none
              (setSource t src ⟨.out, some { media with remaining := some left }, true⟩))))

/-! ### Invariants -/

/-- Right after reset the books balance, the tanks, supply states and bays follow their laws, the page table, the
order queue, the posted queue and the Health Table are lawful, the pump is stopped and the zone clear. -/
def Obligations.LawsHoldAtReset : Prop :=
  BooksBalance State.reset ∧ TanksBounded State.reset ∧ SupplyFollows State.reset ∧ BaysLawful State.reset ∧
    PagesLawful State.reset ∧ OrdersLawful State.reset ∧ PostedLawful State.reset ∧ HealthLawful State.reset ∧
    PumpLawful State.reset ∧ ZoneClear State.reset

/-- Every step keeps: each channel's total debit equals its media total plus its waste total, and its usage debit plus
its suction debit. -/
def Obligations.BooksBalanceKept : Prop := KeptByStep BooksBalance

/-- Every step keeps: no sub-tank estimate above 30,000,000 nL, and every supply state as R2 has it follow from its
channel's record. -/
def Obligations.SupplyLawsKept : Prop := KeptByStep fun s => TanksBounded s ∧ SupplyFollows s

/-- Every step keeps: at most one bay of a channel is ACTIVE, and it is the channel's active bay; strokes draw from
it; no bay's estimate exceeds its labelled capacity. -/
def Obligations.BayLawsKept : Prop := KeptByStep BaysLawful

/-- Every step keeps: at most four pages with distinct non-zero tags, only the oldest PRINTING or FAULTED. -/
def Obligations.PageTableKept : Prop := KeptByStep PagesLawful

/-- Every step keeps: at most 16 orders with distinct ids, at most one, the oldest, TAKEN, at most one EXPOSURE spit
per head. -/
def Obligations.OrderQueueKept : Prop := KeptByStep OrdersLawful

/-- Every step keeps: at most 8 posted frames, each of a USAGE body's length; and every row's failed set within its
group count. -/
def Obligations.PostedAndHealthKept : Prop := KeptByStep fun s => PostedLawful s ∧ HealthLawful s

/-- Every step keeps: the suction pump runs only in SERVICING with the sled UP and the selector joined to a head. -/
def Obligations.PumpLawKept : Prop := KeptByStep PumpLawful

/-- Every step keeps: in GRANTED, OPEN and UNPARKED the sled is DOWN and the wiper RETRACTED; in CAPPED the sled is
UP. -/
def Obligations.ZoneClearKept : Prop := KeptByStep ZoneClear
end

