-- ==== Sys2Proof/Laws/State.lean ====
section
/-!
SUPPORT. One lemma per field of `State` per named update of it, so that no proof unfolds a record update.
-/

namespace Sys2Proof.Machine

variable (s : State)

@[simp] theorem setChan_pending (c : Fin 6) (x : Channel) : (setChan s c x).pending = s.pending := rfl
@[simp] theorem setChan_freeUsed (c : Fin 6) (x : Channel) : (setChan s c x).freeUsed = s.freeUsed := rfl
@[simp] theorem setChan_startup (c : Fin 6) (x : Channel) : (setChan s c x).startup = s.startup := rfl
@[simp] theorem setChan_resetLow (c : Fin 6) (x : Channel) : (setChan s c x).resetLow = s.resetLow := rfl
@[simp] theorem setChan_timeBase (c : Fin 6) (x : Channel) : (setChan s c x).timeBase = s.timeBase := rfl
@[simp] theorem setChan_date (c : Fin 6) (x : Channel) : (setChan s c x).date = s.date := rfl
@[simp] theorem setChan_params (c : Fin 6) (x : Channel) : (setChan s c x).params = s.params := rfl
@[simp] theorem setChan_pins (c : Fin 6) (x : Channel) : (setChan s c x).pins = s.pins := rfl
@[simp] theorem setChan_spu (c : Fin 6) (x : Channel) : (setChan s c x).spu = { s.spu with channels := vset s.spu.channels c x } := rfl
@[simp] theorem setChan_uau (c : Fin 6) (x : Channel) : (setChan s c x).uau = s.uau := rfl
@[simp] theorem setChan_pau (c : Fin 6) (x : Channel) : (setChan s c x).pau = s.pau := rfl
@[simp] theorem setChan_stc (c : Fin 6) (x : Channel) : (setChan s c x).stc = s.stc := rfl
@[simp] theorem setChan_orq (c : Fin 6) (x : Channel) : (setChan s c x).orq = s.orq := rfl
@[simp] theorem setChan_cls (c : Fin 6) (x : Channel) : (setChan s c x).cls = s.cls := rfl
@[simp] theorem setChan_dtu (c : Fin 6) (x : Channel) : (setChan s c x).dtu = s.dtu := rfl
@[simp] theorem setChan_ext (c : Fin 6) (x : Channel) : (setChan s c x).ext = s.ext := rfl
@[simp] theorem setChan_rsc (c : Fin 6) (x : Channel) : (setChan s c x).rsc = s.rsc := rfl
@[simp] theorem setChan_fdc (c : Fin 6) (x : Channel) : (setChan s c x).fdc = s.fdc := rfl
@[simp] theorem setChan_liu (c : Fin 6) (x : Channel) : (setChan s c x).liu = s.liu := rfl
@[simp] theorem setChan_evu (c : Fin 6) (x : Channel) : (setChan s c x).evu = s.evu := rfl

@[simp] theorem setBay_pending (b : Fin 12) (x : Bay) : (setBay s b x).pending = s.pending := rfl
@[simp] theorem setBay_freeUsed (b : Fin 12) (x : Bay) : (setBay s b x).freeUsed = s.freeUsed := rfl
@[simp] theorem setBay_startup (b : Fin 12) (x : Bay) : (setBay s b x).startup = s.startup := rfl
@[simp] theorem setBay_resetLow (b : Fin 12) (x : Bay) : (setBay s b x).resetLow = s.resetLow := rfl
@[simp] theorem setBay_timeBase (b : Fin 12) (x : Bay) : (setBay s b x).timeBase = s.timeBase := rfl
@[simp] theorem setBay_date (b : Fin 12) (x : Bay) : (setBay s b x).date = s.date := rfl
@[simp] theorem setBay_params (b : Fin 12) (x : Bay) : (setBay s b x).params = s.params := rfl
@[simp] theorem setBay_pins (b : Fin 12) (x : Bay) : (setBay s b x).pins = s.pins := rfl
@[simp] theorem setBay_spu (b : Fin 12) (x : Bay) : (setBay s b x).spu = { s.spu with bays := vset s.spu.bays b x } := rfl
@[simp] theorem setBay_uau (b : Fin 12) (x : Bay) : (setBay s b x).uau = s.uau := rfl
@[simp] theorem setBay_pau (b : Fin 12) (x : Bay) : (setBay s b x).pau = s.pau := rfl
@[simp] theorem setBay_stc (b : Fin 12) (x : Bay) : (setBay s b x).stc = s.stc := rfl
@[simp] theorem setBay_orq (b : Fin 12) (x : Bay) : (setBay s b x).orq = s.orq := rfl
@[simp] theorem setBay_cls (b : Fin 12) (x : Bay) : (setBay s b x).cls = s.cls := rfl
@[simp] theorem setBay_dtu (b : Fin 12) (x : Bay) : (setBay s b x).dtu = s.dtu := rfl
@[simp] theorem setBay_ext (b : Fin 12) (x : Bay) : (setBay s b x).ext = s.ext := rfl
@[simp] theorem setBay_rsc (b : Fin 12) (x : Bay) : (setBay s b x).rsc = s.rsc := rfl
@[simp] theorem setBay_fdc (b : Fin 12) (x : Bay) : (setBay s b x).fdc = s.fdc := rfl
@[simp] theorem setBay_liu (b : Fin 12) (x : Bay) : (setBay s b x).liu = s.liu := rfl
@[simp] theorem setBay_evu (b : Fin 12) (x : Bay) : (setBay s b x).evu = s.evu := rfl

@[simp] theorem onBus_pending (f : Bus → Bus) : (onBus f s).pending = s.pending := rfl
@[simp] theorem onBus_freeUsed (f : Bus → Bus) : (onBus f s).freeUsed = s.freeUsed := rfl
@[simp] theorem onBus_startup (f : Bus → Bus) : (onBus f s).startup = s.startup := rfl
@[simp] theorem onBus_resetLow (f : Bus → Bus) : (onBus f s).resetLow = s.resetLow := rfl
@[simp] theorem onBus_timeBase (f : Bus → Bus) : (onBus f s).timeBase = s.timeBase := rfl
@[simp] theorem onBus_date (f : Bus → Bus) : (onBus f s).date = s.date := rfl
@[simp] theorem onBus_params (f : Bus → Bus) : (onBus f s).params = s.params := rfl
@[simp] theorem onBus_pins (f : Bus → Bus) : (onBus f s).pins = s.pins := rfl
@[simp] theorem onBus_spu (f : Bus → Bus) : (onBus f s).spu = { s.spu with bus := f s.spu.bus } := rfl
@[simp] theorem onBus_uau (f : Bus → Bus) : (onBus f s).uau = s.uau := rfl
@[simp] theorem onBus_pau (f : Bus → Bus) : (onBus f s).pau = s.pau := rfl
@[simp] theorem onBus_stc (f : Bus → Bus) : (onBus f s).stc = s.stc := rfl
@[simp] theorem onBus_orq (f : Bus → Bus) : (onBus f s).orq = s.orq := rfl
@[simp] theorem onBus_cls (f : Bus → Bus) : (onBus f s).cls = s.cls := rfl
@[simp] theorem onBus_dtu (f : Bus → Bus) : (onBus f s).dtu = s.dtu := rfl
@[simp] theorem onBus_ext (f : Bus → Bus) : (onBus f s).ext = s.ext := rfl
@[simp] theorem onBus_rsc (f : Bus → Bus) : (onBus f s).rsc = s.rsc := rfl
@[simp] theorem onBus_fdc (f : Bus → Bus) : (onBus f s).fdc = s.fdc := rfl
@[simp] theorem onBus_liu (f : Bus → Bus) : (onBus f s).liu = s.liu := rfl
@[simp] theorem onBus_evu (f : Bus → Bus) : (onBus f s).evu = s.evu := rfl

@[simp] theorem setBook_pending (c : Fin 6) (x : Book) : (setBook s c x).pending = s.pending := rfl
@[simp] theorem setBook_freeUsed (c : Fin 6) (x : Book) : (setBook s c x).freeUsed = s.freeUsed := rfl
@[simp] theorem setBook_startup (c : Fin 6) (x : Book) : (setBook s c x).startup = s.startup := rfl
@[simp] theorem setBook_resetLow (c : Fin 6) (x : Book) : (setBook s c x).resetLow = s.resetLow := rfl
@[simp] theorem setBook_timeBase (c : Fin 6) (x : Book) : (setBook s c x).timeBase = s.timeBase := rfl
@[simp] theorem setBook_date (c : Fin 6) (x : Book) : (setBook s c x).date = s.date := rfl
@[simp] theorem setBook_params (c : Fin 6) (x : Book) : (setBook s c x).params = s.params := rfl
@[simp] theorem setBook_pins (c : Fin 6) (x : Book) : (setBook s c x).pins = s.pins := rfl
@[simp] theorem setBook_spu (c : Fin 6) (x : Book) : (setBook s c x).spu = s.spu := rfl
@[simp] theorem setBook_uau (c : Fin 6) (x : Book) : (setBook s c x).uau = { s.uau with books := vset s.uau.books c x } := rfl
@[simp] theorem setBook_pau (c : Fin 6) (x : Book) : (setBook s c x).pau = s.pau := rfl
@[simp] theorem setBook_stc (c : Fin 6) (x : Book) : (setBook s c x).stc = s.stc := rfl
@[simp] theorem setBook_orq (c : Fin 6) (x : Book) : (setBook s c x).orq = s.orq := rfl
@[simp] theorem setBook_cls (c : Fin 6) (x : Book) : (setBook s c x).cls = s.cls := rfl
@[simp] theorem setBook_dtu (c : Fin 6) (x : Book) : (setBook s c x).dtu = s.dtu := rfl
@[simp] theorem setBook_ext (c : Fin 6) (x : Book) : (setBook s c x).ext = s.ext := rfl
@[simp] theorem setBook_rsc (c : Fin 6) (x : Book) : (setBook s c x).rsc = s.rsc := rfl
@[simp] theorem setBook_fdc (c : Fin 6) (x : Book) : (setBook s c x).fdc = s.fdc := rfl
@[simp] theorem setBook_liu (c : Fin 6) (x : Book) : (setBook s c x).liu = s.liu := rfl
@[simp] theorem setBook_evu (c : Fin 6) (x : Book) : (setBook s c x).evu = s.evu := rfl

@[simp] theorem setWaste_pending (w : Waste) : (setWaste w s).pending = s.pending := rfl
@[simp] theorem setWaste_freeUsed (w : Waste) : (setWaste w s).freeUsed = s.freeUsed := rfl
@[simp] theorem setWaste_startup (w : Waste) : (setWaste w s).startup = s.startup := rfl
@[simp] theorem setWaste_resetLow (w : Waste) : (setWaste w s).resetLow = s.resetLow := rfl
@[simp] theorem setWaste_timeBase (w : Waste) : (setWaste w s).timeBase = s.timeBase := rfl
@[simp] theorem setWaste_date (w : Waste) : (setWaste w s).date = s.date := rfl
@[simp] theorem setWaste_params (w : Waste) : (setWaste w s).params = s.params := rfl
@[simp] theorem setWaste_pins (w : Waste) : (setWaste w s).pins = s.pins := rfl
@[simp] theorem setWaste_spu (w : Waste) : (setWaste w s).spu = s.spu := rfl
@[simp] theorem setWaste_uau (w : Waste) : (setWaste w s).uau = { s.uau with waste := w } := rfl
@[simp] theorem setWaste_pau (w : Waste) : (setWaste w s).pau = s.pau := rfl
@[simp] theorem setWaste_stc (w : Waste) : (setWaste w s).stc = s.stc := rfl
@[simp] theorem setWaste_orq (w : Waste) : (setWaste w s).orq = s.orq := rfl
@[simp] theorem setWaste_cls (w : Waste) : (setWaste w s).cls = s.cls := rfl
@[simp] theorem setWaste_dtu (w : Waste) : (setWaste w s).dtu = s.dtu := rfl
@[simp] theorem setWaste_ext (w : Waste) : (setWaste w s).ext = s.ext := rfl
@[simp] theorem setWaste_rsc (w : Waste) : (setWaste w s).rsc = s.rsc := rfl
@[simp] theorem setWaste_fdc (w : Waste) : (setWaste w s).fdc = s.fdc := rfl
@[simp] theorem setWaste_liu (w : Waste) : (setWaste w s).liu = s.liu := rfl
@[simp] theorem setWaste_evu (w : Waste) : (setWaste w s).evu = s.evu := rfl

@[simp] theorem setEntry_pending (h : Fin 3) (x : CleanEntry) : (setEntry s h x).pending = s.pending := rfl
@[simp] theorem setEntry_freeUsed (h : Fin 3) (x : CleanEntry) : (setEntry s h x).freeUsed = s.freeUsed := rfl
@[simp] theorem setEntry_startup (h : Fin 3) (x : CleanEntry) : (setEntry s h x).startup = s.startup := rfl
@[simp] theorem setEntry_resetLow (h : Fin 3) (x : CleanEntry) : (setEntry s h x).resetLow = s.resetLow := rfl
@[simp] theorem setEntry_timeBase (h : Fin 3) (x : CleanEntry) : (setEntry s h x).timeBase = s.timeBase := rfl
@[simp] theorem setEntry_date (h : Fin 3) (x : CleanEntry) : (setEntry s h x).date = s.date := rfl
@[simp] theorem setEntry_params (h : Fin 3) (x : CleanEntry) : (setEntry s h x).params = s.params := rfl
@[simp] theorem setEntry_pins (h : Fin 3) (x : CleanEntry) : (setEntry s h x).pins = s.pins := rfl
@[simp] theorem setEntry_spu (h : Fin 3) (x : CleanEntry) : (setEntry s h x).spu = s.spu := rfl
@[simp] theorem setEntry_uau (h : Fin 3) (x : CleanEntry) : (setEntry s h x).uau = s.uau := rfl
@[simp] theorem setEntry_pau (h : Fin 3) (x : CleanEntry) : (setEntry s h x).pau = s.pau := rfl
@[simp] theorem setEntry_stc (h : Fin 3) (x : CleanEntry) : (setEntry s h x).stc = s.stc := rfl
@[simp] theorem setEntry_orq (h : Fin 3) (x : CleanEntry) : (setEntry s h x).orq = s.orq := rfl
@[simp] theorem setEntry_cls (h : Fin 3) (x : CleanEntry) : (setEntry s h x).cls = { s.cls with table := vset s.cls.table h x } := rfl
@[simp] theorem setEntry_dtu (h : Fin 3) (x : CleanEntry) : (setEntry s h x).dtu = s.dtu := rfl
@[simp] theorem setEntry_ext (h : Fin 3) (x : CleanEntry) : (setEntry s h x).ext = s.ext := rfl
@[simp] theorem setEntry_rsc (h : Fin 3) (x : CleanEntry) : (setEntry s h x).rsc = s.rsc := rfl
@[simp] theorem setEntry_fdc (h : Fin 3) (x : CleanEntry) : (setEntry s h x).fdc = s.fdc := rfl
@[simp] theorem setEntry_liu (h : Fin 3) (x : CleanEntry) : (setEntry s h x).liu = s.liu := rfl
@[simp] theorem setEntry_evu (h : Fin 3) (x : CleanEntry) : (setEntry s h x).evu = s.evu := rfl

@[simp] theorem setCls_pending (x : Cls) : (setCls x s).pending = s.pending := rfl
@[simp] theorem setCls_freeUsed (x : Cls) : (setCls x s).freeUsed = s.freeUsed := rfl
@[simp] theorem setCls_startup (x : Cls) : (setCls x s).startup = s.startup := rfl
@[simp] theorem setCls_resetLow (x : Cls) : (setCls x s).resetLow = s.resetLow := rfl
@[simp] theorem setCls_timeBase (x : Cls) : (setCls x s).timeBase = s.timeBase := rfl
@[simp] theorem setCls_date (x : Cls) : (setCls x s).date = s.date := rfl
@[simp] theorem setCls_params (x : Cls) : (setCls x s).params = s.params := rfl
@[simp] theorem setCls_pins (x : Cls) : (setCls x s).pins = s.pins := rfl
@[simp] theorem setCls_spu (x : Cls) : (setCls x s).spu = s.spu := rfl
@[simp] theorem setCls_uau (x : Cls) : (setCls x s).uau = s.uau := rfl
@[simp] theorem setCls_pau (x : Cls) : (setCls x s).pau = s.pau := rfl
@[simp] theorem setCls_stc (x : Cls) : (setCls x s).stc = s.stc := rfl
@[simp] theorem setCls_orq (x : Cls) : (setCls x s).orq = s.orq := rfl
@[simp] theorem setCls_cls (x : Cls) : (setCls x s).cls = x := rfl
@[simp] theorem setCls_dtu (x : Cls) : (setCls x s).dtu = s.dtu := rfl
@[simp] theorem setCls_ext (x : Cls) : (setCls x s).ext = s.ext := rfl
@[simp] theorem setCls_rsc (x : Cls) : (setCls x s).rsc = s.rsc := rfl
@[simp] theorem setCls_fdc (x : Cls) : (setCls x s).fdc = s.fdc := rfl
@[simp] theorem setCls_liu (x : Cls) : (setCls x s).liu = s.liu := rfl
@[simp] theorem setCls_evu (x : Cls) : (setCls x s).evu = s.evu := rfl

@[simp] theorem setHealth_pending (c : Fin 6) (x : Health) : (setHealth s c x).pending = s.pending := rfl
@[simp] theorem setHealth_freeUsed (c : Fin 6) (x : Health) : (setHealth s c x).freeUsed = s.freeUsed := rfl
@[simp] theorem setHealth_startup (c : Fin 6) (x : Health) : (setHealth s c x).startup = s.startup := rfl
@[simp] theorem setHealth_resetLow (c : Fin 6) (x : Health) : (setHealth s c x).resetLow = s.resetLow := rfl
@[simp] theorem setHealth_timeBase (c : Fin 6) (x : Health) : (setHealth s c x).timeBase = s.timeBase := rfl
@[simp] theorem setHealth_date (c : Fin 6) (x : Health) : (setHealth s c x).date = s.date := rfl
@[simp] theorem setHealth_params (c : Fin 6) (x : Health) : (setHealth s c x).params = s.params := rfl
@[simp] theorem setHealth_pins (c : Fin 6) (x : Health) : (setHealth s c x).pins = s.pins := rfl
@[simp] theorem setHealth_spu (c : Fin 6) (x : Health) : (setHealth s c x).spu = s.spu := rfl
@[simp] theorem setHealth_uau (c : Fin 6) (x : Health) : (setHealth s c x).uau = s.uau := rfl
@[simp] theorem setHealth_pau (c : Fin 6) (x : Health) : (setHealth s c x).pau = s.pau := rfl
@[simp] theorem setHealth_stc (c : Fin 6) (x : Health) : (setHealth s c x).stc = s.stc := rfl
@[simp] theorem setHealth_orq (c : Fin 6) (x : Health) : (setHealth s c x).orq = s.orq := rfl
@[simp] theorem setHealth_cls (c : Fin 6) (x : Health) : (setHealth s c x).cls = s.cls := rfl
@[simp] theorem setHealth_dtu (c : Fin 6) (x : Health) : (setHealth s c x).dtu = { s.dtu with health := vset s.dtu.health c x } := rfl
@[simp] theorem setHealth_ext (c : Fin 6) (x : Health) : (setHealth s c x).ext = s.ext := rfl
@[simp] theorem setHealth_rsc (c : Fin 6) (x : Health) : (setHealth s c x).rsc = s.rsc := rfl
@[simp] theorem setHealth_fdc (c : Fin 6) (x : Health) : (setHealth s c x).fdc = s.fdc := rfl
@[simp] theorem setHealth_liu (c : Fin 6) (x : Health) : (setHealth s c x).liu = s.liu := rfl
@[simp] theorem setHealth_evu (c : Fin 6) (x : Health) : (setHealth s c x).evu = s.evu := rfl

@[simp] theorem setDtu_pending (x : Dtu) : (setDtu x s).pending = s.pending := rfl
@[simp] theorem setDtu_freeUsed (x : Dtu) : (setDtu x s).freeUsed = s.freeUsed := rfl
@[simp] theorem setDtu_startup (x : Dtu) : (setDtu x s).startup = s.startup := rfl
@[simp] theorem setDtu_resetLow (x : Dtu) : (setDtu x s).resetLow = s.resetLow := rfl
@[simp] theorem setDtu_timeBase (x : Dtu) : (setDtu x s).timeBase = s.timeBase := rfl
@[simp] theorem setDtu_date (x : Dtu) : (setDtu x s).date = s.date := rfl
@[simp] theorem setDtu_params (x : Dtu) : (setDtu x s).params = s.params := rfl
@[simp] theorem setDtu_pins (x : Dtu) : (setDtu x s).pins = s.pins := rfl
@[simp] theorem setDtu_spu (x : Dtu) : (setDtu x s).spu = s.spu := rfl
@[simp] theorem setDtu_uau (x : Dtu) : (setDtu x s).uau = s.uau := rfl
@[simp] theorem setDtu_pau (x : Dtu) : (setDtu x s).pau = s.pau := rfl
@[simp] theorem setDtu_stc (x : Dtu) : (setDtu x s).stc = s.stc := rfl
@[simp] theorem setDtu_orq (x : Dtu) : (setDtu x s).orq = s.orq := rfl
@[simp] theorem setDtu_cls (x : Dtu) : (setDtu x s).cls = s.cls := rfl
@[simp] theorem setDtu_dtu (x : Dtu) : (setDtu x s).dtu = x := rfl
@[simp] theorem setDtu_ext (x : Dtu) : (setDtu x s).ext = s.ext := rfl
@[simp] theorem setDtu_rsc (x : Dtu) : (setDtu x s).rsc = s.rsc := rfl
@[simp] theorem setDtu_fdc (x : Dtu) : (setDtu x s).fdc = s.fdc := rfl
@[simp] theorem setDtu_liu (x : Dtu) : (setDtu x s).liu = s.liu := rfl
@[simp] theorem setDtu_evu (x : Dtu) : (setDtu x s).evu = s.evu := rfl

@[simp] theorem setExposure_pending (h : Fin 3) (x : Exposure) : (setExposure s h x).pending = s.pending := rfl
@[simp] theorem setExposure_freeUsed (h : Fin 3) (x : Exposure) : (setExposure s h x).freeUsed = s.freeUsed := rfl
@[simp] theorem setExposure_startup (h : Fin 3) (x : Exposure) : (setExposure s h x).startup = s.startup := rfl
@[simp] theorem setExposure_resetLow (h : Fin 3) (x : Exposure) : (setExposure s h x).resetLow = s.resetLow := rfl
@[simp] theorem setExposure_timeBase (h : Fin 3) (x : Exposure) : (setExposure s h x).timeBase = s.timeBase := rfl
@[simp] theorem setExposure_date (h : Fin 3) (x : Exposure) : (setExposure s h x).date = s.date := rfl
@[simp] theorem setExposure_params (h : Fin 3) (x : Exposure) : (setExposure s h x).params = s.params := rfl
@[simp] theorem setExposure_pins (h : Fin 3) (x : Exposure) : (setExposure s h x).pins = s.pins := rfl
@[simp] theorem setExposure_spu (h : Fin 3) (x : Exposure) : (setExposure s h x).spu = s.spu := rfl
@[simp] theorem setExposure_uau (h : Fin 3) (x : Exposure) : (setExposure s h x).uau = s.uau := rfl
@[simp] theorem setExposure_pau (h : Fin 3) (x : Exposure) : (setExposure s h x).pau = s.pau := rfl
@[simp] theorem setExposure_stc (h : Fin 3) (x : Exposure) : (setExposure s h x).stc = s.stc := rfl
@[simp] theorem setExposure_orq (h : Fin 3) (x : Exposure) : (setExposure s h x).orq = s.orq := rfl
@[simp] theorem setExposure_cls (h : Fin 3) (x : Exposure) : (setExposure s h x).cls = s.cls := rfl
@[simp] theorem setExposure_dtu (h : Fin 3) (x : Exposure) : (setExposure s h x).dtu = s.dtu := rfl
@[simp] theorem setExposure_ext (h : Fin 3) (x : Exposure) : (setExposure s h x).ext = vset s.ext h x := rfl
@[simp] theorem setExposure_rsc (h : Fin 3) (x : Exposure) : (setExposure s h x).rsc = s.rsc := rfl
@[simp] theorem setExposure_fdc (h : Fin 3) (x : Exposure) : (setExposure s h x).fdc = s.fdc := rfl
@[simp] theorem setExposure_liu (h : Fin 3) (x : Exposure) : (setExposure s h x).liu = s.liu := rfl
@[simp] theorem setExposure_evu (h : Fin 3) (x : Exposure) : (setExposure s h x).evu = s.evu := rfl

@[simp] theorem setSource_pending (src : Source) (x : SourceRec) : (setSource s src x).pending = s.pending := rfl
@[simp] theorem setSource_freeUsed (src : Source) (x : SourceRec) : (setSource s src x).freeUsed = s.freeUsed := rfl
@[simp] theorem setSource_startup (src : Source) (x : SourceRec) : (setSource s src x).startup = s.startup := rfl
@[simp] theorem setSource_resetLow (src : Source) (x : SourceRec) : (setSource s src x).resetLow = s.resetLow := rfl
@[simp] theorem setSource_timeBase (src : Source) (x : SourceRec) : (setSource s src x).timeBase = s.timeBase := rfl
@[simp] theorem setSource_date (src : Source) (x : SourceRec) : (setSource s src x).date = s.date := rfl
@[simp] theorem setSource_params (src : Source) (x : SourceRec) : (setSource s src x).params = s.params := rfl
@[simp] theorem setSource_pins (src : Source) (x : SourceRec) : (setSource s src x).pins = s.pins := rfl
@[simp] theorem setSource_spu (src : Source) (x : SourceRec) : (setSource s src x).spu = s.spu := rfl
@[simp] theorem setSource_uau (src : Source) (x : SourceRec) : (setSource s src x).uau = s.uau := rfl
@[simp] theorem setSource_pau (src : Source) (x : SourceRec) : (setSource s src x).pau = s.pau := rfl
@[simp] theorem setSource_stc (src : Source) (x : SourceRec) : (setSource s src x).stc = s.stc := rfl
@[simp] theorem setSource_orq (src : Source) (x : SourceRec) : (setSource s src x).orq = s.orq := rfl
@[simp] theorem setSource_cls (src : Source) (x : SourceRec) : (setSource s src x).cls = s.cls := rfl
@[simp] theorem setSource_dtu (src : Source) (x : SourceRec) : (setSource s src x).dtu = s.dtu := rfl
@[simp] theorem setSource_ext (src : Source) (x : SourceRec) : (setSource s src x).ext = s.ext := rfl
@[simp] theorem setSource_rsc (src : Source) (x : SourceRec) : (setSource s src x).rsc = s.rsc := rfl
@[simp] theorem setSource_fdc (src : Source) (x : SourceRec) : (setSource s src x).fdc = { s.fdc with sources := s.fdc.sources.set src x } := rfl
@[simp] theorem setSource_liu (src : Source) (x : SourceRec) : (setSource s src x).liu = s.liu := rfl
@[simp] theorem setSource_evu (src : Source) (x : SourceRec) : (setSource s src x).evu = s.evu := rfl

@[simp] theorem setFdc_pending (x : Fdc) : (setFdc x s).pending = s.pending := rfl
@[simp] theorem setFdc_freeUsed (x : Fdc) : (setFdc x s).freeUsed = s.freeUsed := rfl
@[simp] theorem setFdc_startup (x : Fdc) : (setFdc x s).startup = s.startup := rfl
@[simp] theorem setFdc_resetLow (x : Fdc) : (setFdc x s).resetLow = s.resetLow := rfl
@[simp] theorem setFdc_timeBase (x : Fdc) : (setFdc x s).timeBase = s.timeBase := rfl
@[simp] theorem setFdc_date (x : Fdc) : (setFdc x s).date = s.date := rfl
@[simp] theorem setFdc_params (x : Fdc) : (setFdc x s).params = s.params := rfl
@[simp] theorem setFdc_pins (x : Fdc) : (setFdc x s).pins = s.pins := rfl
@[simp] theorem setFdc_spu (x : Fdc) : (setFdc x s).spu = s.spu := rfl
@[simp] theorem setFdc_uau (x : Fdc) : (setFdc x s).uau = s.uau := rfl
@[simp] theorem setFdc_pau (x : Fdc) : (setFdc x s).pau = s.pau := rfl
@[simp] theorem setFdc_stc (x : Fdc) : (setFdc x s).stc = s.stc := rfl
@[simp] theorem setFdc_orq (x : Fdc) : (setFdc x s).orq = s.orq := rfl
@[simp] theorem setFdc_cls (x : Fdc) : (setFdc x s).cls = s.cls := rfl
@[simp] theorem setFdc_dtu (x : Fdc) : (setFdc x s).dtu = s.dtu := rfl
@[simp] theorem setFdc_ext (x : Fdc) : (setFdc x s).ext = s.ext := rfl
@[simp] theorem setFdc_rsc (x : Fdc) : (setFdc x s).rsc = s.rsc := rfl
@[simp] theorem setFdc_fdc (x : Fdc) : (setFdc x s).fdc = x := rfl
@[simp] theorem setFdc_liu (x : Fdc) : (setFdc x s).liu = s.liu := rfl
@[simp] theorem setFdc_evu (x : Fdc) : (setFdc x s).evu = s.evu := rfl

@[simp] theorem setPath_pending (x : Path) : (setPath x s).pending = s.pending := rfl
@[simp] theorem setPath_freeUsed (x : Path) : (setPath x s).freeUsed = s.freeUsed := rfl
@[simp] theorem setPath_startup (x : Path) : (setPath x s).startup = s.startup := rfl
@[simp] theorem setPath_resetLow (x : Path) : (setPath x s).resetLow = s.resetLow := rfl
@[simp] theorem setPath_timeBase (x : Path) : (setPath x s).timeBase = s.timeBase := rfl
@[simp] theorem setPath_date (x : Path) : (setPath x s).date = s.date := rfl
@[simp] theorem setPath_params (x : Path) : (setPath x s).params = s.params := rfl
@[simp] theorem setPath_pins (x : Path) : (setPath x s).pins = s.pins := rfl
@[simp] theorem setPath_spu (x : Path) : (setPath x s).spu = s.spu := rfl
@[simp] theorem setPath_uau (x : Path) : (setPath x s).uau = s.uau := rfl
@[simp] theorem setPath_pau (x : Path) : (setPath x s).pau = s.pau := rfl
@[simp] theorem setPath_stc (x : Path) : (setPath x s).stc = s.stc := rfl
@[simp] theorem setPath_orq (x : Path) : (setPath x s).orq = s.orq := rfl
@[simp] theorem setPath_cls (x : Path) : (setPath x s).cls = s.cls := rfl
@[simp] theorem setPath_dtu (x : Path) : (setPath x s).dtu = s.dtu := rfl
@[simp] theorem setPath_ext (x : Path) : (setPath x s).ext = s.ext := rfl
@[simp] theorem setPath_rsc (x : Path) : (setPath x s).rsc = s.rsc := rfl
@[simp] theorem setPath_fdc (x : Path) : (setPath x s).fdc = { s.fdc with path := x } := rfl
@[simp] theorem setPath_liu (x : Path) : (setPath x s).liu = s.liu := rfl
@[simp] theorem setPath_evu (x : Path) : (setPath x s).evu = s.evu := rfl

@[simp] theorem setEngine_pending (p : Port) (x : Engine) : (setEngine s p x).pending = s.pending := rfl
@[simp] theorem setEngine_freeUsed (p : Port) (x : Engine) : (setEngine s p x).freeUsed = s.freeUsed := rfl
@[simp] theorem setEngine_startup (p : Port) (x : Engine) : (setEngine s p x).startup = s.startup := rfl
@[simp] theorem setEngine_resetLow (p : Port) (x : Engine) : (setEngine s p x).resetLow = s.resetLow := rfl
@[simp] theorem setEngine_timeBase (p : Port) (x : Engine) : (setEngine s p x).timeBase = s.timeBase := rfl
@[simp] theorem setEngine_date (p : Port) (x : Engine) : (setEngine s p x).date = s.date := rfl
@[simp] theorem setEngine_params (p : Port) (x : Engine) : (setEngine s p x).params = s.params := rfl
@[simp] theorem setEngine_pins (p : Port) (x : Engine) : (setEngine s p x).pins = s.pins := rfl
@[simp] theorem setEngine_spu (p : Port) (x : Engine) : (setEngine s p x).spu = s.spu := rfl
@[simp] theorem setEngine_uau (p : Port) (x : Engine) : (setEngine s p x).uau = s.uau := rfl
@[simp] theorem setEngine_pau (p : Port) (x : Engine) : (setEngine s p x).pau = s.pau := rfl
@[simp] theorem setEngine_stc (p : Port) (x : Engine) : (setEngine s p x).stc = s.stc := rfl
@[simp] theorem setEngine_orq (p : Port) (x : Engine) : (setEngine s p x).orq = s.orq := rfl
@[simp] theorem setEngine_cls (p : Port) (x : Engine) : (setEngine s p x).cls = s.cls := rfl
@[simp] theorem setEngine_dtu (p : Port) (x : Engine) : (setEngine s p x).dtu = s.dtu := rfl
@[simp] theorem setEngine_ext (p : Port) (x : Engine) : (setEngine s p x).ext = s.ext := rfl
@[simp] theorem setEngine_rsc (p : Port) (x : Engine) : (setEngine s p x).rsc = s.rsc := rfl
@[simp] theorem setEngine_fdc (p : Port) (x : Engine) : (setEngine s p x).fdc = s.fdc := rfl
@[simp] theorem setEngine_liu (p : Port) (x : Engine) : (setEngine s p x).liu = { s.liu with engines := s.liu.engines.set p x } := rfl
@[simp] theorem setEngine_evu (p : Port) (x : Engine) : (setEngine s p x).evu = s.evu := rfl

@[simp] theorem setStc_pending (x : Stc) : (setStc x s).pending = s.pending := rfl
@[simp] theorem setStc_freeUsed (x : Stc) : (setStc x s).freeUsed = s.freeUsed := rfl
@[simp] theorem setStc_startup (x : Stc) : (setStc x s).startup = s.startup := rfl
@[simp] theorem setStc_resetLow (x : Stc) : (setStc x s).resetLow = s.resetLow := rfl
@[simp] theorem setStc_timeBase (x : Stc) : (setStc x s).timeBase = s.timeBase := rfl
@[simp] theorem setStc_date (x : Stc) : (setStc x s).date = s.date := rfl
@[simp] theorem setStc_params (x : Stc) : (setStc x s).params = s.params := rfl
@[simp] theorem setStc_pins (x : Stc) : (setStc x s).pins = s.pins := rfl
@[simp] theorem setStc_spu (x : Stc) : (setStc x s).spu = s.spu := rfl
@[simp] theorem setStc_uau (x : Stc) : (setStc x s).uau = s.uau := rfl
@[simp] theorem setStc_pau (x : Stc) : (setStc x s).pau = s.pau := rfl
@[simp] theorem setStc_stc (x : Stc) : (setStc x s).stc = x := rfl
@[simp] theorem setStc_orq (x : Stc) : (setStc x s).orq = s.orq := rfl
@[simp] theorem setStc_cls (x : Stc) : (setStc x s).cls = s.cls := rfl
@[simp] theorem setStc_dtu (x : Stc) : (setStc x s).dtu = s.dtu := rfl
@[simp] theorem setStc_ext (x : Stc) : (setStc x s).ext = s.ext := rfl
@[simp] theorem setStc_rsc (x : Stc) : (setStc x s).rsc = s.rsc := rfl
@[simp] theorem setStc_fdc (x : Stc) : (setStc x s).fdc = s.fdc := rfl
@[simp] theorem setStc_liu (x : Stc) : (setStc x s).liu = s.liu := rfl
@[simp] theorem setStc_evu (x : Stc) : (setStc x s).evu = s.evu := rfl

@[simp] theorem setOrq_pending (x : Orq) : (setOrq x s).pending = s.pending := rfl
@[simp] theorem setOrq_freeUsed (x : Orq) : (setOrq x s).freeUsed = s.freeUsed := rfl
@[simp] theorem setOrq_startup (x : Orq) : (setOrq x s).startup = s.startup := rfl
@[simp] theorem setOrq_resetLow (x : Orq) : (setOrq x s).resetLow = s.resetLow := rfl
@[simp] theorem setOrq_timeBase (x : Orq) : (setOrq x s).timeBase = s.timeBase := rfl
@[simp] theorem setOrq_date (x : Orq) : (setOrq x s).date = s.date := rfl
@[simp] theorem setOrq_params (x : Orq) : (setOrq x s).params = s.params := rfl
@[simp] theorem setOrq_pins (x : Orq) : (setOrq x s).pins = s.pins := rfl
@[simp] theorem setOrq_spu (x : Orq) : (setOrq x s).spu = s.spu := rfl
@[simp] theorem setOrq_uau (x : Orq) : (setOrq x s).uau = s.uau := rfl
@[simp] theorem setOrq_pau (x : Orq) : (setOrq x s).pau = s.pau := rfl
@[simp] theorem setOrq_stc (x : Orq) : (setOrq x s).stc = s.stc := rfl
@[simp] theorem setOrq_orq (x : Orq) : (setOrq x s).orq = x := rfl
@[simp] theorem setOrq_cls (x : Orq) : (setOrq x s).cls = s.cls := rfl
@[simp] theorem setOrq_dtu (x : Orq) : (setOrq x s).dtu = s.dtu := rfl
@[simp] theorem setOrq_ext (x : Orq) : (setOrq x s).ext = s.ext := rfl
@[simp] theorem setOrq_rsc (x : Orq) : (setOrq x s).rsc = s.rsc := rfl
@[simp] theorem setOrq_fdc (x : Orq) : (setOrq x s).fdc = s.fdc := rfl
@[simp] theorem setOrq_liu (x : Orq) : (setOrq x s).liu = s.liu := rfl
@[simp] theorem setOrq_evu (x : Orq) : (setOrq x s).evu = s.evu := rfl

@[simp] theorem raise_pending (k : EventKind) (m : BitVec 16) (d : Option Detail) : (raise k m d s).pending = s.pending := rfl
@[simp] theorem raise_freeUsed (k : EventKind) (m : BitVec 16) (d : Option Detail) : (raise k m d s).freeUsed = s.freeUsed := rfl
@[simp] theorem raise_startup (k : EventKind) (m : BitVec 16) (d : Option Detail) : (raise k m d s).startup = s.startup := rfl
@[simp] theorem raise_resetLow (k : EventKind) (m : BitVec 16) (d : Option Detail) : (raise k m d s).resetLow = s.resetLow := rfl
@[simp] theorem raise_timeBase (k : EventKind) (m : BitVec 16) (d : Option Detail) : (raise k m d s).timeBase = s.timeBase := rfl
@[simp] theorem raise_date (k : EventKind) (m : BitVec 16) (d : Option Detail) : (raise k m d s).date = s.date := rfl
@[simp] theorem raise_params (k : EventKind) (m : BitVec 16) (d : Option Detail) : (raise k m d s).params = s.params := rfl
@[simp] theorem raise_pins (k : EventKind) (m : BitVec 16) (d : Option Detail) : (raise k m d s).pins = s.pins := rfl
@[simp] theorem raise_spu (k : EventKind) (m : BitVec 16) (d : Option Detail) : (raise k m d s).spu = s.spu := rfl
@[simp] theorem raise_uau (k : EventKind) (m : BitVec 16) (d : Option Detail) : (raise k m d s).uau = s.uau := rfl
@[simp] theorem raise_pau (k : EventKind) (m : BitVec 16) (d : Option Detail) : (raise k m d s).pau = s.pau := rfl
@[simp] theorem raise_stc (k : EventKind) (m : BitVec 16) (d : Option Detail) : (raise k m d s).stc = s.stc := rfl
@[simp] theorem raise_orq (k : EventKind) (m : BitVec 16) (d : Option Detail) : (raise k m d s).orq = s.orq := rfl
@[simp] theorem raise_cls (k : EventKind) (m : BitVec 16) (d : Option Detail) : (raise k m d s).cls = s.cls := rfl
@[simp] theorem raise_dtu (k : EventKind) (m : BitVec 16) (d : Option Detail) : (raise k m d s).dtu = s.dtu := rfl
@[simp] theorem raise_ext (k : EventKind) (m : BitVec 16) (d : Option Detail) : (raise k m d s).ext = s.ext := rfl
@[simp] theorem raise_rsc (k : EventKind) (m : BitVec 16) (d : Option Detail) : (raise k m d s).rsc = s.rsc := rfl
@[simp] theorem raise_fdc (k : EventKind) (m : BitVec 16) (d : Option Detail) : (raise k m d s).fdc = s.fdc := rfl
@[simp] theorem raise_liu (k : EventKind) (m : BitVec 16) (d : Option Detail) : (raise k m d s).liu = s.liu := rfl

@[simp] theorem raiseOn_pending (p : Port) (k : EventKind) (d : Option Detail) : (raiseOn p k d s).pending = s.pending := rfl
@[simp] theorem raiseOn_freeUsed (p : Port) (k : EventKind) (d : Option Detail) : (raiseOn p k d s).freeUsed = s.freeUsed := rfl
@[simp] theorem raiseOn_startup (p : Port) (k : EventKind) (d : Option Detail) : (raiseOn p k d s).startup = s.startup := rfl
@[simp] theorem raiseOn_resetLow (p : Port) (k : EventKind) (d : Option Detail) : (raiseOn p k d s).resetLow = s.resetLow := rfl
@[simp] theorem raiseOn_timeBase (p : Port) (k : EventKind) (d : Option Detail) : (raiseOn p k d s).timeBase = s.timeBase := rfl
@[simp] theorem raiseOn_date (p : Port) (k : EventKind) (d : Option Detail) : (raiseOn p k d s).date = s.date := rfl
@[simp] theorem raiseOn_params (p : Port) (k : EventKind) (d : Option Detail) : (raiseOn p k d s).params = s.params := rfl
@[simp] theorem raiseOn_pins (p : Port) (k : EventKind) (d : Option Detail) : (raiseOn p k d s).pins = s.pins := rfl
@[simp] theorem raiseOn_spu (p : Port) (k : EventKind) (d : Option Detail) : (raiseOn p k d s).spu = s.spu := rfl
@[simp] theorem raiseOn_uau (p : Port) (k : EventKind) (d : Option Detail) : (raiseOn p k d s).uau = s.uau := rfl
@[simp] theorem raiseOn_pau (p : Port) (k : EventKind) (d : Option Detail) : (raiseOn p k d s).pau = s.pau := rfl
@[simp] theorem raiseOn_stc (p : Port) (k : EventKind) (d : Option Detail) : (raiseOn p k d s).stc = s.stc := rfl
@[simp] theorem raiseOn_orq (p : Port) (k : EventKind) (d : Option Detail) : (raiseOn p k d s).orq = s.orq := rfl
@[simp] theorem raiseOn_cls (p : Port) (k : EventKind) (d : Option Detail) : (raiseOn p k d s).cls = s.cls := rfl
@[simp] theorem raiseOn_dtu (p : Port) (k : EventKind) (d : Option Detail) : (raiseOn p k d s).dtu = s.dtu := rfl
@[simp] theorem raiseOn_ext (p : Port) (k : EventKind) (d : Option Detail) : (raiseOn p k d s).ext = s.ext := rfl
@[simp] theorem raiseOn_rsc (p : Port) (k : EventKind) (d : Option Detail) : (raiseOn p k d s).rsc = s.rsc := rfl
@[simp] theorem raiseOn_fdc (p : Port) (k : EventKind) (d : Option Detail) : (raiseOn p k d s).fdc = s.fdc := rfl
@[simp] theorem raiseOn_liu (p : Port) (k : EventKind) (d : Option Detail) : (raiseOn p k d s).liu = s.liu := rfl

end Sys2Proof.Machine
end

