-- ==== Sys2Proof/Laws/Ops.lean ====
section
/-!
SUPPORT. What the shared operations do, said once: reading back a record that was written, the transaction of a port, the
reply slot, and the agenda.
-/

namespace Sys2Proof.Machine

/-! ### Reading back -/

theorem get_vset {α : Type} {n : Nat} (v : Vector α n) (i j : Fin n) (x : α) :
    (vset v i x).get j = if i = j then x else v.get j := by
  show (v.set i.val x i.isLt)[j.val] = if i = j then x else v[j.val]
  rw [Vector.getElem_set]
  simp only [Fin.ext_iff]

@[simp] theorem get_vset_same {α : Type} {n : Nat} (v : Vector α n) (i : Fin n) (x : α) : (vset v i x).get i = x := by
  simp [get_vset]

theorem get_vset_other {α : Type} {n : Nat} (v : Vector α n) {i j : Fin n} (x : α) (h : i ≠ j) :
    (vset v i x).get j = v.get j := by
  simp [get_vset, h]

@[simp] theorem PerPort.get_set_same {α : Type} (x : PerPort α) (p : Port) (v : α) : (x.set p v).get p = v := by
  cases p <;> rfl

theorem PerPort.get_set_other {α : Type} (x : PerPort α) {p q : Port} (v : α) (h : p ≠ q) :
    (x.set p v).get q = x.get q := by
  cases p <;> cases q <;> first | rfl | exact absurd rfl h

@[simp] theorem PerPort.set_set {α : Type} (x : PerPort α) (p : Port) (v w : α) : (x.set p v).set p w = x.set p w := by
  cases p <;> rfl

@[simp] theorem PerPort.set_get {α : Type} (x : PerPort α) (p : Port) : x.set p (x.get p) = x := by
  cases p <;> rfl

@[simp] theorem PerSource.get_set_same {α : Type} (x : PerSource α) (a : Source) (v : α) : (x.set a v).get a = v := by
  cases a <;> rfl

theorem PerSource.get_set_other {α : Type} (x : PerSource α) {a b : Source} (v : α) (h : a ≠ b) :
    (x.set a v).get b = x.get b := by
  cases a <;> cases b <;> first | rfl | exact absurd rfl h

@[simp] theorem chan_setChan (s : State) (c : Fin 6) (x : Channel) : chan (setChan s c x) c = x := by
  simp [chan, setChan]

theorem chan_setChan_other (s : State) {c d : Fin 6} (x : Channel) (h : c ≠ d) : chan (setChan s c x) d = chan s d := by
  simp [chan, setChan, get_vset, h]

@[simp] theorem bay_setBay (s : State) (b : Fin 12) (x : Bay) : bay (setBay s b x) b = x := by
  simp [bay, setBay]

theorem bay_setBay_other (s : State) {b d : Fin 12} (x : Bay) (h : b ≠ d) : bay (setBay s b x) d = bay s d := by
  simp [bay, setBay, get_vset, h]

@[simp] theorem chan_setBay (s : State) (b : Fin 12) (x : Bay) (c : Fin 6) : chan (setBay s b x) c = chan s c := rfl

@[simp] theorem bay_setChan (s : State) (c : Fin 6) (x : Channel) (b : Fin 12) : bay (setChan s c x) b = bay s b := rfl

@[simp] theorem book_setBook (s : State) (c : Fin 6) (x : Book) : book (setBook s c x) c = x := by
  simp [book, setBook]

theorem book_setBook_other (s : State) {c d : Fin 6} (x : Book) (h : c ≠ d) : book (setBook s c x) d = book s d := by
  simp [book, setBook, get_vset, h]

@[simp] theorem entryOf_setEntry (s : State) (h : Fin 3) (x : CleanEntry) : entryOf (setEntry s h x) h = x := by
  simp [entryOf, setEntry]

theorem entryOf_setEntry_other (s : State) {h k : Fin 3} (x : CleanEntry) (n : h ≠ k) :
    entryOf (setEntry s h x) k = entryOf s k := by
  simp [entryOf, setEntry, get_vset, n]

@[simp] theorem health_setHealth (s : State) (c : Fin 6) (x : Health) : health (setHealth s c x) c = x := by
  simp [health, setHealth]

theorem health_setHealth_other (s : State) {c d : Fin 6} (x : Health) (h : c ≠ d) :
    health (setHealth s c x) d = health s d := by
  simp [health, setHealth, get_vset, h]

@[simp] theorem exposure_setExposure (s : State) (h : Fin 3) (x : Exposure) : exposure (setExposure s h x) h = x := by
  simp [exposure, setExposure]

theorem exposure_setExposure_other (s : State) {h k : Fin 3} (x : Exposure) (n : h ≠ k) :
    exposure (setExposure s h x) k = exposure s k := by
  simp [exposure, setExposure, get_vset, n]

@[simp] theorem sourceRec_setSource (s : State) (a : Source) (x : SourceRec) : sourceRec (setSource s a x) a = x := by
  simp [sourceRec, setSource]

@[simp] theorem engine_setEngine (s : State) (p : Port) (x : Engine) : engine (setEngine s p x) p = x := by
  simp [engine, setEngine]

theorem engine_setEngine_other (s : State) {p q : Port} (x : Engine) (h : p ≠ q) :
    engine (setEngine s p x) q = engine s q := by
  simp [engine, setEngine, PerPort.get_set_other _ _ h]

@[simp] theorem setEngine_setEngine (s : State) (p : Port) (x y : Engine) :
    setEngine (setEngine s p x) p y = setEngine s p y := by
  simp [setEngine]

/-! ### Slots and transactions -/

@[simp] theorem engine_answer (s : State) (p : Port) (k : Kind) (r : Result) (b : List Byte) :
    engine (answer p k r b s) p = { engine s p with slot := .ready ⟨k, r, b⟩ } := by
  simp [answer]

@[simp] theorem engine_holdSlot (s : State) (p : Port) (k : Kind) :
    engine (holdSlot p k s) p = { engine s p with slot := .held k } := by
  simp [holdSlot]

@[simp] theorem engine_beginTransaction (s : State) (p : Port) :
    engine (beginTransaction p s) p
      = { engine s p with busy := false, postedFull := false, out := [statusByte s p], collecting := false } := by
  simp [beginTransaction]

/-- A reply given while a request is held replaces it (R167). -/
theorem answer_holdSlot (s : State) (p : Port) (k l : Kind) (r : Result) (b : List Byte) :
    answer p k r b (holdSlot p l s) = answer p k r b s := by
  simp [answer, holdSlot]

/-- An answer changes the LIU only. -/
theorem answer_eq (s : State) (p : Port) (k : Kind) (r : Result) (b : List Byte) :
    answer p k r b s = { s with liu := (answer p k r b s).liu } := rfl

/-- The beginning of a transaction changes the LIU only. -/
theorem beginTransaction_eq (s : State) (p : Port) :
    beginTransaction p s = { s with liu := (beginTransaction p s).liu } := rfl

/-! ### The agenda -/

/-- A command without consequences answers its state. -/
@[simp] theorem settle_nil (s : State) : settle (s, []) = .next s := rfl

@[simp] theorem settle_done (s : State) : settle (Run.done s) = .next s := rfl

@[simp] theorem runActs_nil (n : Nat) (s : State) : runActs n (s, []) = (s, []) := by
  cases n <;> rfl

theorem runActs_cons (n : Nat) (s : State) (a : Act) (rest : List Act) :
    runActs (n + 1) (s, a :: rest) = runActs n ((perform a s).1, (perform a s).2 ++ rest) := rfl

/-- A command whose agenda is emptied within the bound answers the state that is left. -/
theorem settle_of_runActs {r : Run} {t : State} (h : runActs Config.cascadeLimit r = (t, [])) :
    settle r = .next t := by
  simp [settle, h]

/-- The only fault is an agenda that is not emptied, and no command is refused by `settle`. -/
theorem settle_cases (r : Run) :
    (∃ t, settle r = .next t ∧ runActs Config.cascadeLimit r = (t, [])) ∨ settle r = .fault .cascadeUnsettled := by
  unfold settle
  split
  · exact Or.inl ⟨_, rfl, by assumption⟩
  · exact Or.inr rfl

/-- An agenda of one consequence that brings no further one. -/
theorem settle_one {s t : State} {a : Act} (h : perform a s = (t, [])) : settle (s, [a]) = .next t := by
  apply settle_of_runActs
  show runActs (399 + 1) (s, [a]) = (t, [])
  rw [runActs_cons, h]
  rfl

/-- Consequences that change nothing and bring nothing leave the state. -/
theorem runActs_inert (s : State) (acts : List Act) (h : ∀ a ∈ acts, perform a s = (s, [])) :
    ∀ n, acts.length ≤ n → runActs n (s, acts) = (s, []) := by
  induction acts with
  | nil => intro n _; simp
  | cons a rest ih =>
    intro n hn
    cases n with
    | zero => simp at hn
    | succ n =>
      rw [runActs_cons, h a (by simp)]
      exact ih (fun b hb => h b (by simp [hb])) n (by simpa using hn)

/-- A command whose consequences all change nothing answers its state. -/
theorem settle_inert (s : State) (acts : List Act) (h : ∀ a ∈ acts, perform a s = (s, []))
    (n : acts.length ≤ Config.cascadeLimit) : settle (s, acts) = .next s :=
  settle_of_runActs (runActs_inert s acts h _ n)

/-- An agenda is worked through one part after the other. -/
theorem runActs_add (m n : Nat) (r : Run) : runActs (m + n) r = runActs n (runActs m r) := by
  induction m generalizing r with
  | zero => simp [runActs]
  | succ m ih =>
    obtain ⟨s, acts⟩ := r
    cases acts with
    | nil => simp
    | cons a rest =>
      rw [show m + 1 + n = (m + n) + 1 by omega, runActs_cons, runActs_cons, ih]

/-! ### Taking a request -/

/-- A transaction in RUN with RESET_N high takes its frame at once. -/
theorem transaction_run {p : Port} {silent : State → Bool} {f : State → Run} {s : State} (hr : s.resetLow = false)
    (hp : s.rsc.power = .run) : transaction p silent f s = f (beginTransaction p s) := by
  unfold transaction waking
  simp [hr, beginTransaction, hp]

/-- While RESET_N is low no transaction is answered (R174). -/
theorem transaction_low {p : Port} {silent : State → Bool} {f : State → Run} {s : State} (hr : s.resetLow = true) :
    transaction p silent f s = (s, []) := by
  simp [transaction, hr, Run.done]

/-- The state in which a request's owner takes it: its transaction begun and its slot HELD. -/
abbrev heldFor (k : Kind) (p : Port) (s : State) : State := holdSlot p k (beginTransaction p s)

/-- A request that passes every test of the dispatch reaches its owner (R166 step 7). -/
theorem request_owner {k : Kind} {p : Port} {body : List Byte} {f : State → Run} {s : State} (hr : s.resetLow = false)
    (hp : s.rsc.power = .run) (hs : (engine s p).slot = .empty ∨ ∃ r, (engine s p).slot = .collected r)
    (hk : k.permitted p = true) (hb : body.length = k.bodyLength) (hm : body.length ≤ Config.bodyMax) :
    request k p body f s = f (heldFor k p s) := by
  unfold request
  rw [transaction_run hr hp]
  unfold fitting dispatch
  rcases hs with h | ⟨r, h⟩ <;> simp [h, hk, hb, Nat.not_lt.mpr (hb ▸ hm)]

/-- A frame that finds the slot HELD or READY is discarded and BUSY set (R166 step 4, R167). -/
theorem request_busy {k : Kind} {p : Port} {body : List Byte} {f : State → Run} {s : State} (hr : s.resetLow = false)
    (hp : s.rsc.power = .run) (hs : (∃ l, (engine s p).slot = .held l) ∨ ∃ r, (engine s p).slot = .ready r)
    (hm : body.length ≤ Config.bodyMax) :
    request k p body f s
      = Run.done (setEngine (beginTransaction p s) p { engine (beginTransaction p s) p with busy := true }) := by
  unfold request
  rw [transaction_run hr hp]
  unfold fitting dispatch
  rcases hs with ⟨l, h⟩ | ⟨r, h⟩ <;> simp [h, Nat.not_lt.mpr hm]

end Sys2Proof.Machine
end

