-- ==== Sys2Proof/Laws/Events.lean ====
section
/-!
SUPPORT. What raising an event does to the flag records, once for all kinds: the kind raised is told, every other stands.
-/

namespace Sys2Proof.Machine

/-- Two event kinds with one number are one kind (R180). -/
theorem EventKind.index_inj {k l : EventKind} (h : k.index = l.index) : k = l := by
  cases k <;> cases l <;> first | rfl | exact absurd h (by decide)

/-- A port's event state after a raise (R175, R176). -/
theorem raise_get (k : EventKind) (m : BitVec 16) (d : Option Detail) (s : State) (p : Port) :
    (raise k m d s).evu.get p = if k.routed p then (s.evu.get p).raise k m d else s.evu.get p := by
  cases p <;> rfl

/-- The flag record of the kind raised (R175). -/
theorem PortEvents.raise_self (e : PortEvents) (k : EventKind) (m : BitVec 16) (d : Option Detail) :
    (e.raise k m d).flags.get k.index =
      { set := true, count := sat Config.u8Max ((e.flags.get k.index).count + 1)
        subjects := (e.flags.get k.index).subjects ||| m, detail := d, raisedAt := (e.raises + 1) % 65536 } :=
  get_vset_same _ _ _

/-- The flag record of another kind (R175). -/
theorem PortEvents.raise_other (e : PortEvents) {k l : EventKind} (m : BitVec 16) (d : Option Detail) (h : k ≠ l) :
    (e.raise k m d).flags.get l.index = e.flags.get l.index :=
  get_vset_other _ _ fun i => h (EventKind.index_inj i)

theorem Untold.refl (k : EventKind) (s : State) : Untold k s s := fun _ => rfl

/-- A kind that has not been raised yet is told by its raise. -/
theorem Untold.raise_self {k : EventKind} {s t : State} (h : Untold k s t) (m : BitVec 16) (d : Option Detail) :
    Told k m d s (raise k m d t) := by
  intro p r
  rw [raise_get, if_pos r, PortEvents.raise_self, ← h p]
  exact ⟨rfl, rfl, rfl, rfl⟩

/-- The raise of another kind leaves a kind untold. -/
theorem Untold.raise_other {k l : EventKind} {s t : State} (h : Untold k s t) (m : BitVec 16) (d : Option Detail)
    (n : l ≠ k) : Untold k s (raise l m d t) := by
  intro p
  rw [raise_get, ← h p]
  split
  · exact PortEvents.raise_other _ m d n
  · rfl

/-- The raise of another kind leaves a kind told as it was. -/
theorem Told.raise_other {k l : EventKind} {m : BitVec 16} {d : Option Detail} {s t : State} (h : Told k m d s t)
    (m' : BitVec 16) (d' : Option Detail) (n : l ≠ k) : Told k m d s (raise l m' d' t) := by
  intro p r
  have e : ((raise l m' d' t).evu.get p).flags.get k.index = (t.evu.get p).flags.get k.index := by
    rw [raise_get]
    split
    · exact PortEvents.raise_other _ m' d' n
    · rfl
  rw [e]
  exact h p r

/-- Only the event state says what has been told. -/
theorem Told.of_evu {k : EventKind} {m : BitVec 16} {d : Option Detail} {s t u : State} (h : Told k m d s t)
    (e : u.evu = t.evu) : Told k m d s u := by
  intro p r
  rw [e]
  exact h p r

theorem Untold.of_evu {k : EventKind} {s t u : State} (h : Untold k s t) (e : u.evu = t.evu) : Untold k s u := by
  intro p
  rw [e]
  exact h p

end Sys2Proof.Machine
end

