-- ==== Sys2Proof/Laws/Kept.lean ====
section
/-!
SUPPORT. What each block's operations leave alone. `keptBy…` collects the fields of `State` a block never writes; one lemma
per operation says it keeps them, and `…_of_kept` reads one field off.
-/

namespace Sys2Proof.Machine

/-- The fields no operation of the Supply Unit, the bus or the Page Admission Unit writes: all but spu, pau and evu. -/
def keptBySupply (s : State) :=
  ((s.pending, s.freeUsed), s.startup, s.resetLow, s.timeBase, s.date, s.params, s.pins, s.uau, s.stc, s.orq, s.cls, s.dtu,
    s.ext, s.rsc, s.fdc, s.liu)

/-- The fields no debit of the Usage Accounting Unit writes: all but spu, pau, evu and uau. -/
def keptByUsage (s : State) :=
  ((s.pending, s.freeUsed), s.startup, s.resetLow, s.timeBase, s.date, s.params, s.pins, s.stc, s.orq, s.cls, s.dtu,
    s.ext, s.rsc, s.fdc, s.liu)

/-- The fields no operation of the Station Controller, the Order Queue or the exposure timers writes: all but stc, orq,
ext, evu and the home pin. -/
def keptByStation (s : State) :=
  ((s.pending, s.freeUsed), s.startup, s.resetLow, s.timeBase, s.date, s.params, s.spu, s.uau, s.pau, s.cls, s.dtu, s.rsc,
    s.fdc, s.liu)

/-- The fields the agenda never writes (log entry 8): the queue of commands, the free values used, the resets, the clock, the
parameters, the power state and the links. -/
def keptByAgenda (s : State) :=
  ((s.pending, s.freeUsed), s.startup, s.resetLow, s.timeBase, s.date, s.params, s.rsc, s.liu)

theorem kept_usage_of_supply {s t : State} (h : keptBySupply t = keptBySupply s) : keptByUsage t = keptByUsage s := by
  simp only [keptBySupply, keptByUsage, Prod.mk.injEq] at *
  simp only [h, and_self]

theorem kept_agenda_of_usage {s t : State} (h : keptByUsage t = keptByUsage s) : keptByAgenda t = keptByAgenda s := by
  simp only [keptByAgenda, keptByUsage, Prod.mk.injEq] at *
  simp only [h, and_self]

theorem kept_agenda_of_station {s t : State} (h : keptByStation t = keptByStation s) :
    keptByAgenda t = keptByAgenda s := by
  simp only [keptByAgenda, keptByStation, Prod.mk.injEq] at *
  simp only [h, and_self]

theorem uau_of_supply {s t : State} (h : keptBySupply t = keptBySupply s) : t.uau = s.uau := by
  simp only [keptBySupply, Prod.mk.injEq] at h; exact h.2.2.2.2.2.2.2.1

theorem params_of_usage {s t : State} (h : keptByUsage t = keptByUsage s) : t.params = s.params := by
  simp only [keptByUsage, Prod.mk.injEq] at h; exact h.2.2.2.2.2.1

theorem stc_of_usage {s t : State} (h : keptByUsage t = keptByUsage s) : t.stc = s.stc := by
  simp only [keptByUsage, Prod.mk.injEq] at h; exact h.2.2.2.2.2.2.2.1

theorem cls_of_usage {s t : State} (h : keptByUsage t = keptByUsage s) : t.cls = s.cls := by
  simp only [keptByUsage, Prod.mk.injEq] at h; exact h.2.2.2.2.2.2.2.2.2.1

theorem uau_of_station {s t : State} (h : keptByStation t = keptByStation s) : t.uau = s.uau := by
  simp only [keptByStation, Prod.mk.injEq] at h; exact h.2.2.2.2.2.2.2.1

theorem cls_of_station {s t : State} (h : keptByStation t = keptByStation s) : t.cls = s.cls := by
  simp only [keptByStation, Prod.mk.injEq] at h; exact h.2.2.2.2.2.2.2.2.2.1

theorem pending_of_agenda {s t : State} (h : keptByAgenda t = keptByAgenda s) : t.pending = s.pending := by
  simp only [keptByAgenda, Prod.mk.injEq] at h; exact h.1.1

theorem liu_of_agenda {s t : State} (h : keptByAgenda t = keptByAgenda s) : t.liu = s.liu := by
  simp only [keptByAgenda, Prod.mk.injEq] at h; exact h.2.2.2.2.2.2.2

/-- A fold keeps what each of its steps keeps. -/
theorem foldl_kept {α β : Type} (π : State → β) (f : State → α → State) (h : ∀ s a, π (f s a) = π s) (l : List α) :
    ∀ s, π (l.foldl f s) = π s := by
  induction l with
  | nil => intro s; rfl
  | cons a l ih => intro s; rw [List.foldl_cons, ih, h]

/-- What both branches of a run keep. -/
theorem kept_ite {β : Type} (π : State → β) {x : β} {c : Prop} [Decidable c] {a b : Run} (ha : π a.1 = x)
    (hb : π b.1 = x) : π (if c then a else b).1 = x := by
  split <;> assumption

/-! ### Supply Unit, bus and Page Admission Unit -/

@[simp] theorem raise_kept (k : EventKind) (m : BitVec 16) (d : Option Detail) (s : State) :
    keptBySupply (raise k m d s) = keptBySupply s := rfl

@[simp] theorem setChan_kept (s : State) (c : Fin 6) (x : Channel) : keptBySupply (setChan s c x) = keptBySupply s := rfl

@[simp] theorem setBay_kept (s : State) (b : Fin 12) (x : Bay) : keptBySupply (setBay s b x) = keptBySupply s := rfl

@[simp] theorem onBus_kept (f : Bus → Bus) (s : State) : keptBySupply (onBus f s) = keptBySupply s := rfl

@[simp] theorem checkOver_kept (c : Fin 6) (s : State) : keptBySupply (checkOver c s) = keptBySupply s := by
  unfold checkOver
  dsimp only
  split
  · rfl
  · split <;> rfl

@[simp] theorem checkOverAll_kept (cs : List (Fin 6)) (s : State) :
    keptBySupply (checkOverAll cs s) = keptBySupply s :=
  foldl_kept keptBySupply _ (fun s c => checkOver_kept c s) cs s

@[simp] theorem modOldest_kept (f : Page → Page) (s : State) : keptBySupply (modOldest f s) = keptBySupply s := by
  unfold modOldest; split <;> rfl

@[simp] theorem pauAdvanceBegins_kept (tag : Nat) (s : State) :
    keptBySupply (pauAdvanceBegins tag s) = keptBySupply s := by
  unfold pauAdvanceBegins; split <;> simp

@[simp] theorem pauAdvanceDone_kept (tag d : Nat) (s : State) :
    keptBySupply (pauAdvanceDone tag d s) = keptBySupply s := by
  unfold pauAdvanceDone; split <;> simp

@[simp] theorem pauJam_kept (s : State) : keptBySupply (pauJam s) = keptBySupply s := modOldest_kept _ s

@[simp] theorem pauReport_kept (tag : Nat) (d : Destination) (v : Vector Nat 6) (s : State) :
    keptBySupply (pauReport tag d v s) = keptBySupply s := by
  unfold pauReport
  split
  · rfl
  · split
    · simp
    · rfl

@[simp] theorem joinTable_kept (e : Page) (s : State) : keptBySupply (joinTable e s) = keptBySupply s := by
  unfold joinTable; rw [checkOverAll_kept]; rfl

@[simp] theorem endPage_kept (e : Page) (a : Bool) (s : State) : keptBySupply (endPage e a s) = keptBySupply s := by
  unfold endPage; dsimp only; rw [checkOverAll_kept]; rfl

@[simp] theorem evalSupply_kept (c : Fin 6) (s : State) : keptBySupply (evalSupply c s) = keptBySupply s := by
  unfold evalSupply; dsimp only; split <;> rfl

@[simp] theorem refillTest_kept (c : Fin 6) (s : State) : keptBySupply (refillTest c s) = keptBySupply s := by
  unfold refillTest; split <;> rfl

@[simp] theorem refillTestAll_kept (s : State) : keptBySupply (refillTestAll s) = keptBySupply s :=
  foldl_kept keptBySupply _ (fun s c => refillTest_kept c s) allChannels s

@[simp] theorem makeActive_kept (b : Fin 12) (s : State) : keptBySupply (makeActive b s) = keptBySupply s := rfl

@[simp] theorem promote_kept (b : Fin 12) (s : State) : keptBySupply (promote b s) = keptBySupply s := by
  simp [promote]

@[simp] theorem enterStandby_kept (b : Fin 12) (s : State) : keptBySupply (enterStandby b s).1 = keptBySupply s := by
  unfold enterStandby
  dsimp only
  repeat' split
  all_goals simp

@[simp] theorem switchover_kept (c : Fin 6) (side : Side) (s : State) :
    keptBySupply (switchover c side s) = keptBySupply s := by
  unfold switchover
  dsimp only
  repeat' split
  all_goals simp

@[simp] theorem insertBay_kept (b : Fin 12) (scan : Bool) (s : State) :
    keptBySupply (insertBay b scan s) = keptBySupply s := by
  unfold insertBay; dsimp only; split <;> rfl

@[simp] theorem removeBay_kept (b : Fin 12) (s : State) : keptBySupply (removeBay b s) = keptBySupply s := by
  unfold removeBay
  dsimp only
  split <;> simp

@[simp] theorem creditTank_kept (c : Fin 6) (v : Nat) (s : State) : keptBySupply (creditTank c v s) = keptBySupply s := rfl

@[simp] theorem strokeInk_kept (c : Fin 6) (b : Fin 12) (s : State) :
    keptBySupply (strokeInk c b s) = keptBySupply s := by
  unfold strokeInk
  dsimp only
  repeat' split
  all_goals simp

@[simp] theorem bayOut_kept (b : Fin 12) (s : State) : keptBySupply (bayOut b s) = keptBySupply s := rfl

@[simp] theorem strokeCounted_kept (c : Fin 6) (s : State) : keptBySupply (strokeCounted c s) = keptBySupply s := rfl

@[simp] theorem strokeNext_kept (c : Fin 6) (s : State) : keptBySupply (strokeNext c s) = keptBySupply s := by
  unfold strokeNext
  dsimp only
  repeat' split
  all_goals simp

@[simp] theorem strokeAfterSwitch_kept (c : Fin 6) (s : State) :
    keptBySupply (strokeAfterSwitch c s) = keptBySupply s := by
  unfold strokeAfterSwitch
  dsimp only
  repeat' split
  all_goals simp

@[simp] theorem floatTo_kept (c : Fin 6) (f : FloatLevel) (s : State) : keptBySupply (floatTo c f s) = keptBySupply s := by
  simp [floatTo]

@[simp] theorem clearFault_kept (c : Fin 6) (s : State) : keptBySupply (clearFault c s) = keptBySupply s := by
  simp [clearFault]

@[simp] theorem debitTank_kept (c : Fin 6) (n : Nat) (s : State) : keptBySupply (debitTank c n s) = keptBySupply s := by
  simp [debitTank]

/-! ### Usage Accounting Unit -/

@[simp] theorem setBook_keptU (s : State) (c : Fin 6) (x : Book) : keptByUsage (setBook s c x) = keptByUsage s := rfl

@[simp] theorem setWaste_keptU (w : Waste) (s : State) : keptByUsage (setWaste w s) = keptByUsage s := rfl

@[simp] theorem onBus_keptU (f : Bus → Bus) (s : State) : keptByUsage (onBus f s) = keptByUsage s := rfl

@[simp] theorem raise_keptU (k : EventKind) (m : BitVec 16) (d : Option Detail) (s : State) :
    keptByUsage (raise k m d s) = keptByUsage s := rfl

@[simp] theorem debitTank_keptU (c : Fin 6) (n : Nat) (s : State) : keptByUsage (debitTank c n s) = keptByUsage s :=
  kept_usage_of_supply (debitTank_kept c n s)

@[simp] theorem checkOver_keptU (c : Fin 6) (s : State) : keptByUsage (checkOver c s) = keptByUsage s :=
  kept_usage_of_supply (checkOver_kept c s)

@[simp] theorem checkOverAll_keptU (cs : List (Fin 6)) (s : State) : keptByUsage (checkOverAll cs s) = keptByUsage s :=
  kept_usage_of_supply (checkOverAll_kept cs s)

@[simp] theorem pauReport_keptU (tag : Nat) (d : Destination) (v : Vector Nat 6) (s : State) :
    keptByUsage (pauReport tag d v s) = keptByUsage s := kept_usage_of_supply (pauReport_kept tag d v s)

@[simp] theorem wasteDebit_keptU (n : Nat) (s : State) : keptByUsage (wasteDebit n s) = keptByUsage s := by
  unfold wasteDebit; dsimp only; split
  · exact setWaste_keptU _ s
  · rfl

@[simp] theorem wasteEvent_keptU (w : WasteState) (s : State) : keptByUsage (wasteEvent w s) = keptByUsage s := by
  cases w <;> rfl

@[simp] theorem wasteWriteBack_keptU (s : State) : keptByUsage (wasteWriteBack s) = keptByUsage s := by
  unfold wasteWriteBack
  dsimp only
  repeat' split
  all_goals simp

@[simp] theorem testWaste_keptU (s : State) : keptByUsage (testWaste s).1 = keptByUsage s := by
  unfold testWaste
  cases h : s.uau.waste.fittedData with
  | none => simp only [h, Run.done]
  | some d =>
    simp only [h]
    exact kept_ite keptByUsage (wasteWriteBack_keptU s)
      ((wasteWriteBack_keptU _).trans ((wasteEvent_keptU _ _).trans (setWaste_keptU _ s)))

@[simp] theorem chargeUsage_keptU (body : List Byte) (d : Destination) (c : Fin 6) (s : State) :
    keptByUsage (chargeUsage body d c s) = keptByUsage s := by
  unfold chargeUsage
  dsimp only
  repeat' split
  all_goals simp

@[simp] theorem chargeAll_keptU (body : List Byte) (d : Destination) (s : State) :
    keptByUsage (chargeAll body d s) = keptByUsage s :=
  foldl_kept keptByUsage _ (fun s c => chargeUsage_keptU body d c s) allChannels s

@[simp] theorem chargeSuction_keptU (n : Nat) (c : Fin 6) (s : State) :
    keptByUsage (chargeSuction n c s) = keptByUsage s := by
  unfold chargeSuction
  dsimp only
  split <;> simp

@[simp] theorem suctionDebit_keptU (h : Fin 3) (n : Nat) (s : State) :
    keptByUsage (suctionDebit h n s).1 = keptByUsage s := by
  unfold suctionDebit
  split
  · rfl
  · simp

/-! ### Station Controller, Order Queue and exposure timers -/

@[simp] theorem setStc_keptS (x : Stc) (s : State) : keptByStation (setStc x s) = keptByStation s := rfl

@[simp] theorem setOrq_keptS (x : Orq) (s : State) : keptByStation (setOrq x s) = keptByStation s := rfl

@[simp] theorem setExposure_keptS (s : State) (h : Fin 3) (x : Exposure) :
    keptByStation (setExposure s h x) = keptByStation s := rfl

@[simp] theorem raise_keptS (k : EventKind) (m : BitVec 16) (d : Option Detail) (s : State) :
    keptByStation (raise k m d s) = keptByStation s := rfl

@[simp] theorem enterOrder_keptS (b : OrderBody) (o : Origin) (s : State) :
    keptByStation (enterOrder b o s) = keptByStation s := by
  unfold enterOrder; dsimp only; split <;> rfl

@[simp] theorem placeOrder_keptS (w : Placer) (b : OrderBody) (s : State) :
    keptByStation (placeOrder w b s).1 = keptByStation s := by
  unfold placeOrder Run.done
  repeat' split
  all_goals simp

theorem enterWaitingFrom_keptS (l : List Placement) : ∀ s, keptByStation (enterWaitingFrom l s).1 = keptByStation s := by
  induction l with
  | nil => intro s; rfl
  | cons w ws ih =>
    intro s
    unfold enterWaitingFrom
    split
    · simp [ih]
    · rfl

@[simp] theorem enterWaiting_keptS (s : State) : keptByStation (enterWaiting s).1 = keptByStation s :=
  enterWaitingFrom_keptS _ s

@[simp] theorem placeExposure_keptS (h : Fin 3) (s : State) : keptByStation (placeExposure h s) = keptByStation s := by
  unfold placeExposure
  repeat' split
  all_goals simp

@[simp] theorem exposureSpit_keptS (h : Fin 3) (s : State) : keptByStation (exposureSpit h s) = keptByStation s := by
  simp [exposureSpit]

@[simp] theorem raiseExposed_keptS (h : Fin 3) (s : State) : keptByStation (raiseExposed h s) = keptByStation s := by
  unfold raiseExposed; dsimp only; split <;> rfl

@[simp] theorem extEntry_keptS (s : State) : keptByStation (extEntry s).1 = keptByStation s := by
  unfold extEntry Run.done
  dsimp only
  repeat' split
  all_goals first
    | rfl
    | exact foldl_kept keptByStation _ (fun s h => exposureSpit_keptS h s) _ s
    | exact foldl_kept keptByStation _ (fun s h => raiseExposed_keptS h s) _ s
    | exact foldl_kept keptByStation (fun s h => setExposure s h { exposure s h with count := 0, due := false })
        (fun s h => rfl) _ s

@[simp] theorem sledCommand_keptS (e : SledEnd) (s : State) : keptByStation (sledCommand e s).1 = keptByStation s := by
  unfold sledCommand; dsimp only; split <;> rfl

@[simp] theorem wiperCommand_keptS (e : WiperEnd) (s : State) : keptByStation (wiperCommand e s).1 = keptByStation s := rfl

@[simp] theorem enterUnparked_keptS (s : State) : keptByStation (enterUnparked s).1 = keptByStation s := rfl

@[simp] theorem enterOpen_keptS (e : Bool) (s : State) : keptByStation (enterOpen e s).1 = keptByStation s := rfl

@[simp] theorem enterCapped_keptS (s : State) : keptByStation (enterCapped s).1 = keptByStation s := rfl

@[simp] theorem beginCapping_keptS (s : State) : keptByStation (beginCapping s).1 = keptByStation s := by
  simp [beginCapping]

@[simp] theorem beginUncapping_keptS (s : State) : keptByStation (beginUncapping s).1 = keptByStation s := by
  simp [beginUncapping]

@[simp] theorem askCapping_keptS (s : State) : keptByStation (askCapping s).1 = keptByStation s := by
  unfold askCapping Run.done
  repeat' split
  all_goals simp

@[simp] theorem beginSession_keptS (w : Claimant) (s : State) : keptByStation (beginSession w s).1 = keptByStation s := rfl

@[simp] theorem freeMoment_keptS (e : Bool) (s : State) : keptByStation (freeMoment e s).1 = keptByStation s := by
  unfold freeMoment choosePrint Run.done
  repeat' split
  all_goals simp

@[simp] theorem grantZone_keptS (s : State) : keptByStation (grantZone s).1 = keptByStation s := by
  unfold grantZone; dsimp only; split <;> rfl

@[simp] theorem releaseZone_keptS (s : State) : keptByStation (releaseZone s).1 = keptByStation s := by
  unfold releaseZone; split <;> rfl

@[simp] theorem claimActs_keptS (u b : Bool) (s : State) : keptByStation (claimActs u b s).1 = keptByStation s := by
  unfold claimActs; dsimp only; split <;> rfl

@[simp] theorem placeClaim_keptS (w : Claimant) (u : Bool) (s : State) :
    keptByStation (placeClaim w u s).1 = keptByStation s := by
  unfold placeClaim
  split
  · rfl
  · simp

@[simp] theorem markUrgent_keptS (w : Claimant) (s : State) : keptByStation (markUrgent w s).1 = keptByStation s := by
  unfold markUrgent
  split
  · simp
  · rfl

@[simp] theorem withdrawClaim_keptS (w : Claimant) (s : State) :
    keptByStation (withdrawClaim w s) = keptByStation s := rfl

@[simp] theorem handBack_keptS (s : State) : keptByStation (handBack s).1 = keptByStation s := by
  unfold handBack Run.done endSession
  repeat' split
  all_goals simp

@[simp] theorem faultStation_keptS (c : StationCause) (s : State) :
    keptByStation (faultStation c s) = keptByStation s := by
  unfold faultStation; dsimp only; split <;> rfl

end Sys2Proof.Machine
end

