-- ==== Sys2Proof/Laws/PerInstr.lean ====
section
/-!
SUPPORT. The per-command family `Frames`: a command that `frameOf` reads as a frame is the command a frame of that kind,
port and body carries, and one that it does not read as a frame is carried by none.
-/

namespace Sys2Proof.Laws.Frames

/-- What a frame command is read back as. -/
theorem frameOf_commandOf (k : Machine.Kind) (p : Port) (body : List Byte) (e : Nat) :
    frameOf (commandOf k p body e) = some (k, p, body) := by
  cases k <;> rfl

/-- The command and its frame belong to one another. -/
def Statement (i : Instr) : Prop :=
  match frameOf i with
  | some (k, p, body) => ∃ e, commandOf k p body e = i
  | none => ∀ k p body e, commandOf k p body e ≠ i

/-- A command that is no frame is carried by no frame. -/
theorem of_none {i : Instr} (h : frameOf i = none) : Statement i := by
  unfold Statement
  rw [h]
  intro k p body e hc
  have := frameOf_commandOf k p body e
  rw [hc, h] at this
  cases this

theorem resetNAssert : Statement .resetNAssert := of_none rfl
theorem deviceReset (r : Readings) : Statement (.deviceReset r) := of_none rfl
theorem statusPoll (p : Port) : Statement (.statusPoll p) := of_none rfl
theorem frameError (p : Port) (bytes : List Byte) : Statement (.frameError p bytes) := of_none rfl
theorem readReply (p : Port) (body : List Byte) : Statement (.readReply p body) := ⟨0, rfl⟩
theorem linkReset (p : Port) (body : List Byte) : Statement (.linkReset p body) := ⟨0, rfl⟩
theorem readEvents (p : Port) (body : List Byte) : Statement (.readEvents p body) := ⟨0, rfl⟩
theorem clearEvents (p : Port) (body : List Byte) : Statement (.clearEvents p body) := ⟨0, rfl⟩
theorem setEventEnable (p : Port) (body : List Byte) : Statement (.setEventEnable p body) := ⟨0, rfl⟩
theorem getParam (p : Port) (body : List Byte) : Statement (.getParam p body) := ⟨0, rfl⟩
theorem setParam (p : Port) (body : List Byte) : Statement (.setParam p body) := ⟨0, rfl⟩
theorem setDate (p : Port) (body : List Byte) : Statement (.setDate p body) := ⟨0, rfl⟩
theorem readChannel (p : Port) (body : List Byte) : Statement (.readChannel p body) := ⟨0, rfl⟩
theorem readBay (p : Port) (body : List Byte) : Statement (.readBay p body) := ⟨0, rfl⟩
theorem confirmCartridge (p : Port) (body : List Byte) : Statement (.confirmCartridge p body) := ⟨0, rfl⟩
theorem rejectCartridge (p : Port) (body : List Byte) : Statement (.rejectCartridge p body) := ⟨0, rfl⟩
theorem clearRefillFault (p : Port) (body : List Byte) : Statement (.clearRefillFault p body) := ⟨0, rfl⟩
theorem readWaste (p : Port) (body : List Byte) : Statement (.readWaste p body) := ⟨0, rfl⟩
theorem readTotals (p : Port) (body : List Byte) : Statement (.readTotals p body) := ⟨0, rfl⟩
theorem usage (p : Port) (body : List Byte) : Statement (.usage p body) := ⟨0, rfl⟩
theorem fence (p : Port) (body : List Byte) : Statement (.fence p body) := ⟨0, rfl⟩
theorem admitPage (p : Port) (body : List Byte) : Statement (.admitPage p body) := ⟨0, rfl⟩
theorem endPage (p : Port) (body : List Byte) : Statement (.endPage p body) := ⟨0, rfl⟩
theorem listPages (p : Port) (body : List Byte) : Statement (.listPages p body) := ⟨0, rfl⟩
theorem zoneRequest (p : Port) (body : List Byte) : Statement (.zoneRequest p body) := ⟨0, rfl⟩
theorem zoneRelease (p : Port) (body : List Byte) : Statement (.zoneRelease p body) := ⟨0, rfl⟩
theorem readStation (p : Port) (body : List Byte) : Statement (.readStation p body) := ⟨0, rfl⟩
theorem stationRetry (p : Port) (body : List Byte) : Statement (.stationRetry p body) := ⟨0, rfl⟩
theorem fetchOrder (p : Port) (body : List Byte) : Statement (.fetchOrder p body) := ⟨0, rfl⟩
theorem orderDone (p : Port) (body : List Byte) : Statement (.orderDone p body) := ⟨0, rfl⟩
theorem clean (p : Port) (body : List Byte) : Statement (.clean p body) := ⟨0, rfl⟩
theorem cancelClean (p : Port) (body : List Byte) : Statement (.cancelClean p body) := ⟨0, rfl⟩
theorem checkNozzles (p : Port) (body : List Byte) : Statement (.checkNozzles p body) := ⟨0, rfl⟩
theorem calibrateDetector (p : Port) (body : List Byte) : Statement (.calibrateDetector p body) := ⟨0, rfl⟩
theorem readHealth (p : Port) (body : List Byte) : Statement (.readHealth p body) := ⟨0, rfl⟩
theorem clearDegraded (p : Port) (body : List Byte) : Statement (.clearDegraded p body) := ⟨0, rfl⟩
theorem rest (p : Port) (body : List Byte) : Statement (.rest p body) := ⟨0, rfl⟩
theorem loadMedia (p : Port) (body : List Byte) : Statement (.loadMedia p body) := ⟨0, rfl⟩
theorem unloadMedia (p : Port) (body : List Byte) : Statement (.unloadMedia p body) := ⟨0, rfl⟩
theorem advance (p : Port) (body : List Byte) : Statement (.advance p body) := ⟨0, rfl⟩
theorem cut (p : Port) (body : List Byte) : Statement (.cut p body) := ⟨0, rfl⟩
theorem manualFeed (p : Port) (body : List Byte) : Statement (.manualFeed p body) := ⟨0, rfl⟩
theorem releaseHold (p : Port) (body : List Byte) : Statement (.releaseHold p body) := ⟨0, rfl⟩
theorem readFeed (p : Port) (body : List Byte) (encoder : Nat) : Statement (.readFeed p body encoder) := ⟨encoder, rfl⟩
theorem usageApply : Statement .usageApply := of_none rfl
theorem fenceRelease : Statement .fenceRelease := of_none rfl
theorem busTransactionStart : Statement .busTransactionStart := of_none rfl
theorem busAttemptUnacknowledged : Statement .busAttemptUnacknowledged := of_none rfl
theorem chipReadDone (record : Vector Byte 18) : Statement (.chipReadDone record) := of_none rfl
theorem chipReadFail : Statement .chipReadFail := of_none rfl
theorem wasteReadDone (record : Vector Byte 6) : Statement (.wasteReadDone record) := of_none rfl
theorem wasteReadFail : Statement .wasteReadFail := of_none rfl
theorem chipWriteDone : Statement .chipWriteDone := of_none rfl
theorem chipWriteFail : Statement .chipWriteFail := of_none rfl
theorem bayPresenceClose (b : Fin 12) : Statement (.bayPresenceClose b) := of_none rfl
theorem bayPresenceOpen (b : Fin 12) : Statement (.bayPresenceOpen b) := of_none rfl
theorem wastePresenceClose : Statement .wastePresenceClose := of_none rfl
theorem wastePresenceOpen : Statement .wastePresenceOpen := of_none rfl
theorem strokeComplete (c : Fin 6) (ink : Bool) : Statement (.strokeComplete c ink) := of_none rfl
theorem floatChange (c : Fin 6) (reading : FloatLevel) : Statement (.floatChange c reading) := of_none rfl
theorem waitInkEnd : Statement .waitInkEnd := of_none rfl
theorem sledMotionDone : Statement .sledMotionDone := of_none rfl
theorem wiperMotionDone : Statement .wiperMotionDone := of_none rfl
theorem sledMotionTimeout : Statement .sledMotionTimeout := of_none rfl
theorem wiperMotionTimeout : Statement .wiperMotionTimeout := of_none rfl
theorem endSensorChangeIdle (e : EndSensor) (reading : Bool) : Statement (.endSensorChangeIdle e reading) := of_none rfl
theorem pumpRevolution : Statement .pumpRevolution := of_none rfl
theorem pumpStall : Statement .pumpStall := of_none rfl
theorem homeSensorChange (reading : Bool) : Statement (.homeSensorChange reading) := of_none rfl
theorem parkTimerExpiry : Statement .parkTimerExpiry := of_none rfl
theorem idleCapExpiry : Statement .idleCapExpiry := of_none rfl
theorem grantHoldExpiry : Statement .grantHoldExpiry := of_none rfl
theorem orderTimerExpiry : Statement .orderTimerExpiry := of_none rfl
theorem waitingPlacementEntry : Statement .waitingPlacementEntry := of_none rfl
theorem fireSyncStrobe (edge : Edge) : Statement (.fireSyncStrobe edge) := of_none rfl
theorem detectorSample (interrupted : Bool) : Statement (.detectorSample interrupted) := of_none rfl
theorem exposureExpiry (h : Fin 3) : Statement (.exposureExpiry h) := of_none rfl
theorem arbiterServe : Statement .arbiterServe := of_none rfl
theorem loadMotionDone : Statement .loadMotionDone := of_none rfl
theorem unloadMotionDone (counts : Nat) : Statement (.unloadMotionDone counts) := of_none rfl
theorem advanceDone : Statement .advanceDone := of_none rfl
theorem cutAdvanceDone : Statement .cutAdvanceDone := of_none rfl
theorem manualFeedDone : Statement .manualFeedDone := of_none rfl
theorem feedMotionTimeout (counts : Nat) : Statement (.feedMotionTimeout counts) := of_none rfl
theorem leadingEdgeChange (media : Bool) (counts : Nat) : Statement (.leadingEdgeChange media counts) := of_none rfl
theorem pathEntryChange (media : Bool) (counts : Nat) : Statement (.pathEntryChange media counts) := of_none rfl
theorem sourceEndSensor (src : Source) : Statement (.sourceEndSensor src) := of_none rfl
theorem coverSensorOpen (counts : Nat) : Statement (.coverSensorOpen counts) := of_none rfl
theorem coverSensorClose : Statement .coverSensorClose := of_none rfl
theorem sourceEndSensorClear (src : Source) : Statement (.sourceEndSensorClear src) := of_none rfl
theorem replyShiftedOut (p : Port) : Statement (.replyShiftedOut p) := of_none rfl

end Sys2Proof.Laws.Frames
end

