-- ==== Sys2Proof/Laws/Requests.lean ====
section
/-!
SUPPORT. A request that the part takes reaches its owner, and the owner's immediate answer is all that changes.
-/

namespace Sys2Proof.Machine

/-- Every fixed body length fits a frame (R164, R182). -/
theorem Kind.bodyLength_le (k : Kind) : k.bodyLength ≤ Config.bodyMax := by
  cases k <;> decide

/-- A body that fits a frame is looked at (R165). -/
theorem fitting_ok {p : Port} {body : List Byte} {f : State → Run} {s : State} (h : body.length ≤ Config.bodyMax) :
    fitting p body f s = f s :=
  if_neg (Nat.not_lt.mpr h)

/-- A transaction in RUN whose body fits a frame takes its frame at once. -/
theorem transaction_fitting {p : Port} {body : List Byte} {q : State → Bool} {f : State → Run} {s : State} (h : Awake s)
    (hb : body.length ≤ Config.bodyMax) : transaction p q (fitting p body f) s = f (beginTransaction p s) := by
  rw [transaction_run h.1 h.2, fitting_ok hb]

/-- A request the part takes is handed to its owner (R166 step 7). -/
theorem request_takes {k : Kind} {p : Port} {body : List Byte} {s : State} (h : Takes s k p body) (f : State → Run) :
    request k p body f s = f (heldFor k p s) :=
  request_owner h.1.1 h.1.2 h.2.1 h.2.2.1 h.2.2.2 (h.2.2.2 ▸ Kind.bodyLength_le k)

/-- What a request the part takes settles to. -/
theorem settle_request {k : Kind} {p : Port} {body : List Byte} {s : State} (h : Takes s k p body) (f : State → Run) :
    settle (request k p body f s) = settle (f (heldFor k p s)) := by
  rw [request_takes h]

/-- An answer given at once leaves the transaction with that answer. -/
theorem answer_heldFor (k l : Kind) (p : Port) (r : Result) (b : List Byte) (s : State) :
    answer p k r b (heldFor l p s) = answered p k r b s :=
  answer_holdSlot (beginTransaction p s) p k l r b

/-- A command taken with RESET_N high. -/
theorem event_awake {f : State → Run} {s : State} (h : Awake s) : event f s = f s := by
  simp [event, h.1]

/-- A watched sensor's change in RUN. -/
theorem watched_awake {c : WakeCause} {d : State → Bool} {f : State → Run} {s : State} (h : Awake s) (hd : d s = true) :
    watched c d f s = f s := by
  simp [watched, event, waking, h.1, h.2, hd]

end Sys2Proof.Machine
end

