-- ==== Sys2Proof/Tests/Slice0.lean ====
section
/-!
SUPPORT. Tests: ill-formed commands the check refuses, frames written out byte by byte, single steps on small states, and
for every statement with hypotheses a theorem `test_met_<statement>` whose states meet the hypotheses of its clauses, at
the values where clauses meet. They are checked one after another: each waits for the whole model's definitions, and the
threads that would wait at once need more memory than the check allows.
-/

set_option Elab.async false

namespace Sys2Proof.Tests

open Sys2Proof Sys2Proof.Machine

/-! ### States and records the tests use -/

/-- The part after reset with its start-up actions begun. -/
def base : State := { State.reset with startup := false }

def st (x : StationState) : State := setStc { base.stc with state := x } base
def low : State := { base with resetLow := true }
def resting : State := { base with rsc := { base.rsc with power := .rest } }
def slot (x : Slot) (p : Port) (s : State) : State := setEngine s p { engine s p with slot := x }
def okReply (k : Kind) : Reply := ⟨k, .ok, []⟩
def chip (code capacity remaining expiry flag : Nat) : Vector Byte 18 :=
  Vector.ofFn fun i => (le 8 1 ++ le 1 code ++ le 2 capacity ++ le 4 remaining ++ le 2 expiry ++ le 1 flag).getD i.val 0
def wasteChip (capacity fill : Nat) : Vector Byte 6 := Vector.ofFn fun i => (le 2 capacity ++ le 4 fill).getD i.val 0
def busy (t : Trans) (s : State) : State := onBus (fun _ => ⟨[t], true, 0⟩) s
def inBay (b : Fin 12) (x : BayState) (s : State) : State := setBay s b { bay s b with state := x }
def zeros (n : Nat) : List Byte := List.replicate n 0
def ord (id : Nat) (b : OrderBody) (o : Origin) (x : OrderState) : Order := ⟨id, b, o, x⟩
def queue (os : List Order) (s : State) : State := setOrq { s.orq with queue := os } s
def wipe (id : Nat) : Order := ord id (.wipePass [0]) .cleaning .queued
def many (n : Nat) : List Order := (List.range n).map wipe
def motion (k : MotionKind) (target : Option Nat) (n : Nat) : Motion :=
  { kind := k, port := .job, dist := 1000, target := target, newResidue := 0, perMetre := 377953, counts := 0, timer := n
    replyHeld := false }
def moving (m : Motion) (s : State) : State := setFdc { s.fdc with motion := some m } s
def at_ (x : PathState) (src : Option Source) (s : State) : State := setPath { s.fdc.path with state := x, source := src } s
def loaded (x : SourceState) (n : Option Nat) (s : State) : State := setSource s .roll1 ⟨x, some ⟨0, 2000, n⟩, false⟩
def ready : State := at_ .ready (some .roll1) (loaded .inPath (some 5000000) base)
def page (tag : Nat) (x : PageState) : Page :=
  { tag := tag, source := .roll1, state := x, reserved := Vector.replicate 6 0, consumed := Vector.replicate 6 0
    mediaReserved := 1000, mediaConsumed := 0, overrun := false }
def pages (ps : List Page) (s : State) : State := { s with pau := { s.pau with pages := ps } }
def cycleHeads : List CycleHead := [⟨0, .light, false, OriginSet.empty, 10, 0, 0, 0, none⟩]
def sucking : State :=
  { st .servicing with
    stc := { (st .servicing).stc with
      sled := ⟨some .up, none, none⟩, selector := some 0, pump := ⟨true, 10, 9⟩, stall := some 1500, holder := some .cls }
    cls := { base.cls with stage := .sucking, heads := cycleHeads } }
def usageBody (dest : Nat) : List Byte := le 2 0 ++ le 2 0 ++ le 1 dest ++ zeros 75

theorem takesOf {s : State} {k : Kind} {p : Port} {body : List Byte}
    (h : s.resetLow = false ∧ s.rsc.power = .run ∧ (engine s p).slot = .empty ∧ k.permitted p = true ∧
      body.length = k.bodyLength) : Takes s k p body :=
  ⟨⟨h.1, h.2.1⟩, Or.inl h.2.2.1, h.2.2.2.1, h.2.2.2.2⟩

theorem awakeOf {s : State} (h : s.resetLow = false ∧ s.rsc.power = .run) : Awake s := h
theorem noneDueOf {s : State} (h : ∀ x, (exposure s x).due = false) : NoneDue s := h
theorem unclaimedOf {s : State} (h : s.stc.claims = [] ∧ s.stc.entry ≠ .waiting ∧ s.stc.cappingDue = false) :
    Unclaimed s := h
theorem freeOf {s : State} (h : (s.stc.state = .opened ∨ s.stc.state = .capped) ∧ anyTaken s = false ∧ s.stc.entry ≠ .ready) :
    FreeToServe s := h
theorem handBackWaitsOf {s : State}
    (h : s.stc.sled.motion ≠ none ∨ s.stc.wiper.motion ≠ none ∨
      (wiperIsRetracted s = false ∧ s.pins.wiperRetracted = false)) : HandBackWaits s :=
  h.elim (fun h => Or.inl (Or.inl h)) fun h => h.elim (fun h => Or.inl (Or.inr h)) fun h => Or.inr (Or.inl h)
theorem cycleOf {s : State} {x : Stage}
    (h : s.cls.stage = x ∧ s.cls.abort = none ∧ s.stc.state = .servicing ∧ s.stc.holder = some .cls ∧
      s.stc.handingBack = false) : CycleIn s x := h
theorem handsBackOf {s : State}
    (h : sledIsDown s = true ∧ wiperIsRetracted s = true ∧ s.stc.home = false ∧ ∀ x, (exposure s x).due = false) :
    HandsBackUnparked s := h

/-! ### Ill-formed commands -/

theorem test_illFormed_frameError : WellFormed (.frameError .job (requestFrame .readFeed [])) = false := by decide +kernel
theorem test_illFormed_poll : WellFormed (.frameError .job []) = false := by decide +kernel
theorem test_illFormed_longBody : WellFormed (.setDate .job (zeros 129)) = false := by decide +kernel
theorem test_illFormed_usageLength : WellFormed (.usage .raster (zeros 79)) = false := by decide +kernel
theorem test_illFormed_readFeed :
    WellFormed (.readFeed .job (zeros 129) 0) = false ∧ WellFormed (.readFeed .job [] 4294967296) = false := by
  decide +kernel
theorem test_illFormed_counts :
    WellFormed (.unloadMotionDone 4294967296) = false ∧ WellFormed (.feedMotionTimeout 4294967296) = false ∧
      WellFormed (.leadingEdgeChange true 4294967296) = false ∧ WellFormed (.pathEntryChange true 4294967296) = false ∧
      WellFormed (.coverSensorOpen 4294967296) = false := by
  decide +kernel
theorem test_wellFormed :
    WellFormed (.frameError .job [0x10]) = true ∧ WellFormed (.setDate .job (zeros 128)) = true ∧
      WellFormed (.usage .raster (zeros 80)) = true ∧ WellFormed (.usage .job (zeros 79)) = true ∧
      WellFormed (.readFeed .job [] 4294967295) = true ∧ WellFormed (.coverSensorOpen 4294967295) = true ∧
      WellFormed .usageApply = true := by
  decide +kernel

/-! ### Frames -/

/-- The CRC's check value: the generator 1021H from FFFFH over "123456789" gives 29B1H (R164). -/
theorem test_crc : crc16 [0x31, 0x32, 0x33, 0x34, 0x35, 0x36, 0x37, 0x38, 0x39] = 0x29B1#16 := by decide +kernel
theorem test_frame_bytes : requestFrame .readChannel [0x02] = [0x10, 0x01, 0x02] ++ crcBytes [0x10, 0x01, 0x02] := by
  decide +kernel
theorem test_frame_decodes :
    decodeFrame .job (requestFrame .readChannel [0x02]) 0 = some (.readChannel .job [0x02]) ∧
      decodeFrame .raster (requestFrame .advance [1, 0, 16, 39, 0, 0]) 0 = some (.advance .raster [1, 0, 16, 39, 0, 0]) ∧
      decodeFrame .panel (requestFrame .readFeed []) 7 = some (.readFeed .panel [] 7) := by
  decide +kernel
theorem test_frame_errors :
    takenAs .job [0x10] = .error .truncated ∧ takenAs .job [0x10, 129, 0] = .error .length ∧
      takenAs .job [0x10, 0x01, 0x02] = .error .truncated ∧ takenAs .job [0x10, 0x01, 0x02, 0, 0] = .error .crc ∧
      takenAs .job ([0x7F, 0x00] ++ crcBytes [0x7F, 0x00]) = .error .kind ∧
      takenAs .raster (requestFrame .usage []) = .error .length ∧ takenAs .job [] = .poll := by
  decide +kernel
theorem test_frame_written_out :
    takenAs .job [0x32, 0x00, 0xF8, 0x7E] = .frame .readStation [] ∧
      takenAs .job [0x10, 0x01, 0x02, 0x8C, 0x9C] = .frame .readChannel [0x02] ∧
      takenAs .job [0x48, 0x00, 0x6A, 0x99] = .frame .rest [] := by
  decide +kernel
theorem test_noTableWord : decodeTableWord 8 0 = none := rfl

/-! ### Single steps -/

/-- The field of the next state that `f` picks. -/
def after {α : Type} (f : State → α) (o : Host.Outcome State Fault Refusal) : Option α :=
  match o with
  | .next t => some (f t)
  | _ => none

theorem test_step_front :
    step { base with pending := [.setDate .job [5, 0]] } = exec (.setDate .job [5, 0]) base := rfl
theorem test_startup_homes :
    after (fun t => (t.startup, t.stc.state, t.stc.wiper.motion)) (step State.reset)
      = some (false, .homing, some (.retracted, 0)) := by
  decide +kernel
theorem test_tick : after State.timeBase (step { base with timeBase := 4294967295 }) = some 0 := by decide +kernel
theorem test_rest_counts :
    after (fun t => (t.rsc.power, t.rsc.restCount)) (exec (.rest .job []) (st .capped)) = some (.rest, 1) := by
  decide +kernel
theorem test_date : after State.date (exec (.setDate .job [0x34, 0x12]) base) = some 0x1234 := by decide +kernel
theorem test_chip_goes_active :
    after (fun t => ((bay t 2).state, (chan t 1).active, (chan t 1).supply))
        (exec (.chipReadDone (chip 1 700 700000 600 0)) (inBay 2 .reading (busy ⟨.bay 2, .read, true, 0⟩ base)))
      = some (.active, some .a, .supplied) := by
  decide +kernel
theorem test_waste_near_full :
    after (fun t => t.uau.waste.state)
        (exec (.wasteReadDone (wasteChip 500 450000))
          { busy ⟨.waste, .read, false, 0⟩ base with uau := { base.uau with waste := ⟨.reading, none, false⟩ } })
      = some .nearFull := by
  decide +kernel
theorem test_zone_granted : after (fun t => t.stc.state) (exec (.zoneRequest .raster []) (st .opened)) = some .granted := by
  decide +kernel
theorem test_order_taken :
    after (fun t => (anyTaken t, t.orq.queue.length)) (exec (.fetchOrder .raster []) (queue (many 2) base))
      = some (true, 2) := by
  decide +kernel
theorem test_pump_stall_faults :
    after (fun t => (t.stc.state, t.stc.lastFault, (book t 0).suction)) (exec .pumpStall sucking)
      = some (.fault, some .pump, 360000) := by
  decide +kernel
theorem test_advance_target :
    after (fun t => t.fdc.motion.map Motion.target) (exec (.advance .raster (le 2 0 ++ le 4 10000)) ready)
      = some (some (some 3779)) := by
  decide +kernel
theorem test_usage_example :
    ((1000000 * 40 + 400000 * 90 + 50000 * 180) * tempFactor 12 32 36) / 10000000 = 8908 := by decide +kernel
theorem test_cover_holds :
    after (fun t => (t.fdc.path.state, t.fdc.path.hold)) (exec (.coverSensorOpen 0) ready) = some (.held, some .cover) := by
  decide +kernel
theorem test_event_routed :
    after (fun t => (attentionLine t .job, attentionLine t .raster)) (exec (.bayPresenceClose 3) base)
      = some (true, false) := by
  decide +kernel

/-! ### The hypotheses of the statements are met: queue, links, events, parameters, rest -/

theorem test_met_EmptyQueueMillisecond :
    (base.pending = [] ∧ base.startup = false ∧ Awake base) ∧
      (low.pending = [] ∧ low.startup = false ∧ low.resetLow = true) ∧
      (resting.pending = [] ∧ resting.startup = false ∧ resting.resetLow = false ∧ resting.rsc.power = .rest) :=
  ⟨⟨rfl, rfl, awakeOf (by decide +kernel)⟩, by decide +kernel, by decide +kernel⟩

theorem test_met_DeviceResetValues : Readings.quiet.wiperRetracted = false := rfl

/-- A frame-error counter at its ceiling. -/
def errorsFull : State := setEngine base .panel { engine base .panel with errorCount := 65535 }

theorem test_met_PollAndFrameError :
    base.resetLow = false ∧ (Awake base ∧ takenAs .job [0x10] = .error .truncated) ∧
      (Awake errorsFull ∧ takenAs .panel [0x10, 129, 0] = .error .length ∧ (engine errorsFull .panel).errorCount = 65535) :=
  ⟨rfl, ⟨awakeOf (by decide +kernel), by decide +kernel⟩, awakeOf (by decide +kernel), by decide +kernel⟩

theorem test_met_ReplyCollected :
    (Awake base ∧ (zeros 128).length ≤ 128 ∧ (engine base .job).slot = .empty ∧ (engine base .job).collecting = false) ∧
      (engine (slot (.ready (okReply .fence)) .raster base) .raster).slot = .ready (okReply .fence) ∧
      (engine (slot (.collected (okReply .fence)) .raster base) .raster).slot = .collected (okReply .fence) ∧
      (engine (slot (.held .fence) .raster base) .raster).slot = .held .fence ∧
      (let s := setEngine base .job { engine base .job with slot := .ready (okReply .cut), collecting := true }
       Awake s ∧ (engine s .job).collecting = true ∧ (engine s .job).slot = .ready (okReply .cut)) :=
  ⟨⟨awakeOf (by decide +kernel), by decide +kernel, by decide +kernel, by decide +kernel⟩, by decide +kernel,
    by decide +kernel, by decide +kernel, awakeOf (by decide +kernel), by decide +kernel, by decide +kernel⟩

/-- READ_REPLY with two body bytes: status, six bytes of filler, then the reply frame, then filler (R162). -/
theorem test_replyBehindRequest :
    let s := slot (.ready (okReply .fence)) .raster base
    after (fun t => (List.range 13).map (dataByte t .raster)) (exec (.readReply .raster [1, 2]) s)
      = some ((statusByte s .raster :: (List.replicate 6 0xFF ++ (okReply .fence).frame ++ [0xFF])).map some) := by
  decide +kernel

theorem test_met_LinkResetClearsPort :
    (Awake base ∧ (zeros 128).length ≤ 128 ∧ Port.job ≠ Port.raster ∧ base.stc.state ≠ .granted ∧
        base.stc.entry ≠ .ready ∧ anyTaken base = false ∧ anyTaken (queue (many 1) base) = false) ∧
      (let s := st .granted
       Awake s ∧ s.cls.abort = none ∧ s.stc.state = .granted ∧ s.stc.home = false ∧ NoneDue s) ∧
      (let s := setStc { (st .granted).stc with home := true } (st .granted)
       Awake s ∧ s.cls.abort = none ∧ s.stc.claims = [] ∧ s.stc.cappingDue = false ∧ s.stc.state = .granted ∧
         s.stc.home = true ∧ NoneDue s) ∧
      (let s := setStc { (st .opened).stc with entry := .ready, hold := some 5 } (st .opened)
       Awake s ∧ s.cls.abort = none ∧ s.stc.claims = [] ∧ s.stc.cappingDue = false ∧ s.stc.state ≠ .granted ∧
         s.stc.entry = .ready) ∧
      (let s := queue [ord 3 .cutPass .feed (.taken 5 10000), wipe 4] base
       Awake s ∧ s.cls.abort = none ∧ s.stc.claims = [] ∧ s.stc.cappingDue = false ∧ s.stc.state ≠ .granted ∧
         s.stc.entry ≠ .ready ∧ anyTaken s = true) :=
  ⟨⟨awakeOf (by decide +kernel), by decide +kernel⟩,
    ⟨awakeOf ⟨rfl, rfl⟩, rfl, rfl, rfl, noneDueOf (show ∀ h, (exposure base h).due = false by decide +kernel)⟩,
    ⟨awakeOf ⟨rfl, rfl⟩, rfl, rfl, rfl, rfl, rfl, noneDueOf (show ∀ h, (exposure base h).due = false by decide +kernel)⟩,
    ⟨awakeOf ⟨rfl, rfl⟩, by decide +kernel⟩, awakeOf ⟨rfl, rfl⟩, by decide +kernel⟩

theorem test_met_RefusedByThePort :
    (frameOf (.cut .job []) = some (.cut, .job, []) ∧ Awake (slot (.held .rest) .job base) ∧
        SlotTaken (slot (.held .rest) .job base) .job) ∧
      (frameOf (.setDate .panel [0, 0]) = some (.setDate, .panel, [0, 0]) ∧ SlotFree base .panel ∧
        Kind.setDate.permitted .panel = false) ∧
      (frameOf (.usage .job (zeros 128)) = some (.usage, .job, zeros 128) ∧ (zeros 128).length ≤ 128 ∧
        SlotFree base .job ∧ Kind.usage.permitted .job = false) ∧
      (frameOf (.setDate .job [0]) = some (.setDate, .job, [0]) ∧ SlotFree base .job ∧
        Kind.setDate.permitted .job = true ∧ [(0 : Byte)].length ≠ Kind.setDate.bodyLength) :=
  ⟨⟨rfl, awakeOf (by decide +kernel), Or.inl ⟨.rest, by decide +kernel⟩⟩, ⟨rfl, Or.inl (by decide +kernel), rfl⟩,
    ⟨rfl, by decide +kernel, Or.inl (by decide +kernel), rfl⟩, rfl, Or.inl (by decide +kernel), rfl, by decide +kernel⟩

theorem test_met_FrameRoundTrip :
    (frameOf (.setDate .job (zeros 128)) = some (.setDate, .job, zeros 128) ∧ frameOk .setDate .job (zeros 128) = true) ∧
      (frameOf (.usage .raster (zeros 80)) = some (.usage, .raster, zeros 80) ∧ frameOk .usage .raster (zeros 80) = true) := by
  decide +kernel

theorem test_met_EventsRead :
    (Takes base .readEvents .panel [4] ∧ group? (field [4] 0 1) = none) ∧
      (Takes base .readEvents .panel [3] ∧ group? (field [3] 0 1) = some .link) :=
  ⟨⟨takesOf (by decide +kernel), by decide +kernel⟩, takesOf (by decide +kernel), by decide +kernel⟩

theorem test_met_EventsClearedAndEnabled :
    (Takes base .clearEvents .job [0xFF, 0xFF, 0xFF, 0xFF, 0x0F, 1, 0, 0] ∧
        field [0xFF, 0xFF, 0xFF, 0xFF, 0x0F, 1, 0, 0] 0 5 = 2 ^ 36 - 1 ∧
        field [0xFF, 0xFF, 0xFF, 0xFF, 0x0F, 1, 0, 0] 5 1 = 1) ∧
      (Takes base .clearEvents .job [0, 0, 0, 0, 0x10, 0, 0, 0] ∧ field [0, 0, 0, 0, 0x10, 0, 0, 0] 0 5 = 2 ^ 36) ∧
      (Takes base .clearEvents .job [1, 0, 0, 0, 0, 2, 0, 0] ∧ 1 < field [1, 0, 0, 0, 0, 2, 0, 0] 5 1) ∧
      (Takes base .setEventEnable .job [0xFF, 0xFF, 0xFF, 0xFF, 0x0F] ∧ field [0xFF, 0xFF, 0xFF, 0xFF, 0x0F] 0 5 < 2 ^ 36) ∧
      (Takes base .setEventEnable .job [0, 0, 0, 0, 0x10] ∧ field [0, 0, 0, 0, 0x10] 0 5 = 2 ^ 36) :=
  ⟨⟨takesOf (by decide +kernel), by decide +kernel, by decide +kernel⟩, ⟨takesOf (by decide +kernel), by decide +kernel⟩,
    ⟨takesOf (by decide +kernel), by decide +kernel⟩, ⟨takesOf (by decide +kernel), by decide +kernel⟩,
    takesOf (by decide +kernel), by decide +kernel⟩

/-- SET_PARAM bodies for the head-scoped exposure limit, the reserve mark and the refill mark. -/
def limitBody (v : Int) : List Byte := [0x0F, 2] ++ leSigned 8 v

theorem test_met_ParametersAndDate :
    (Takes base .getParam .panel [0x0F, 2] ∧ paramNamed? [0x0F, 2] = some (.exposureLimit, 2)) ∧
      (Takes base .getParam .panel [0x0F, 3] ∧ paramNamed? [0x0F, 3] = none) ∧
      (Takes base .getParam .panel [0x26, 0] ∧ paramNamed? [0x26, 0] = none) ∧
      (Takes base .setParam .job (limitBody 60000) ∧ paramNamed? (limitBody 60000) = some (.exposureLimit, 2) ∧
        fieldSigned (limitBody 60000) 2 8 = 60000 ∧ base.cls.stage ≠ .waitInk) ∧
      (Takes base .setParam .job (limitBody (-1)) ∧ fieldSigned (limitBody (-1)) 2 8 = -1) ∧
      (Takes base .setParam .job ([0x07, 0] ++ leSigned 8 8000001) ∧
        paramNamed? ([0x07, 0] ++ leSigned 8 8000001) = some (.reserveMark, 0)) ∧
      (Takes base .setParam .job ([0x05, 0] ++ leSigned 8 5000000) ∧
        paramNamed? ([0x05, 0] ++ leSigned 8 5000000) = some (.refillMark, 0)) ∧
      Takes base .setDate .job [0xFF, 0xFF] :=
  ⟨⟨takesOf (by decide +kernel), by decide +kernel⟩, ⟨takesOf (by decide +kernel), by decide +kernel⟩,
    ⟨takesOf (by decide +kernel), by decide +kernel⟩, ⟨takesOf (by decide +kernel), by decide +kernel⟩,
    ⟨takesOf (by decide +kernel), by decide +kernel⟩, ⟨takesOf (by decide +kernel), by decide +kernel⟩,
    ⟨takesOf (by decide +kernel), by decide +kernel⟩, takesOf (by decide +kernel)⟩

/-- The Job Port's slot holds the OK reply to REST. -/
def restReply : State := slot (.ready ⟨.rest, .ok, []⟩) .job resting

theorem test_met_RestAndWaking :
    (Takes (raise .woke 0 none base) .rest .job [] ∧ attentionLine (raise .woke 0 none base) .job = true) ∧
      (Takes base .rest .job [] ∧ (∀ q ∈ allPorts, attentionLine base q = false) ∧ base.stc.entry = .none ∧
        base.liu.posted = [] ∧ base.liu.fence = none ∧ base.stc.state ≠ .capped) ∧
      (let s : State := { base with liu := { base.liu with fence := some 8 } }
       Takes s .rest .job [] ∧ s.liu.posted = [] ∧ s.liu.fence ≠ none) ∧
      (Takes (st .capped) .rest .job [] ∧ (st .capped).stc.state = .capped ∧ (st .capped).liu.fence = none ∧
        (∀ c, (chan (st .capped) c).refill ≠ .refilling) ∧ (st .capped).stc.pump.running = false ∧
        (st .capped).stc.sled.motion = none ∧ (st .capped).stc.wiper.motion = none ∧ (st .capped).fdc.motion = none ∧
        (∀ q ∈ allPorts, (st .capped).fdc.waiting.get q = none) ∧ (st .capped).spu.bus.queue = [] ∧
        (st .capped).orq.queue = [] ∧ (st .capped).orq.waiting = [] ∧ (∀ h, (entryOf (st .capped) h).level = none) ∧
        (st .capped).cls.stage = .none ∧ (st .capped).dtu.task = none ∧ (st .capped).dtu.machine = .idle ∧
        (st .capped).pau.pages = []) ∧
      (resting.resetLow = false ∧ resting.rsc.power = .rest ∧ SlotFree resting .panel ∧
        resting.pins.home = resting.stc.home ∧
        ∀ c, refillDue { resting with rsc := { resting.rsc with power := .run } } c = false) ∧
      (restReply.resetLow = false ∧ restReply.rsc.power = .rest ∧
        (engine restReply .job).slot = .ready ⟨.rest, .ok, []⟩) :=
  ⟨⟨takesOf (by decide +kernel), by decide +kernel⟩, ⟨takesOf (by decide +kernel), by decide +kernel⟩,
    ⟨takesOf (by decide +kernel), by decide +kernel⟩, ⟨takesOf (by decide +kernel), by decide +kernel⟩,
    ⟨by decide +kernel, by decide +kernel, Or.inl (by decide +kernel), by decide +kernel, by decide +kernel⟩,
    by decide +kernel⟩

/-- The part rests with the station CAPPED, a bay full, the waste cartridge in and the cover open on a HELD path. -/
def watching (closed cover : Bool) (x : PathState) : State :=
  let s := inBay 3 .standby (setPath { base.fdc.path with state := x, coverOpen := cover, rollEnd1 := true, rollEnd2 := true } base)
  { s with
    rsc := resting.rsc, stc := { s.stc with state := .capped }
    pins := { s.pins with presence := vset s.pins.presence 3 closed, wastePresence := closed }
    uau := { s.uau with waste := ⟨if closed then .reading else .absent, none, false⟩ } }

theorem test_met_RestAndWaking_sensors :
    (∀ closed cover : Bool, ∀ x ∈ [PathState.empty, .held],
      let s := watching closed cover x
      s.resetLow = false ∧ s.rsc.power = .rest ∧ s.stc.state = .capped ∧ s.cls.stage = .none ∧ s.cls.hold = none ∧
        s.pins.presence.get 3 = closed ∧ s.pins.presence.get 2 = false ∧ (bay s 2).state = .empty ∧
        (bay s 3).state ≠ .active ∧ s.pins.wastePresence = closed ∧ ((s.uau.waste.state = .absent) = (closed = false)) ∧
        s.fdc.path.coverOpen = cover ∧ s.fdc.path.state = x ∧ s.fdc.path.rollEnd1 = true ∧ s.fdc.path.rollEnd2 = true ∧
        s.fdc.path.sheetPresent = false ∧ s.fdc.path.pathEntry ≠ true ∧ s.fdc.path.leadingEdge = false ∧
        s.fdc.motion = none ∧ (chan s 5).float ≠ .high) ∧
      after (fun t => (t.rsc.power, t.rsc.wake, (chan t 5).float)) (exec (.floatChange 5 .high) (watching true false .held))
        = some (.run, some ⟨.float 5, 0, 0⟩, .high) ∧
      after (fun t => (t.rsc.power, t.pins.home, t.stc.home)) (exec (.homeSensorChange true) (watching true false .held))
        = some (.rest, true, false) := by
  decide +kernel

/-! ### The hypotheses of the statements are met: supply, the bus and waste -/

theorem test_met_ChannelRead :
    (Takes base .readChannel .raster [5] ∧ field [5] 0 1 = (5 : Fin 6).val) ∧
      (Takes base .readChannel .raster [6] ∧ 5 < field [6] 0 1) :=
  ⟨⟨takesOf (by decide +kernel), by decide +kernel⟩, takesOf (by decide +kernel), by decide +kernel⟩

theorem test_met_BayRead :
    (Takes base .readBay .panel [11] ∧ field [11] 0 1 = (11 : Fin 12).val) ∧
      (Takes base .readBay .panel [12] ∧ 11 < field [12] 0 1) :=
  ⟨⟨takesOf (by decide +kernel), by decide +kernel⟩, takesOf (by decide +kernel), by decide +kernel⟩

theorem test_met_WasteRead : Takes base .readWaste .job [] := takesOf (by decide +kernel)

theorem test_met_RecordsRead :
    Takes base .readTotals .job [5] ∧ Takes base .readTotals .job [6] ∧ Takes base .readHealth .raster [5] ∧
      Takes base .readHealth .raster [6] ∧ Takes base .listPages .panel [3] ∧ Takes base .listPages .panel [4] ∧
      Takes base .readStation .job [] ∧ Takes base .readFeed .job [] ∧
      field [5] 0 1 = (5 : Fin 6).val ∧ 5 < field [6] 0 1 ∧ field [3] 0 1 ≤ 3 ∧ 3 < field [4] 0 1 :=
  ⟨takesOf (by decide +kernel), takesOf (by decide +kernel), takesOf (by decide +kernel), takesOf (by decide +kernel),
    takesOf (by decide +kernel), takesOf (by decide +kernel), takesOf (by decide +kernel), takesOf (by decide +kernel),
    by decide +kernel⟩

/-- Bay 11 waits for confirmation beside an active bay. -/
def confirming : State :=
  setChan (inBay 11 .awaitConfirm (inBay 10 .active base)) 5 { chan base 5 with active := some .a }

/-- Bay 11 waits for confirmation on a channel with no active bay, read in a scan or after an insertion. -/
def firstConfirmed (scan : Bool) : State :=
  let s := inBay 11 .awaitConfirm base
  setBay s 11 { bay s 11 with scanRead := scan }

theorem test_met_CartridgeConfirmedOrRejected :
    (Takes base .confirmCartridge .panel [12] ∧ 11 < field [12] 0 1) ∧
      (Takes base .confirmCartridge .panel [11] ∧ field [11] 0 1 = (11 : Fin 12).val ∧ (bay base 11).state ≠ .awaitConfirm) ∧
      (Takes confirming .confirmCartridge .panel [11] ∧ (bay confirming 11).state = .awaitConfirm ∧
        (chan confirming (channelOf 11)).active ≠ none) ∧
      (∀ scan, Takes (firstConfirmed scan) .confirmCartridge .panel [11] ∧
        (bay (firstConfirmed scan) 11).state = .awaitConfirm ∧ (chan (firstConfirmed scan) (channelOf 11)).active = none ∧
        (firstConfirmed scan).cls.stage ≠ .waitInk ∧ (bay (firstConfirmed scan) 11).scanRead = scan ∧
        (firstConfirmed scan).stc.state ≠ .opened ∧ (firstConfirmed scan).stc.state ≠ .capped) ∧
      (Takes base .rejectCartridge .panel [12] ∧ Takes base .rejectCartridge .panel [11] ∧
        Takes confirming .rejectCartridge .panel [11]) :=
  ⟨⟨takesOf (by decide +kernel), by decide +kernel⟩, ⟨takesOf (by decide +kernel), by decide +kernel⟩,
    ⟨takesOf (by decide +kernel), by decide +kernel⟩,
    fun scan => by cases scan <;> exact ⟨takesOf (by decide +kernel), by decide +kernel⟩,
    takesOf (by decide +kernel), takesOf (by decide +kernel), takesOf (by decide +kernel)⟩

/-- Channel 5's refill has faulted. -/
def refillFaulted : State := setChan base 5 { chan base 5 with refill := .fault }

theorem test_met_RefillFaultCleared :
    (Takes base .clearRefillFault .panel [6] ∧ 5 < field [6] 0 1 ∧ base.cls.stage ≠ .waitInk) ∧
      (Takes base .clearRefillFault .panel [5] ∧ field [5] 0 1 = (5 : Fin 6).val ∧ (chan base 5).refill ≠ .fault) ∧
      (Takes refillFaulted .clearRefillFault .panel [5] ∧ refillFaulted.cls.stage ≠ .waitInk ∧
        (chan refillFaulted 5).refill = .fault) :=
  ⟨⟨takesOf (by decide +kernel), by decide +kernel⟩, ⟨takesOf (by decide +kernel), by decide +kernel⟩,
    takesOf (by decide +kernel), by decide +kernel⟩

/-- A transaction stands in the queue, not executing. -/
def queued (t : Trans) : State := onBus (fun _ => ⟨[t], false, 0⟩) base

theorem test_met_BusTransactionsAndWrites :
    (Awake base ∧ base.spu.bus.queue = [] ∧ base.spu.bus.executing = false) ∧
      (Awake (queued ⟨.bay 0, .write, false, 0⟩) ∧ (queued ⟨.bay 0, .write, false, 0⟩).spu.bus.executing = false) ∧
      (Awake (queued ⟨.waste, .write, false, 0⟩) ∧
        (queued ⟨.waste, .write, false, 0⟩).spu.bus.queue = [⟨.waste, .write, false, 0⟩]) ∧
      (Awake (busy ⟨.bay 0, .write, false, 4⟩ base) ∧ (busy ⟨.bay 0, .write, false, 4⟩ base).spu.bus.executing = true) ∧
      (Awake (busy ⟨.bay 0, .write, false, 3⟩ base) ∧
        (busy ⟨.bay 0, .write, false, 3⟩ base).spu.bus.queue = [⟨.bay 0, .write, false, 3⟩]) ∧
      (Awake (busy ⟨.waste, .write, false, 3⟩ base) ∧
        (busy ⟨.waste, .write, false, 3⟩ base).spu.bus.queue = [⟨.waste, .write, false, 3⟩]) ∧
      (∀ t ∈ [(⟨.bay 11, .read, true, 0⟩ : Trans), ⟨.bay 11, .write, false, 3⟩, ⟨.waste, .read, false, 0⟩],
        (busy t base).spu.bus.executing = true ∧ (busy t base).spu.bus.queue = [t]) ∧
      (let x : Bus := ⟨[⟨.waste, .write, false, 0⟩], false, 0⟩
       (∃ t ∈ x.queue, t.chip = .waste ∧ t.kind = .write) ∧ (∀ t ∈ x.queue, t.chip = .bay 0 → t.kind ≠ .write) ∧
         x.queue.length < 16) ∧
      (∀ t ∈ (⟨[⟨.waste, .write, false, 0⟩], true, 0⟩ : Bus).queue.tail, t.chip = .waste → t.kind ≠ .write) ∧
      16 ≤ (⟨List.replicate 16 ⟨.bay 3, .read, false, 0⟩, false, 0⟩ : Bus).queue.length ∧
      (⟨List.replicate 15 ⟨.bay 3, .read, false, 0⟩, false, 0⟩ : Bus).queue.length < 16 :=
  ⟨⟨awakeOf (by decide +kernel), by decide +kernel⟩, ⟨awakeOf (by decide +kernel), by decide +kernel⟩,
    ⟨awakeOf (by decide +kernel), by decide +kernel⟩, ⟨awakeOf (by decide +kernel), by decide +kernel⟩,
    ⟨awakeOf (by decide +kernel), by decide +kernel⟩, ⟨awakeOf (by decide +kernel), by decide +kernel⟩, by decide +kernel⟩

/-- A queue of `n` transactions and one more, the write of bay 4 before `newer` of the reads. -/
def fullBus (older newer : Nat) (executing : Bool) : Bus :=
  let read (n : Nat) : List Trans := List.replicate n ⟨.bay 3, .read, false, 0⟩
  ⟨read older ++ ⟨.bay 4, .write, false, 0⟩ :: read newer, executing, 0⟩

theorem test_met_BusTransactionsAndWrites_fullQueue :
    (fullBus 7 7 false).queue.length < 16 ∧
      (∀ x ∈ [(0, 15, false), (15, 0, true), (1, 14, true)],
        let b := fullBus x.1 x.2.1 x.2.2
        16 ≤ b.queue.length ∧
          b.queue = List.replicate x.1 ⟨.bay 3, .read, false, 0⟩
            ++ (⟨.bay 4, .write, false, 0⟩ : Trans) :: List.replicate x.2.1 ⟨.bay 3, .read, false, 0⟩ ∧
          (∀ t ∈ List.replicate x.2.1 (⟨.bay 3, .read, false, 0⟩ : Trans), t.kind = .read) ∧
          (b.executing = true → List.replicate x.1 (⟨.bay 3, .read, false, 0⟩ : Trans) ≠ [])) := by
  decide +kernel

/-- Bay 2 is being read, with `n` attempts left unacknowledged. -/
def reading (scan : Bool) (n : Nat) : State := inBay 2 .reading (busy ⟨.bay 2, .read, scan, n⟩ base)

theorem test_met_ChipReadJudged :
    (∀ scan : Bool, ∀ n : Fin 5, (reading scan n).resetLow = false ∧ (reading scan n).rsc.power = .run ∧
        (reading scan n).spu.bus.executing = true ∧ (reading scan n).spu.bus.queue = [⟨.bay 2, .read, scan, n⟩] ∧
        (bay (reading scan n) 2).state = .reading ∧ (reading scan n).cls.stage ≠ .waitInk ∧
        (chan (reading scan n) 1).active = none ∧ (reading scan n).stc.state ≠ .opened ∧
        (reading scan n).stc.state ≠ .capped ∧ (reading scan n).date = 0) ∧
      (chipFields (chip 1 0 5 600 0)).capacity = 0 ∧ (chipFields (chip 1 1001 5 600 0)).capacity = 1001 ∧
      (chipFields (chip 1 1000 5 600 0)).capacity = 1000 ∧ (chipFields (chip 1 1 5 600 0)).capacity = 1 ∧
      (chipFields (chip 0 700 5 600 0)).code ≠ (channelOf 2).val ∧ (chipFields (chip 1 700 0 600 0)).remaining = 0 ∧
      (chipFields (chip 1 700 5 600 1)).refilled = true ∧ (chipFields (chip 1 700 5 600 0)).refilled = false ∧
      (chipFields (chip 1 700 5 600 0)).expiry < { reading false 3 with date := 601 }.date ∧
      ¬ (chipFields (chip 1 700 5 600 0)).expiry < { reading false 3 with date := 600 }.date ∧
      (chan (setChan (reading false 3) 1 { chan base 1 with active := some .b }) 1).active ≠ none := by
  decide +kernel

/-- The waste cartridge is being read. -/
def readingWaste (n : Nat) : State :=
  { busy ⟨.waste, .read, false, n⟩ base with uau := { base.uau with waste := ⟨.reading, none, false⟩ } }
def wasteAbsent : State := base
def wasteIn : State :=
  { base with
    pins := { base.pins with wastePresence := true }
    uau := { base.uau with waste := ⟨.fitted, some ⟨500, 10, 10000, 0⟩, false⟩ } }

theorem test_met_WasteCartridgeRead :
    (∀ n : Fin 5, (readingWaste n).resetLow = false ∧ (readingWaste n).rsc.power = .run ∧
        (readingWaste n).spu.bus.executing = true ∧ (readingWaste n).spu.bus.queue = [⟨.waste, .read, false, n⟩] ∧
        (readingWaste n).uau.waste.state = .reading ∧ (readingWaste n).cls.hold = none) ∧
      field (wasteChip 0 5).toList 0 2 = 0 ∧
      field (wasteChip 500 449999).toList 2 4 * 1000 < field (wasteChip 500 449999).toList 0 2 * 900000 ∧
      field (wasteChip 500 450000).toList 2 4 * 1000 = field (wasteChip 500 450000).toList 0 2 * 900000 ∧
      field (wasteChip 500 489999).toList 2 4 * 1000 < field (wasteChip 500 489999).toList 0 2 * 980000 ∧
      field (wasteChip 500 490000).toList 2 4 * 1000 = field (wasteChip 500 490000).toList 0 2 * 980000 ∧
      (wasteAbsent.resetLow = false ∧ wasteAbsent.cls.stage ≠ .sucking ∧ wasteAbsent.pins.wastePresence = false ∧
        wasteAbsent.uau.waste.state = .absent) ∧
      (wasteIn.resetLow = false ∧ wasteIn.rsc.power = .run ∧ wasteIn.cls.stage ≠ .sucking ∧ wasteIn.cls.hold = none ∧
        wasteIn.pins.wastePresence = true ∧ wasteIn.uau.waste.state ≠ .absent) := by
  decide +kernel

/-- A cycle in SUCKING with the waste cartridge in, its pump running or not; the carriage in park with the wiper RETRACTED
if `parked`. -/
def suckingWaste (running parked : Bool) : State :=
  { sucking with
    pins := { sucking.pins with wastePresence := true }, uau := wasteIn.uau
    stc := { sucking.stc with
      pump := ⟨running, 10, 9⟩, home := parked, wiper := ⟨if parked then some .retracted else none, none, none⟩ } }

theorem test_met_WasteCartridgeRead_sucking :
    (∀ r b, Awake (suckingWaste r b) ∧ CycleIn (suckingWaste r b) .sucking) ∧
      (∀ r, HandBackWaits (suckingWaste r false) ∧ Unclaimed (suckingWaste r true)) ∧
      (∀ r b : Bool,
        let s := suckingWaste r b
        s.pins.wastePresence = true ∧ s.uau.waste.state ≠ .absent ∧ s.dtu.clsCheck = none ∧ s.orq.queue = [] ∧
          s.stc.pump.running = r ∧ s.stc.selector = some 0) ∧
      (∀ r : Bool,
        let s := suckingWaste r true
        s.stc.sled.motion = none ∧ s.stc.wiper.motion = none ∧ wiperIsRetracted s = true ∧ sledIsUp s = true ∧
          s.stc.home = true ∧ s.orq.waiting = []) ∧
      after (fun t => (t.stc.state, t.cls.hold, t.uau.orphan)) (exec .wastePresenceOpen (suckingWaste true true))
        = some (.capped, some .wasteAbsent, 720000) :=
  ⟨fun _ _ => ⟨awakeOf ⟨rfl, rfl⟩, cycleOf ⟨rfl, rfl, rfl, rfl, rfl⟩⟩,
    fun _ => ⟨handBackWaitsOf (Or.inr (Or.inr ⟨rfl, rfl⟩)), unclaimedOf ⟨rfl, nofun, rfl⟩⟩, by decide +kernel⟩

/-- Bay 4 stands in state `x` with its switch closed, active if `x` says so, bay 5 in state `y`. -/
def fittedBays (x y : BayState) : State :=
  let s : State := { base with pins := { base.pins with presence := vset base.pins.presence 4 true } }
  setChan (inBay 5 y (inBay 4 x s)) 2 { chan base 2 with active := if x = .active then some .a else none }

theorem test_met_BayPresence :
    (base.resetLow = false ∧ base.rsc.power = .run ∧ base.pins.presence.get 4 = false ∧ (bay base 4).state = .empty) ∧
      ((fittedBays .standby .empty).pins.presence.get 4 = true ∧ (bay (fittedBays .standby .empty) 4).state ≠ .active) ∧
      ((fittedBays .active .standby).pins.presence.get 4 = true ∧ (bay (fittedBays .active .standby) 4).state = .active ∧
        (bay (fittedBays .active .standby) (bayOf (channelOf 4) (sideOf 4).other)).state = .standby ∧
        (fittedBays .active .standby).cls.stage ≠ .waitInk) ∧
      ((bay (fittedBays .active .out) 4).state = .active ∧
        (bay (fittedBays .active .out) (bayOf (channelOf 4) (sideOf 4).other)).state ≠ .standby) := by
  decide +kernel

/-- A stroke is in flight on channel 2, bay 4 with `n` dry strokes. -/
def stroke (x : Stroke) (n : Nat) (y : BayState) : State :=
  let s := fittedBays .active y
  setChan (setBay s 4 { bay s 4 with dry := n, ink := some ⟨700, 200000⟩ }) 2
    { chan s 2 with stroke := x, refill := .refilling, estimate := 29900000 }

theorem test_met_StrokeAccounted :
    ∀ x ∈ [Stroke.none, .lost, .a], ∀ n ∈ [0, 1], ∀ y ∈ [BayState.standby, .out],
      (stroke x n y).resetLow = false ∧ (stroke x n y).rsc.power = .run ∧ (stroke x n y).cls.stage ≠ .waitInk ∧
        (chan (stroke x n y) 2).stroke = x ∧ (bay (stroke x n y) 4).dry = n ∧ (bay (stroke x n y) 5).state = y ∧
        (bay (stroke x n y) 4).estimate = (stroke x n y).params.strokeVolume.get 2 ∧
        30000000 < (chan (stroke x n y) 2).estimate + (stroke x n y).params.strokeVolume.get 2 := by
  decide +kernel

/-- The active bay's removal with its stroke in flight meets the clause of the LOST stroke, and a stroke of the other side
does not. -/
theorem test_met_BayPresence_strokeLost :
    ∀ y ∈ [BayState.standby, .out],
      (stroke .a 0 y).pins.presence.get 4 = true ∧ (bay (stroke .a 0 y) 4).state = .active ∧
        (stroke .a 0 y).cls.stage ≠ .waitInk ∧ (chan (stroke .a 0 y) (channelOf 4)).stroke = strokeFrom (some (sideOf 4)) ∧
        (chan (stroke .a 0 y) (channelOf 4)).refill = .refilling ∧
        (chan (stroke .b 0 y) (channelOf 4)).stroke ≠ strokeFrom (some (sideOf 4)) := by
  decide +kernel

/-- A stroke of channel 2 that is the last the maximum allows, or one short of it, with `drawn` nL drawn since the write. -/
def lastStroke (n drawn : Nat) : State :=
  let s := stroke .a 0 .standby
  setChan (setBay s 4 { bay s 4 with chip := some ⟨Vector.replicate 8 0, 2, drawn, 600, false⟩ }) 2
    { chan s 2 with strokes := n }

theorem test_met_StrokeAccounted_ends :
    (chan (lastStroke 159 0) 2).float ≠ .high ∧ (chan (lastStroke 159 0) 2).active ≠ none ∧
      (lastStroke 159 0).params.maxStrokes = min ((chan (lastStroke 159 0) 2).strokes + 1) 255 ∧
      min ((chan (lastStroke 158 0) 2).strokes + 1) 255 < (lastStroke 158 0).params.maxStrokes ∧
      (bay (lastStroke 0 800000) 4).chip = some ⟨Vector.replicate 8 0, 2, 800000, 600, false⟩ ∧
      800000 + min ((lastStroke 0 800000).params.strokeVolume.get 2) (bay (lastStroke 0 800000) 4).estimate = 1000000 := by
  decide +kernel

theorem test_met_FloatCorrects :
    base.resetLow = false ∧ base.rsc.power = .run ∧ base.cls.stage ≠ .waitInk ∧ (chan base 0).float = .low ∧
      (chan base 0).float ≠ .high ∧ (chan base 0).float ≠ .mid ∧
      (chan (setChan base 0 { chan base 0 with float := .mid, estimate := 8000001 }) 0).float ≠ .low := by
  decide +kernel

/-! ### The hypotheses of the statements are met: usage and pages -/

/-- `n` frames wait in the posted queue. -/
def posted (n : Nat) (dest : Nat) : State :=
  { base with liu := { base.liu with posted := List.replicate n (usageBody dest), placed := n } }
def fenced (n applied : Nat) : State :=
  { posted n 0 with liu := { (posted n 0).liu with fence := some 8 }, uau := { base.uau with applied := applied } }

theorem test_met_UsagePostedAndFence :
    (Awake (posted 7 0) ∧ (usageBody 0).length = 80 ∧ (posted 7 0).liu.posted.length = 7) ∧
      (Awake (posted 8 0) ∧ 8 ≤ (posted 8 0).liu.posted.length) ∧
      (Takes base .fence .raster [] ∧ base.liu.posted = [] ∧ base.uau.applied = base.liu.placed) ∧
      (Takes (posted 1 0) .fence .raster [] ∧ (posted 1 0).liu.posted ≠ [] ∧
        (posted 1 0).uau.applied = 0 ∧ (posted 1 0).liu.placed = 1) ∧
      (∀ n ∈ [8, 9, 2 ^ 31 + 7], (n + 2 ^ 32 - 8) % 2 ^ 32 < 2 ^ 31) ∧
      (∀ n ∈ [7, 2 ^ 31 + 8, 0], ¬ (n + 2 ^ 32 - 8) % 2 ^ 32 < 2 ^ 31) ∧
      (Awake (fenced 3 8) ∧ (fenced 3 8).liu.fence = some 8 ∧ (fenced 3 8).liu.posted ≠ [] ∧ (fenced 3 8).uau.applied = 8) ∧
      (Awake (fenced 0 7) ∧ (fenced 0 7).liu.fence = some 8 ∧ (fenced 0 7).liu.posted = []) ∧
      (Awake (fenced 1 7) ∧ (fenced 1 7).liu.fence = some 8 ∧ (fenced 1 7).liu.posted ≠ [] ∧
        (fenced 1 7).uau.applied ≠ 8) ∧
      (Awake base ∧ base.liu.fence = none) :=
  ⟨⟨awakeOf (by decide +kernel), by decide +kernel⟩, ⟨awakeOf (by decide +kernel), by decide +kernel⟩,
    ⟨takesOf (by decide +kernel), by decide +kernel⟩, ⟨takesOf (by decide +kernel), by decide +kernel⟩,
    by decide +kernel, by decide +kernel,
    ⟨awakeOf (by decide +kernel), by decide +kernel⟩, ⟨awakeOf (by decide +kernel), by decide +kernel⟩,
    ⟨awakeOf (by decide +kernel), by decide +kernel⟩, awakeOf (by decide +kernel), by decide +kernel⟩

theorem test_booksBalance (n dest : Nat) : BooksBalance (posted n dest) := by
  show ∀ c, (book base c).total = (book base c).media + (book base c).waste ∧
    (book base c).total = (book base c).usage + (book base c).suction ∧
    (book base c).residue < Config.residueUnit ∧ (book base c).overdraw ≤ Config.u32Max
  decide +kernel

theorem test_met_UsageApplied :
    (Awake (posted 1 2) ∧ (posted 1 2).liu.posted = [usageBody 2] ∧ usageDestination (usageBody 2) = none) ∧
      (Awake (posted 1 0) ∧ (posted 1 0).liu.posted = [usageBody 0] ∧ usageDestination (usageBody 0) = some .media ∧
        BooksBalance (posted 1 0) ∧ (posted 1 0).cls.stage ≠ .waitInk ∧ (posted 1 0).stc.state ≠ .opened ∧
        (posted 1 0).stc.state ≠ .capped) ∧
      (usageDestination (usageBody 1) = some .waste ∧ BooksBalance (posted 1 1)) :=
  ⟨⟨awakeOf (by decide +kernel), by decide +kernel⟩,
    ⟨awakeOf (by decide +kernel), by decide +kernel, by decide +kernel, test_booksBalance 1 0, by decide +kernel⟩,
    by decide +kernel, test_booksBalance 1 1⟩

/-- A report of tag 1 and swath 7 with `n` drops of every size on every channel. -/
def firingBody (dest n : Nat) : List Byte :=
  le 2 1 ++ le 2 7 ++ le 1 dest ++ zeros 3 ++ (List.replicate 18 (le 4 n)).flatten

theorem test_met_UsageApplied_firing :
    usageDestination (firingBody 0 1) = some .media ∧ usageDestination (firingBody 1 1) = some .waste ∧
      usageTag (firingBody 0 1) = 1 ∧ usageSwath (firingBody 0 1) = 7 ∧ (page 1 .admitted).tag = 1 ∧
      (page 1 .admitted).tag ≠ 0 ∧ (page 2 .admitted).tag ≠ 1 ∧
      (∃ c, min (usageCount (firingBody 0 1) c 0) 268435455 ≠ 0) ∧
      (∀ c, min (usageCount (firingBody 0 0) c 0) 268435455 = 0) ∧ 268435455 < usageCount (firingBody 0 268435456) 5 2 ∧
      ¬ 268435455 < usageCount (firingBody 0 268435455) 5 2 ∧ base.uau.waste.fittedData = none ∧
      (∀ n ∈ [449999999, 450000000, 489999999, 490000000],
        (⟨.fitted, some ⟨500, 0, n, 999999⟩, false⟩ : Waste).fittedData = some ⟨500, 0, n, 999999⟩) := by
  decide +kernel

/-- An ADMIT_PAGE body: tag, source, length, the same ink of every channel. -/
def admitBody (tag src length ink : Nat) : List Byte :=
  le 2 tag ++ le 1 src ++ le 4 length ++ (List.replicate 6 (le 4 ink)).flatten
/-- A state that admits, with `n` µm on ROLL_1, waste in state `w` and the pages `ps`. -/
def admitting (x : SourceState) (n : Nat) (w : WasteState) (ps : List Page) : State :=
  let s := loaded x (some n) (pages ps base)
  { s with uau := { s.uau with waste := ⟨w, some ⟨500, 0, 0, 0⟩, false⟩ } }
def four : List Page := [page 1 .printing, page 2 .admitted, page 3 .admitted, page 4 .admitted]

theorem test_met_PageAdmitted :
    (Takes (admitting .loaded 9000 .fitted four) .admitPage .job (admitBody 5 0 1000 0) ∧
        4 ≤ (admitting .loaded 9000 .fitted four).pau.pages.length) ∧
      Takes (admitting .loaded 9000 .fitted []) .admitPage .job (admitBody 0 0 1000 0) ∧
      ((admitFields (admitBody 5 3 1000 0)).source = none ∧ (admitFields (admitBody 0 0 1000 0)).tag = 0 ∧
        (admitFields (admitBody 5 0 0 0)).length = 0 ∧ 200000000 < (admitFields (admitBody 5 0 200000001 0)).length ∧
        ¬ 200000000 < (admitFields (admitBody 5 0 200000000 0)).length ∧
        100000 < (admitFields (admitBody 5 0 1000 100001)).ink.get 5 ∧
        ¬ 100000 < (admitFields (admitBody 5 0 1000 100000)).ink.get 5 ∧
        (admitFields (admitBody 5 0 1000 100000)).source = some .roll1) ∧
      (∃ e ∈ (admitting .loaded 9000 .fitted [page 5 .printing]).pau.pages, e.tag = (admitFields (admitBody 5 0 1000 0)).tag) ∧
      (∀ x ∈ [SourceState.empty, .endOfRoll, .out, .loaded, .inPath],
        (sourceRec (admitting x 9000 .fitted []) .roll1).state = x) ∧
      (∀ w ∈ [WasteState.full, .absent, .fault, .reading, .fitted, .nearFull],
        (admitting .loaded 9000 w []).uau.waste.state = w) ∧
      (remainingOf (admitting .loaded 999 .fitted []) .roll1 = some 999 ∧
        999 < 1000 + outstandingMediaOf (admitting .loaded 999 .fitted []) .roll1) ∧
      (remainingOf (admitting .loaded 1000 .fitted []) .roll1 = some 1000 ∧
        ¬ 1000 < 1000 + outstandingMediaOf (admitting .loaded 1000 .fitted []) .roll1) ∧
      (availableInk (admitting .loaded 1000 .fitted []) 0 < 1000 + outstandingInk (admitting .loaded 1000 .fitted []) 0) ∧
      (admitFields (admitBody 5 0 1000 0)).ink.get 0 * 1000 = 0 :=
  ⟨⟨takesOf (by decide +kernel), by decide +kernel⟩, takesOf (by decide +kernel), by decide +kernel⟩

/-- Channel 0 holds `n` nL above the reserve mark; one page has 1,000 nL of it outstanding; its flag as given. -/
def committed (n : Nat) (flag : Bool) : State :=
  let s := setChan base 0 { chan base 0 with estimate := base.params.reserveMark + n }
  let e : Page := { page 1 .admitted with reserved := Vector.replicate 6 1000 }
  { s with pau := { s.pau with pages := [e], overSet := Vector.replicate 6 flag } }

theorem test_met_PageAdmitted_overcommitted :
    (∀ flag : Bool, availableInk (committed 999 flag) 0 = 999 ∧ outstandingInk (committed 999 flag) 0 = 1000 ∧
        availableInk (committed 1000 flag) 0 = 1000 ∧ outstandingInk (committed 1000 flag) 0 = 1000 ∧
        (committed 999 flag).pau.overSet.get 0 = flag ∧ (committed 1000 flag).pau.overSet.get 0 = flag) ∧
      (checkOver 0 (committed 999 false)).pau.overSet.get 0 = true ∧
      (checkOver 0 (committed 1000 true)).pau.overSet.get 0 = false := by
  decide +kernel

theorem test_met_PageEnded :
    (Takes (pages four base) .endPage .job [0, 0, 0] ∧ field [0, 0, 0] 0 2 = 0) ∧
      (Takes (pages four base) .endPage .job [2, 0, 2] ∧ 1 < field [2, 0, 2] 2 1) ∧
      (Takes (pages four base) .endPage .job [5, 0, 1] ∧ (∀ e ∈ (pages four base).pau.pages, e.tag ≠ 5) ∧
        field [5, 0, 1] 0 2 = 5 ∧ field [5, 0, 1] 2 1 ≤ 1) ∧
      (Takes (pages four base) .endPage .job [2, 0, 0] ∧ field [2, 0, 0] 0 2 = 2 ∧ field [2, 0, 0] 2 1 = 0 ∧
        (pages four base).pau.pages = [page 1 .printing] ++ page 2 .admitted :: [page 3 .admitted, page 4 .admitted] ∧
        (page 2 .admitted).tag = 2 ∧ ∀ x ∈ [page 1 .printing], x.tag ≠ 2) :=
  ⟨⟨takesOf (by decide +kernel), by decide +kernel⟩, ⟨takesOf (by decide +kernel), by decide +kernel⟩,
    ⟨takesOf (by decide +kernel), by decide +kernel⟩, takesOf (by decide +kernel), by decide +kernel⟩

/-! ### The hypotheses of the statements are met: the station -/

theorem test_noneDue (x : StationState) : NoneDue (st x) :=
  noneDueOf (show ∀ h, (exposure base h).due = false by decide +kernel)
theorem test_unclaimed (x : StationState) : Unclaimed (st x) :=
  unclaimedOf (show base.stc.claims = [] ∧ base.stc.entry ≠ .waiting ∧ base.stc.cappingDue = false by decide +kernel)
theorem test_takes_station (x : StationState) : Takes (st x) .zoneRequest .raster [] ∧ Takes (st x) .zoneRelease .raster [] ∧
    Takes (st x) .stationRetry .panel [] :=
  ⟨takesOf (show base.resetLow = false ∧ base.rsc.power = .run ∧ (engine base .raster).slot = .empty ∧ _ ∧ _ by decide +kernel),
    takesOf (show base.resetLow = false ∧ base.rsc.power = .run ∧ (engine base .raster).slot = .empty ∧ _ ∧ _ by decide +kernel),
    takesOf (show base.resetLow = false ∧ base.rsc.power = .run ∧ (engine base .panel).slot = .empty ∧ _ ∧ _ by decide +kernel)⟩

def home (s : State) : State := setStc { s.stc with home := true } s

theorem test_met_ZoneRequestedAndReleased :
    (∀ x, Takes (st x) .zoneRequest .raster [] ∧ Takes (st x) .zoneRelease .raster [] ∧ (st x).stc.state = x ∧
        NoneDue (st x) ∧ Unclaimed (st x) ∧ (st x).stc.home = false ∧ (st x).stc.pump.running = false ∧
        (st x).stc.sled.motion = none ∧ (st x).pins.sledDown = false) ∧
      (Takes (home (st .granted)) .zoneRelease .raster [] ∧ (home (st .granted)).stc.home = true ∧
        NoneDue (home (st .granted)) ∧ Unclaimed (home (st .granted))) :=
  ⟨fun x => ⟨(test_takes_station x).1, (test_takes_station x).2.1, rfl, test_noneDue x, test_unclaimed x, rfl, rfl, rfl, rfl⟩,
    (test_takes_station .granted).2.1, rfl, test_noneDue .granted, test_unclaimed .granted⟩

def retracted (s : State) : State := { s with pins := { s.pins with wiperRetracted := true } }

theorem test_met_StationRetried :
    (Takes (st .capped) .stationRetry .panel [] ∧ (st .capped).stc.state ≠ .fault) ∧
      (Takes (st .fault) .stationRetry .panel [] ∧ (st .fault).stc.state = .fault ∧ (st .fault).stc.sled.motion = none ∧
        (st .fault).stc.wiper.motion = none ∧ (st .fault).pins.wiperRetracted = false) ∧
      (Takes (retracted (st .fault)) .stationRetry .panel [] ∧ (retracted (st .fault)).stc.state = .fault ∧
        (retracted (st .fault)).pins.wiperRetracted = true ∧ (retracted (st .fault)).pins.sledDown = false) :=
  ⟨⟨(test_takes_station _).2.2, by decide +kernel⟩, ⟨(test_takes_station _).2.2, by decide +kernel⟩,
    (test_takes_station .fault).2.2, by decide +kernel⟩

/-- The sled moves to `e`, the wiper retracted, in station state `x`, the motion timer at `n`. -/
def sledMoves (x : StationState) (e : SledEnd) (n : Nat) : State :=
  setStc { (st x).stc with sled := ⟨none, some (e, n), none⟩, wiper := ⟨some .retracted, none, none⟩ } (st x)
def wiperMoves (x : StationState) (n : Nat) : State :=
  setStc { (st x).stc with wiper := ⟨none, some (.retracted, n), none⟩ } (st x)

theorem test_met_StationMotionsEnd :
    (Awake base ∧ base.stc.sled.motion = none ∧ base.stc.wiper.motion = none) ∧
      (∀ x e, Awake (sledMoves x e 5) ∧ (sledMoves x e 5).stc.state = x ∧
        (sledMoves x e 5).stc.sled.motion = some (e, 5) ∧ (sledMoves x e 5).stc.sled.queued = none ∧
        Unclaimed (sledMoves x e 5) ∧ NoneDue (sledMoves x e 5) ∧ (sledMoves x e 5).orq.waiting = [] ∧
        wiperIsRetracted (sledMoves x e 5) = true ∧ (sledMoves x e 5).stc.home = false ∧
        (sledMoves x e 5).stc.pump.running = false) ∧
      (Awake (home (sledMoves .homing .down 5)) ∧ (home (sledMoves .homing .down 5)).stc.home = true ∧
        (home (sledMoves .homing .down 5)).stc.sled.motion = some (.down, 5)) ∧
      (Awake (wiperMoves .homing 5) ∧ (wiperMoves .homing 5).stc.wiper.motion = some (.retracted, 5) ∧
        (wiperMoves .homing 5).stc.wiper.queued = none ∧ (wiperMoves .homing 5).stc.state = .homing ∧
        (wiperMoves .homing 5).stc.pump.running = false ∧ (wiperMoves .homing 5).stc.sled.motion = none ∧
        (wiperMoves .homing 5).pins.sledDown = false) :=
  ⟨⟨awakeOf (by decide +kernel), by decide +kernel⟩,
    fun x _ => ⟨awakeOf ⟨rfl, rfl⟩, rfl, rfl, rfl, test_unclaimed x, test_noneDue x, rfl, rfl, rfl, rfl⟩,
    ⟨awakeOf ⟨rfl, rfl⟩, rfl, rfl⟩, awakeOf ⟨rfl, rfl⟩, by decide +kernel⟩

theorem test_pumpLawful : PumpLawful sucking := fun _ => by decide +kernel

theorem test_met_StationFaults :
    (∀ n ∈ [1499, 1500], (sledMoves .homing .down n).stc.sled.motion = some (.down, n) ∧
        (wiperMoves .homing n).stc.wiper.motion = some (.retracted, n) ∧ (sledMoves .homing .down n).stc.holder = none ∧
        (wiperMoves .homing n).stc.holder = none) ∧
      (Awake (sledMoves .homing .down 1500) ∧ NoneDue (sledMoves .homing .down 1500)) ∧
      (Awake (wiperMoves .homing 1500) ∧ NoneDue (wiperMoves .homing 1500)) ∧
      (Awake sucking ∧ sucking.stc.pump.running = true ∧ sucking.stc.stall = some 1500 ∧ PumpLawful sucking ∧
        sucking.stc.selector = some 0) ∧
      (setStc { sucking.stc with stall := some 1499 } sucking).stc.stall = some 1499 :=
  ⟨by decide +kernel, ⟨awakeOf ⟨rfl, rfl⟩, test_noneDue .homing⟩, ⟨awakeOf ⟨rfl, rfl⟩, test_noneDue .homing⟩,
    ⟨awakeOf ⟨rfl, rfl⟩, rfl, rfl, test_pumpLawful, rfl⟩, rfl⟩

/-- The sled or the wiper has moved for `n` ms in a session of `c`. -/
def inSession (c : Claimant) (sled : Bool) (n : Nat) : State :=
  let s := st .servicing
  let x : Stc :=
    if sled then { s.stc with sled := ⟨none, some (.down, n), none⟩, holder := some c }
    else { s.stc with wiper := ⟨none, some (.raised, n), none⟩, holder := some c }
  { s with
    stc := x
    cls := if c = .cls then { s.cls with stage := .wiping, heads := cycleHeads } else s.cls
    dtu := if c = .dtu then { s.dtu with task := some ⟨.sweep, [0], .job, .running, [0], 0, none, [], none⟩ } else s.dtu }

theorem test_met_StationFaults_inSession :
    (inSession .cls true 1500).stc.sled.motion = some (.down, 1500) ∧
      (inSession .cls false 1500).stc.wiper.motion = some (.raised, 1500) ∧
      (∀ b, Awake (inSession .cls b 1500) ∧ (inSession .cls b 1500).stc.holder = some .cls ∧
        (inSession .cls b 1500).cls.stage.running = true ∧ (inSession .cls b 1500).stc.pump.running = false) ∧
      (inSession .dtu true 1500).stc.sled.motion = some (.down, 1500) ∧
      (inSession .dtu false 1500).stc.wiper.motion = some (.raised, 1500) ∧
      (∀ b, Awake (inSession .dtu b 1500) ∧ (inSession .dtu b 1500).stc.holder = some .dtu ∧
        (inSession .dtu b 1500).dtu.task = some ⟨.sweep, [0], .job, .running, [0], 0, none, [], none⟩) :=
  ⟨rfl, rfl, fun b => by cases b <;> exact ⟨awakeOf ⟨rfl, rfl⟩, rfl, rfl, rfl⟩, rfl, rfl,
    fun b => by cases b <;> exact ⟨awakeOf ⟨rfl, rfl⟩, rfl, rfl⟩⟩

/-- A cycle in WAIT_INK with one head to suck and the sled UP; its channels hold 20 mL and `planned` nL is planned. -/
def waitingInk (planned : Nat) : State :=
  let full : Channel := { chan base 0 with estimate := 20000000, supply := .drySupply }
  { setChan (setChan sucking 0 full) 1 full with
    stc := { sucking.stc with pump := ⟨false, 0, 0⟩, selector := none, stall := none }
    cls := { base.cls with
      stage := .waitInk, heads := [⟨0, .light, false, OriginSet.empty, 10, 0, planned, 0, none⟩] } }
/-- The first channel refills and is short of what is planned. -/
def refilling : State :=
  setChan (waitingInk 1000) 0 { chan base 0 with active := some .a, refill := .refilling, supply := .supplied }

theorem test_met_SuctionBeginsAndEnds :
    (Awake base ∧ base.cls.stage ≠ .waitInk ∧ base.stc.pump.running = false) ∧
      (Awake refilling ∧ refilling.cls.stage = .waitInk ∧ inkWaits refilling = true) ∧
      (Awake (waitingInk 0) ∧ (waitingInk 0).cls.stage = .waitInk ∧ (waitingInk 0).cls.abort = none ∧
        inkWaits (waitingInk 0) = false ∧ (∀ y ∈ (waitingInk 0).cls.heads, dropsHead (waitingInk 0) y = false) ∧
        (waitingInk 0).cls.heads.filter CycleHead.sucked = [⟨0, .light, false, OriginSet.empty, 10, 0, 0, 0, none⟩] ∧
        (waitingInk 0).stc.state = .servicing ∧ (waitingInk 0).stc.holder = some .cls ∧
        (waitingInk 0).stc.handingBack = false ∧ (waitingInk 0).stc.sled.motion = none ∧
        (waitingInk 0).stc.pump.running = false ∧ (waitingInk 0).pins.sledUp = false) ∧
      (let s : State := { waitingInk 0 with pins := { base.pins with sledUp := true } }
       Awake s ∧ s.cls.stage = .waitInk ∧ inkWaits s = false ∧ (∀ y ∈ s.cls.heads, dropsHead s y = false) ∧
         s.stc.state = .servicing ∧ s.stc.sled.motion = none ∧ s.stc.pump.running = false ∧ s.pins.sledUp = true) ∧
      (Awake sucking ∧ sucking.stc.pump.running = true ∧ sucking.stc.pump.revs + 1 = sucking.stc.pump.target ∧
        PumpLawful sucking ∧ sucking.cls.abort = none ∧ sucking.cls.suckLeft = [] ∧ sucking.pins.sledDown = false) ∧
      (setStc { sucking.stc with pump := ⟨true, 11, 9⟩ } sucking).stc.pump.revs + 1 < 11 :=
  ⟨⟨awakeOf ⟨rfl, rfl⟩, by decide +kernel⟩, ⟨awakeOf ⟨rfl, rfl⟩, by decide +kernel⟩,
    ⟨awakeOf ⟨rfl, rfl⟩, by decide +kernel⟩, ⟨awakeOf ⟨rfl, rfl⟩, by decide +kernel⟩,
    ⟨awakeOf ⟨rfl, rfl⟩, rfl, rfl, test_pumpLawful, rfl, rfl, rfl⟩, by decide +kernel⟩

/-- A cycle of head 0 in stage `x` of its session, its sled and wiper as given, `n` orders queued. -/
def cycling (x : Stage) (sled : Moved SledEnd) (wiper : Moved WiperEnd) (n : Nat) : State :=
  let s := queue (many n) (st .servicing)
  { s with
    stc := { s.stc with sled := sled, wiper := wiper, holder := some .cls }
    cls := { s.cls with stage := x, heads := cycleHeads, suckLeft := [0], spitLeft := [0] } }

theorem test_met_SuctionBeginsAndEnds_motions :
    (let s := cycling .sucking ⟨none, some (.up, 5), none⟩ ⟨some .retracted, none, none⟩ 0
     Awake s ∧ CycleIn s .sucking ∧ s.stc.sled.motion = some (.up, 5) ∧ s.stc.sled.queued = none ∧
       s.stc.pump.running = false ∧ s.cls.suckLeft = [0]) ∧
      (let s := cycling .wiping ⟨none, some (.down, 5), none⟩ ⟨some .retracted, none, none⟩ 0
       Awake s ∧ CycleIn s .wiping ∧ s.stc.sled.motion = some (.down, 5) ∧ s.stc.sled.queued = none ∧
         s.stc.wiper.motion = none ∧ s.pins.wiperRaised = false) ∧
      ∀ n ∈ [0, 15],
        (let s := cycling .wiping ⟨some .down, none, none⟩ ⟨none, some (.raised, 5), none⟩ n
         Awake s ∧ CycleIn s .wiping ∧ s.stc.wiper.motion = some (.raised, 5) ∧ s.stc.wiper.queued = none ∧
           s.orq.waiting = [] ∧ s.orq.queue.length < 16) ∧
          (let s := cycling .wiping ⟨some .down, none, none⟩ ⟨none, some (.retracted, 5), none⟩ n
           Awake s ∧ CycleIn s .wiping ∧ s.stc.wiper.motion = some (.retracted, 5) ∧ s.stc.wiper.queued = none ∧
             s.orq.waiting = [] ∧ s.orq.queue.length < 16 ∧ sledIsDown s = true ∧ s.cls.spitLeft = [0]) :=
  ⟨⟨awakeOf ⟨rfl, rfl⟩, cycleOf ⟨rfl, rfl, rfl, rfl, rfl⟩, by decide +kernel⟩,
    ⟨awakeOf ⟨rfl, rfl⟩, cycleOf ⟨rfl, rfl, rfl, rfl, rfl⟩, by decide +kernel⟩,
    fun n h =>
      have l : n < 16 := by
        rcases List.mem_cons.1 h with rfl | h
        · decide
        · rcases List.mem_singleton.1 h with rfl
          decide
      have k : (many n).length < 16 := by rw [show (many n).length = n by simp [many]]; exact l
      ⟨⟨awakeOf ⟨rfl, rfl⟩, cycleOf ⟨rfl, rfl, rfl, rfl, rfl⟩, rfl, rfl, rfl, k⟩,
        awakeOf ⟨rfl, rfl⟩, cycleOf ⟨rfl, rfl, rfl, rfl, rfl⟩, rfl, rfl, rfl, k, rfl, rfl⟩⟩

/-- A timer of the station at `n`. -/
def parked (n : Nat) : State := setStc { (st .unparked).stc with park := some n } (st .unparked)
def idling (n : Nat) : State := setStc { (st .opened).stc with idle := some n } (st .opened)
def holding (n : Nat) : State := setStc { (st .opened).stc with entry := .ready, hold := some n } (st .opened)

theorem test_met_HomeSensorAndTimers :
    (Awake (st .unparked) ∧ (st .unparked).stc.home = false ∧ Unclaimed (st .unparked) ∧ NoneDue (st .unparked)) ∧
      (Awake (home (st .opened)) ∧ (home (st .opened)).stc.home = true ∧ NoneDue (home (st .opened))) ∧
      ((st .capped).stc.state ≠ .unparked ∧ (st .capped).stc.state ≠ .opened) ∧
      (∀ n ∈ [4999, 5000], (parked n).stc.park = some n ∧ (parked n).stc.state = .unparked ∧
        (parked n).params.parkTimeout = 5000) ∧
      (∀ n ∈ [9999, 10000], (idling n).stc.idle = some n ∧ (idling n).stc.state = .opened ∧
        (idling n).params.idleCapTime = 10000 ∧ anyTaken (idling n) = false ∧ (idling n).stc.entry ≠ .ready ∧
        (idling n).stc.pump.running = false ∧ (idling n).stc.sled.motion = none ∧ (idling n).pins.sledUp = false) ∧
      (∀ n ∈ [1999, 2000], (holding n).stc.hold = some n ∧ (holding n).stc.entry = .ready ∧
        (holding n).params.grantHoldTime = 2000) ∧
      (Unclaimed (holding 2000) ∧ (setStc { (holding 5).stc with idle := some 10000 } (holding 5)).stc.entry = .ready) :=
  ⟨⟨awakeOf ⟨rfl, rfl⟩, rfl, test_unclaimed _, test_noneDue _⟩, ⟨awakeOf ⟨rfl, rfl⟩, rfl, test_noneDue .opened⟩,
    by decide +kernel, by decide +kernel, by decide +kernel, by decide +kernel,
    unclaimedOf (by decide +kernel), by decide +kernel⟩

/-- Head 2's timer stands at `n`. -/
def exposed (x : StationState) (n : Nat) (s : State) : State :=
  setExposure (setStc { s.stc with state := x } s) 2 ⟨n, false, false⟩

theorem test_met_ExposureExpires :
    (∀ x ∈ [StationState.granted, .opened, .unparked, .fault, .uncapping, .capping, .homing],
        (exposed x 8000 base).resetLow = false ∧ sledIsUp (exposed x 8000 base) = false ∧
        (exposed x 8000 base).stc.state = x ∧ (exposure (exposed x 8000 base) 2).due = false ∧
        (exposed x 8000 base).params.exposureLimit.get 2 ≤ (exposure (exposed x 8000 base) 2).count) ∧
      ¬ (exposed .granted 7999 base).params.exposureLimit.get 2 ≤ (exposure (exposed .granted 7999 base) 2).count ∧
      16 ≤ (exposed .granted 8000 (queue (many 16) base)).orq.queue.length ∧
      ((exposed .granted 8000 (queue (many 15) base)).orq.queue.length < 16 ∧
        ∀ o ∈ (exposed .granted 8000 (queue (many 15) base)).orq.queue, o.spitsFor 2 = false) ∧
      (∃ o ∈ (exposed .granted 8000 (queue [ord 0 (.spit 2 24) .exposure .queued] base)).orq.queue, o.spitsFor 2 = true) ∧
      anyTaken (exposed .opened 8000 (queue [ord 0 .cutPass .feed (.taken 0 10000)] base)) = true ∧
      (anyTaken (exposed .opened 8000 base) = false ∧ (exposed .opened 8000 base).stc.entry ≠ .ready ∧
        (exposed .opened 8000 base).stc.pump.running = false ∧ (exposed .opened 8000 base).stc.sled.motion = none ∧
        (exposed .opened 8000 base).pins.sledUp = false) := by
  decide +kernel

/-! ### The hypotheses of the statements are met: orders -/

def check : OrderBody := .checkFire 0 5 6 700

theorem test_met_OrderFetched :
    (Takes base .fetchOrder .raster [] ∧ base.orq.queue = []) ∧
      (let s := queue [ord 3 .cutPass .feed (.taken 5 10000)] base
       Takes s .fetchOrder .raster [] ∧ (ord 3 .cutPass .feed (.taken 5 10000)).isTaken = true) ∧
      (∀ b ∈ [OrderBody.cutPass, .wipePass [0], check], (ord 3 b .feed .queued).state = .queued) ∧
      Takes (queue [ord 3 .cutPass .feed .queued] base) .fetchOrder .raster [] ∧
      Takes (queue [ord 3 check .check .queued] base) .fetchOrder .raster [] ∧ check.isCheckFire = true :=
  ⟨⟨takesOf (by decide +kernel), rfl⟩, ⟨takesOf (by decide +kernel), rfl⟩, by decide +kernel,
    takesOf (by decide +kernel), takesOf (by decide +kernel), rfl⟩

/-- One TAKEN order of origin `o`, its timer at `n`; a FEED order is the cut's. -/
def taken (b : OrderBody) (o : Origin) (n : Nat) : State :=
  let s := queue [ord 3 b o (.taken n 3000)] base
  if o = .feed then setPath { s.fdc.path with cut := some (.orderOut 3) } s else s

theorem test_met_OrderEnded :
    (∀ b ∈ [OrderBody.spit 0 24, .cutPass], ∀ o ∈ [Origin.exposure, .feed], ∀ n ∈ [2999, 3000],
        (taken b o n).orq.queue = [ord 3 b o (.taken n 3000)] ∧ (ord 3 b o (.taken n 3000)).isTaken = true ∧
        b.isCheckFire = false ∧ (taken b o n).orq.waiting = []) ∧
      (Takes (taken (.spit 0 24) .exposure 5) .orderDone .raster [3, 0] ∧ Unclaimed (taken (.spit 0 24) .exposure 5) ∧
        field [3, 0] 0 1 = 3 ∧ field [3, 0] 1 1 = 0) ∧
      (Takes (taken .cutPass .feed 5) .orderDone .raster [3, 1] ∧ Unclaimed (taken .cutPass .feed 5) ∧
        (taken .cutPass .feed 5).fdc.path.cut = some (.orderOut 3) ∧ field [3, 1] 1 1 = 1) ∧
      (Takes base .orderDone .raster [3, 2] ∧ 1 < field [3, 2] 1 1) ∧
      (takenOrder (taken (.spit 0 24) .exposure 5) = some (ord 3 (.spit 0 24) .exposure (.taken 5 3000)) ∧
        field [4, 1] 0 1 ≠ 3) ∧
      (Awake (taken (.spit 0 24) .exposure 3000) ∧ Unclaimed (taken (.spit 0 24) .exposure 3000)) :=
  ⟨by decide +kernel, ⟨takesOf (by decide +kernel), unclaimedOf (by decide +kernel), by decide +kernel⟩,
    ⟨takesOf (by decide +kernel), unclaimedOf (by decide +kernel), by decide +kernel⟩,
    ⟨takesOf (by decide +kernel), by decide +kernel⟩, by decide +kernel, awakeOf (by decide +kernel),
    unclaimedOf (by decide +kernel)⟩

/-- The TAKEN order 3 of a cycle of head 0 in stage `x`, with `n` orders behind it, the wiper as given and AUTO_CHECK
at `a`. -/
def cleaningOrder (x : Stage) (b : OrderBody) (wiper : Moved WiperEnd) (n a : Nat) : State :=
  let s := cycling x ⟨some .down, none, none⟩ wiper 0
  { s with
    orq := { s.orq with queue := ord 3 b .cleaning (.taken 3000 3000) :: many n }
    cls := { s.cls with outstanding := [3], spitLeft := [] }
    params := { s.params with autoCheck := a } }
def wiperUp : Moved WiperEnd := ⟨some .raised, none, none⟩
def wiperDown : Moved WiperEnd := ⟨some .retracted, none, none⟩

theorem test_met_OrderEnded_cleaning :
    (field [3, 0] 0 1 = 3 ∧ field [3, 0] 1 1 = 0 ∧ field [3, 1] 1 1 = 1 ∧ cycleHeads.filter CycleHead.sucked = cycleHeads ∧
        [3].filter (fun n => n != 3) = []) ∧
      (let s := cleaningOrder .wiping (.wipePass [0]) wiperUp 2 1
       Takes s .orderDone .raster [3, 0] ∧ Takes s .orderDone .raster [3, 1] ∧ Awake s ∧ CycleIn s .wiping ∧
         s.orq.queue = ord 3 (.wipePass [0]) .cleaning (.taken 3000 3000) :: many 2 ∧ s.orq.waiting = [] ∧
         s.cls.outstanding = [3] ∧ s.stc.wiper.motion = none ∧ s.pins.wiperRetracted = false ∧
         (∀ y ∈ many 2, y.isTaken = false) ∧ s.dtu.clsCheck = none ∧ s.stc.pump.running = false ∧
         s.stc.sled.motion = none ∧ wiperIsRetracted s = false) ∧
      (let s := cleaningOrder .spitting (.spit 0 50) wiperDown 15 1
       Takes s .orderDone .raster [3, 0] ∧ CycleIn s .spitting ∧ s.cls.spitLeft = [] ∧ s.params.autoCheck = 1 ∧
         (many 15).length < 16) ∧
      (let s := cleaningOrder .spitting (.spit 0 50) wiperDown 2 0
       Takes s .orderDone .raster [3, 0] ∧ CycleIn s .spitting ∧ s.cls.spitLeft = [] ∧ s.params.autoCheck ≠ 1 ∧
         (∀ h, (entryOf s h).level = none) ∧ HandsBackUnparked s) ∧
      (let s := setCls { (cleaningOrder .spitting (.spit 0 50) wiperDown 2 0).cls with outstanding := [3, 4] }
        (cleaningOrder .spitting (.spit 0 50) wiperDown 2 0)
       CycleIn s .spitting ∧ s.cls.outstanding.filter (fun n => n != 3) ≠ []) :=
  ⟨by decide +kernel,
    ⟨takesOf (by decide +kernel), takesOf (by decide +kernel), awakeOf ⟨rfl, rfl⟩, cycleOf ⟨rfl, rfl, rfl, rfl, rfl⟩,
      by decide +kernel⟩,
    ⟨takesOf (by decide +kernel), cycleOf ⟨rfl, rfl, rfl, rfl, rfl⟩, by decide +kernel⟩,
    ⟨takesOf (by decide +kernel), cycleOf ⟨rfl, rfl, rfl, rfl, rfl⟩, rfl, by decide +kernel, by decide +kernel,
      handsBackOf (by decide +kernel)⟩,
    cycleOf ⟨rfl, rfl, rfl, rfl, rfl⟩, by decide +kernel⟩

/-- A cut waits for its order behind `n` others. -/
def cutWaits (n : Nat) : State :=
  let s := setPath { base.fdc.path with cut := some .orderWait } (queue (many n) base)
  setOrq { s.orq with waiting := [⟨.fdc, .cutPass⟩] } s

theorem test_met_WaitingPlacementEnters :
    base.orq.waiting = [] ∧ (16 ≤ (cutWaits 16).orq.queue.length) ∧
      (∀ n ∈ [0, 15], (cutWaits n).resetLow = false ∧ (cutWaits n).rsc.power = .run ∧
        (cutWaits n).orq.waiting = [⟨.fdc, .cutPass⟩] ∧ (cutWaits n).orq.queue.length < 16 ∧
        (cutWaits n).fdc.path.cut = some .orderWait) := by
  decide +kernel

/-- A TAKEN CHECK_FIRE of groups 5 and 6 with a sample record of `n` strobes. -/
def sampling (n : Nat) (gs : List Nat) : State :=
  let s := taken check .check 5
  setDtu { s.dtu with sample := some ⟨.rising, n, [], gs⟩ } s

theorem test_met_DetectorSamples :
    (∀ n ∈ [0, 1, 2], (sampling n []).resetLow = false ∧
        (sampling n []).orq.queue = [ord 3 check .check (.taken 5 3000)] ∧
        (sampling n []).dtu.sample = some ⟨.rising, n, [], []⟩ ∧ Edge.falling ≠ Edge.rising) ∧
      takenOrder base = none ∧ base.dtu.sample = none ∧
      (sampling 1 [5, 6]).dtu.sample = some ⟨.rising, 1, [], [5, 6]⟩ := by
  decide +kernel

/-- The CHECK_FIRE of row 0 in a check of the CLS on head 0: the groups detected, the rows left, the level of the cycle and
the row's degraded flag. -/
def checking (seen : List Nat) (rows : List (Fin 6)) (l : Level) (degraded : Bool) : State :=
  let s := cleaningOrder .checking (.checkFire 0 0 3 700) wiperDown 0 1
  { s with
    orq := { s.orq with queue := [ord 3 (.checkFire 0 0 3 700) .check (.taken 5 3000)] }
    cls := { s.cls with heads := [⟨0, l, false, OriginSet.empty, 10, 0, 0, 0, none⟩], escalated := 3, outstanding := [] }
    dtu := { s.dtu with
      machine := .checking, holder := some .cls, outstanding := some 3, sample := some ⟨.rising, 4, [], seen⟩
      clsCheck := some ⟨rows, 4, 2, []⟩, health := vset s.dtu.health 0 { health s 0 with degraded := degraded } } }

theorem test_met_DetectorSamples_rows :
    (field [3, 0] 0 1 = 3 ∧ field [3, 0] 1 1 = 0 ∧ (OrderBody.checkFire 0 0 3 700).isCheckFire = true) ∧
      (let s := { checking [] [0] .light false with
          dtu := { (checking [] [0] .light false).dtu with abandoned := [3], outstanding := none } }
       Takes s .orderDone .raster [3, 0] ∧ 3 ∈ s.dtu.abandoned ∧ Unclaimed s) ∧
      (∀ rows ∈ [[0, 1], [(0 : Fin 6)]], ∀ seen ∈ [[0, 1], [(0 : Nat)]], ∀ l ∈ [Level.light, .strong], ∀ d : Bool,
        let s := checking seen rows l d
        s.resetLow = false ∧ s.rsc.power = .run ∧ (engine s .raster).slot = .empty ∧
          s.orq.queue = [ord 3 (.checkFire 0 0 3 700) .check (.taken 5 3000)] ∧
          s.dtu.sample = some ⟨.rising, 4, [], seen⟩ ∧ s.orq.waiting = [] ∧ 3 ∉ s.dtu.abandoned ∧
          s.dtu.outstanding = some 3 ∧ s.dtu.clsCheck = some ⟨rows, 4, 2, []⟩ ∧ s.dtu.machine ≠ .idle ∧
          s.cls.stage = .checking ∧ s.cls.abort = none ∧ s.stc.state = .servicing ∧ s.stc.holder = some .cls ∧
          s.stc.handingBack = false ∧ s.cls.heads = [⟨0, l, false, OriginSet.empty, 10, 0, 0, 0, none⟩] ∧
          s.cls.escalated = 3 ∧ s.stc.claims = [] ∧ (∀ h, (entryOf s h).level = none) ∧ sledIsDown s = true ∧
          wiperIsRetracted s = true ∧ s.stc.home = false ∧ (∀ h, (exposure s h).due = false) ∧
          (health s 0).degraded = d) ∧
      ((List.range 4).filter (fun n => !List.contains [0, 1] n)).length = 2 ∧
      ((List.range 4).filter (fun n => !List.contains [0] n)).length = 3 :=
  ⟨by decide +kernel, ⟨takesOf (by decide +kernel), by decide +kernel, unclaimedOf (by decide +kernel)⟩, by decide +kernel⟩

/-! ### The hypotheses of the statements are met: cleaning and the detector -/

theorem test_met_CleaningRequested :
    (Takes base .clean .job [0, 0, 0] ∧ Takes base .clean .job [8, 0, 0] ∧ Takes base .clean .job [7, 4, 0] ∧
        Takes base .clean .job [7, 3, 2]) ∧
      (Takes base .clean .panel [7, 3, 1] ∧ field [7, 3, 1] 0 1 < 8 ∧ level? (field [7, 3, 1] 1 1) = some .strong ∧
        field [7, 3, 1] 2 1 = 1 ∧ ¬ FreeToServe base ∧ base.cls.stage = .none ∧ base.stc.holder = none ∧
        ∀ c ∈ base.stc.claims, c.who ≠ .cls) ∧
      sucking.cls.stage ≠ .none ∧ ¬ FreeToServe (queue [ord 3 .cutPass .feed (.taken 5 10000)] (st .opened)) :=
  ⟨⟨takesOf (by decide +kernel), takesOf (by decide +kernel), takesOf (by decide +kernel), takesOf (by decide +kernel)⟩,
    ⟨takesOf (by decide +kernel), by decide +kernel, by decide +kernel, by decide +kernel,
      fun h => absurd h.1 (by decide +kernel), by decide +kernel⟩,
    by decide +kernel, fun h => absurd h.2.1 (by decide +kernel)⟩

/-- The station at a free moment in state `x`, the carriage in park, the wiper RETRACTED and the sled UP or DOWN; the waste
cartridge holds `w` nL of 1 mL, and the tanks of head 0 `n` nL. -/
def zoneFree (x : StationState) (up : Bool) (w n : Nat) : State :=
  let s := setChan (setChan (st x) 0 { chan base 0 with estimate := n }) 1 { chan base 1 with estimate := n }
  { s with
    stc := { s.stc with
      home := true, sled := ⟨some (if up then .up else .down), none, none⟩, wiper := ⟨some .retracted, none, none⟩ }
    uau := { s.uau with waste := ⟨.fitted, some ⟨1, 0, w, 0⟩, false⟩ } }
def claimed (c : Claim) (e : GrantEntry) (s : State) : State :=
  { setStc { s.stc with claims := [c], entry := e } s with
    dtu := { s.dtu with task := some ⟨.sweep, [0], .job, .waitZone, [0], 0, none, [], none⟩ } }
def slowInk (s : State) : State := setChan s 0 { chan s 0 with active := some .a, refill := .refilling }

def zoneAt (c : Bool) (w n : Nat) : State := zoneFree (if c then .capped else .opened) c w n
def capState (c : Bool) : StationState := if c then .capped else .capping

/-- What a LIGHT cleaning of head 0 on the job link's request leaves: stage, hold, last cause, station. -/
def cleaned (s : State) : Option (Stage × Option CleanHold × Option CleanCause × StationState) :=
  after (fun t => (t.cls.stage, t.cls.hold, t.cls.last.cause, t.stc.state)) (exec (.clean .job [1, 1, 0]) s)

/-- LIGHT plans 800,000 nL for head 0: the waste check fails above 180,000 nL of 980,000, the ink check below 3,400,000. -/
theorem test_met_CleaningRequested_free :
    (∀ x up w n, x = .opened ∨ x = .capped → FreeToServe (zoneFree x up w n) ∧ Unclaimed (zoneFree x up w n) ∧
        Awake (zoneFree x up w n)) ∧
      (∀ x : Bool,
        let s := zoneFree (if x then .capped else .opened) x 180000 3400000
        (engine s .job).slot = .empty ∧ s.cls.stage = .none ∧ s.stc.holder = none ∧ s.stc.claims = [] ∧
          s.stc.sled.motion = none ∧ s.stc.pump.running = false ∧ sledIsUp s = x ∧ sledIsDown s = !x ∧
          s.pins.sledDown = false ∧ s.pins.sledUp = false ∧ wiperIsRetracted s = true ∧ s.stc.home = true ∧
          s.orq.waiting = []) ∧
      (level? (field [1, 1, 0] 1 1) = some .light ∧ level? (field [1, 0, 1] 1 1) = some .spitOnly ∧ field [1, 0, 1] 2 1 = 1) ∧
      (∀ x : Bool,
        cleaned (zoneAt x 180001 3400000) = some (.none, some .wasteFull, some .wasteFull, capState x) ∧
          cleaned { zoneAt x 0 0 with uau := base.uau } = some (.none, some .wasteAbsent, some .wasteAbsent, capState x) ∧
          cleaned (zoneAt x 180000 3399999) = some (.none, none, some .inkShort, capState x) ∧
          cleaned (slowInk (zoneAt x 180000 3399999)) = some (.none, none, some .inkShort, capState x) ∧
          (cleaned (zoneAt x 180000 3400000)).map (·.1) = some .sucking ∧
          cleaned (setChan (slowInk (zoneAt x 180000 3399999)) 1 { chan base 1 with estimate := 3400000 })
            = some (.waitInk, none, none, .servicing)) ∧
      (let s := zoneFree .capped true 180000 3400000
       after (fun t => (t.cls.stage, t.stc.sled.motion)) (exec (.clean .job [1, 0, 1]) s) = some (.spitting, some (.down, 0)) ∧
         after (fun t => (t.stc.holder, t.stc.claims)) (exec (.clean .job [1, 0, 1]) (claimed ⟨.dtu, false⟩ .waiting s))
           = some (some .cls, [⟨.dtu, false⟩]) ∧
         after (fun t => (t.stc.holder, t.stc.claims)) (exec (.clean .job [1, 0, 0]) (claimed ⟨.dtu, false⟩ .none s))
           = some (some .dtu, [⟨.cls, false⟩]) ∧
         after (fun t => t.stc.state) (exec (.clean .job [1, 0, 0]) (claimed ⟨.dtu, false⟩ .waiting s)) = some .uncapping ∧
         after (fun t => t.stc.entry)
           (exec (.clean .job [1, 0, 0]) (claimed ⟨.dtu, false⟩ .waiting (zoneFree .opened false 0 0))) = some .ready) :=
  ⟨fun _ _ _ _ h => ⟨freeOf ⟨h, rfl, nofun⟩, unclaimedOf ⟨rfl, nofun, rfl⟩, awakeOf ⟨rfl, rfl⟩⟩,
    by decide +kernel, by decide +kernel,
    by intro x; refine ⟨?_, ?_, ?_, ?_, ?_, ?_⟩ <;> revert x <;> decide +kernel, by decide +kernel⟩

/-- Heads 0 and 1 are pending in stage `x`. -/
def pendingTwo (x : Stage) : State :=
  let e : CleanEntry := { entryOf base 0 with level := some .light }
  let s := setEntry (setEntry base 0 e) 1 e
  { s with cls := { s.cls with stage := x } }

theorem test_met_CleaningCancelled :
    (Takes base .cancelClean .job [0] ∧ Takes base .cancelClean .job [8]) ∧
      (∀ x ∈ [Stage.none, .waitZone, .finishing], (pendingTwo x).cls.stage = x ∧ (pendingTwo x).resetLow = false ∧
        anyPending (pendingTwo x) = true) ∧
      (Takes (pendingTwo .waitZone) .cancelClean .panel [1] ∧ Takes (pendingTwo .waitZone) .cancelClean .panel [3]) ∧
      Takes (pendingTwo .finishing) .cancelClean .panel [7] ∧
      after anyPending (exec (.cancelClean .panel [1]) (pendingTwo .waitZone)) = some true ∧
      after anyPending (exec (.cancelClean .panel [3]) (pendingTwo .waitZone)) = some false :=
  ⟨⟨takesOf (by decide +kernel), takesOf (by decide +kernel)⟩, by decide +kernel,
    ⟨takesOf (by decide +kernel), takesOf (by decide +kernel)⟩, takesOf (by decide +kernel), by decide +kernel,
    by decide +kernel⟩

/-- A cycle of head 0 in stage `x` with a sled motion in progress, `a` its pending abort, order 3 outstanding, TAKEN if
`taken`. -/
def cancelling (x : Stage) (a : Option CleanCause) (taken : Bool) : State :=
  let s := cycling x ⟨none, some (.up, 5), none⟩ ⟨some .retracted, none, none⟩ 0
  let s := queue [ord 3 (.wipePass [0]) .cleaning (if taken then .taken 5 3000 else .queued)] s
  { s with cls := { s.cls with abort := a, outstanding := [3] } }

theorem test_met_CleaningCancelled_cycle :
    (∀ x ∈ [Stage.waitInk, .sucking, .wiping, .spitting, .checking], ∀ a ∈ [none, some .orderFailed], ∀ b : Bool,
        let s := cancelling x a b
        s.resetLow = false ∧ s.rsc.power = .run ∧ (engine s .job).slot = .empty ∧ s.cls.stage = x ∧
          s.cls.stage.running = true ∧ s.cls.stage ≠ .finishing ∧ s.cls.abort = a ∧ s.stc.pump.running = false ∧
          s.cls.hold = none ∧ s.stc.claims = [] ∧ s.stc.sled.motion ≠ none ∧
          ((s.orq.queue.any fun o => o.isTaken && s.cls.outstanding.contains o.id) = b) ∧
          (s.cls.heads.any fun y => y.head == 0) = true ∧ (∀ y ∈ s.cls.heads, maskBit 6 y.head.val = false)) ∧
      (∀ x a b, Takes (cancelling x a b) .cancelClean .job [1]) ∧
      (∀ x, CycleIn (cancelling x none false) x ∧ HandBackWaits (cancelling x none false)) ∧
      (CycleIn sucking .sucking ∧ HandBackWaits sucking ∧ sucking.stc.pump.running = true ∧ 0 < sucking.stc.pump.revs) ∧
      after (fun t => (t.cls.stage, t.cls.last.cause, t.stc.handingBack))
          (exec (.cancelClean .job [1]) (cancelling .wiping none false))
        = some (.none, some .cancelled, true) ∧
      after (fun t => (t.cls.stage, t.cls.abort)) (exec (.cancelClean .job [1]) (cancelling .wiping none true))
        = some (.wiping, some .cancelled) :=
  ⟨by decide +kernel,
    fun _ _ _ => takesOf
      (show base.resetLow = false ∧ base.rsc.power = .run ∧ (engine base .job).slot = .empty ∧ _ ∧ _ by decide +kernel),
    fun _ => ⟨cycleOf ⟨rfl, rfl, rfl, rfl, rfl⟩, handBackWaitsOf (Or.inl (by simp [cancelling, cycling, queue, setOrq]))⟩,
    ⟨cycleOf ⟨rfl, rfl, rfl, rfl, rfl⟩, handBackWaitsOf (Or.inr (Or.inr ⟨rfl, rfl⟩)), rfl, by decide +kernel⟩,
    by decide +kernel, by decide +kernel⟩

theorem test_met_DetectorRequests :
    (Takes base .checkNozzles .job [0] ∧ Takes base .checkNozzles .job [64] ∧ Takes base .calibrateDetector .job [0]) ∧
      (Takes base .checkNozzles .job [63] ∧ field [63] 0 1 = 63 ∧ base.cls.stage.running = false ∧
        base.dtu.machine = .idle ∧ base.dtu.task = none ∧ ¬ FreeToServe base ∧
        ∀ c ∈ base.stc.claims, c.who ≠ .dtu) ∧
      Takes base .calibrateDetector .panel [1] ∧
      (Takes sucking .checkNozzles .job [63] ∧ Takes sucking .calibrateDetector .job [63] ∧
        sucking.cls.stage.running = true) ∧
      (Takes base .clearDegraded .panel [0] ∧ Takes base .clearDegraded .panel [64] ∧
        Takes base .clearDegraded .panel [63]) :=
  ⟨⟨takesOf (by decide +kernel), takesOf (by decide +kernel), takesOf (by decide +kernel)⟩,
    ⟨takesOf (by decide +kernel), by decide +kernel, by decide +kernel, by decide +kernel, by decide +kernel,
      fun h => absurd h.1 (by decide +kernel), by decide +kernel⟩, takesOf (by decide +kernel),
    ⟨takesOf (by decide +kernel), takesOf (by decide +kernel), by decide +kernel⟩,
    takesOf (by decide +kernel), takesOf (by decide +kernel), takesOf (by decide +kernel)⟩

theorem test_met_DetectorRequests_free :
    (FreeToServe (zoneFree .capped true 0 0) ∧ FreeToServe (zoneFree .opened false 0 0)) ∧
      (∀ x : Bool,
        let s := zoneFree (if x then .capped else .opened) x 0 0
        s.resetLow = false ∧ (engine s .job).slot = .empty ∧ s.stc.claims = [] ∧ s.stc.entry ≠ .waiting ∧
          sledIsDown s = !x ∧ s.pins.sledDown = false ∧ s.stc.sled.motion = none ∧ s.stc.pump.running = false ∧
          s.dtu.clsCheck = none ∧ s.dtu.task = none ∧ s.orq.waiting = [] ∧ s.orq.queue.length < 16 ∧
          after (fun t => (t.stc.holder, t.dtu.machine, t.orq.queue.length)) (exec (.checkNozzles .job [32]) s)
            = some (some .dtu, if x then .idle else .checking, if x then 0 else 1)) ∧
      allChannels.filter (fun c => maskBit 32 c.val) = [5] :=
  ⟨⟨freeOf ⟨Or.inr rfl, by rfl, by decide +kernel⟩, freeOf ⟨Or.inl rfl, by rfl, by decide +kernel⟩⟩, by decide +kernel⟩

/-- The CHECK_FIRE of row 0 in a task of the DTU: its kind, the step's delay, the begin found and the groups detected. -/
def tasking (k : TaskKind) (rows : List (Fin 6)) (delay : Nat) (begin_ : Option Nat) (seen : List Nat) : State :=
  let s := setStc { (st .servicing).stc with
    sled := ⟨some .down, none, none⟩, wiper := wiperDown, holder := some .dtu } (st .servicing)
  let x : Captured := ⟨200, 1200, 10, 20, 1, 4, 2, Vector.replicate 6 0⟩
  { s with
    orq := { s.orq with queue := [ord 3 (.checkFire 0 1 1 delay) .check (.taken 5 3000)] }
    dtu := { s.dtu with
      machine := if k = .sweep then .sweeping else .checking, holder := some .dtu, outstanding := some 3
      sample := some ⟨.rising, 1, [], seen⟩, task := some ⟨k, rows, .job, .running, rows, delay, begin_, [], some x⟩ } }

/-- In the sweep clauses: a step on which nothing ends, the last step, and an end found. -/
theorem test_met_DetectorRequests_tasks :
    ∀ k ∈ [TaskKind.sweep, .check], ∀ rows ∈ [[0, 1], [(0 : Fin 6)]],
      ∀ x ∈ [((1190 : Nat), (none : Option Nat), [1]), (1191, none, []), (1191, some 500, [1]), (600, some 500, [])],
        let s := tasking k rows x.1 x.2.1 x.2.2
        s.resetLow = false ∧ s.rsc.power = .run ∧ (engine s .raster).slot = .empty ∧
          s.orq.queue = [ord 3 (.checkFire 0 1 1 x.1) .check (.taken 5 3000)] ∧
          s.dtu.sample = some ⟨.rising, 1, [], x.2.2⟩ ∧ s.orq.waiting = [] ∧ 3 ∉ s.dtu.abandoned ∧
          s.dtu.outstanding = some 3 ∧ s.dtu.clsCheck = none ∧ s.dtu.machine ≠ .idle ∧ s.stc.state = .servicing ∧
          s.stc.holder = some .dtu ∧ s.stc.handingBack = false ∧ sledIsDown s = true ∧ wiperIsRetracted s = true ∧
          s.stc.home = false ∧ (∀ h, (exposure s h).due = false) ∧
          s.dtu.task = some ⟨k, rows, .job, .running, rows, x.1, x.2.1, [],
            some ⟨200, 1200, 10, 20, 1, 4, 2, Vector.replicate 6 0⟩⟩ ∧
          ¬ max 200 1200 < 1190 + 10 ∧ max 200 1200 < 1191 + 10 := by
  decide +kernel

/-! ### The hypotheses of the statements are met: the media path -/

def loadBody (src kind width length : Nat) : List Byte := le 1 src ++ le 1 kind ++ le 2 width ++ le 4 length
def advanceBody (tag dist : Nat) : List Byte := le 2 tag ++ le 4 dist
/-- The motor runs for the Job Port, or for the Raster Port where `s` says so. -/
def motorRuns : State := moving (motion .unload none 0) base

theorem test_takes_motion :
    (∀ b ∈ [loadBody 0 0 1000 1, loadBody 2 7 11176 200000000, loadBody 2 7 11176 0xFFFFFFFF, loadBody 3 0 1000 1,
        loadBody 0 8 1000 1, loadBody 0 0 999 1, loadBody 0 0 11177 1, loadBody 0 0 1000 0, loadBody 0 0 1000 200000001],
      b.length = Kind.loadMedia.bodyLength) ∧
      (∀ b ∈ [advanceBody 0 0, advanceBody 0 1, advanceBody 0 200000, advanceBody 0 200001],
        b.length = Kind.advance.bodyLength) ∧
      (∀ d ∈ [(0 : Int), 200000, 200001, -200000, -200001],
        (leSigned 4 d).length = Kind.manualFeed.bodyLength ∧ fieldSigned (leSigned 4 d) 0 4 = d) := by
  decide +kernel

theorem test_met_MotionRequestsEnter :
    (∃ m, motorRuns.fdc.motion = some m ∧ m.port = .job) ∧
      (motorRuns.fdc.waiting.get .panel = none ∧ motorRuns.fdc.motion ≠ none ∧
        ∀ m, motorRuns.fdc.motion = some m → m.port ≠ .panel) ∧
      (Takes motorRuns .loadMedia .job (loadBody 2 7 11176 0xFFFFFFFF) ∧
        Takes motorRuns .loadMedia .panel (loadBody 0 0 1000 1) ∧ source? (field (loadBody 2 7 11176 1) 0 1) = some .sheet ∧
        field (loadBody 2 7 11176 1) 1 1 = (7 : Fin 8).val ∧ field (loadBody 2 7 11176 1) 2 2 = 11176) ∧
      Takes motorRuns .unloadMedia .panel [] ∧ Takes motorRuns .advance .raster (advanceBody 0 200000) ∧
      Takes motorRuns .advance .raster (advanceBody 0 200001) ∧ Takes motorRuns .cut .job [] ∧
      Takes (moving { motion .unload none 0 with port := .raster } base) .cut .job [] ∧
      Takes motorRuns .manualFeed .panel (leSigned 4 (-200000)) ∧
      Takes motorRuns .manualFeed .panel (leSigned 4 (-200001)) :=
  ⟨⟨_, rfl, rfl⟩, ⟨rfl, by decide +kernel, fun m h => by cases h; decide⟩,
    ⟨takesOf (by decide +kernel), takesOf (by decide +kernel), by decide +kernel⟩, takesOf (by decide +kernel),
    takesOf (by decide +kernel), takesOf (by decide +kernel), takesOf (by decide +kernel), takesOf (by decide +kernel),
    takesOf (by decide +kernel), takesOf (by decide +kernel)⟩

/-- The table holds one page, in state `x`. -/
def oldestPages (x : PageState) : State := pages [page 1 x] ready

theorem test_met_MotionsBegin :
    (base.fdc.waiting = ⟨none, none, none⟩ ∧ base.fdc.motion = none ∧ ready.fdc.waiting = ⟨none, none, none⟩ ∧
        ready.fdc.motion = none) ∧
      (Takes base .advance .raster (advanceBody 0 200000) ∧ advanceCheck base 0 = some .notLoaded) ∧
      (Takes ready .advance .raster (advanceBody 0 3) ∧ advanceCheck ready 0 = none ∧ forwardTarget ready 3 ≠ 0) ∧
      (Takes base .manualFeed .panel (leSigned 4 (-200000)) ∧ manualCheck base (-200000) = some .notLoaded) ∧
      (Takes ready .manualFeed .panel (leSigned 4 3) ∧ manualCheck ready 3 = none ∧ forwardTarget ready 3 ≠ 0) ∧
      (Takes ready .manualFeed .panel (leSigned 4 (-3)) ∧ manualCheck ready (-3) = none ∧ reverseTarget ready 3 ≠ 0) ∧
      (Takes base .cut .job [] ∧ threadedCheck base = some .notLoaded) ∧
      (Takes ready .cut .job [] ∧ threadedCheck ready = none ∧ forwardTarget ready ready.params.cutOffset ≠ 0) ∧
      Takes base .unloadMedia .job [] ∧
      (let s := setPath { ready.fdc.path with pathEntry := true } ready
       Takes s .unloadMedia .job [] ∧ threadedCheck s = none ∧ s.fdc.path.pathEntry = true) ∧
      (Takes base .loadMedia .job (loadBody 2 7 11176 200000000) ∧ loadCheck base .sheet = some .notLoaded) ∧
      (Takes base .loadMedia .job (loadBody 0 0 1000 1) ∧ loadCheck base .roll1 = none ∧ base.fdc.path.state = .empty ∧
        base.fdc.path.leadingEdge = false) :=
  ⟨by decide +kernel, ⟨takesOf (by decide +kernel), by decide +kernel⟩, ⟨takesOf (by decide +kernel), by decide +kernel⟩,
    ⟨takesOf (by decide +kernel), by decide +kernel⟩, ⟨takesOf (by decide +kernel), by decide +kernel⟩,
    ⟨takesOf (by decide +kernel), by decide +kernel⟩, ⟨takesOf (by decide +kernel), by decide +kernel⟩,
    ⟨takesOf (by decide +kernel), by decide +kernel⟩, takesOf (by decide +kernel),
    ⟨takesOf (by decide +kernel), by decide +kernel⟩, ⟨takesOf (by decide +kernel), by decide +kernel⟩,
    takesOf (by decide +kernel), by decide +kernel⟩

/-- A distance of 1 µm is less than a count: a motion with target 0. -/
theorem test_met_MotionsBegin_targetZero :
    let s : State := { ready with params := { ready.params with cutOffset := 1 } }
    (Takes s .advance .raster (advanceBody 0 1) ∧ Takes s .manualFeed .panel (leSigned 4 1) ∧
        Takes s .manualFeed .panel (leSigned 4 (-1)) ∧ Takes s .cut .job []) ∧
      s.fdc.waiting = ⟨none, none, none⟩ ∧ s.fdc.motion = none ∧ advanceCheck s 0 = none ∧ forwardTarget s 1 = 0 ∧
      reverseTarget s 1 = 0 ∧ manualCheck s 1 = none ∧ manualCheck s (-1) = none ∧ threadedCheck s = none ∧
      forwardTarget s s.params.cutOffset = 0 ∧ hasRoom s = true ∧ isWaiting s .fdc = false ∧
      (∀ x ∈ [PageState.admitted, .printing, .faulted], (oldestPages x).pau.pages = [page 1 x] ∧ (page 1 x).tag = 1 ∧
        (page 1 x).tag ≠ 2) :=
  ⟨⟨takesOf (by decide +kernel), takesOf (by decide +kernel), takesOf (by decide +kernel), takesOf (by decide +kernel)⟩,
    by decide +kernel⟩

/-- An empty path with media at the leading edge, or an UNREGISTERED one, with ROLL_1's end reading as given. -/
def edged (x : PathState) (edge reading : Bool) : State :=
  setEndReading .roll1 reading (setPath { base.fdc.path with state := x, leadingEdge := edge } base)

theorem test_met_MotionsBegin_atOnce :
    (threadedCheck ready = none ∧ ready.fdc.path.pathEntry = false ∧ ready.fdc.path.source = some .roll1) ∧
      (∀ length ∈ [1, 200000000, 0xFFFFFFFF],
        source? (field (loadBody 0 7 11176 length) 0 1) = some .roll1 ∧
          field (loadBody 0 7 11176 length) 1 1 = (7 : Fin 8).val ∧ field (loadBody 0 7 11176 length) 2 2 = 11176 ∧
          field (loadBody 0 7 11176 length) 4 4 = length) ∧
      (∀ x ∈ [(PathState.unregistered, true), (.unregistered, false), (.empty, true)], ∀ b : Bool,
        let s := edged x.1 x.2 b
        s.resetLow = false ∧ s.rsc.power = .run ∧ (engine s .job).slot = .empty ∧ s.fdc.waiting = ⟨none, none, none⟩ ∧
          s.fdc.motion = none ∧ loadCheck s .roll1 = none ∧
          (s.fdc.path.state = .unregistered ∨ s.fdc.path.leadingEdge = true) ∧
          endReading s .roll1 = b ∧ s.params.tailLength ≠ 0 ∧ min 1 s.params.tailLength ≠ 0) := by
  decide +kernel

/-- The oldest page is FAULTED, or on another source, in a ready path. -/
def oldest (e : Page) : State := pages [e, page 2 .admitted] ready

theorem test_met_AdvanceChecks :
    (at_ .held none base).fdc.path.state = .held ∧
      (base.fdc.path.state ≠ .held ∧ base.fdc.path.coverOpen = false ∧ base.fdc.path.source = none) ∧
      (ready.fdc.path.state = .ready ∧ ready.fdc.path.coverOpen = false ∧ ready.fdc.path.source = some .roll1 ∧
        (sourceRec ready .roll1).state ≠ .out ∧ ready.pau.pages = []) ∧
      (sourceRec (loaded .out (some 0) ready) .roll1).state = .out ∧
      ((oldest (page 1 .faulted)).pau.pages = [page 1 .faulted, page 2 .admitted] ∧ (page 1 .faulted).state = .faulted) ∧
      ((page 1 .admitted).state ≠ .faulted ∧ (page 1 .admitted).source = .roll1 ∧
        { page 1 .admitted with source := .sheet }.source ≠ .roll1) ∧
      ((page 1 .admitted).tag ≠ 2 ∧ ∃ y ∈ [page 2 .admitted], y.tag = 2) ∧
      (∀ y ∈ [page 2 .admitted], y.tag ≠ 3) := by
  decide +kernel

/-- The oldest page prints in a ready path; the path cut, held, out of media; no sheet present. -/
theorem test_met_AdvanceChecks_others :
    (∃ e ∈ (oldest (page 1 .printing)).pau.pages, e.state = .printing) ∧ (¬ ∃ e ∈ ready.pau.pages, e.state = .printing) ∧
      ((at_ .held (some .roll1) ready).fdc.path.state = .held ∧
        (at_ .cutting (some .roll1) ready).fdc.path.state = .cutting ∧
        (at_ .cutting (some .roll1) ready).fdc.path.coverOpen = false ∧
        (at_ .loading (some .roll1) ready).fdc.path.state ≠ .ready) ∧
      ((loaded .out (some 0) ready).fdc.path.source = some .roll1 ∧
        (sourceRec (loaded .out (some 0) ready) .roll1).state = .out ∧ (0 : Int) < 1) ∧
      ((∃ y, ready.fdc.path.source = some y ∧ y ≠ .roll2) ∧ (¬ ∃ y, base.fdc.path.source = some y ∧ y ≠ .roll2) ∧
        base.fdc.path.state = .empty ∧ base.fdc.path.coverOpen = false ∧ base.fdc.path.sheetPresent = false) ∧
      (setPath { base.fdc.path with coverOpen := true } base).fdc.path.coverOpen = true :=
  ⟨by decide +kernel, by decide +kernel, by decide +kernel, by decide +kernel,
    ⟨⟨.roll1, by decide +kernel⟩, fun ⟨y, h, _⟩ => (nomatch h), by decide +kernel⟩, rfl⟩

/-- One ADVANCE of `d` waits on the Raster Port. -/
def advanceWaits (s : State) (d : Nat) : State := setFdc { s.fdc with waiting := ⟨none, some (.advance 0 d), none⟩ } s

theorem test_met_ArbiterServes :
    (Awake base ∧ (∀ p ∈ allPorts, base.fdc.waiting.get p = none) ∧ motorRuns.fdc.motion ≠ none) ∧
      nextPort (advanceWaits base 3) = some .raster ∧ (advanceWaits base 3).params.feedGroup.get .raster = 0 ∧
      (Awake (advanceWaits base 3) ∧ (advanceWaits base 3).fdc.motion = none ∧
        (advanceWaits base 3).fdc.waiting.get .raster = some (.advance 0 3) ∧
        advanceCheck (advanceWaits base 3) 0 = some .notLoaded ∧
        ∀ q ∈ allPorts, q ≠ .raster → (advanceWaits base 3).fdc.waiting.get q = none) ∧
      (Awake (advanceWaits ready 3) ∧ advanceCheck (advanceWaits ready 3) 0 = none ∧
        forwardTarget (advanceWaits ready 3) 3 ≠ 0) :=
  ⟨⟨awakeOf (by decide +kernel), by decide +kernel⟩, by decide +kernel, by decide +kernel,
    ⟨awakeOf (by decide +kernel), by decide +kernel⟩, awakeOf (by decide +kernel), by decide +kernel⟩

theorem test_met_ArbiterServes_targetZero :
    Awake (advanceWaits ready 1) ∧ (advanceWaits ready 1).fdc.motion = none ∧
      (advanceWaits ready 1).fdc.waiting.get .raster = some (.advance 0 1) ∧
      advanceCheck (advanceWaits ready 1) 0 = none ∧ forwardTarget (advanceWaits ready 1) 1 = 0 :=
  ⟨awakeOf (by decide +kernel), by decide +kernel⟩

/-- Two ports wait in one group: the one nearer after the last served goes first. -/
theorem test_met_ArbiterServes_cycle :
    let s := setFdc { base.fdc with waiting := ⟨some .cut, none, some .unload⟩ } base
    s.params.feedGroup.get .job ≠ 0 ∧ s.params.feedGroup.get .panel ≠ 0 ∧ nextPort s = some .job ∧
      s.fdc.waiting.get .panel ≠ none ∧ nextPort (setFdc { s.fdc with lastServed := some .job } s) = some .panel := by
  decide +kernel

/-- A motion of kind `k` runs in a loaded path. -/
def running (k : MotionKind) (target : Option Nat) : State := moving (motion k target 0) ready

theorem test_met_MotionsComplete :
    (Awake base ∧ base.fdc.motion = none) ∧
      (let s := moving (motion (.load .roll1) none 0) (at_ .loading (some .roll1) (loaded .loaded none base))
       Awake s ∧ s.fdc.motion = some (motion (.load .roll1) none 0) ∧ s.fdc.waiting = ⟨none, none, none⟩ ∧
         endReading s .roll1 = false ∧ (sourceRec s .roll1).state = .loaded) ∧
      ((running .unload none).fdc.motion = some (motion .unload none 0) ∧
        (running .unload none).fdc.path.source = some .roll1 ∧
        (sourceRec (running .unload none) .roll1).media = some ⟨0, 2000, some 5000000⟩) ∧
      ((running (.advance 1) (some 377)).fdc.motion = some (motion (.advance 1) (some 377) 0)) ∧
      ((running .cut (some 377)).fdc.motion = some (motion .cut (some 377) 0) ∧ hasRoom (running .cut (some 377)) = true ∧
        isWaiting (running .cut (some 377)) .fdc = false) ∧
      ((running .manualForward (some 377)).fdc.motion = some (motion .manualForward (some 377) 0)) ∧
      ((running .manualReverse (some 377)).fdc.motion = some (motion .manualReverse (some 377) 0) ∧
        (running .manualReverse (some 377)).fdc.waiting = ⟨none, none, none⟩) :=
  ⟨⟨awakeOf (by decide +kernel), by decide +kernel⟩, ⟨awakeOf (by decide +kernel), by decide +kernel⟩, by decide +kernel⟩

theorem test_met_MotionsComplete_remaining :
    ready.fdc.path.source = some .roll1 ∧ (sourceRec ready .roll1).media = some ⟨0, 2000, some 5000000⟩ ∧
      (sourceRec ready .roll1).state ≠ .out ∧ 5000000 - 4999999 ≠ 0 ∧ 5000000 - 5000000 = 0 ∧
      remainingOf (loaded .inPath none ready) .roll1 = none ∧
      (sourceRec (loaded .out (some 0) ready) .roll1).state = .out := by
  decide +kernel

theorem test_met_MotionsComplete_pages :
    (pauAdvanceDone 1 1000 (oldestPages .printing)).pau.pages.map Page.overrun = [false] ∧
      (pauAdvanceDone 1 1001 (oldestPages .faulted)).pau.pages.map Page.overrun = [true] ∧
      pauAdvanceDone 1 1001 (oldestPages .admitted) = oldestPages .admitted ∧
      pauAdvanceDone 2 1001 (oldestPages .printing) = oldestPages .printing ∧
      (oldestPages .printing).pau.pages = [page 1 .printing] ∧ ready.pau.pages = [] := by
  decide +kernel

/-- An ADVANCE whose timer stands at `n` of 3000. -/
def late (n : Nat) : State := moving (motion (.advance 1) (some 377) n) (pages [page 1 .printing] ready)
def atEdge : State := setPath { ready.fdc.path with leadingEdge := true } ready

theorem test_met_JamHoldsPath :
    (Awake base ∧ base.fdc.path.cut = none ∧ base.fdc.waiting = ⟨none, none, none⟩ ∧ base.orq.waiting = [] ∧
        base.fdc.motion = none) ∧
      (∀ n ∈ [2999, 3000], (late n).resetLow = false ∧ (late n).fdc.path.cut = none ∧
        (late n).fdc.motion = some (motion (.advance 1) (some 377) n) ∧ (late n).fdc.waiting = ⟨none, none, none⟩ ∧
        (late n).orq.waiting = [] ∧ (late n).pau.pages = [page 1 .printing] ∧ (page 1 .printing).state = .printing) ∧
      (Awake atEdge ∧ atEdge.fdc.path.cut = none ∧ atEdge.fdc.motion = none ∧ atEdge.fdc.path.state = .ready ∧
        atEdge.fdc.path.leadingEdge = true) :=
  ⟨⟨awakeOf (by decide +kernel), by decide +kernel⟩, by decide +kernel, awakeOf (by decide +kernel), by decide +kernel⟩

/-- The feed motion timeout is the parameter as it stands at the test, here of a motion 2,500 ms old (R148, R171). -/
theorem test_feedTimeoutRead :
    after (fun t => t.fdc.path.state) (exec (.feedMotionTimeout 0) (late 2500)) = some (late 2500).fdc.path.state ∧
      (late 2500).fdc.path.state ≠ .held ∧
      after (fun t => t.fdc.path.state)
        (exec (.feedMotionTimeout 0) { late 2500 with params := { base.params with feedTimeout := 2500 } }) = some .held := by
  decide +kernel

/-- A flag record of a kind with no subject sends its empty subject set as one zero byte (R175, R180). -/
theorem test_emptySubjectSet :
    flagRecBody .jam ⟨true, 1, 0, none, 41⟩ = [1, 1, 0, 41, 0] ∧ flagRecBody .bayLow ⟨true, 1, 1, none, 41⟩ = [1, 1, 1, 0, 41, 0] := by
  decide +kernel

/-- Every kind of motion, at its limit and before it, with media at the leading edge. -/
theorem test_met_JamHoldsPath_kinds :
    ∀ k ∈ [MotionKind.load .roll1, .unload, .advance 1, .cut, .manualForward, .manualReverse], ∀ n ∈ [2999, 3000],
      let s := moving (motion k (some 377) n) atEdge
      s.resetLow = false ∧ s.rsc.power = .run ∧ s.fdc.waiting = ⟨none, none, none⟩ ∧ s.orq.waiting = [] ∧
        s.fdc.motion = some (motion k (some 377) n) ∧ s.fdc.path.leadingEdge = true ∧
        (at_ .cutting (some .roll1) atEdge).fdc.path.state = .cutting ∧ (motion k none n).target = none := by
  decide +kernel

/-- A HELD path: its source, hold, whether cycled, the cover and the leading edge. -/
def held (src : Option Source) (hold : PathHold) (cycled cover edge : Bool) : State :=
  setPath { base.fdc.path with
    state := .held, source := src, hold := some hold, cycled := cycled, coverOpen := cover, leadingEdge := edge } base

theorem test_takes_held (src : Option Source) (hold : PathHold) (cycled cover edge : Bool) :
    Takes (held src hold cycled cover edge) .releaseHold .job [] :=
  takesOf (show base.resetLow = false ∧ base.rsc.power = .run ∧ (engine base .job).slot = .empty ∧ _ ∧ _ by decide +kernel)

theorem test_met_CoverAndRelease :
    (∀ src hold cycled cover edge, Takes (held src hold cycled cover edge) .releaseHold .job [] ∧
        (held src hold cycled cover edge).fdc.path.state = .held ∧
        (held src hold cycled cover edge).fdc.path.hold = some hold ∧
        (held src hold cycled cover edge).fdc.path.cycled = cycled ∧
        (held src hold cycled cover edge).fdc.path.coverOpen = cover ∧
        (held src hold cycled cover edge).fdc.path.leadingEdge = edge ∧
        (held src hold cycled cover edge).fdc.path.source = src) ∧
      (Awake ready ∧ ready.fdc.path.coverOpen = false ∧ ready.fdc.path.state ≠ .held ∧ ready.fdc.path.cut = none ∧
        ready.fdc.motion = none ∧ ready.fdc.waiting = ⟨none, none, none⟩ ∧ ready.orq.waiting = []) ∧
      Takes ready .releaseHold .panel [] :=
  ⟨fun src hold cycled cover edge => ⟨test_takes_held src hold cycled cover edge, rfl, rfl, rfl, rfl, rfl, rfl⟩,
    ⟨awakeOf (by decide +kernel), by decide +kernel⟩, takesOf (by decide +kernel)⟩

theorem test_met_CoverAndRelease_moving :
    ∀ k ∈ [MotionKind.load .roll1, .unload, .advance 1, .cut, .manualForward, .manualReverse],
      let s := running k (some 377)
      s.resetLow = false ∧ s.rsc.power = .run ∧ s.fdc.motion = some (motion k (some 377) 0) ∧
        s.fdc.path.coverOpen = false ∧ s.fdc.path.state ≠ .held ∧ s.fdc.waiting = ⟨none, none, none⟩ ∧
        s.orq.waiting = [] := by
  decide +kernel

theorem test_met_MediaSensorsAtRest :
    (Awake base ∧ base.fdc.motion = none ∧ base.fdc.path.leadingEdge = false ∧ base.fdc.path.state = .empty) ∧
      (let s := setPath { base.fdc.path with state := .unregistered, leadingEdge := true } base
       Awake s ∧ s.fdc.motion = none ∧ s.fdc.path.leadingEdge = true ∧ s.fdc.path.state = .unregistered) ∧
      (endReading base .sheet = true ∧ endReading base .roll1 = false ∧ (sourceRec base .roll1).state ≠ .loaded ∧
        (sourceRec base .roll1).state ≠ .inPath) ∧
      (∀ n ∈ [some 0, some 500001, none], (sourceRec (loaded .loaded n base) .roll1).media = some ⟨0, 2000, n⟩ ∧
        (sourceRec (loaded .loaded n base) .roll1).state = .loaded ∧ endReading (loaded .loaded n base) .roll1 = false) :=
  ⟨⟨awakeOf (by decide +kernel), by decide +kernel⟩, ⟨awakeOf (by decide +kernel), by decide +kernel⟩, by decide +kernel⟩

/-! ### The invariants are met -/

theorem test_met_Kept :
    (∀ c : Fin 6, (book base c).total = (book base c).media + (book base c).waste ∧
        (book base c).total = (book base c).usage + (book base c).suction) ∧
      (∀ c : Fin 6, (chan base c).estimate ≤ Config.subTankMax ∧
        (chan base c).supply = supplyOf base.params.reserveMark (chan base c)) ∧
      (∀ c : Fin 6, (chan base c).active = none) ∧ (∀ b : Fin 12, (bay base b).state = .empty ∧ (bay base b).ink = none) ∧
      (pages four base).pau.pages.length ≤ Config.pageDepth ∧ ((pages four base).pau.pages.map Page.tag).Nodup ∧
      (queue (many 16) base).orq.queue.length ≤ Config.orderDepth ∧ (orderIds (queue (many 16) base)).Nodup ∧
      (posted 8 0).liu.posted.length ≤ Config.postedDepth := by
  decide +kernel

theorem test_met_PumpLawKept : PumpLawful sucking ∧ sucking.stc.pump.running = true := ⟨test_pumpLawful, rfl⟩

theorem test_met_ZoneClearKept :
    let s : State := setStc { (st .opened).stc with sled := ⟨some .down, none, none⟩, wiper := ⟨some .retracted, none, none⟩ }
      (st .opened)
    ZoneClear s ∧ s.stc.state = .opened :=
  ⟨⟨by decide +kernel, by decide +kernel, by decide +kernel⟩, rfl⟩

end Sys2Proof.Tests
end

