-- ==== Sys2Proof/Proofs/SupplyOperations.lean ====
section
/-!
SUPPORT. What the operations of the Supply Unit do: which records each of them reads back differently (`chan_…`, `bay_…`,
`bus_…`), which events it can raise (`untold_…`), and that it stays on its own channel (`…_confined`).
-/

namespace Sys2Proof.Machine

/-! ### Channels and their bays (1.2) -/

@[simp] theorem channelOf_bayOf (c : Fin 6) (side : Side) : channelOf (bayOf c side) = c := by
  cases side <;> ext <;> simp only [channelOf, bayOf] <;> omega

@[simp] theorem sideOf_bayOf (c : Fin 6) (side : Side) : sideOf (bayOf c side) = side := by
  cases side
  · exact if_pos (by simp only [bayOf]; omega)
  · exact if_neg (by simp only [bayOf]; omega)

/-- A bay is the one of its side on its channel. -/
@[simp] theorem bayOf_channelOf (b : Fin 12) : bayOf (channelOf b) (sideOf b) = b := by
  unfold sideOf
  split <;> ext <;> simp only [bayOf, channelOf] <;> omega

@[simp] theorem Side.other_ne (side : Side) : side.other ≠ side := by cases side <;> decide

theorem Side.eq_or_eq_other (side x : Side) : x = side ∨ x = side.other := by
  cases side <;> cases x <;> decide

@[simp] theorem bayOf_inj {c d : Fin 6} {x y : Side} : bayOf c x = bayOf d y ↔ c = d ∧ x = y := by
  refine ⟨fun h => ⟨?_, ?_⟩, fun ⟨hc, hx⟩ => hc ▸ hx ▸ rfl⟩
  · simpa using congrArg channelOf h
  · simpa using congrArg sideOf h

/-- A bay that is neither of a channel's two belongs to another channel. -/
theorem channelOf_ne {c : Fin 6} {side : Side} {b : Fin 12} (h : b ≠ bayOf c side) (h' : b ≠ bayOf c side.other) :
    channelOf b ≠ c := by
  rintro rfl
  rcases side.eq_or_eq_other (sideOf b) with e | e
  · exact h (by rw [← e, bayOf_channelOf])
  · exact h' (by rw [← e, bayOf_channelOf])

@[simp] theorem strokeFrom_inj {x y : Side} : strokeFrom (some x) = strokeFrom (some y) ↔ x = y := by
  cases x <;> cases y <;> decide

@[simp] theorem strokeFrom_ne_lost (x : Option Side) : strokeFrom x ≠ .lost := by
  rcases x with _ | (_ | _) <;> decide

@[simp] theorem strokeFrom_ne_none (side : Side) : strokeFrom (some side) ≠ .none := by cases side <;> decide

/-! ### Fields that no operation of the Supply Unit writes -/

theorem params_of_supply {s t : State} (h : keptBySupply t = keptBySupply s) : t.params = s.params :=
  params_of_usage (kept_usage_of_supply h)

theorem cls_of_supply {s t : State} (h : keptBySupply t = keptBySupply s) : t.cls = s.cls :=
  cls_of_usage (kept_usage_of_supply h)

theorem stc_of_supply {s t : State} (h : keptBySupply t = keptBySupply s) : t.stc = s.stc :=
  stc_of_usage (kept_usage_of_supply h)

theorem rsc_of_supply {s t : State} (h : keptBySupply t = keptBySupply s) : t.rsc = s.rsc := by
  simp only [keptBySupply, Prod.mk.injEq] at h
  exact h.2.2.2.2.2.2.2.2.2.2.2.2.2.1

theorem liu_of_supply {s t : State} (h : keptBySupply t = keptBySupply s) : t.liu = s.liu := by
  simp only [keptBySupply, Prod.mk.injEq] at h
  exact h.2.2.2.2.2.2.2.2.2.2.2.2.2.2.2

/-- Two states that agree on what the Supply Unit leaves alone differ in its own records, the PAU's and the events only. -/
theorem eq_of_supply {s t : State} (h : keptBySupply t = keptBySupply s) (x : Spu) (y : Pau) (z : PerPort PortEvents) :
    { t with spu := x, pau := y, evu := z } = { s with spu := x, pau := y, evu := z } := by
  simp only [keptBySupply, Prod.mk.injEq] at h
  simp only [h]

/-! ### Reading a channel and a bay back -/

@[simp] theorem chan_raise (k : EventKind) (m : BitVec 16) (d : Option Detail) (s : State) (c : Fin 6) :
    chan (raise k m d s) c = chan s c := rfl

@[simp] theorem bay_raise (k : EventKind) (m : BitVec 16) (d : Option Detail) (s : State) (b : Fin 12) :
    bay (raise k m d s) b = bay s b := rfl

@[simp] theorem chan_onBus (f : Bus → Bus) (s : State) (c : Fin 6) : chan (onBus f s) c = chan s c := rfl

@[simp] theorem bay_onBus (f : Bus → Bus) (s : State) (b : Fin 12) : bay (onBus f s) b = bay s b := rfl

@[simp] theorem setChan_setChan (s : State) (c : Fin 6) (x y : Channel) :
    setChan (setChan s c x) c y = setChan s c y := by
  simp [setChan, vset]

@[simp] theorem setBay_setBay (s : State) (b : Fin 12) (x y : Bay) : setBay (setBay s b x) b y = setBay s b y := by
  simp [setBay, vset]

@[simp] theorem checkOver_spu (c : Fin 6) (s : State) : (checkOver c s).spu = s.spu := by
  unfold checkOver
  dsimp only
  split
  · rfl
  · split <;> rfl

@[simp] theorem chan_checkOver (c : Fin 6) (s : State) (d : Fin 6) : chan (checkOver c s) d = chan s d := by
  simp [chan]

@[simp] theorem bay_checkOver (c : Fin 6) (s : State) (b : Fin 12) : bay (checkOver c s) b = bay s b := by
  simp [bay]

@[simp] theorem evalSupply_spu (c : Fin 6) (s : State) :
    (evalSupply c s).spu
      = (setChan s c { chan s c with supply := supplyOf s.params.reserveMark (chan s c) }).spu := by
  unfold evalSupply
  dsimp only
  split <;> rfl

@[simp] theorem chan_evalSupply (c : Fin 6) (s : State) :
    chan (evalSupply c s) c = { chan s c with supply := supplyOf s.params.reserveMark (chan s c) } := by
  rw [chan, evalSupply_spu]
  exact chan_setChan s c _

@[simp] theorem bay_evalSupply (c : Fin 6) (s : State) (b : Fin 12) : bay (evalSupply c s) b = bay s b := by
  rw [bay, evalSupply_spu]
  rfl

@[simp] theorem chan_refillTest (c : Fin 6) (s : State) :
    chan (refillTest c s) c =
      if refillDue s c then
        { chan s c with refill := .refilling, strokes := 0, stroke := strokeFrom (chan s c).active }
      else chan s c := by
  unfold refillTest
  split
  · exact chan_setChan s c _
  · rfl

@[simp] theorem bay_refillTest (c : Fin 6) (s : State) (b : Fin 12) : bay (refillTest c s) b = bay s b := by
  unfold refillTest
  split <;> rfl

@[simp] theorem bus_refillTest (c : Fin 6) (s : State) : (refillTest c s).spu.bus = s.spu.bus := by
  unfold refillTest
  split <;> rfl

@[simp] theorem chan_makeActive (b : Fin 12) (s : State) :
    chan (makeActive b s) (channelOf b) =
      { chan s (channelOf b) with
        active := some (sideOf b)
        refill := if (chan s (channelOf b)).refill = .fault then .idle else (chan s (channelOf b)).refill } :=
  chan_setChan _ _ _

@[simp] theorem bay_makeActive (b : Fin 12) (s : State) :
    bay (makeActive b s) b = { bay s b with state := .active, dry := 0 } := by
  simp [makeActive]

theorem bay_makeActive_other {b d : Fin 12} (s : State) (h : b ≠ d) : bay (makeActive b s) d = bay s d := by
  simp [makeActive, bay_setBay_other _ _ h]

@[simp] theorem bus_makeActive (b : Fin 12) (s : State) : (makeActive b s).spu.bus = s.spu.bus := rfl

/-! ### Events that have and have not been raised (R175) -/

theorem Untold.trans {k : EventKind} {s t u : State} (h : Untold k s t) (h' : Untold k t u) : Untold k s u :=
  fun p => (h' p).trans (h p)

/-- What has been told stays told while the kind is not raised again. -/
theorem Told.trans_untold {k : EventKind} {m : BitVec 16} {d : Option Detail} {s t u : State} (h : Told k m d s t)
    (h' : Untold k t u) : Told k m d s u := by
  intro p r
  dsimp only
  rw [h' p]
  exact h p r

/-- What is told after a time in which the kind was not raised has been told since its beginning. -/
theorem Untold.trans_told {k : EventKind} {m : BitVec 16} {d : Option Detail} {s t u : State} (h : Untold k s t)
    (h' : Told k m d t u) : Told k m d s u := by
  intro p r
  dsimp only
  rw [← h p]
  exact h' p r

theorem told_raise (k : EventKind) (m : BitVec 16) (d : Option Detail) (s : State) : Told k m d s (raise k m d s) :=
  (Untold.refl k s).raise_self m d

theorem untold_raise {k l : EventKind} (m : BitVec 16) (d : Option Detail) (s : State) (n : l ≠ k) :
    Untold k s (raise l m d s) :=
  (Untold.refl k s).raise_other m d n

theorem untold_of_evu {k : EventKind} {s t : State} (e : t.evu = s.evu) : Untold k s t := (Untold.refl k s).of_evu e

/-- The overcommitment check raises OVERCOMMITTED only (R54). -/
theorem untold_checkOver {k : EventKind} (c : Fin 6) (s : State) (n : k ≠ .overcommitted) :
    Untold k s (checkOver c s) := by
  unfold checkOver
  dsimp only
  split
  · exact Untold.refl k s
  · split
    · exact (untold_of_evu rfl).trans (untold_raise _ _ _ n.symm)
    · exact untold_of_evu rfl

/-- The evaluation of a supply state raises CHANNEL_STARVED only (R2). -/
theorem untold_evalSupply {k : EventKind} (c : Fin 6) (s : State) (n : k ≠ .channelStarved) :
    Untold k s (evalSupply c s) := by
  unfold evalSupply
  dsimp only
  split
  · exact (untold_of_evu rfl).trans (untold_raise _ _ _ n.symm)
  · exact untold_of_evu rfl

theorem refillTest_evu (c : Fin 6) (s : State) : (refillTest c s).evu = s.evu := by
  unfold refillTest
  split <;> rfl

/-- What follows a change of a channel, R2's evaluation and R54's check about a refill start test, raises no other event. -/
theorem untold_followUp {k : EventKind} (c : Fin 6) (s : State) (n : k ≠ .overcommitted) (m : k ≠ .channelStarved) :
    Untold k s (checkOver c (refillTest c (evalSupply c s))) :=
  ((untold_evalSupply c s m).trans (untold_of_evu (refillTest_evu c _))).trans (untold_checkOver c _ n)

/-! ### Staying on one channel -/

/-- From `s` to `t` nothing has changed but the records of channel `c` and its bays, the bus, the PAU and the events. -/
structure Confined (c : Fin 6) (s t : State) : Prop where
  kept : keptBySupply t = keptBySupply s
  chan : ∀ d, d ≠ c → chan t d = chan s d
  bay : ∀ b, channelOf b ≠ c → bay t b = bay s b

theorem Confined.refl (c : Fin 6) (s : State) : Confined c s s := ⟨rfl, fun _ _ => rfl, fun _ _ => rfl⟩

theorem Confined.trans {c : Fin 6} {s t u : State} (h : Confined c s t) (h' : Confined c t u) : Confined c s u where
  kept := h'.kept.trans h.kept
  chan d n := (h'.chan d n).trans (h.chan d n)
  bay b n := (h'.bay b n).trans (h.bay b n)

/-- A change that leaves the records of the Supply Unit and its surroundings alone. -/
theorem Confined.of_kept {c : Fin 6} {s t : State} (h : keptBySupply t = keptBySupply s)
    (hc : t.spu.channels = s.spu.channels) (hb : t.spu.bays = s.spu.bays) : Confined c s t where
  kept := h
  chan d _ := by rw [Machine.chan, hc]; rfl
  bay b _ := by rw [Machine.bay, hb]; rfl

theorem Confined.params {c : Fin 6} {s t : State} (h : Confined c s t) : t.params = s.params := params_of_supply h.kept

theorem raise_confined (c : Fin 6) (k : EventKind) (m : BitVec 16) (d : Option Detail) (s : State) :
    Confined c s (raise k m d s) := .of_kept rfl rfl rfl

theorem onBus_confined (c : Fin 6) (f : Bus → Bus) (s : State) : Confined c s (onBus f s) := .of_kept rfl rfl rfl

theorem checkOver_confined (c d : Fin 6) (s : State) : Confined c s (checkOver d s) :=
  .of_kept (checkOver_kept d s) (by simp) (by simp)

theorem setChan_confined (c : Fin 6) (x : Channel) (s : State) : Confined c s (setChan s c x) where
  kept := rfl
  chan _ n := chan_setChan_other s x n.symm
  bay _ _ := rfl

theorem setBay_confined {c : Fin 6} {b : Fin 12} (x : Bay) (s : State) (h : channelOf b = c) :
    Confined c s (setBay s b x) where
  kept := rfl
  chan _ _ := rfl
  bay _ n := bay_setBay_other s x (fun e => n (e ▸ h))

theorem evalSupply_confined (c : Fin 6) (s : State) : Confined c s (evalSupply c s) where
  kept := evalSupply_kept c s
  chan d n := by rw [Machine.chan, evalSupply_spu]; exact chan_setChan_other s _ n.symm
  bay b _ := bay_evalSupply c s b

theorem refillTest_confined (c : Fin 6) (s : State) : Confined c s (refillTest c s) := by
  unfold refillTest
  split
  · exact setChan_confined c _ s
  · exact .refl c s

theorem makeActive_confined (b : Fin 12) (s : State) : Confined (channelOf b) s (makeActive b s) :=
  (setBay_confined _ s rfl).trans (setChan_confined _ _ _)

/-- R2's evaluation, R14's test and R54's check stay on their channel. -/
theorem followUp_confined (c : Fin 6) (s : State) : Confined c s (checkOver c (refillTest c (evalSupply c s))) :=
  ((evalSupply_confined c s).trans (refillTest_confined c _)).trans (checkOver_confined c c _)

theorem promote_confined (b : Fin 12) (s : State) : Confined (channelOf b) s (promote b s) :=
  (makeActive_confined b s).trans (followUp_confined _ _)

theorem switchover_confined (c : Fin 6) (side : Side) (s : State) : Confined c s (switchover c side s) := by
  have active := makeActive_confined (bayOf c side.other) s
  rw [channelOf_bayOf] at active
  unfold switchover
  dsimp only
  split
  · refine .trans ?_ (followUp_confined c _)
    refine .trans ?_ (raise_confined c _ _ _ _)
    split
    · exact active.trans (setChan_confined c _ _)
    · exact active
  · exact ((setChan_confined c _ s).trans (evalSupply_confined c _)).trans (checkOver_confined c c _)

/-! ### Promotion and switchover (R8, R11) -/

/-- R14's test and R2's evaluation on a channel that has just been given an active bay. -/
theorem chan_followUp_promoted {c : Fin 6} {side : Side} {s : State} {x : Channel} (hp : s.rsc.power = .run)
    (hx : chan s c =
      { x with active := some side, refill := if x.refill = .fault then .idle else x.refill }) :
    chan (checkOver c (refillTest c (evalSupply c s))) c = x.promoted side s.params.refillMark := by
  have params : (evalSupply c s).params = s.params := params_of_supply (evalSupply_kept c s)
  have rsc : (evalSupply c s).rsc = s.rsc := rsc_of_supply (evalSupply_kept c s)
  rw [chan_checkOver, chan_refillTest, refillDue, params, rsc, chan_evalSupply, hx, Channel.promoted]
  cases hr : x.refill <;> simp [supplyOf, hp]

theorem chan_promote (b : Fin 12) (s : State) (hp : s.rsc.power = .run) :
    chan (promote b s) (channelOf b) = (chan s (channelOf b)).promoted (sideOf b) s.params.refillMark :=
  chan_followUp_promoted (s := makeActive b s) hp (chan_makeActive b s)

@[simp] theorem bay_promote (b : Fin 12) (s : State) :
    bay (promote b s) b = { bay s b with state := .active, dry := 0 } := by
  simp [promote]

theorem bay_promote_other {b d : Fin 12} (s : State) (h : b ≠ d) : bay (promote b s) d = bay s d := by
  simp [promote, bay_makeActive_other s h]

@[simp] theorem bus_promote (b : Fin 12) (s : State) : (promote b s).spu.bus = s.spu.bus := by
  simp [promote]

theorem untold_promote {k : EventKind} (b : Fin 12) (s : State) (n : k ≠ .overcommitted) (m : k ≠ .channelStarved) :
    Untold k s (promote b s) :=
  (untold_of_evu (t := makeActive b s) rfl).trans (untold_followUp _ _ n m)

/-! ### Entering STANDBY (R6, R8, R12) -/

/-- Bay `b` stands by, BAY_LOW raised if it is below its mark, and R54's check made: what precedes a promotion. -/
def stoodBy (b : Fin 12) (s : State) : State :=
  let t := setBay s b { bay s b with state := .standby }
  checkOver (channelOf b) (if (bay s b).estimate < bayLowLine s (bay s b) then raise .bayLow (one b.val) none t else t)

@[simp] theorem chan_stoodBy (b : Fin 12) (s : State) (c : Fin 6) : chan (stoodBy b s) c = chan s c := by
  unfold stoodBy
  dsimp only
  split <;> simp

@[simp] theorem bay_stoodBy (b : Fin 12) (s : State) : bay (stoodBy b s) b = { bay s b with state := .standby } := by
  unfold stoodBy
  dsimp only
  split <;> simp

@[simp] theorem bus_stoodBy (b : Fin 12) (s : State) : (stoodBy b s).spu.bus = s.spu.bus := by
  unfold stoodBy
  dsimp only
  split <;> simp

theorem stoodBy_confined (b : Fin 12) (s : State) : Confined (channelOf b) s (stoodBy b s) := by
  refine .trans ?_ (checkOver_confined _ _ _)
  split
  · exact (setBay_confined _ s rfl).trans (raise_confined _ _ _ _ _)
  · exact setBay_confined _ s rfl

/-- An entry into STANDBY raises BAY_LOW for a bay below its mark (R12). -/
theorem told_stoodBy (b : Fin 12) (s : State) (h : (bay s b).estimate < bayLowLine s (bay s b)) :
    Told .bayLow (one b.val) none s (stoodBy b s) := by
  unfold stoodBy
  dsimp only
  rw [if_pos h]
  exact ((untold_of_evu rfl).trans_told (told_raise _ _ _ _)).trans_untold (untold_checkOver _ _ (by decide))

theorem untold_stoodBy {k : EventKind} (b : Fin 12) (s : State) (n : k ≠ .overcommitted)
    (h : k = .bayLow → ¬ (bay s b).estimate < bayLowLine s (bay s b)) : Untold k s (stoodBy b s) := by
  refine .trans ?_ (untold_checkOver _ _ n)
  split
  · next low => exact (untold_of_evu rfl).trans (untold_raise _ _ _ fun e => h e.symm low)
  · exact untold_of_evu rfl

/-- An entry into STANDBY promotes the bay of a channel without an active bay, and asks for a PRIME request unless the bay
came by a scan read (R8, R14). -/
theorem enterStandby_eq (b : Fin 12) (s : State) :
    enterStandby b s =
      if (chan s (channelOf b)).active = none then (promote b (stoodBy b s), !(bay s b).scanRead)
      else (stoodBy b s, false) := by
  have h := chan_stoodBy b s (channelOf b)
  unfold enterStandby
  simp only [Option.isNone_iff_eq_none]
  rw [← h]
  rfl

/-! ### Switchover (R11) -/

@[simp] theorem bus_switchover (c : Fin 6) (side : Side) (s : State) : (switchover c side s).spu.bus = s.spu.bus := by
  unfold switchover
  dsimp only
  split
  · split <;> simp
  · simp

theorem chan_switchover_standby {c : Fin 6} {side : Side} {s : State} (hp : s.rsc.power = .run)
    (h : (bay s (bayOf c side.other)).state = .standby) :
    chan (switchover c side s) c =
      (if (chan s c).refill = .refilling then { chan s c with strokes := 0 } else chan s c).promoted side.other
        s.params.refillMark := by
  have active := chan_makeActive (bayOf c side.other) s
  rw [channelOf_bayOf, sideOf_bayOf] at active
  unfold switchover
  dsimp only
  rw [if_pos h]
  split
  · next refilling =>
    exact chan_followUp_promoted (s := raise _ _ _ (setChan _ c _)) hp (by rw [chan_raise, chan_setChan, active])
  · exact chan_followUp_promoted (s := raise _ _ _ (makeActive (bayOf c side.other) s)) hp active

theorem bay_switchover_standby {c : Fin 6} {side : Side} {s : State}
    (h : (bay s (bayOf c side.other)).state = .standby) :
    bay (switchover c side s) (bayOf c side.other) =
      { bay s (bayOf c side.other) with state := .active, dry := 0 } := by
  unfold switchover
  dsimp only
  rw [if_pos h]
  split <;> simp

/-- A switchover leaves the bay that has left ACTIVE as it is. -/
theorem bay_switchover_same (c : Fin 6) (side : Side) (s : State) :
    bay (switchover c side s) (bayOf c side) = bay s (bayOf c side) := by
  have active := bay_makeActive_other s (b := bayOf c side.other) (d := bayOf c side) (by simp)
  unfold switchover
  dsimp only
  split
  · split <;> simp [active]
  · simp

theorem chan_switchover_none {c : Fin 6} {side : Side} {s : State}
    (h : (bay s (bayOf c side.other)).state ≠ .standby) :
    chan (switchover c side s) c =
      (let x := chan s c
       let y : Channel :=
        { x with active := none, refill := if x.refill = .refilling ∧ x.stroke = .none then .idle else x.refill }
       { y with supply := supplyOf s.params.reserveMark y }) := by
  unfold switchover
  dsimp only
  rw [if_neg h]
  simp

theorem bay_switchover_none {c : Fin 6} {side : Side} {s : State}
    (h : (bay s (bayOf c side.other)).state ≠ .standby) (b : Fin 12) : bay (switchover c side s) b = bay s b := by
  unfold switchover
  dsimp only
  rw [if_neg h]
  simp

/-- A switchover to the other bay raises SWITCHOVER (R11). -/
theorem told_switchover {c : Fin 6} {side : Side} {s : State} (h : (bay s (bayOf c side.other)).state = .standby) :
    Told .switchover (one (bayOf c side.other).val) none s (switchover c side s) := by
  unfold switchover
  dsimp only
  rw [if_pos h]
  refine Told.trans_untold ?_ (untold_followUp c _ (by decide) (by decide))
  split <;> exact (untold_of_evu rfl).trans_told (told_raise _ _ _ _)

theorem untold_switchover {k : EventKind} {c : Fin 6} {side : Side} {s : State} (n : k ≠ .overcommitted)
    (m : k ≠ .channelStarved) (h : k = .switchover → (bay s (bayOf c side.other)).state ≠ .standby) :
    Untold k s (switchover c side s) := by
  unfold switchover
  dsimp only
  split
  · next standby =>
    have raised : ∀ t : State, Untold k t (raise .switchover (one (bayOf c side.other).val) none t) :=
      fun t => untold_raise _ _ _ fun e => h e.symm standby
    refine .trans ?_ (untold_followUp c _ n m)
    split <;> exact (untold_of_evu rfl).trans (raised _)
  · exact .trans (.trans (t := setChan s c _) (untold_of_evu rfl) (untold_evalSupply c _ m)) (untold_checkOver c _ n)

/-! ### Removal of a cartridge (R10) -/

theorem removeBay_inactive {b : Fin 12} {s : State} (h : (bay s b).state ≠ .active) :
    removeBay b s = checkOver (channelOf b) (onBus (·.removeChip (.bay b)) (setBay s b Bay.reset)) :=
  if_neg h

/-- The channel record as an active bay of `side` is taken out: a stroke from it is LOST. -/
def Channel.strokeLost (x : Channel) (side : Side) : Channel :=
  { x with stroke := if x.stroke = strokeFrom (some side) then .lost else x.stroke }

theorem removeBay_active {b : Fin 12} {s : State} (h : (bay s b).state = .active) :
    removeBay b s =
      switchover (channelOf b) (sideOf b)
        (setChan (onBus (·.removeChip (.bay b)) (setBay s b Bay.reset)) (channelOf b)
          ((chan s (channelOf b)).strokeLost (sideOf b))) :=
  if_pos h

theorem removeBay_confined (b : Fin 12) (s : State) : Confined (channelOf b) s (removeBay b s) := by
  have gone : Confined (channelOf b) s (onBus (·.removeChip (.bay b)) (setBay s b Bay.reset)) :=
    (setBay_confined _ s rfl).trans (onBus_confined _ _ _)
  by_cases h : (bay s b).state = .active
  · rw [removeBay_active h]
    exact (gone.trans (setChan_confined _ _ _)).trans (switchover_confined _ _ _)
  · rw [removeBay_inactive h]
    exact gone.trans (checkOver_confined _ _ _)

/-! ### Strokes (R15, R16) -/

/-- The ink-present sensor of bay `b` has been sampled. -/
def inkSampled (b : Fin 12) (ink : Bool) (s : State) : State :=
  { s with pins := { s.pins with ink := vset s.pins.ink b ink } }

/-- A dry stroke from bay `b`, counted on the bay and on the channel. -/
def dryStroke (c : Fin 6) (b : Fin 12) (s : State) : State :=
  strokeCounted c (setBay s b { bay s b with dry := (bay s b).dry + 1 })

theorem strokeDone_none {c : Fin 6} {s : State} (ink : Bool) (h : (chan s c).stroke = .none) : strokeDone c ink s = s := by
  simp only [strokeDone, h]

theorem strokeDone_lost {c : Fin 6} {s : State} (ink : Bool) (h : (chan s c).stroke = .lost) :
    strokeDone c ink s =
      checkOver c (evalSupply c (strokeNext c (strokeCounted c (creditTank c (s.params.strokeVolume.get c) s)))) := by
  simp only [strokeDone, h]

@[simp] theorem chan_inkSampled (b : Fin 12) (ink : Bool) (s : State) (c : Fin 6) :
    chan (inkSampled b ink s) c = chan s c := rfl

@[simp] theorem bay_inkSampled (b : Fin 12) (ink : Bool) (s : State) (d : Fin 12) :
    bay (inkSampled b ink s) d = bay s d := rfl

@[simp] theorem bay_dryStroke (c : Fin 6) (b : Fin 12) (s : State) :
    bay (dryStroke c b s) b = { bay s b with dry := (bay s b).dry + 1 } :=
  bay_setBay s b _

@[simp] theorem chan_dryStroke (c : Fin 6) (b : Fin 12) (s : State) :
    chan (dryStroke c b s) c =
      { chan s c with stroke := .none, strokes := sat Config.u8Max ((chan s c).strokes + 1) } :=
  chan_setChan _ _ _

/-- A stroke that draws from a bay, with ink, dry for the first time and dry again (R15). -/
theorem strokeDone_from {c : Fin 6} {side : Side} {s : State} (ink : Bool)
    (h : (chan s c).stroke = strokeFrom (some side)) :
    strokeDone c ink s =
      (let b := bayOf c side
       let u := inkSampled b ink s
       if ink then checkOver c (evalSupply c (strokeNext c (strokeCounted c (strokeInk c b u))))
       else if (bay (dryStroke c b u) b).dry ≥ 2 then strokeAfterSwitch c (switchover c side (bayOut b (dryStroke c b u)))
       else checkOver c (evalSupply c (strokeNext c (dryStroke c b u)))) := by
  cases side <;> simp only [strokeDone, h, strokeFrom, strokeBay, sideOf_bayOf] <;> rfl

@[simp] theorem chan_creditTank (c : Fin 6) (n : Nat) (s : State) :
    chan (creditTank c n s) c =
      { chan s c with
        estimate := min ((chan s c).estimate + n) Config.subTankMax
        drift := sat32 ((chan s c).drift - (((chan s c).estimate + n - Config.subTankMax : Nat) : Int)) } :=
  chan_setChan _ _ _

@[simp] theorem chan_strokeCounted (c : Fin 6) (s : State) :
    chan (strokeCounted c s) c =
      { chan s c with stroke := .none, strokes := sat Config.u8Max ((chan s c).strokes + 1) } :=
  chan_setChan _ _ _

@[simp] theorem bay_strokeCounted (c : Fin 6) (s : State) (b : Fin 12) : bay (strokeCounted c s) b = bay s b := rfl

@[simp] theorem bay_creditTank (c : Fin 6) (n : Nat) (s : State) (b : Fin 12) : bay (creditTank c n s) b = bay s b := rfl

theorem strokeCounted_confined (c : Fin 6) (s : State) : Confined c s (strokeCounted c s) := setChan_confined c _ s

theorem creditTank_confined (c : Fin 6) (n : Nat) (s : State) : Confined c s (creditTank c n s) := setChan_confined c _ s

theorem dryStroke_confined (c : Fin 6) (side : Side) (s : State) : Confined c s (dryStroke c (bayOf c side) s) :=
  (setBay_confined _ s (channelOf_bayOf c side)).trans (strokeCounted_confined c _)

/-- What becomes of a channel record after a stroke (R15 cases 2 to 4, R16), R2's evaluation made. -/
def Channel.afterStroke (x : Channel) (maxStrokes reserve : Nat) : Channel :=
  let y : Channel :=
    if x.float = .high ∨ x.active = none then { x with refill := .idle }
    else if maxStrokes ≤ x.strokes then { x with refill := .fault }
    else { x with stroke := strokeFrom x.active }
  { y with supply := supplyOf reserve y }

theorem strokeNext_confined (c : Fin 6) (s : State) : Confined c s (strokeNext c s) := by
  unfold strokeNext
  dsimp only
  split
  · exact setChan_confined c _ s
  · split
    · exact ((setChan_confined c _ s).trans (raise_confined c _ _ _ _)).trans (evalSupply_confined c _)
    · exact setChan_confined c _ s

theorem chan_strokeEnd (c : Fin 6) (s : State) :
    chan (checkOver c (evalSupply c (strokeNext c s))) c =
      (chan s c).afterStroke s.params.maxStrokes s.params.reserveMark := by
  rw [chan_checkOver, chan_evalSupply, (strokeNext_confined c s).params]
  unfold strokeNext Channel.afterStroke
  dsimp only
  split
  · simp
  · split <;> simp [supplyOf]

@[simp] theorem bay_strokeNext (c : Fin 6) (s : State) (b : Fin 12) : bay (strokeNext c s) b = bay s b := by
  unfold strokeNext
  dsimp only
  repeat' split
  all_goals simp

@[simp] theorem bus_strokeNext (c : Fin 6) (s : State) : (strokeNext c s).spu.bus = s.spu.bus := by
  unfold strokeNext
  dsimp only
  repeat' split
  all_goals simp

theorem strokeEnd_confined (c : Fin 6) (s : State) :
    Confined c s (checkOver c (evalSupply c (strokeNext c s))) :=
  ((strokeNext_confined c s).trans (evalSupply_confined c _)).trans (checkOver_confined c c _)

/-- A refill that has reached its last stroke raises REFILL_FAULT (R16). -/
theorem told_strokeEnd {c : Fin 6} {s : State} (f : (chan s c).float ≠ .high) (a : (chan s c).active ≠ none)
    (m : s.params.maxStrokes ≤ (chan s c).strokes) :
    Told .refillFault (one c.val) none s (checkOver c (evalSupply c (strokeNext c s))) := by
  refine Told.trans_untold (Told.trans_untold ?_ (untold_evalSupply c _ (by decide))) (untold_checkOver c _ (by decide))
  unfold strokeNext
  dsimp only
  rw [if_neg (by simp [f, a]), if_pos m]
  exact ((untold_of_evu rfl).trans_told (told_raise _ _ _ _)).trans_untold (untold_evalSupply c _ (by decide))

theorem untold_strokeEnd {k : EventKind} {c : Fin 6} {s : State} (n : k ≠ .overcommitted) (m : k ≠ .channelStarved)
    (h : k = .refillFault →
      ¬ ((chan s c).float ≠ .high ∧ (chan s c).active ≠ none ∧ s.params.maxStrokes ≤ (chan s c).strokes)) :
    Untold k s (checkOver c (evalSupply c (strokeNext c s))) := by
  refine ((Untold.trans ?_ (untold_evalSupply c _ m)).trans (untold_checkOver c _ n))
  unfold strokeNext
  dsimp only
  split
  · exact untold_of_evu rfl
  · next goesOn =>
    split
    · next last =>
      refine ((untold_of_evu rfl).trans (untold_raise _ _ _ fun e => ?_)).trans (untold_evalSupply c _ m)
      exact h e.symm (by simpa [not_or, last, and_assoc] using goesOn)
    · exact untold_of_evu rfl

/-! ### A stroke that draws ink (R12, R15, R21) -/

/-- The record of a bay that a stroke has drawn `vol` nL from: the debit, its drawn-since-write cleared at a write-back. -/
def Bay.drawnFrom (x : Bay) (vol : Nat) : Bay :=
  if Config.writeBackStep ≤ (x.debit vol).drawn then (x.debit vol).clearDrawn else x.debit vol

/-- A stroke of `vol` nL takes bay `b` from its mark or above to below it (R12). -/
def fallsLow (b : Fin 12) (vol : Nat) (s : State) : Prop :=
  bayLowLine s (bay s b) ≤ (bay s b).estimate ∧ ((bay s b).debit vol).estimate < bayLowLine s (bay s b)

/-- The event of a stroke of `vol` nL from bay `b`: BAY_LOW as the bay falls below its mark (R12). -/
def lowTold (b : Fin 12) (vol : Nat) (s : State) : State :=
  if bayLowLine s (bay s b) ≤ (bay s b).estimate ∧ ((bay s b).debit vol).estimate < bayLowLine s (bay s b) then
    raise .bayLow (one b.val) none s
  else s

/-- The bay's part of a stroke of `vol` nL: its record, and the write-back at 1,000,000 nL drawn (R15, R21). -/
def inkDrawn (b : Fin 12) (vol : Nat) (s : State) : State :=
  let t := setBay s b ((bay s b).drawnFrom vol)
  if Config.writeBackStep ≤ ((bay s b).debit vol).drawn then onBus (·.pushWrite (.bay b)) t else t

@[simp] theorem lowTold_spu (b : Fin 12) (vol : Nat) (s : State) : (lowTold b vol s).spu = s.spu := by
  unfold lowTold
  split <;> rfl

@[simp] theorem chan_lowTold (b : Fin 12) (vol : Nat) (s : State) (c : Fin 6) : chan (lowTold b vol s) c = chan s c := by
  simp [chan]

@[simp] theorem bay_lowTold (b : Fin 12) (vol : Nat) (s : State) (d : Fin 12) : bay (lowTold b vol s) d = bay s d := by
  simp [bay]

@[simp] theorem chan_inkDrawn (b : Fin 12) (vol : Nat) (s : State) (c : Fin 6) :
    chan (inkDrawn b vol s) c = chan s c := by
  unfold inkDrawn
  dsimp only
  split <;> rfl

@[simp] theorem bay_inkDrawn (b : Fin 12) (vol : Nat) (s : State) :
    bay (inkDrawn b vol s) b = (bay s b).drawnFrom vol := by
  unfold inkDrawn
  dsimp only
  split <;> simp

theorem bus_inkDrawn (b : Fin 12) (vol : Nat) (s : State) :
    (inkDrawn b vol s).spu.bus =
      if Config.writeBackStep ≤ ((bay s b).debit vol).drawn then s.spu.bus.pushWrite (.bay b) else s.spu.bus := by
  unfold inkDrawn
  dsimp only
  split <;> rfl

theorem inkDrawn_evu (b : Fin 12) (vol : Nat) (s : State) : (inkDrawn b vol s).evu = s.evu := by
  unfold inkDrawn
  dsimp only
  split <;> rfl

theorem inkDrawn_confined {c : Fin 6} {b : Fin 12} (vol : Nat) (s : State) (h : channelOf b = c) :
    Confined c s (inkDrawn b vol s) := by
  unfold inkDrawn
  dsimp only
  split
  · exact (setBay_confined _ s h).trans (onBus_confined c _ _)
  · exact setBay_confined _ s h

theorem lowTold_confined (c : Fin 6) (b : Fin 12) (vol : Nat) (s : State) : Confined c s (lowTold b vol s) := by
  unfold lowTold
  split
  · exact raise_confined c _ _ _ s
  · exact .refl c s

theorem told_lowTold {b : Fin 12} {vol : Nat} {s : State} (h : fallsLow b vol s) :
    Told .bayLow (one b.val) none s (lowTold b vol s) := by
  unfold fallsLow at h
  rw [lowTold, if_pos h]
  exact told_raise _ _ _ s

theorem untold_lowTold {k : EventKind} {b : Fin 12} {vol : Nat} {s : State} (h : k = .bayLow → ¬ fallsLow b vol s) :
    Untold k s (lowTold b vol s) := by
  unfold lowTold
  split
  · next low => exact untold_raise _ _ _ fun e => h e.symm low
  · exact .refl k s

/-- A stroke that draws ink: the event, the bay's debit, the sub-tank's credit (R15). -/
theorem strokeInk_eq (c : Fin 6) (b : Fin 12) (s : State) :
    strokeInk c b s =
      (let vol := s.params.strokeVolume.get c
       creditTank c vol (inkDrawn b vol (lowTold b vol s))) := by
  simp only [strokeInk, inkDrawn, Bay.drawnFrom, bay_lowTold]
  split <;> rfl

/-! ### A bay that runs out (R15 case 1) -/

@[simp] theorem chan_bayOut (b : Fin 12) (s : State) (c : Fin 6) : chan (bayOut b s) c = chan s c := rfl

@[simp] theorem bay_bayOut (b : Fin 12) (s : State) :
    bay (bayOut b s) b =
      { (bay s b).clearDrawn with state := .out, ink := (bay s b).ink.map fun i => { i with estimate := 0 } } := by
  simp [bayOut]

theorem bay_bayOut_other {b d : Fin 12} (s : State) (h : b ≠ d) : bay (bayOut b s) d = bay s d := by
  simp [bayOut, bay_setBay_other _ _ h]

theorem bayOut_confined {c : Fin 6} {b : Fin 12} (s : State) (h : channelOf b = c) : Confined c s (bayOut b s) := by
  unfold bayOut
  exact ((setBay_confined _ s h).trans (raise_confined c _ _ _ _)).trans (onBus_confined c _ _)

theorem chan_strokeAfterSwitch (c : Fin 6) (s : State) :
    chan (strokeAfterSwitch c s) c =
      if (chan s c).refill = .refilling then
        if (chan s c).float = .high then { chan s c with refill := .idle }
        else { chan s c with stroke := strokeFrom (chan s c).active }
      else chan s c := by
  unfold strokeAfterSwitch
  dsimp only
  repeat' split
  all_goals simp

@[simp] theorem bay_strokeAfterSwitch (c : Fin 6) (s : State) (b : Fin 12) :
    bay (strokeAfterSwitch c s) b = bay s b := by
  unfold strokeAfterSwitch
  dsimp only
  repeat' split
  all_goals rfl

theorem strokeAfterSwitch_evu (c : Fin 6) (s : State) : (strokeAfterSwitch c s).evu = s.evu := by
  unfold strokeAfterSwitch
  dsimp only
  repeat' split
  all_goals rfl

theorem bus_strokeAfterSwitch (c : Fin 6) (s : State) : (strokeAfterSwitch c s).spu.bus = s.spu.bus := by
  unfold strokeAfterSwitch
  dsimp only
  repeat' split
  all_goals rfl

theorem strokeAfterSwitch_confined (c : Fin 6) (s : State) : Confined c s (strokeAfterSwitch c s) := by
  unfold strokeAfterSwitch
  dsimp only
  repeat' split
  · exact setChan_confined c _ s
  · exact setChan_confined c _ s
  · exact .refl c s

/-! ### The float and debits (R18, R19) -/

/-- The channel record as its float changes to `f`: the estimate corrected, the correction in drift (R18). -/
def Channel.floated (x : Channel) (f : FloatLevel) : Channel :=
  let est := match f with
    | .high => Config.floatHighMark
    | .mid => x.estimate
    | .low => min x.estimate Config.floatLowMark
  { x with float := f, estimate := est, drift := sat32 (x.drift + ((est : Int) - x.estimate)) }

theorem floatTo_eq (c : Fin 6) (f : FloatLevel) (s : State) :
    floatTo c f s = checkOver c (evalSupply c (refillTest c (setChan s c ((chan s c).floated f)))) := rfl

theorem debitTank_eq (c : Fin 6) (n : Nat) (s : State) :
    debitTank c n s =
      evalSupply c (refillTest c (setChan s c { chan s c with estimate := (chan s c).estimate - n })) := rfl

end Sys2Proof.Machine
end

