-- ==== Sys2Proof/Proofs/SupplyPart.lean ====
section
/-!
SUPPORT. The operations of the bus and of the other blocks leave the records of the channels and bays and the reserve mark
alone: one lemma per operation, in the order of the model's files.
-/

namespace Sys2Proof.Machine

/-- The records of the channels and bays with the reserve mark: all that the laws of chapter 1 speak of. -/
def supplyPart (s : State) : Vector Channel 6 × Vector Bay 12 × Nat :=
  (s.spu.channels, s.spu.bays, s.params.reserveMark)

theorem supplyPart_of_station {s t : State} (h : keptByStation t = keptByStation s) : supplyPart t = supplyPart s := by
  simp only [keptByStation, Prod.mk.injEq] at h
  simp only [supplyPart, h]

theorem supplyPart_of_kept {s t : State} (h : keptBySupply t = keptBySupply s) (hs : t.spu = s.spu) :
    supplyPart t = supplyPart s := by
  simp only [supplyPart, params_of_supply h, hs]

/-! ### Single records -/

@[simp] theorem supplyPart_raise (k : EventKind) (m : BitVec 16) (d : Option Detail) (s : State) :
    supplyPart (raise k m d s) = supplyPart s := rfl
@[simp] theorem supplyPart_raiseOn (p : Port) (k : EventKind) (d : Option Detail) (s : State) :
    supplyPart (raiseOn p k d s) = supplyPart s := rfl
@[simp] theorem supplyPart_onBus (f : Bus → Bus) (s : State) : supplyPart (onBus f s) = supplyPart s := rfl
@[simp] theorem supplyPart_setBook (s : State) (c : Fin 6) (x : Book) : supplyPart (setBook s c x) = supplyPart s := rfl
@[simp] theorem supplyPart_setWaste (w : Waste) (s : State) : supplyPart (setWaste w s) = supplyPart s := rfl
@[simp] theorem supplyPart_setEntry (s : State) (h : Fin 3) (x : CleanEntry) :
    supplyPart (setEntry s h x) = supplyPart s := rfl
@[simp] theorem supplyPart_setCls (x : Cls) (s : State) : supplyPart (setCls x s) = supplyPart s := rfl
@[simp] theorem supplyPart_setHealth (s : State) (c : Fin 6) (x : Health) :
    supplyPart (setHealth s c x) = supplyPart s := rfl
@[simp] theorem supplyPart_setDtu (x : Dtu) (s : State) : supplyPart (setDtu x s) = supplyPart s := rfl
@[simp] theorem supplyPart_setExposure (s : State) (h : Fin 3) (x : Exposure) :
    supplyPart (setExposure s h x) = supplyPart s := rfl
@[simp] theorem supplyPart_setSource (s : State) (a : Source) (x : SourceRec) :
    supplyPart (setSource s a x) = supplyPart s := rfl
@[simp] theorem supplyPart_setFdc (x : Fdc) (s : State) : supplyPart (setFdc x s) = supplyPart s := rfl
@[simp] theorem supplyPart_setPath (x : Path) (s : State) : supplyPart (setPath x s) = supplyPart s := rfl
@[simp] theorem supplyPart_setEngine (s : State) (p : Port) (x : Engine) :
    supplyPart (setEngine s p x) = supplyPart s := rfl
@[simp] theorem supplyPart_setStc (x : Stc) (s : State) : supplyPart (setStc x s) = supplyPart s := rfl
@[simp] theorem supplyPart_setOrq (x : Orq) (s : State) : supplyPart (setOrq x s) = supplyPart s := rfl

@[simp] theorem supplyPart_foldRequest (h : Fin 3) (l : Level) (u : Bool) (o : OriginSet) (s : State) :
    supplyPart (foldRequest h l u o s) = supplyPart s := rfl
@[simp] theorem supplyPart_beginTransaction (p : Port) (s : State) :
    supplyPart (beginTransaction p s) = supplyPart s := rfl
@[simp] theorem supplyPart_countError (p : Port) (e : ErrorKind) (s : State) :
    supplyPart (countError p e s) = supplyPart s := rfl
@[simp] theorem supplyPart_answer (p : Port) (k : Kind) (r : Result) (b : List Byte) (s : State) :
    supplyPart (answer p k r b s) = supplyPart s := rfl
@[simp] theorem supplyPart_holdSlot (p : Port) (k : Kind) (s : State) : supplyPart (holdSlot p k s) = supplyPart s := rfl
@[simp] theorem supplyPart_done (s : State) : supplyPart (Run.done s).1 = supplyPart s := rfl
@[simp] theorem supplyPart_reply (p : Port) (k : Kind) (r : Result) (b : List Byte) (s : State) :
    supplyPart (reply p k r b s).1 = supplyPart s := rfl
@[simp] theorem supplyPart_plus (r : Run) (acts : List Act) : supplyPart (r.plus acts).1 = supplyPart r.1 := rfl
@[simp] theorem supplyPart_andThen (r : Run) (f : State → Run) :
    supplyPart (r.andThen f).1 = supplyPart (f r.1).1 := rfl

/-! ### Page Admission Unit -/

@[simp] theorem supplyPart_checkOver (c : Fin 6) (s : State) : supplyPart (checkOver c s) = supplyPart s :=
  supplyPart_of_kept (checkOver_kept c s) (checkOver_spu c s)

@[simp] theorem supplyPart_checkOverAll (cs : List (Fin 6)) (s : State) :
    supplyPart (checkOverAll cs s) = supplyPart s :=
  foldl_kept supplyPart _ (fun s c => supplyPart_checkOver c s) cs s

@[simp] theorem supplyPart_modOldest (f : Page → Page) (s : State) : supplyPart (modOldest f s) = supplyPart s := by
  unfold modOldest; split <;> rfl

@[simp] theorem supplyPart_pauAdvanceBegins (tag : Nat) (s : State) :
    supplyPart (pauAdvanceBegins tag s) = supplyPart s := by
  unfold pauAdvanceBegins; split <;> simp

@[simp] theorem supplyPart_pauAdvanceDone (tag d : Nat) (s : State) :
    supplyPart (pauAdvanceDone tag d s) = supplyPart s := by
  unfold pauAdvanceDone; split <;> simp

@[simp] theorem supplyPart_pauJam (s : State) : supplyPart (pauJam s) = supplyPart s := supplyPart_modOldest _ s

@[simp] theorem supplyPart_pauReport (tag : Nat) (d : Destination) (v : Vector Nat 6) (s : State) :
    supplyPart (pauReport tag d v s) = supplyPart s := by
  unfold pauReport
  split
  · rfl
  · split
    · simp
    · rfl

@[simp] theorem supplyPart_joinTable (e : Page) (s : State) : supplyPart (joinTable e s) = supplyPart s :=
  supplyPart_checkOverAll _ _

@[simp] theorem supplyPart_endPage (e : Page) (a : Bool) (s : State) : supplyPart (endPage e a s) = supplyPart s :=
  supplyPart_checkOverAll _ _

/-! ### The waste account's state and the service side of a report -/

@[simp] theorem supplyPart_wasteDebit (n : Nat) (s : State) : supplyPart (wasteDebit n s) = supplyPart s := by
  unfold wasteDebit; dsimp only; split <;> rfl

@[simp] theorem supplyPart_wasteEvent (w : WasteState) (s : State) : supplyPart (wasteEvent w s) = supplyPart s := by
  cases w <;> rfl

@[simp] theorem supplyPart_wasteWriteBack (s : State) : supplyPart (wasteWriteBack s) = supplyPart s := by
  unfold wasteWriteBack
  dsimp only
  repeat' split
  all_goals simp

@[simp] theorem supplyPart_testWaste (s : State) : supplyPart (testWaste s).1 = supplyPart s := by
  unfold testWaste
  cases h : s.uau.waste.fittedData with
  | none => simp only [h, supplyPart_done]
  | some d =>
    simp only [h]
    exact kept_ite supplyPart (supplyPart_wasteWriteBack s)
      ((supplyPart_wasteWriteBack _).trans ((supplyPart_wasteEvent _ _).trans (supplyPart_setWaste _ s)))

@[simp] theorem supplyPart_insertWaste (s : State) : supplyPart (insertWaste s).1 = supplyPart s := by
  unfold insertWaste; split <;> rfl

@[simp] theorem supplyPart_fitWaste (r : Vector Byte 6) (s : State) : supplyPart (fitWaste r s).1 = supplyPart s := by
  unfold fitWaste
  exact kept_ite supplyPart (supplyPart_setWaste _ s) ((supplyPart_wasteEvent _ _).trans (supplyPart_setWaste _ s))

@[simp] theorem supplyPart_wasteFault (s : State) : supplyPart (wasteFault s).1 = supplyPart s := rfl

@[simp] theorem supplyPart_removeWaste (s : State) : supplyPart (removeWaste s).1 = supplyPart s := by
  unfold removeWaste; split <;> rfl

@[simp] theorem supplyPart_addDrops (body : List Byte) (h : Fin 3) (s : State) :
    supplyPart (addDrops body h s) = supplyPart s := by
  unfold addDrops; dsimp only; split <;> simp

@[simp] theorem supplyPart_headFired (h : Fin 3) (s : State) : supplyPart (headFired h s) = supplyPart s := rfl

@[simp] theorem supplyPart_reportService (body : List Byte) (d : Destination) (s : State) :
    supplyPart (reportService body d s) = supplyPart s := by
  unfold reportService
  dsimp only
  rw [foldl_kept supplyPart _ (fun s h => by split <;> simp)]
  split
  · exact foldl_kept supplyPart _ (fun s h => supplyPart_addDrops body h s) _ s
  · rfl

/-! ### Order Queue -/

@[simp] theorem supplyPart_enterOrder (b : OrderBody) (o : Origin) (s : State) :
    supplyPart (enterOrder b o s) = supplyPart s := supplyPart_of_station (enterOrder_keptS b o s)

@[simp] theorem supplyPart_placeOrder (w : Placer) (b : OrderBody) (s : State) :
    supplyPart (placeOrder w b s).1 = supplyPart s := supplyPart_of_station (placeOrder_keptS w b s)

@[simp] theorem supplyPart_enterWaiting (s : State) : supplyPart (enterWaiting s).1 = supplyPart s :=
  supplyPart_of_station (enterWaiting_keptS s)

@[simp] theorem supplyPart_withdraw (w : Placer) (s : State) : supplyPart (withdraw w s) = supplyPart s := rfl

@[simp] theorem supplyPart_removeQueued (o : Origin) (s : State) : supplyPart (removeQueued o s).1 = supplyPart s := rfl

@[simp] theorem supplyPart_beginSample (o : Order) (s : State) : supplyPart (beginSample o s) = supplyPart s := by
  unfold beginSample; split <;> rfl

@[simp] theorem supplyPart_takeOldest (s : State) : supplyPart (takeOldest s) = supplyPart s := by
  unfold takeOldest; split <;> simp

@[simp] theorem supplyPart_endTaken (o : Order) (how : OrderEnd) (s : State) :
    supplyPart (endTaken o how s).1 = supplyPart s := rfl

@[simp] theorem supplyPart_orderTimeout (o : Order) (s : State) : supplyPart (orderTimeout o s).1 = supplyPart s := by
  simp [orderTimeout]

@[simp] theorem supplyPart_returnTaken (s : State) : supplyPart (returnTaken s).1 = supplyPart s := by
  unfold returnTaken
  split
  · rfl
  · split <;> rfl

@[simp] theorem supplyPart_strobe (e : Edge) (s : State) : supplyPart (strobe e s) = supplyPart s := by
  unfold strobe
  split
  · split <;> rfl
  · rfl

@[simp] theorem supplyPart_takeSample (i : Bool) (s : State) : supplyPart (takeSample i s) = supplyPart s := by
  unfold takeSample
  split
  · rfl
  · split <;> rfl

/-! ### Station Controller and exposure timers -/

@[simp] theorem supplyPart_exposureSpit (h : Fin 3) (s : State) : supplyPart (exposureSpit h s) = supplyPart s :=
  supplyPart_of_station (exposureSpit_keptS h s)

@[simp] theorem supplyPart_raiseExposed (h : Fin 3) (s : State) : supplyPart (raiseExposed h s) = supplyPart s :=
  supplyPart_of_station (raiseExposed_keptS h s)

@[simp] theorem supplyPart_extEntry (s : State) : supplyPart (extEntry s).1 = supplyPart s :=
  supplyPart_of_station (extEntry_keptS s)

@[simp] theorem supplyPart_exposureExpires (h : Fin 3) (s : State) :
    supplyPart (exposureExpires h s).1 = supplyPart s := by
  unfold exposureExpires; dsimp only; split <;> simp

@[simp] theorem supplyPart_sledCommand (e : SledEnd) (s : State) : supplyPart (sledCommand e s).1 = supplyPart s :=
  supplyPart_of_station (sledCommand_keptS e s)

@[simp] theorem supplyPart_wiperCommand (e : WiperEnd) (s : State) : supplyPart (wiperCommand e s).1 = supplyPart s := rfl

@[simp] theorem supplyPart_holderSled (e : SledEnd) (s : State) : supplyPart (holderSled e s).1 = supplyPart s := by
  unfold holderSled; split <;> simp

@[simp] theorem supplyPart_holderWiper (e : WiperEnd) (s : State) : supplyPart (holderWiper e s).1 = supplyPart s := by
  unfold holderWiper; split <;> simp

@[simp] theorem supplyPart_sledArrives (s : State) : supplyPart (sledArrives s).1 = supplyPart s := by
  unfold sledArrives; split <;> rfl

@[simp] theorem supplyPart_wiperArrives (s : State) : supplyPart (wiperArrives s).1 = supplyPart s := by
  unfold wiperArrives; split <;> rfl

@[simp] theorem supplyPart_joinSelector (h : Fin 3) (s : State) : supplyPart (joinSelector h s) = supplyPart s := by
  unfold joinSelector; split <;> rfl

@[simp] theorem supplyPart_releaseSelector (s : State) : supplyPart (releaseSelector s) = supplyPart s := by
  unfold releaseSelector; split <;> rfl

@[simp] theorem supplyPart_startPump (n : Nat) (s : State) : supplyPart (startPump n s) = supplyPart s := by
  unfold startPump; split <;> rfl

@[simp] theorem supplyPart_stopPump (s : State) : supplyPart (stopPump s) = supplyPart s := rfl

@[simp] theorem supplyPart_countRevolution (s : State) : supplyPart (countRevolution s).1 = supplyPart s := by
  unfold countRevolution
  dsimp only
  split
  · split <;> rfl
  · rfl

@[simp] theorem supplyPart_beginHoming (s : State) : supplyPart (beginHoming s).1 = supplyPart s := by
  simp [beginHoming]

@[simp] theorem supplyPart_enterUnparked (s : State) : supplyPart (enterUnparked s).1 = supplyPart s := rfl

@[simp] theorem supplyPart_enterOpen (e : Bool) (s : State) : supplyPart (enterOpen e s).1 = supplyPart s := rfl

@[simp] theorem supplyPart_enterCapped (s : State) : supplyPart (enterCapped s).1 = supplyPart s := rfl

@[simp] theorem supplyPart_beginCapping (s : State) : supplyPart (beginCapping s).1 = supplyPart s :=
  supplyPart_of_station (beginCapping_keptS s)

@[simp] theorem supplyPart_beginUncapping (s : State) : supplyPart (beginUncapping s).1 = supplyPart s :=
  supplyPart_of_station (beginUncapping_keptS s)

@[simp] theorem supplyPart_askCapping (s : State) : supplyPart (askCapping s).1 = supplyPart s :=
  supplyPart_of_station (askCapping_keptS s)

@[simp] theorem supplyPart_freeMoment (e : Bool) (s : State) : supplyPart (freeMoment e s).1 = supplyPart s :=
  supplyPart_of_station (freeMoment_keptS e s)

@[simp] theorem supplyPart_grantZone (s : State) : supplyPart (grantZone s).1 = supplyPart s :=
  supplyPart_of_station (grantZone_keptS s)

@[simp] theorem supplyPart_zoneRequest (s : State) : supplyPart (zoneRequest s).2.1 = supplyPart s := by
  unfold zoneRequest; split <;> simp

@[simp] theorem supplyPart_releaseZone (s : State) : supplyPart (releaseZone s).1 = supplyPart s :=
  supplyPart_of_station (releaseZone_keptS s)

@[simp] theorem supplyPart_resetZone (s : State) : supplyPart (resetZone s).1 = supplyPart s := by
  unfold resetZone
  exact kept_ite supplyPart (supplyPart_releaseZone _) (kept_ite supplyPart rfl rfl)

@[simp] theorem supplyPart_homeTo (b : Bool) (s : State) : supplyPart (homeTo b s).1 = supplyPart s := by
  unfold homeTo
  dsimp only
  repeat' split
  all_goals rfl

@[simp] theorem supplyPart_parkExpires (s : State) : supplyPart (parkExpires s) = supplyPart s := rfl

@[simp] theorem supplyPart_idleExpires (s : State) : supplyPart (idleExpires s).1 = supplyPart s := by
  simp [idleExpires]

@[simp] theorem supplyPart_holdExpires (s : State) : supplyPart (holdExpires s).1 = supplyPart s := rfl

@[simp] theorem supplyPart_placeClaim (w : Claimant) (u : Bool) (s : State) :
    supplyPart (placeClaim w u s).1 = supplyPart s := supplyPart_of_station (placeClaim_keptS w u s)

@[simp] theorem supplyPart_markUrgent (w : Claimant) (s : State) : supplyPart (markUrgent w s).1 = supplyPart s :=
  supplyPart_of_station (markUrgent_keptS w s)

@[simp] theorem supplyPart_withdrawClaim (w : Claimant) (s : State) :
    supplyPart (withdrawClaim w s) = supplyPart s := rfl

@[simp] theorem supplyPart_startHandBack (w : Claimant) (s : State) :
    supplyPart (startHandBack w s) = supplyPart s := by
  unfold startHandBack; split <;> rfl

@[simp] theorem supplyPart_handBack (s : State) : supplyPart (handBack s).1 = supplyPart s :=
  supplyPart_of_station (handBack_keptS s)

@[simp] theorem supplyPart_faultStation (c : StationCause) (s : State) :
    supplyPart (faultStation c s) = supplyPart s := supplyPart_of_station (faultStation_keptS c s)

@[simp] theorem supplyPart_stcSledDone (s : State) : supplyPart (stcSledDone s).1 = supplyPart s := by
  unfold stcSledDone
  repeat' split
  all_goals simp

@[simp] theorem supplyPart_stcWiperDone (s : State) : supplyPart (stcWiperDone s).1 = supplyPart s := by
  unfold stcWiperDone
  repeat' split
  all_goals simp

@[simp] theorem supplyPart_setEndPin (e : EndSensor) (b : Bool) (s : State) :
    supplyPart (setEndPin e b s) = supplyPart s := by
  cases e <;> rfl

/-! ### Detector Unit -/

@[simp] theorem supplyPart_createTask (k : TaskKind) (cs : List (Fin 6)) (p : Port) (s : State) :
    supplyPart (createTask k cs p s).1 = supplyPart s := by
  simp [createTask]

@[simp] theorem supplyPart_dtuReady (s : State) : supplyPart (dtuReady s).1 = supplyPart s := by
  unfold dtuReady; split <;> rfl

@[simp] theorem supplyPart_dtuSession (s : State) : supplyPart (dtuSession s).1 = supplyPart s := by
  unfold dtuSession
  dsimp only
  split
  · rfl
  · split <;> simp

@[simp] theorem supplyPart_dtuSledDone (s : State) : supplyPart (dtuSledDone s).1 = supplyPart s := by
  unfold dtuSledDone; split <;> simp

@[simp] theorem supplyPart_dtuPlace (s : State) : supplyPart (dtuPlace s).1 = supplyPart s := by
  unfold dtuPlace
  split
  · rfl
  · split <;> simp

@[simp] theorem supplyPart_dtuEntered (id : Nat) (s : State) : supplyPart (dtuEntered id s) = supplyPart s := rfl

@[simp] theorem supplyPart_dtuAbandon (s : State) : supplyPart (dtuAbandon s) = supplyPart s := rfl

@[simp] theorem supplyPart_recordRow (c : Fin 6) (g l : Nat) (seen : List Nat) (s : State) :
    supplyPart (recordRow c g l seen s) = supplyPart s := by
  unfold recordRow; dsimp only; split <;> rfl

@[simp] theorem supplyPart_foldSweep (rs : List (Fin 6 × SweepResult)) (s : State) :
    supplyPart (foldSweep rs s) = supplyPart s :=
  foldl_kept supplyPart _ (fun s r => by split <;> rfl) rs s

@[simp] theorem supplyPart_closeTask (t : Task) (c : Option CheckCause) (s : State) :
    supplyPart (closeTask t c s).1 = supplyPart s := by
  simp [closeTask]

@[simp] theorem supplyPart_dtuFinish (s : State) : supplyPart (dtuFinish s).1 = supplyPart s := by
  unfold dtuFinish; split <;> simp

@[simp] theorem supplyPart_dtuOrderFailed (s : State) : supplyPart (dtuOrderFailed s).1 = supplyPart s := by
  unfold dtuOrderFailed; split <;> simp

@[simp] theorem supplyPart_dtuFault (s : State) : supplyPart (dtuFault s).1 = supplyPart s := by
  unfold dtuFault
  split
  · split <;> simp
  · rfl

@[simp] theorem supplyPart_dtuCheckFor (rows : List (Fin 6)) (s : State) :
    supplyPart (dtuCheckFor rows s).1 = supplyPart s := rfl

@[simp] theorem supplyPart_dtuEndCheck (s : State) : supplyPart (dtuEndCheck s) = supplyPart s := by
  unfold dtuEndCheck; split <;> rfl

@[simp] theorem supplyPart_sweepStepDone (t : Task) (c : Fin 6) (b : Bool) (s : State) :
    supplyPart (sweepStepDone t c b s).1 = supplyPart s := by
  unfold sweepStepDone finishRow nextStep
  dsimp only
  repeat' split
  all_goals rfl

@[simp] theorem supplyPart_dtuOrderDone (x : Option Sample) (s : State) :
    supplyPart (dtuOrderDone x s).1 = supplyPart s := by
  unfold dtuOrderDone
  dsimp only
  repeat' split
  all_goals simp

@[simp] theorem supplyPart_dtuOrderEnded (o : Order) (how : OrderEnd) (x : Option Sample) (s : State) :
    supplyPart (dtuOrderEnded o how x s).1 = supplyPart s := by
  unfold dtuOrderEnded
  dsimp only
  repeat' split
  all_goals simp

/-! ### Cleaning Sequencer, its suction debits aside -/

@[simp] theorem supplyPart_clsClaim (s : State) : supplyPart (clsClaim s).1 = supplyPart s := by
  unfold clsClaim; split <;> simp

@[simp] theorem supplyPart_clsFolded (u : Bool) (s : State) : supplyPart (clsFolded u s).1 = supplyPart s := by
  unfold clsFolded
  repeat' split
  all_goals simp

@[simp] theorem supplyPart_clsHandBack (s : State) : supplyPart (clsHandBack s).1 = supplyPart s := by
  simp [clsHandBack]

@[simp] theorem supplyPart_clearEntries (hs : List (Fin 3)) (s : State) :
    supplyPart (clearEntries hs s) = supplyPart s :=
  foldl_kept supplyPart _ (fun _ _ => by rfl) hs s

@[simp] theorem supplyPart_dropHeads (hs : List CycleHead) (s : State) :
    supplyPart (dropHeads hs s) = supplyPart s := by
  unfold dropHeads; split <;> simp

@[simp] theorem supplyPart_endDropped (hs : List CycleHead) (s : State) :
    supplyPart (endDropped hs s).1 = supplyPart s := by
  simp [endDropped]

@[simp] theorem supplyPart_refuseCycle (hs : List CycleHead) (c : CleanCause) (s : State) :
    supplyPart (refuseCycle hs c s).1 = supplyPart s := by
  simp [refuseCycle]

@[simp] theorem supplyPart_startCycle (hs : List CycleHead) (s : State) :
    supplyPart (startCycle hs s).1 = supplyPart s := by
  simp [startCycle]

@[simp] theorem supplyPart_formCycle (s : State) : supplyPart (formCycle s).1 = supplyPart s := by
  unfold formCycle
  dsimp only
  repeat' split
  all_goals simp

@[simp] theorem supplyPart_waitInkTest (s : State) : supplyPart (waitInkTest s).1 = supplyPart s := by
  unfold waitInkTest
  dsimp only
  repeat' split
  all_goals simp

@[simp] theorem supplyPart_supplyChanged (c : Fin 6) (s : State) : supplyPart (supplyChanged c s).1 = supplyPart s := by
  unfold supplyChanged; split <;> simp

@[simp] theorem supplyPart_nextSuction (s : State) : supplyPart (nextSuction s).1 = supplyPart s := by
  unfold nextSuction
  split
  · rfl
  · split <;> rfl

@[simp] theorem supplyPart_startRun (s : State) : supplyPart (startRun s) = supplyPart s := by
  unfold startRun
  repeat' split
  all_goals simp

@[simp] theorem supplyPart_recordRun (h : Fin 3) (n : Nat) (s : State) :
    supplyPart (recordRun h n s) = supplyPart s := rfl

@[simp] theorem supplyPart_spitsDone (s : State) : supplyPart (spitsDone s).1 = supplyPart s := by
  unfold spitsDone leaveSpitting
  repeat' split
  all_goals rfl

@[simp] theorem supplyPart_nextSpit (s : State) : supplyPart (nextSpit s).1 = supplyPart s := by
  unfold nextSpit
  repeat' split
  all_goals simp

@[simp] theorem supplyPart_clsEntered (id : Nat) (s : State) : supplyPart (clsEntered id s).1 = supplyPart s := by
  unfold clsEntered
  dsimp only
  repeat' split
  all_goals rfl

@[simp] theorem supplyPart_clsSledDone (s : State) : supplyPart (clsSledDone s).1 = supplyPart s := by
  unfold clsSledDone
  repeat' split
  all_goals simp

@[simp] theorem supplyPart_clsWiperDone (s : State) : supplyPart (clsWiperDone s).1 = supplyPart s := by
  unfold clsWiperDone
  repeat' split
  all_goals simp

@[simp] theorem supplyPart_markDegraded (cs : List (Fin 6)) (s : State) :
    supplyPart (cs.foldl (fun s c => markDegraded c s) s) = supplyPart s :=
  foldl_kept supplyPart _ (fun _ _ => by rfl) cs s

@[simp] theorem supplyPart_setStep (h : Fin 3) (n : Nat) (s : State) : supplyPart (setStep h n s) = supplyPart s := rfl

@[simp] theorem supplyPart_judgeHead (rs : List RowResult) (x : CycleHead) (s : State) :
    supplyPart (judgeHead rs x s) = supplyPart s := by
  unfold judgeHead
  dsimp only
  repeat' split
  all_goals simp

@[simp] theorem supplyPart_checkResults (rs : List RowResult) (s : State) :
    supplyPart (checkResults rs s).1 = supplyPart s := by
  unfold checkResults
  split
  · exact foldl_kept supplyPart _ (fun s x => supplyPart_judgeHead rs x s) _ s
  · rfl

@[simp] theorem supplyPart_zeroDrops (hs : List CycleHead) (s : State) :
    supplyPart (zeroDrops hs s) = supplyPart s :=
  foldl_kept supplyPart _ (fun _ _ => by rfl) hs s

@[simp] theorem supplyPart_clearUrgent (s : State) : supplyPart (clearUrgent s) = supplyPart s :=
  foldl_kept supplyPart _ (fun s h => by split <;> rfl) allHeads s

@[simp] theorem supplyPart_finishCycle (s : State) : supplyPart (finishCycle s).1 = supplyPart s := by
  unfold finishCycle
  dsimp only
  repeat' split
  all_goals simp

@[simp] theorem supplyPart_stageEntered (s : State) : supplyPart (stageEntered s).1 = supplyPart s := by
  unfold stageEntered
  repeat' split
  all_goals simp

@[simp] theorem supplyPart_foldBack (s : State) : supplyPart (foldBack s) = supplyPart s :=
  foldl_kept supplyPart _ (fun _ _ => by rfl) _ s

@[simp] theorem supplyPart_closeAborted (c : CleanCause) (s : State) :
    supplyPart (closeAborted c s) = supplyPart s := by
  simp [closeAborted]

@[simp] theorem supplyPart_safePoint (s : State) : supplyPart (safePoint s).1 = supplyPart s := by
  unfold safePoint
  repeat' split
  all_goals simp

@[simp] theorem supplyPart_clsOrderEnded (o : Order) (how : OrderEnd) (s : State) :
    supplyPart (clsOrderEnded o how s).1 = supplyPart s := by
  unfold clsOrderEnded
  dsimp only
  repeat' split
  all_goals simp

@[simp] theorem supplyPart_clsSession (s : State) : supplyPart (clsSession s).1 = supplyPart s := by
  unfold clsSession; split <;> simp

@[simp] theorem supplyPart_nextCycle (s : State) : supplyPart (nextCycle s).1 = supplyPart s := by
  unfold nextCycle; split <;> simp

@[simp] theorem supplyPart_cleanRequest (hs : List (Fin 3)) (l : Level) (u : Bool) (o : CleanOrigin) (s : State) :
    supplyPart (cleanRequest hs l u o s) = supplyPart s :=
  foldl_kept supplyPart _ (fun _ _ => by rfl) hs s

@[simp] theorem supplyPart_cancelEntries (hs : List (Fin 3)) (s : State) :
    supplyPart (cancelEntries hs s) = supplyPart s := by
  unfold cancelEntries dropHold; split <;> simp

@[simp] theorem supplyPart_cancelCycle (hs : List (Fin 3)) (s : State) :
    supplyPart (cancelCycle hs s).1 = supplyPart s := by
  unfold cancelCycle
  dsimp only
  repeat' split
  all_goals rfl

/-! ### Feed Controller -/

@[simp] theorem supplyPart_modRemaining (a : Source) (f : Nat → Nat) (s : State) :
    supplyPart (modRemaining a f s) = supplyPart s := rfl

@[simp] theorem supplyPart_mediaOutTest (a : Source) (s : State) : supplyPart (mediaOutTest a s) = supplyPart s := by
  unfold mediaOutTest; dsimp only; split <;> rfl

@[simp] theorem supplyPart_mediaForward (d : Nat) (s : State) : supplyPart (mediaForward d s) = supplyPart s := by
  unfold mediaForward; dsimp only; split <;> simp

@[simp] theorem supplyPart_mediaReverse (d : Nat) (s : State) : supplyPart (mediaReverse d s) = supplyPart s := by
  unfold mediaReverse; dsimp only; split <;> rfl

@[simp] theorem supplyPart_setEndReading (a : Source) (b : Bool) (s : State) :
    supplyPart (setEndReading a b s) = supplyPart s := by
  cases a <;> rfl

@[simp] theorem supplyPart_endSeen (a : Source) (s : State) : supplyPart (endSeen a s) = supplyPart s := by
  unfold endSeen; dsimp only; split <;> simp

@[simp] theorem supplyPart_motorFree (s : State) : supplyPart (motorFree s) = supplyPart s := rfl

@[simp] theorem supplyPart_answerMotion (m : Motion) (r : Result) (b : List Byte) (s : State) :
    supplyPart (answerMotion m r b s) = supplyPart s := by
  unfold answerMotion; split <;> rfl

@[simp] theorem supplyPart_loadDone (a : Source) (s : State) : supplyPart (loadDone a s) = supplyPart s := by
  simp [loadDone, apply_ite supplyPart]

@[simp] theorem supplyPart_unloadDone (d : Nat) (s : State) : supplyPart (unloadDone d s) = supplyPart s := by
  unfold unloadDone
  split
  · rfl
  · simp only [supplyPart_raise, supplyPart_setPath]
    split <;> rfl

@[simp] theorem supplyPart_advanceDone (m : Motion) (tag : Nat) (s : State) :
    supplyPart (advanceDone m tag s) = supplyPart s := by
  simp [advanceDone]

@[simp] theorem supplyPart_cutAdvanceDone (m : Motion) (s : State) :
    supplyPart (cutAdvanceDone m s).1 = supplyPart s := by
  simp [cutAdvanceDone]

@[simp] theorem supplyPart_jogForwardDone (m : Motion) (s : State) :
    supplyPart (jogForwardDone m s) = supplyPart s := by
  simp [jogForwardDone]

@[simp] theorem supplyPart_jogReverseDone (m : Motion) (n d : Nat) (s : State) :
    supplyPart (jogReverseDone m n d s) = supplyPart s := by
  simp [jogReverseDone]

@[simp] theorem supplyPart_motionDone (m : Motion) (s : State) : supplyPart (motionDone m s).1 = supplyPart s := by
  unfold motionDone; split <;> simp

@[simp] theorem supplyPart_beginMotion (m : Motion) (st : PathState) (s : State) :
    supplyPart (beginMotion m st s).1 = supplyPart s := by
  unfold beginMotion; dsimp only; split <;> simp

@[simp] theorem supplyPart_beginRequest (p : Port) (r : MotionReq) (s : State) :
    supplyPart (beginRequest p r s).1 = supplyPart s := by
  unfold beginRequest beginLoad beginUnload beginAdvance beginCut beginManual
  dsimp only
  repeat' split
  all_goals simp

@[simp] theorem supplyPart_serveOne (p : Port) (r : MotionReq) (s : State) :
    supplyPart (serveOne p r s).1 = supplyPart s := by
  unfold serveOne; dsimp only; split <;> simp

theorem supplyPart_serveLoop (n : Nat) : ∀ s, supplyPart (serveLoop n s).1 = supplyPart s := by
  induction n with
  | zero => intro s; rfl
  | succ n ih =>
    intro s
    unfold serveLoop
    repeat' split
    all_goals simp [ih]

@[simp] theorem supplyPart_serve (s : State) : supplyPart (serve s).1 = supplyPart s := supplyPart_serveLoop 3 s

@[simp] theorem supplyPart_enterMotion (p : Port) (r : MotionReq) (s : State) :
    supplyPart (enterMotion p r s).1 = supplyPart s := by
  simp [enterMotion]

@[simp] theorem supplyPart_completeMotion (m : Motion) (s : State) :
    supplyPart (completeMotion m s).1 = supplyPart s := by
  simp [completeMotion]

@[simp] theorem supplyPart_stopMotion (n : Nat) (s : State) : supplyPart (stopMotion n s) = supplyPart s := by
  unfold stopMotion accountPartial
  repeat' split
  all_goals simp

@[simp] theorem supplyPart_endCut (s : State) : supplyPart (endCut s) = supplyPart s := by
  unfold endCut; dsimp only; split <;> rfl

@[simp] theorem supplyPart_holdWaiting (p : Port) (s : State) : supplyPart (holdWaiting p s) = supplyPart s := by
  unfold holdWaiting; split <;> rfl

@[simp] theorem supplyPart_answerHeld (m : Option Motion) (n : Nat) (s : State) :
    supplyPart (answerHeld m n s) = supplyPart s := by
  unfold answerHeld
  dsimp only
  rw [foldl_kept supplyPart _ (fun s p => supplyPart_holdWaiting p s)]
  split <;> simp

@[simp] theorem supplyPart_holdPath (h : PathHold) (s : State) : supplyPart (holdPath h s) = supplyPart s := rfl

@[simp] theorem supplyPart_declareJam (n : Nat) (s : State) : supplyPart (declareJam n s).1 = supplyPart s := by
  simp [declareJam]

@[simp] theorem supplyPart_openCover (n : Nat) (s : State) : supplyPart (openCover n s) = supplyPart s := by
  unfold openCover
  dsimp only
  repeat' split
  all_goals simp

@[simp] theorem supplyPart_closeCover (s : State) : supplyPart (closeCover s) = supplyPart s := by
  unfold closeCover; dsimp only; split <;> rfl

@[simp] theorem supplyPart_edgeTo (b : Bool) (n : Nat) (s : State) : supplyPart (edgeTo b n s).1 = supplyPart s := by
  unfold edgeTo edgeInMotion edgeAtRest
  dsimp only
  repeat' split
  all_goals simp

@[simp] theorem supplyPart_entryTo (b : Bool) (n : Nat) (s : State) : supplyPart (entryTo b n s).1 = supplyPart s := by
  unfold entryTo
  dsimp only
  repeat' split
  all_goals simp

@[simp] theorem supplyPart_sourceEnds (a : Source) (s : State) : supplyPart (sourceEnds a s) = supplyPart s := by
  unfold sourceEnds; split <;> simp

@[simp] theorem supplyPart_sourceEndClears (a : Source) (s : State) :
    supplyPart (sourceEndClears a s) = supplyPart s := by
  unfold sourceEndClears; split <;> simp

@[simp] theorem supplyPart_releasePath (s : State) : supplyPart (releasePath s) = supplyPart s := by
  unfold releasePath; dsimp only; split <;> rfl

@[simp] theorem supplyPart_fdcEntered (id : Nat) (s : State) : supplyPart (fdcEntered id s) = supplyPart s := by
  unfold fdcEntered; split <;> rfl

@[simp] theorem supplyPart_fdcOrderEnded (o : Order) (how : OrderEnd) (s : State) :
    supplyPart (fdcOrderEnded o how s) = supplyPart s := by
  unfold fdcOrderEnded
  repeat' split
  all_goals rfl

@[simp] theorem supplyPart_resetFeed (p : Port) (s : State) : supplyPart (resetFeed p s) = supplyPart s := rfl

/-! ### Agenda and links -/

@[simp] theorem supplyPart_sledDone (s : State) : supplyPart (sledDone s).1 = supplyPart s := by
  unfold sledDone
  repeat' split
  all_goals simp

@[simp] theorem supplyPart_wiperDone (s : State) : supplyPart (wiperDone s).1 = supplyPart s := by
  unfold wiperDone
  repeat' split
  all_goals simp

@[simp] theorem supplyPart_enteredFor (w : Placer) (id : Nat) (s : State) :
    supplyPart (enteredFor w id s).1 = supplyPart s := by
  unfold enteredFor; split <;> simp

@[simp] theorem supplyPart_orderEndedFor (o : Order) (how : OrderEnd) (x : Option Sample) (s : State) :
    supplyPart (orderEndedFor o how x s).1 = supplyPart s := by
  unfold orderEndedFor; split <;> simp

@[simp] theorem supplyPart_returnOrders (s : State) : supplyPart (returnOrders s).1 = supplyPart s := by
  unfold returnOrders; dsimp only; split <;> simp

@[simp] theorem supplyPart_wake (c : WakeCause) (s : State) : supplyPart (wake c s) = supplyPart s := rfl

@[simp] theorem supplyPart_readReply (p : Port) (body : List Byte) (s : State) :
    supplyPart (readReply p body s) = supplyPart s := by
  unfold readReply; dsimp only; split <;> rfl

@[simp] theorem supplyPart_replyShifted (p : Port) (s : State) : supplyPart (replyShifted p s) = supplyPart s := by
  unfold replyShifted; dsimp only; split <;> rfl

@[simp] theorem supplyPart_postUsage (body : List Byte) (s : State) :
    supplyPart (postUsage body s) = supplyPart s := by
  unfold postUsage
  repeat' split
  all_goals rfl

@[simp] theorem supplyPart_releaseFence (s : State) : supplyPart (releaseFence s) = supplyPart s := rfl

@[simp] theorem supplyPart_takeFence (s : State) : supplyPart (takeFence s) = supplyPart s := by
  unfold takeFence; split <;> rfl

@[simp] theorem supplyPart_takeRest (p : Port) (s : State) : supplyPart (takeRest p s) = supplyPart s := by
  unfold takeRest
  repeat' split
  all_goals rfl

@[simp] theorem supplyPart_resetPort (p : Port) (s : State) : supplyPart (resetPort p s) = supplyPart s := rfl

@[simp] theorem supplyPart_resetPosted (s : State) : supplyPart (resetPosted s) = supplyPart s := rfl

@[simp] theorem supplyPart_linkReset (p : Port) (s : State) : supplyPart (linkReset p s).1 = supplyPart s := by
  unfold linkReset; dsimp only; split <;> simp

@[simp] theorem supplyPart_startTrans (s : State) : supplyPart (startTrans s) = supplyPart s := by
  unfold startTrans
  split
  · rfl
  · split <;> rfl

@[simp] theorem supplyPart_attemptFails (s : State) : supplyPart (attemptFails s) = supplyPart s := by
  unfold attemptFails; split <;> rfl

@[simp] theorem supplyPart_ended (s : State) : supplyPart (ended s) = supplyPart s := rfl

@[simp] theorem supplyPart_tick (s : State) : supplyPart (tick s) = supplyPart s := by
  simp [supplyPart, tick, tickTimers, apply_ite State.params, apply_ite State.spu]

/-! ### The requests and events of the other blocks -/

@[simp] theorem supplyPart_readEvents (body : List Byte) (p : Port) (s : State) :
    supplyPart (readEvents body p s).1 = supplyPart s := by
  unfold readEvents; split <;> simp

@[simp] theorem supplyPart_clearEvents (body : List Byte) (p : Port) (s : State) :
    supplyPart (clearEvents body p s).1 = supplyPart s := by
  unfold clearEvents; dsimp only; split <;> rfl

@[simp] theorem supplyPart_setEnables (body : List Byte) (p : Port) (s : State) :
    supplyPart (setEnables body p s).1 = supplyPart s := by
  unfold setEnables; dsimp only; split <;> rfl

@[simp] theorem supplyPart_getParam (body : List Byte) (p : Port) (s : State) :
    supplyPart (getParam body p s).1 = supplyPart s := by
  unfold getParam; split <;> rfl

@[simp] theorem supplyPart_setDate (body : List Byte) (p : Port) (s : State) :
    supplyPart (setDate body p s).1 = supplyPart s := rfl

@[simp] theorem supplyPart_readByChannel (k : Kind) (p : Port) (body : List Byte) (make : State → Fin 6 → List Byte)
    (s : State) : supplyPart (readByChannel k p body make s).1 = supplyPart s := by
  unfold readByChannel; split <;> rfl

@[simp] theorem supplyPart_readBay (p : Port) (body : List Byte) (s : State) :
    supplyPart (readBay p body s).1 = supplyPart s := by
  unfold readBay; split <;> rfl

@[simp] theorem supplyPart_admitPage (p : Port) (body : List Byte) (s : State) :
    supplyPart (admitPage p body s).1 = supplyPart s := by
  unfold admitPage; split <;> simp

@[simp] theorem supplyPart_endPageRun (p : Port) (body : List Byte) (s : State) :
    supplyPart (endPageRun p body s).1 = supplyPart s := by
  unfold endPageRun
  dsimp only
  repeat' split
  all_goals simp

@[simp] theorem supplyPart_listPages (p : Port) (body : List Byte) (s : State) :
    supplyPart (listPages p body s).1 = supplyPart s := by
  unfold listPages; dsimp only; split <;> rfl

@[simp] theorem supplyPart_takeZoneRequest (p : Port) (s : State) :
    supplyPart (takeZoneRequest p s).1 = supplyPart s := by
  simp [takeZoneRequest]

@[simp] theorem supplyPart_takeZoneRelease (p : Port) (s : State) :
    supplyPart (takeZoneRelease p s).1 = supplyPart s := by
  unfold takeZoneRelease; split <;> simp

@[simp] theorem supplyPart_retryStation (p : Port) (s : State) : supplyPart (retryStation p s).1 = supplyPart s := by
  unfold retryStation; split <;> simp

@[simp] theorem supplyPart_fetchOrder (p : Port) (s : State) : supplyPart (fetchOrder p s).1 = supplyPart s := by
  unfold fetchOrder
  repeat' split
  all_goals simp

@[simp] theorem supplyPart_orderDone (p : Port) (body : List Byte) (s : State) :
    supplyPart (orderDone p body s).1 = supplyPart s := by
  unfold orderDone
  dsimp only
  repeat' split
  all_goals simp

@[simp] theorem supplyPart_clean (p : Port) (body : List Byte) (s : State) :
    supplyPart (clean p body s).1 = supplyPart s := by
  unfold clean
  repeat' split
  all_goals simp

@[simp] theorem supplyPart_cancelClean (p : Port) (body : List Byte) (s : State) :
    supplyPart (cancelClean p body s).1 = supplyPart s := by
  unfold cancelClean; split <;> simp

@[simp] theorem supplyPart_askTask (k : Kind) (t : TaskKind) (p : Port) (body : List Byte) (s : State) :
    supplyPart (askTask k t p body s).1 = supplyPart s := by
  unfold askTask
  repeat' split
  all_goals simp

@[simp] theorem supplyPart_readHealth (p : Port) (body : List Byte) (s : State) :
    supplyPart (readHealth p body s).1 = supplyPart s := by
  unfold readHealth; split <;> rfl

@[simp] theorem supplyPart_clearDegraded (p : Port) (body : List Byte) (s : State) :
    supplyPart (clearDegraded p body s).1 = supplyPart s := by
  unfold clearDegraded
  split
  · exact foldl_kept supplyPart _ (fun _ _ => by rfl) _ _
  · rfl

@[simp] theorem supplyPart_askMotion (p : Port) (r : MotionReq) (s : State) :
    supplyPart (askMotion p r s).1 = supplyPart s := by
  unfold askMotion; split <;> simp

@[simp] theorem supplyPart_loadMedia (p : Port) (body : List Byte) (s : State) :
    supplyPart (loadMedia p body s).1 = supplyPart s := by
  unfold loadMedia
  dsimp only
  repeat' split
  all_goals simp

@[simp] theorem supplyPart_advanceMedia (p : Port) (body : List Byte) (s : State) :
    supplyPart (advanceMedia p body s).1 = supplyPart s := by
  unfold advanceMedia; dsimp only; split <;> simp

@[simp] theorem supplyPart_manualFeed (p : Port) (body : List Byte) (s : State) :
    supplyPart (manualFeed p body s).1 = supplyPart s := by
  unfold manualFeed; dsimp only; split <;> simp

@[simp] theorem supplyPart_releaseHold (p : Port) (s : State) : supplyPart (releaseHold p s).1 = supplyPart s := by
  unfold releaseHold; split <;> simp

@[simp] theorem supplyPart_onMotion (sel : MotionKind → Bool) (f : Motion → State → Run) (s : State)
    (h : ∀ m, supplyPart (f m s).1 = supplyPart s) : supplyPart (onMotion sel f s).1 = supplyPart s := by
  unfold onMotion
  split
  · split
    · exact h _
    · rfl
  · rfl

@[simp] theorem supplyPart_loadArrives (m : Motion) (s : State) : supplyPart (loadArrives m s).1 = supplyPart s := by
  simp [loadArrives]

@[simp] theorem supplyPart_unloadArrives (n : Nat) (m : Motion) (s : State) :
    supplyPart (unloadArrives n m s).1 = supplyPart s := by
  simp [unloadArrives]

@[simp] theorem supplyPart_sledEnds (s : State) : supplyPart (sledEnds s).1 = supplyPart s := by
  unfold sledEnds
  split
  · exact supplyPart_sledArrives _
  · rfl

@[simp] theorem supplyPart_wiperEnds (s : State) : supplyPart (wiperEnds s).1 = supplyPart s := by
  unfold wiperEnds
  split
  · exact supplyPart_wiperArrives _
  · rfl

@[simp] theorem supplyPart_endSensor (e : EndSensor) (b : Bool) (s : State) :
    supplyPart (endSensor e b s).1 = supplyPart s := by
  unfold endSensor
  dsimp only
  repeat' split
  all_goals simp

@[simp] theorem supplyPart_homeChange (b : Bool) (s : State) : supplyPart (homeChange b s).1 = supplyPart s := by
  unfold homeChange
  split
  · rfl
  · simp

@[simp] theorem supplyPart_orderExpires (s : State) : supplyPart (orderExpires s).1 = supplyPart s := by
  unfold orderExpires; split <;> simp

@[simp] theorem supplyPart_wasteRead (r : Vector Byte 6) (s : State) : supplyPart (wasteRead r s).1 = supplyPart s := by
  unfold wasteRead
  dsimp only
  repeat' split
  all_goals simp

@[simp] theorem supplyPart_wasteReadFails (s : State) : supplyPart (wasteReadFails s).1 = supplyPart s := by
  unfold wasteReadFails
  dsimp only
  repeat' split
  all_goals simp

@[simp] theorem supplyPart_setWastePresence (b : Bool) (s : State) :
    supplyPart (setWastePresence b s) = supplyPart s := rfl

@[simp] theorem supplyPart_setPresence (n : Fin 12) (b : Bool) (s : State) :
    supplyPart (setPresence n b s) = supplyPart s := rfl

end Sys2Proof.Machine
end

