-- ==== Sys2Proof/Proofs/SupplyLaws.lean ====
section
/-!
SUPPORT. The laws of chapter 1 by channel, and each operation of the Supply Unit as a step that hands them on: `LawsPass s t`
says that what held of the supply states and of the bays in `s` holds in `t`.
-/

namespace Sys2Proof.Machine

/-! ### The laws of one channel -/

/-- R1's bound and R2's supply state, of one channel record. -/
def ChannelLawful (reserve : Nat) (x : Channel) : Prop :=
  x.estimate ≤ Config.subTankMax ∧ x.supply = supplyOf reserve x

theorem supplyLaws_iff (s : State) :
    (TanksBounded s ∧ SupplyFollows s) ↔ ∀ c, ChannelLawful s.params.reserveMark (chan s c) :=
  forall_and.symm

/-- What `BaysLawful` says of one channel and its two bays. -/
structure PairLawful (c : Fin 6) (s : State) : Prop where
  active : ∀ side, (chan s c).active = some side ↔ (bay s (bayOf c side)).state = .active
  stroke : ∀ side, (chan s c).stroke = strokeFrom (some side) → (chan s c).active = some side
  ink : ∀ side i, (bay s (bayOf c side)).ink = some i → i.estimate ≤ i.capacity * 1000000

theorem baysLawful_iff (s : State) : BaysLawful s ↔ ∀ c, PairLawful c s := by
  constructor
  · rintro ⟨active, strokeA, strokeB, ink⟩ c
    exact ⟨active c, fun side => match side with
      | .a => strokeA c
      | .b => strokeB c, fun side => ink (bayOf c side)⟩
  · intro h
    refine ⟨fun c => (h c).active, fun c => (h c).stroke .a, fun c => (h c).stroke .b, fun b => ?_⟩
    simpa using (h (channelOf b)).ink (sideOf b)

/-- A channel whose active bay has left ACTIVE, as promotion and switchover find it: no bay of it is ACTIVE, and no stroke
draws from one. -/
structure Vacant (c : Fin 6) (s : State) : Prop where
  state : ∀ side, (bay s (bayOf c side)).state ≠ .active
  stroke : ∀ side, (chan s c).stroke ≠ strokeFrom (some side)
  ink : ∀ side i, (bay s (bayOf c side)).ink = some i → i.estimate ≤ i.capacity * 1000000

/-- From `s` to `t` the laws of the supply states and of the bays pass on. -/
structure LawsPass (s t : State) : Prop where
  supply : TanksBounded s ∧ SupplyFollows s → TanksBounded t ∧ SupplyFollows t
  bays : BaysLawful s → BaysLawful t

theorem LawsPass.refl (s : State) : LawsPass s s := ⟨id, id⟩

theorem LawsPass.trans {s t u : State} (h : LawsPass s t) (h' : LawsPass t u) : LawsPass s u :=
  ⟨h'.supply ∘ h.supply, h'.bays ∘ h.bays⟩

/-- The laws speak of nothing but the records of channels and bays and the reserve mark. -/
theorem LawsPass.of_same {s t : State} (h : supplyPart t = supplyPart s) : LawsPass s t := by
  simp only [supplyPart, Prod.mk.injEq] at h
  obtain ⟨channels, bays, reserve⟩ := h
  constructor
  · simp only [TanksBounded, SupplyFollows, chan, channels, reserve, imp_self]
  · simp only [BaysLawful, chan, bay, channels, bays, imp_self]

/-- What stays on one channel passes the laws on if it passes on that channel's. -/
theorem LawsPass.of_confined {c : Fin 6} {s t : State} (h : Confined c s t)
    (supply : ChannelLawful s.params.reserveMark (chan s c) → ChannelLawful s.params.reserveMark (chan t c))
    (bays : PairLawful c s → PairLawful c t) : LawsPass s t := by
  constructor
  · rw [supplyLaws_iff, supplyLaws_iff, h.params]
    intro laws d
    by_cases e : d = c
    · exact e ▸ supply (laws c)
    · exact h.chan d e ▸ laws d
  · rw [baysLawful_iff, baysLawful_iff]
    intro laws d
    by_cases e : d = c
    · exact e ▸ bays (laws c)
    · have chan := h.chan d e
      have bay : ∀ side, bay t (bayOf d side) = bay s (bayOf d side) := fun side => h.bay _ (by simpa using e)
      obtain ⟨active, stroke, ink⟩ := laws d
      exact ⟨by simpa only [chan, bay] using active, by simpa only [chan] using stroke, by simpa only [bay] using ink⟩

/-- A fold passes the laws on if each of its steps does. -/
theorem LawsPass.foldl {α : Type} {f : State → α → State} (h : ∀ s a, LawsPass s (f s a)) (l : List α) :
    ∀ s, LawsPass s (l.foldl f s) := by
  induction l with
  | nil => exact .refl
  | cons a l ih => exact fun s => (h s a).trans (ih _)

/-! ### Changes of one channel and its bays -/

/-- What leaves a channel's active bay and the states of its bays alone and begins no stroke but from the active bay. -/
theorem PairLawful.of_same_active {c : Fin 6} {s t : State} (h : PairLawful c s)
    (active : (chan t c).active = (chan s c).active)
    (stroke : ∀ side, (chan t c).stroke = strokeFrom (some side) → (chan s c).active = some side)
    (bay : ∀ side, bay t (bayOf c side) = bay s (bayOf c side)) : PairLawful c t where
  active side := by rw [active, bay]; exact h.active side
  stroke side e := by rw [active]; exact stroke side e
  ink side i e := h.ink side i (by rwa [bay] at e)

/-- A stroke begun from the active bay. -/
theorem active_of_strokeFrom {x : Option Side} {side : Side} (h : strokeFrom x = strokeFrom (some side)) :
    x = some side := by
  cases x with
  | none => exact absurd h.symm (strokeFrom_ne_none side)
  | some y => rw [strokeFrom_inj.mp h]

/-- A bay whose state stays on its side of ACTIVE keeps the law of its channel. -/
theorem PairLawful.setBay {c : Fin 6} {b : Fin 12} {s : State} (x : Bay) (hb : channelOf b = c) (h : PairLawful c s)
    (state : x.state = .active ↔ (bay s b).state = .active)
    (ink : ∀ i, x.ink = some i → i.estimate ≤ i.capacity * 1000000) : PairLawful c (setBay s b x) where
  active side := by
    by_cases e : b = bayOf c side
    · subst e; rw [chan_setBay, bay_setBay, state]; exact h.active side
    · rw [chan_setBay, bay_setBay_other _ _ e]; exact h.active side
  stroke := h.stroke
  ink side i := by
    by_cases e : b = bayOf c side
    · subst e; rw [bay_setBay]; exact ink i
    · rw [bay_setBay_other _ _ e]; exact h.ink side i

/-- The law of a channel bounds the ink of each of its bays. -/
theorem PairLawful.ink_of {c : Fin 6} {b : Fin 12} {s : State} (hb : channelOf b = c) (h : PairLawful c s) :
    ∀ i, (bay s b).ink = some i → i.estimate ≤ i.capacity * 1000000 := by
  subst hb
  simpa using h.ink (sideOf b)

theorem PairLawful.followUp {c : Fin 6} {s : State} (h : PairLawful c s) :
    PairLawful c (checkOver c (refillTest c (evalSupply c s))) := by
  refine h.of_same_active ?_ (fun side e => ?_) (fun side => by simp)
  · rw [chan_checkOver, chan_refillTest]
    split <;> simp
  · rw [chan_checkOver, chan_refillTest] at e
    split at e
    · exact active_of_strokeFrom (by simpa using e)
    · exact h.stroke side (by simpa using e)

theorem PairLawful.evalSupply {c : Fin 6} {s : State} (h : PairLawful c s) : PairLawful c (evalSupply c s) :=
  h.of_same_active (by simp) (by simpa using h.stroke) (by simp)

theorem PairLawful.refillTest {c : Fin 6} {s : State} (h : PairLawful c s) : PairLawful c (refillTest c s) := by
  refine h.of_same_active ?_ (fun side e => ?_) (by simp)
  · rw [chan_refillTest]
    split <;> rfl
  · rw [chan_refillTest] at e
    split at e
    · exact active_of_strokeFrom e
    · exact h.stroke side e

theorem PairLawful.checkOver {c : Fin 6} {s : State} (h : PairLawful c s) (d : Fin 6) : PairLawful c (checkOver d s) :=
  h.of_same_active (by simp) (by simpa using h.stroke) (by simp)

/-- A channel record that keeps its active bay and begins no stroke but from it. -/
theorem PairLawful.setChan {c : Fin 6} {s : State} (h : PairLawful c s) {x : Channel}
    (active : x.active = (chan s c).active)
    (stroke : ∀ side, x.stroke = strokeFrom (some side) → (chan s c).active = some side) : PairLawful c (setChan s c x) :=
  h.of_same_active (by simpa using active) (by simpa using stroke) (fun _ => rfl)

theorem PairLawful.setChan_same {c : Fin 6} {s : State} (h : PairLawful c s) {x : Channel}
    (active : x.active = (chan s c).active) (stroke : x.stroke = (chan s c).stroke) : PairLawful c (Machine.setChan s c x) :=
  h.setChan active (by rw [stroke]; exact h.stroke)

/-- A channel without an active bay has no ACTIVE bay and no stroke from one. -/
theorem PairLawful.vacant {c : Fin 6} {s : State} (h : PairLawful c s) (n : (chan s c).active = none) : Vacant c s where
  state side e := by simpa [n] using (h.active side).mpr e
  stroke side e := by simpa [n] using h.stroke side e
  ink := h.ink

/-- The active bay leaves ACTIVE, no stroke drawing from it. -/
theorem PairLawful.vacant_setBay {c : Fin 6} {side : Side} {s : State} (h : PairLawful c s) {x : Bay}
    (active : (bay s (bayOf c side)).state = .active) (stroke : (chan s c).stroke ≠ strokeFrom (some side))
    (state : x.state ≠ .active) (ink : ∀ i, x.ink = some i → i.estimate ≤ i.capacity * 1000000) :
    Vacant c (Machine.setBay s (bayOf c side) x) := by
  have isActive := (h.active side).mpr active
  refine ⟨fun y => ?_, fun y e => ?_, fun y => ?_⟩
  · rcases side.eq_or_eq_other y with rfl | rfl
    · simpa using state
    · rw [bay_setBay_other _ _ (by simp [side.other_ne.symm])]
      intro e
      exact side.other_ne (by simpa [isActive] using ((h.active side.other).mpr e).symm)
  · have := h.stroke y e
    rw [isActive] at this
    cases this
    exact stroke e
  · rcases side.eq_or_eq_other y with rfl | rfl
    · simpa using ink
    · rw [bay_setBay_other _ _ (by simp [side.other_ne.symm])]
      exact h.ink _

/-! ### R2's evaluation -/

theorem channelLawful_evalSupply {c : Fin 6} {s : State} (h : (chan s c).estimate ≤ Config.subTankMax) :
    ChannelLawful s.params.reserveMark (chan (evalSupply c s) c) := by
  rw [chan_evalSupply]
  exact ⟨h, rfl⟩

/-- A refill that begins leaves the supply state as it is. -/
theorem ChannelLawful.refillTest {r : Nat} {c : Fin 6} {s : State} (h : ChannelLawful r (chan s c)) :
    ChannelLawful r (chan (refillTest c s) c) := by
  rw [chan_refillTest]
  split
  · next due =>
    have idle : (chan s c).refill = .idle := by
      simp only [refillDue, Bool.and_eq_true, beq_iff_eq] at due
      exact due.1.1.1.2
    refine ⟨h.1, h.2.trans ?_⟩
    simp [supplyOf, idle]
  · exact h

theorem channelLawful_followUp {c : Fin 6} {s : State} (h : (chan s c).estimate ≤ Config.subTankMax) :
    ChannelLawful s.params.reserveMark (chan (checkOver c (refillTest c (evalSupply c s))) c) := by
  rw [chan_checkOver]
  exact (channelLawful_evalSupply h).refillTest

theorem refillTest_laws (c : Fin 6) (s : State) : LawsPass s (refillTest c s) :=
  .of_confined (refillTest_confined c s) (fun h => h.refillTest) (fun h => h.refillTest)

theorem refillTestAll_laws (s : State) : LawsPass s (refillTestAll s) :=
  .foldl (fun s c => refillTest_laws c s) allChannels s

/-! ### Promotion and switchover -/

theorem estimate_refillTest (c : Fin 6) (s : State) : (chan (refillTest c s) c).estimate = (chan s c).estimate := by
  rw [chan_refillTest]
  split <;> rfl

theorem Vacant.makeActive {c : Fin 6} {s : State} (h : Vacant c s) (side : Side) :
    PairLawful c (makeActive (bayOf c side) s) := by
  have chan := chan_makeActive (bayOf c side) s
  rw [channelOf_bayOf, sideOf_bayOf] at chan
  refine ⟨fun y => ?_, fun y e => ?_, fun y => ?_⟩
  · rw [chan]
    rcases side.eq_or_eq_other y with rfl | rfl
    · simp
    · rw [bay_makeActive_other s (by simp [side.other_ne.symm])]
      simpa [side.other_ne.symm] using h.state side.other
  · rw [chan] at e
    exact absurd e (h.stroke y)
  · rcases side.eq_or_eq_other y with rfl | rfl
    · simpa using h.ink y
    · rw [bay_makeActive_other s (by simp [side.other_ne.symm])]
      exact h.ink _

theorem estimate_makeActive (c : Fin 6) (side : Side) (s : State) :
    (chan (makeActive (bayOf c side) s) c).estimate = (chan s c).estimate := by
  have chan := chan_makeActive (bayOf c side) s
  rw [channelOf_bayOf] at chan
  rw [chan]

theorem promote_bayOf (c : Fin 6) (side : Side) (s : State) :
    promote (bayOf c side) s = checkOver c (refillTest c (evalSupply c (makeActive (bayOf c side) s))) := by
  simp [promote]

theorem Vacant.promote {c : Fin 6} {s : State} (h : Vacant c s) (side : Side) :
    PairLawful c (promote (bayOf c side) s) := by
  rw [promote_bayOf]
  exact (h.makeActive side).followUp

theorem channelLawful_promote {c : Fin 6} {side : Side} {s : State} (h : (chan s c).estimate ≤ Config.subTankMax) :
    ChannelLawful s.params.reserveMark (chan (promote (bayOf c side) s) c) := by
  rw [promote_bayOf]
  exact channelLawful_followUp (s := makeActive (bayOf c side) s) (by rwa [estimate_makeActive])

/-- A channel whose active bay has gone takes its other bay or none (R11). -/
theorem Vacant.switchover {c : Fin 6} {s : State} (h : Vacant c s) (side : Side) :
    PairLawful c (switchover c side s) := by
  have active := h.makeActive side.other
  unfold Machine.switchover
  dsimp only
  split
  · refine PairLawful.followUp ?_
    split
    · exact (active.setChan (x := { chan _ c with strokes := 0 }) rfl active.stroke).of_same_active rfl
        (by simpa using active.stroke) (fun _ => rfl)
    · exact active.of_same_active rfl active.stroke (fun _ => rfl)
  · refine PairLawful.checkOver (PairLawful.evalSupply (s := setChan s c _) ⟨fun y => ?_, fun y e => ?_, h.ink⟩) c
    · simpa using h.state y
    · exact absurd (by simpa using e) (h.stroke y)

theorem channelLawful_switchover {c : Fin 6} {side : Side} {s : State} (h : (chan s c).estimate ≤ Config.subTankMax) :
    ChannelLawful s.params.reserveMark (chan (switchover c side s) c) := by
  have active := estimate_makeActive c side.other s
  unfold switchover
  dsimp only
  split
  · split
    · exact channelLawful_followUp (s := raise _ _ _ (setChan (makeActive _ s) c { chan _ c with strokes := 0 }))
        (by simpa [active] using h)
    · exact channelLawful_followUp (s := raise _ _ _ (makeActive (bayOf c side.other) s)) (by simpa [active] using h)
  · rw [chan_checkOver]
    exact channelLawful_evalSupply (by simpa using h)

/-! ### The operations of the Supply Unit pass the laws on -/

/-- A bay that stays on its side of ACTIVE, its ink as it was or within its capacity. -/
theorem setBay_laws {b : Fin 12} {s : State} (x : Bay) (state : x.state = .active ↔ (bay s b).state = .active)
    (ink : ∀ i, x.ink = some i → (bay s b).ink = some i ∨ i.estimate ≤ i.capacity * 1000000) :
    LawsPass s (setBay s b x) :=
  .of_confined (setBay_confined x s rfl) id fun h =>
    h.setBay x rfl state fun i e => (ink i e).elim (h.ink_of rfl i) id

/-- A bay that goes from one state that is not ACTIVE to another, its ink as it was. -/
theorem setBay_laws_idle {b : Fin 12} {s : State} (x : Bay) (h : (bay s b).state ≠ .active) (state : x.state ≠ .active)
    (ink : x.ink = (bay s b).ink) : LawsPass s (setBay s b x) :=
  setBay_laws x (by simp [h, state]) fun _ e => .inl (ink ▸ e)

theorem evalSupply_laws (c : Fin 6) (s : State) : LawsPass s (evalSupply c s) :=
  .of_confined (evalSupply_confined c s) (fun h => channelLawful_evalSupply h.1) (fun h => h.evalSupply)

theorem checkOver_laws (c : Fin 6) (s : State) : LawsPass s (checkOver c s) := .of_same (by simp)

theorem promote_laws {b : Fin 12} {s : State} (h : (chan s (channelOf b)).active = none) :
    LawsPass s (promote b s) := by
  rw [← bayOf_channelOf b] at h ⊢
  refine .of_confined (promote_confined _ s) (fun l => ?_) (fun l => ?_) <;> rw [channelOf_bayOf] at *
  · exact channelLawful_promote l.1
  · exact (l.vacant h).promote _

theorem stoodBy_laws {b : Fin 12} {s : State} (h : (bay s b).state ≠ .active) : LawsPass s (stoodBy b s) := by
  refine (setBay_laws_idle (b := b) { bay s b with state := .standby } h (by simp) rfl).trans (.of_same ?_)
  unfold stoodBy
  dsimp only
  split <;> simp

theorem enterStandby_laws {b : Fin 12} {s : State} (h : (bay s b).state ≠ .active) :
    LawsPass s (enterStandby b s).1 := by
  simp only [enterStandby_eq, apply_ite Prod.fst]
  split
  · next vacant => exact (stoodBy_laws h).trans (promote_laws (by rwa [chan_stoodBy]))
  · exact stoodBy_laws h

theorem standbyRun_laws {b : Fin 12} {s : State} (h : (bay s b).state ≠ .active) : LawsPass s (standbyRun b s).1 := by
  refine (enterStandby_laws h).trans (.of_same ?_)
  unfold standbyRun
  split
  split <;> simp_all

theorem insertBay_laws (b : Fin 12) (scan : Bool) (s : State) : LawsPass s (insertBay b scan s) := by
  unfold insertBay
  dsimp only
  split
  · next empty =>
    exact (setBay_laws_idle { bay s b with state := .reading } (by simp [empty]) (by simp) rfl).trans (.of_same rfl)
  · exact .refl s

theorem Vacant.onBus {c : Fin 6} {s : State} (h : Vacant c s) (f : Bus → Bus) : Vacant c (onBus f s) :=
  ⟨h.state, h.stroke, h.ink⟩

theorem Channel.strokeLost_ne (x : Channel) (side : Side) : (x.strokeLost side).stroke ≠ strokeFrom (some side) := by
  unfold Channel.strokeLost
  dsimp only
  split
  · exact (strokeFrom_ne_lost _).symm
  · assumption

theorem Channel.stroke_of_strokeLost {x : Channel} {side y : Side}
    (h : (x.strokeLost side).stroke = strokeFrom (some y)) : x.stroke = strokeFrom (some y) := by
  unfold Channel.strokeLost at h
  dsimp only at h
  split at h
  · exact absurd h.symm (strokeFrom_ne_lost _)
  · exact h

/-- The active bay taken out, its stroke LOST, leaves its channel vacant (R11). -/
theorem PairLawful.vacant_removed {c : Fin 6} {side : Side} {s : State} (h : PairLawful c s)
    (active : (bay s (bayOf c side)).state = .active) (f : Bus → Bus) :
    Vacant c (Machine.setChan (onBus f (Machine.setBay s (bayOf c side) Bay.reset)) c ((chan s c).strokeLost side)) := by
  have lost : PairLawful c (Machine.setChan s c ((chan s c).strokeLost side)) :=
    h.setChan rfl fun y e => h.stroke y (Channel.stroke_of_strokeLost e)
  exact (lost.vacant_setBay (x := Bay.reset) active (by rw [chan_setChan]; exact Channel.strokeLost_ne _ _)
    (by simp [Bay.reset]) (by simp [Bay.reset])).onBus f

/-- A bay taken out of a channel (R10, R11). -/
theorem removeBay_laws (b : Fin 12) (s : State) : LawsPass s (removeBay b s) := by
  by_cases h : (bay s b).state = .active
  · refine .of_confined (removeBay_confined b s) (fun l => ?_) (fun l => ?_) <;> rw [removeBay_active h]
    · exact channelLawful_switchover (by rw [chan_setChan]; exact l.1)
    · have vacant := l.vacant_removed (side := sideOf b) (by rwa [bayOf_channelOf]) (·.removeChip (.bay b))
      rw [bayOf_channelOf] at vacant
      exact vacant.switchover _
  · rw [removeBay_inactive h]
    refine (setBay_laws (b := b) Bay.reset (by simp [Bay.reset, h]) (by simp [Bay.reset])).trans (.of_same ?_)
    rw [supplyPart_checkOver, supplyPart_onBus]

/-! ### Strokes, the float and debits -/

theorem PairLawful.strokeEnd {c : Fin 6} {s : State} (h : PairLawful c s) :
    PairLawful c (Machine.checkOver c (Machine.evalSupply c (strokeNext c s))) := by
  refine h.of_same_active ?_ (fun side e => ?_) (fun side => by simp)
  · rw [chan_strokeEnd]
    unfold Channel.afterStroke
    dsimp only
    repeat' split
    all_goals rfl
  · rw [chan_strokeEnd] at e
    unfold Channel.afterStroke at e
    dsimp only at e
    split at e
    · exact h.stroke side e
    · split at e
      · exact h.stroke side e
      · exact active_of_strokeFrom e

theorem channelLawful_strokeEnd {c : Fin 6} {s : State} (h : (chan s c).estimate ≤ Config.subTankMax) :
    ChannelLawful s.params.reserveMark (chan (checkOver c (evalSupply c (strokeNext c s))) c) := by
  rw [chan_strokeEnd]
  unfold Channel.afterStroke
  dsimp only
  repeat' split
  all_goals exact ⟨h, rfl⟩

theorem PairLawful.strokeCounted {c : Fin 6} {s : State} (h : PairLawful c s) : PairLawful c (strokeCounted c s) :=
  h.setChan rfl fun side e => absurd e.symm (strokeFrom_ne_none side)

theorem PairLawful.creditTank {c : Fin 6} {s : State} (h : PairLawful c s) (n : Nat) : PairLawful c (creditTank c n s) :=
  h.setChan rfl h.stroke

theorem Bay.drawnFrom_state (x : Bay) (vol : Nat) : (x.drawnFrom vol).state = x.state := by
  unfold Bay.drawnFrom
  split <;> rfl

/-- A stroke lowers a bay's estimate by its volume, clamped at 0. -/
theorem Bay.drawnFrom_ink (x : Bay) (vol : Nat) :
    (x.drawnFrom vol).ink = x.ink.map fun i => { i with estimate := i.estimate - vol } := by
  have debited : (x.debit vol).ink = x.ink.map fun i => { i with estimate := i.estimate - vol } := by
    unfold Bay.debit Bay.estimate
    cases x.ink with
    | none => rfl
    | some i =>
      simp only [Option.map_some, Option.some.injEq, BayInk.mk.injEq, true_and]
      omega
  unfold Bay.drawnFrom
  split <;> exact debited

theorem PairLawful.inkDrawn {c : Fin 6} {b : Fin 12} {s : State} (hb : channelOf b = c) (h : PairLawful c s) (vol : Nat) :
    PairLawful c (inkDrawn b vol s) := by
  have drawn := h.setBay ((bay s b).drawnFrom vol) hb (by rw [Bay.drawnFrom_state]) (by
    rw [Bay.drawnFrom_ink]
    intro i e
    obtain ⟨j, hj, rfl⟩ := Option.map_eq_some_iff.mp e
    have bound := h.ink_of hb j hj
    dsimp only
    omega)
  unfold Machine.inkDrawn
  dsimp only
  split
  · exact drawn.of_same_active rfl drawn.stroke fun _ => rfl
  · exact drawn

theorem PairLawful.strokeInk {c : Fin 6} {side : Side} {s : State} (h : PairLawful c s) :
    PairLawful c (strokeInk c (bayOf c side) s) := by
  rw [strokeInk_eq]
  have told : PairLawful c (lowTold (bayOf c side) (s.params.strokeVolume.get c) s) :=
    h.of_same_active (by simp) (by simpa using h.stroke) (by simp)
  exact (told.inkDrawn (channelOf_bayOf c side) _).creditTank _

theorem strokeInk_confined (c : Fin 6) (side : Side) (s : State) : Confined c s (strokeInk c (bayOf c side) s) := by
  rw [strokeInk_eq]
  exact ((lowTold_confined c _ _ s).trans (inkDrawn_confined _ _ (channelOf_bayOf c side))).trans (creditTank_confined c _ _)

theorem estimate_creditTank_le (c : Fin 6) (n : Nat) (s : State) :
    (chan (creditTank c n s) c).estimate ≤ Config.subTankMax := by
  rw [chan_creditTank]
  exact Nat.min_le_right _ _

/-- A switchover's refill goes on from the new bay (R15). -/
theorem PairLawful.strokeAfterSwitch {c : Fin 6} {s : State} (h : PairLawful c s) :
    PairLawful c (strokeAfterSwitch c s) := by
  refine h.of_same_active ?_ (fun side e => ?_) (by simp)
  · rw [chan_strokeAfterSwitch]
    repeat' split
    all_goals rfl
  · rw [chan_strokeAfterSwitch] at e
    split at e
    · split at e
      · exact h.stroke side e
      · exact active_of_strokeFrom e
    · exact h.stroke side e

theorem ChannelLawful.strokeAfterSwitch {r : Nat} {c : Fin 6} {s : State} (h : ChannelLawful r (chan s c)) :
    ChannelLawful r (chan (strokeAfterSwitch c s) c) := by
  rw [chan_strokeAfterSwitch]
  split
  · next refilling =>
    split
    · refine ⟨h.1, h.2.trans ?_⟩
      simp [supplyOf, refilling]
    · exact h
  · exact h

theorem PairLawful.dryStroke {c : Fin 6} {side : Side} {s : State} (h : PairLawful c s) :
    PairLawful c (dryStroke c (bayOf c side) s) :=
  (h.setBay { bay s (bayOf c side) with dry := (bay s (bayOf c side)).dry + 1 } (channelOf_bayOf c side) Iff.rfl
    (h.ink_of (channelOf_bayOf c side))).strokeCounted

/-- A bay that runs out leaves its channel vacant (R11, R15). -/
theorem PairLawful.vacant_bayOut {c : Fin 6} {side : Side} {s : State} (h : PairLawful c s)
    (active : (bay s (bayOf c side)).state = .active) (stroke : (chan s c).stroke = .none) :
    Vacant c (bayOut (bayOf c side) s) := by
  have vacant := h.vacant_setBay active (by rw [stroke]; exact (strokeFrom_ne_none side).symm)
    (x := { (bay s (bayOf c side)).clearDrawn with
      state := .out, ink := (bay s (bayOf c side)).ink.map fun i => { i with estimate := 0 } })
    (by simp) (by
      intro i e
      obtain ⟨j, -, rfl⟩ := Option.map_eq_some_iff.mp e
      exact Nat.zero_le _)
  exact ⟨vacant.state, vacant.stroke, vacant.ink⟩

/-- A stroke that draws from a bay, accounted. -/
theorem strokeDone_laws_from {c : Fin 6} {side : Side} {s : State} (ink : Bool)
    (h : (chan s c).stroke = strokeFrom (some side)) : LawsPass s (strokeDone c ink s) := by
  rw [strokeDone_from ink h]
  dsimp only
  refine (LawsPass.of_same (s := s) (t := inkSampled (bayOf c side) ink s) rfl).trans ?_
  rw [← chan_inkSampled (bayOf c side) ink] at h
  generalize inkSampled (bayOf c side) ink s = u at h ⊢
  split
  · refine .of_confined (((strokeInk_confined c side u).trans (strokeCounted_confined c _)).trans (strokeEnd_confined c _))
      (fun _ => ?_) (fun l => l.strokeInk.strokeCounted.strokeEnd)
    have params := ((strokeInk_confined c side u).trans (strokeCounted_confined c _)).params
    refine params ▸ channelLawful_strokeEnd ?_
    rw [chan_strokeCounted, strokeInk_eq]
    exact estimate_creditTank_le c _ _
  · have dry := dryStroke_confined c side u
    split
    · have gone := dry.trans (bayOut_confined (dryStroke c (bayOf c side) u) (channelOf_bayOf c side))
      refine .of_confined ((gone.trans (switchover_confined c side _)).trans (strokeAfterSwitch_confined c _))
        (fun l => ?_) (fun l => ?_)
      · refine ChannelLawful.strokeAfterSwitch (gone.params ▸ channelLawful_switchover ?_)
        rw [chan_bayOut, chan_dryStroke]
        exact l.1
      · have active : (bay (dryStroke c (bayOf c side) u) (bayOf c side)).state = .active := by
          rw [bay_dryStroke]
          exact (l.active side).mp (l.stroke side h)
        exact ((l.dryStroke.vacant_bayOut active (by rw [chan_dryStroke])).switchover side).strokeAfterSwitch
    · refine .of_confined (dry.trans (strokeEnd_confined c _)) (fun l => ?_) (fun l => l.dryStroke.strokeEnd)
      refine dry.params ▸ channelLawful_strokeEnd ?_
      rw [chan_dryStroke]
      exact l.1

theorem strokeDone_laws (c : Fin 6) (ink : Bool) (s : State) : LawsPass s (strokeDone c ink s) := by
  cases hs : (chan s c).stroke with
  | none => rw [strokeDone_none ink hs]; exact .refl s
  | lost =>
    rw [strokeDone_lost ink hs]
    refine .of_confined (((creditTank_confined c _ s).trans (strokeCounted_confined c _)).trans (strokeEnd_confined c _))
      (fun _ => ?_) (fun h => (h.creditTank _).strokeCounted.strokeEnd)
    refine channelLawful_strokeEnd (s := strokeCounted c (creditTank c _ s)) ?_
    rw [chan_strokeCounted]
    exact estimate_creditTank_le c _ s
  | a => exact strokeDone_laws_from ink (side := .a) hs
  | b => exact strokeDone_laws_from ink (side := .b) hs

/-- R2's evaluation after a change of channel `c` that keeps R1's bound. -/
theorem Confined.channelLawful_evalSupply {c : Fin 6} {s t : State} (h : Confined c s t)
    (bound : (Machine.chan t c).estimate ≤ Config.subTankMax) :
    ChannelLawful s.params.reserveMark (Machine.chan (evalSupply c t) c) := by
  rw [← h.params]
  exact Machine.channelLawful_evalSupply bound

theorem floatTo_laws (c : Fin 6) (f : FloatLevel) (s : State) : LawsPass s (floatTo c f s) := by
  rw [floatTo_eq]
  have corrected := (setChan_confined c ((chan s c).floated f) s).trans (refillTest_confined c _)
  refine .of_confined ((corrected.trans (evalSupply_confined c _)).trans (checkOver_confined c c _)) (fun h => ?_)
    (fun h => ((h.setChan_same (by rfl) (by rfl)).refillTest.evalSupply).checkOver c)
  rw [chan_checkOver]
  refine corrected.channelLawful_evalSupply ?_
  rw [estimate_refillTest, chan_setChan]
  cases f
  · exact (Nat.min_le_left _ _).trans h.1
  · exact h.1
  · simp [Channel.floated, Config.floatHighMark, Config.subTankMax]

theorem clearFault_laws (c : Fin 6) (s : State) : LawsPass s (clearFault c s) := by
  unfold clearFault
  have cleared := setChan_confined c { chan s c with refill := .idle, strokes := 0 } s
  refine .of_confined ((cleared.trans (evalSupply_confined c _)).trans (refillTest_confined c _))
    (fun h => ?_) (fun h => ((h.setChan_same (by rfl) (by rfl)).evalSupply).refillTest)
  refine (cleared.channelLawful_evalSupply ?_).refillTest
  rw [chan_setChan]
  exact h.1

theorem debitTank_laws (c : Fin 6) (n : Nat) (s : State) : LawsPass s (debitTank c n s) := by
  rw [debitTank_eq]
  have debited := (setChan_confined c { chan s c with estimate := (chan s c).estimate - n } s).trans
    (refillTest_confined c _)
  refine .of_confined (debited.trans (evalSupply_confined c _)) (fun h => ?_)
    (fun h => ((h.setChan_same (by rfl) (by rfl)).refillTest).evalSupply)
  refine debited.channelLawful_evalSupply ?_
  rw [estimate_refillTest, chan_setChan]
  exact (Nat.sub_le _ _).trans h.1

end Sys2Proof.Machine
end

