-- ==== Sys2Proof/Proofs/SupplyLawsPassed.lean ====
section
/-!
SUPPORT. The commands of the Supply Unit, the debits of the Usage Accounting Unit, the agenda, and the ways a command is
taken: each passes the laws of chapter 1 on.
-/

namespace Sys2Proof.Machine

/-! ### Commands of the Supply Unit and the bus -/

/-- The bay record as a chip read leaves it, before the cartridge is judged (R6). -/
def Bay.asRead (x : Bay) (scan : Bool) (f : ChipFields) : Bay :=
  { x with
    chip := some { serial := f.serial, code := f.code, drawn := 0, expiry := f.expiry, refilled := f.refilled }
    ink := if 0 < f.capacity ∧ f.capacity ≤ 1000 then
        some { capacity := f.capacity, estimate := min (f.remaining * 1000) (f.capacity * 1000000) }
      else none
    scanRead := scan }

/-- A cartridge that does not stand by: its bay's state set and R54's check made (R6). -/
def judgedAs (b : Fin 12) (x : Bay) (st : BayState) (s : State) : State :=
  checkOver (channelOf b) (setBay s b { x with state := st })

theorem judgeBay_eq (b : Fin 12) (scan : Bool) (f : ChipFields) (s : State) :
    judgeBay b scan f s =
      (let x := (bay s b).asRead scan f
       if ¬ (0 < f.capacity ∧ f.capacity ≤ 1000) then Run.done (judgedAs b x .rejected s)
       else if f.code ≠ (channelOf b).val then Run.done (judgedAs b x .rejected s)
       else if f.remaining = 0 then Run.done (judgedAs b x .out s)
       else if f.refilled = true ∨ (s.date ≠ 0 ∧ f.expiry < s.date) then
         Run.done (raise .confirmNeeded (one b.val) none (judgedAs b x .awaitConfirm s))
       else standbyRun b (setBay s b x)) := by
  unfold judgeBay Bay.asRead judgedAs
  by_cases valid : 0 < f.capacity ∧ f.capacity ≤ 1000 <;> simp [valid]

/-- A bay whose chip has been read, in another state than ACTIVE before and after. -/
theorem setBay_asRead_laws {b : Fin 12} {s : State} (scan : Bool) (f : ChipFields) (st : BayState)
    (h : (bay s b).state ≠ .active) (n : st ≠ .active) :
    LawsPass s (setBay s b { (bay s b).asRead scan f with state := st }) := by
  refine setBay_laws _ (by simp [h, n]) fun i e => .inr ?_
  unfold Bay.asRead at e
  dsimp only at e
  split at e
  · cases e
    exact Nat.min_le_right _ _
  · cases e

theorem judgedAs_laws {b : Fin 12} {s : State} (scan : Bool) (f : ChipFields) (st : BayState)
    (h : (bay s b).state ≠ .active) (n : st ≠ .active) :
    LawsPass s (judgedAs b ((bay s b).asRead scan f) st s) :=
  (setBay_asRead_laws scan f st h n).trans (checkOver_laws _ _)

theorem judgeBay_laws {b : Fin 12} {s : State} (scan : Bool) (f : ChipFields) (h : (bay s b).state = .reading) :
    LawsPass s (judgeBay b scan f s).1 := by
  have idle : (bay s b).state ≠ .active := by simp [h]
  rw [judgeBay_eq]
  dsimp only
  split
  · exact judgedAs_laws scan f _ idle (by decide)
  · split
    · exact judgedAs_laws scan f _ idle (by decide)
    · split
      · exact judgedAs_laws scan f _ idle (by decide)
      · split
        · exact (judgedAs_laws scan f .awaitConfirm idle (by decide)).trans (.of_same rfl)
        · have read := setBay_asRead_laws scan f (bay s b).state idle idle
          exact read.trans (standbyRun_laws (by rw [bay_setBay]; exact idle))

theorem chipRead_laws (r : Vector Byte 18) (s : State) : LawsPass s (chipRead r s).1 := by
  unfold chipRead
  split
  · split
    · dsimp only
      split
      · next reading => exact (LawsPass.of_same (supplyPart_ended s)).trans (judgeBay_laws _ _ reading)
      · exact .of_same (supplyPart_ended s)
    · exact .refl s
  · exact .refl s

theorem chipReadFails_laws (s : State) : LawsPass s (chipReadFails s) := by
  unfold chipReadFails
  split
  · next b _ _ _ =>
    split
    · dsimp only
      refine (LawsPass.of_same (supplyPart_ended s)).trans ?_
      split
      · next reading =>
        exact (setBay_laws_idle { bay (ended s) b with state := .fault } (by simp [reading]) (by simp) rfl).trans
          (checkOver_laws _ _)
      · exact .refl _
    · exact .refl s
  · exact .refl s

theorem setStale_laws (chip : Chip) (stale : Bool) (s : State) : LawsPass s (setStale chip stale s) := by
  cases chip with
  | bay b => exact setBay_laws _ (by simp) fun i e => .inl e
  | waste => exact .of_same rfl

theorem chipWritten_laws (s : State) : LawsPass s (chipWritten s) := by
  unfold chipWritten
  split
  · split
    · exact (LawsPass.of_same (supplyPart_ended s)).trans (setStale_laws _ _ _)
    · exact .refl s
  · exact .refl s

theorem chipWriteFails_laws (s : State) : LawsPass s (chipWriteFails s) := by
  unfold chipWriteFails
  split
  · split
    · exact ((LawsPass.of_same (supplyPart_ended s)).trans (setStale_laws _ _ _)).trans (.of_same rfl)
    · exact .refl s
  · exact .refl s

theorem confirmBay_laws (p : Port) (body : List Byte) (s : State) : LawsPass s (confirmBay p body s).1 := by
  unfold confirmBay
  split
  · exact .of_same rfl
  · next b _ =>
    split
    · next waits =>
      have told : LawsPass s (answer p .confirmCartridge .ok [] s) := .of_same rfl
      refine (told.trans (setBay_laws (b := b) { bay s b with confirmed := true } Iff.rfl fun i e => .inl e)).trans
        (standbyRun_laws ?_)
      rw [bay_setBay]
      simp [waits]
    · exact .of_same rfl

theorem rejectBay_laws (p : Port) (body : List Byte) (s : State) : LawsPass s (rejectBay p body s).1 := by
  unfold rejectBay
  split
  · exact .of_same rfl
  · next b _ =>
    split
    · next waits =>
      have told : LawsPass s (answer p .rejectCartridge .ok [] s) := .of_same rfl
      have idle : (bay (answer p .rejectCartridge .ok [] s) b).state ≠ .active := by
        rw [show bay (answer p .rejectCartridge .ok [] s) b = bay s b from rfl, waits]
        decide
      exact (told.trans (setBay_laws_idle { bay s b with state := .rejected } idle (by simp) rfl)).trans
        (checkOver_laws _ _)
    · exact .of_same rfl

theorem clearRefill_laws (p : Port) (body : List Byte) (s : State) : LawsPass s (clearRefill p body s).1 := by
  unfold clearRefill
  split
  · exact .of_same rfl
  · dsimp only
    split
    · exact (LawsPass.of_same (by simp)).trans (clearFault_laws _ _)
    · exact .of_same rfl

theorem bayGone_laws (b : Fin 12) (s : State) : LawsPass s (bayGone b s).1 :=
  (LawsPass.of_same (supplyPart_setPresence b false s)).trans (removeBay_laws b _)

/-! ### Debits of the Usage Accounting Unit (R19) -/

theorem chargeUsage_laws (body : List Byte) (d : Destination) (c : Fin 6) (s : State) :
    LawsPass s (chargeUsage body d c s) := by
  unfold chargeUsage
  dsimp only
  have charged : LawsPass s (if usageDebit s body c = 0 then s else debitTank c (usageDebit s body c) s) := by
    split
    · exact .refl s
    · exact debitTank_laws c _ s
  refine charged.trans (.of_same ?_)
  cases d <;> simp

theorem chargeAll_laws (body : List Byte) (d : Destination) (s : State) : LawsPass s (chargeAll body d s) :=
  .foldl (fun s c => chargeUsage_laws body d c s) allChannels s

theorem reportInk_laws (body : List Byte) (d : Destination) (s : State) : LawsPass s (reportInk body d s) := by
  unfold reportInk
  dsimp only
  have told : LawsPass s
      (if anyClamped body then raise .clampedUsage 0 (some (.swath (usageSwath body))) s else s) := by
    split
    · exact .of_same rfl
    · exact .refl s
  exact (told.trans (chargeAll_laws body d _)).trans (.of_same (by rw [supplyPart_checkOverAll, supplyPart_pauReport]))

theorem applyReport_laws (body : List Byte) (d : Destination) (s : State) : LawsPass s (applyReport body d s).1 := by
  unfold applyReport
  have noted : LawsPass s (noteReport body s) := .of_same rfl
  dsimp only
  split
  · exact noted
  · refine (noted.trans (reportInk_laws body d _)).trans (.of_same ?_)
    cases d <;> simp

theorem usageStep_laws (s : State) : LawsPass s (usageStep s).1 := by
  unfold usageStep
  split
  · exact .refl s
  · next body rest _ =>
    dsimp only
    generalize hu : State.mk _ _ _ _ _ _ _ _ _ _ _ _ _ _ _ _ _ _ _ _ = u
    have taken : LawsPass s u := .of_same (by rw [← hu]; rfl)
    split
    · exact taken.trans (.of_same (by simp))
    · exact taken.trans (applyReport_laws _ _ _)

theorem chargeSuction_laws (n : Nat) (c : Fin 6) (s : State) : LawsPass s (chargeSuction n c s) := by
  unfold chargeSuction
  dsimp only
  split
  · exact .refl s
  · exact (debitTank_laws c (n * s.params.suctionYield.get c) s).trans (.of_same (by simp))

theorem suctionDebit_laws (h : Fin 3) (n : Nat) (s : State) : LawsPass s (suctionDebit h n s).1 := by
  unfold suctionDebit
  dsimp only
  split
  · exact .refl s
  · exact ((chargeSuction_laws n (firstChannel h) s).trans (chargeSuction_laws n (secondChannel h) _)).trans
      (.of_same (by simp))

/-! ### The suction of the Cleaning Sequencer -/

theorem debitRun_laws (s : State) : LawsPass s (debitRun s).1 := by
  unfold debitRun
  split
  · exact .refl s
  · exact (LawsPass.of_same (supplyPart_recordRun _ _ s)).trans (suctionDebit_laws _ _ _)

theorem clsPumpDone_laws (s : State) : LawsPass s (clsPumpDone s).1 := by
  unfold clsPumpDone
  dsimp only
  split
  · exact (debitRun_laws s).trans (.of_same (supplyPart_releaseSelector _))
  · exact .refl s

theorem abortCycle_laws (cause : CleanCause) (s : State) : LawsPass s (abortCycle cause s).1 := by
  unfold abortCycle
  dsimp only
  split
  · refine LawsPass.trans (t := dtuEndCheck (withdraw .cls (setCls { s.cls with abort := some cause } s)))
      (.of_same (by simp)) ?_
    unfold stopRun
    split
    · exact (LawsPass.of_same (supplyPart_stopPump _)).trans (debitRun_laws _)
    · exact .refl _
  · exact .refl s

theorem clsWasteChanged_laws (s : State) : LawsPass s (clsWasteChanged s).1 := by
  unfold clsWasteChanged
  split
  · exact abortCycle_laws _ s
  · split
    · exact .of_same (by simp)
    · exact .refl s

theorem clsFault_laws (run : Option (Fin 3 × Nat)) (s : State) : LawsPass s (clsFault run s).1 := by
  unfold clsFault
  dsimp only
  split
  · refine LawsPass.trans ?_ (.of_same (by simp; rfl))
    split
    · exact (LawsPass.of_same (supplyPart_recordRun _ _ s)).trans (suctionDebit_laws _ _ _)
    · exact .refl s
  · exact .refl s

theorem stationFault_laws (cause : StationCause) (s : State) : LawsPass s (stationFault cause s).1 := by
  unfold stationFault
  dsimp only
  have faulted : LawsPass s (faultStation cause s) := .of_same (supplyPart_faultStation cause s)
  split
  · exact faulted.trans (clsFault_laws _ _)
  · exact faulted.trans (.of_same (supplyPart_dtuFault _))
  · exact faulted

theorem wakeEnd_laws (s : State) : LawsPass s (wakeEnd s).1 := by
  unfold wakeEnd
  exact (refillTestAll_laws s).trans (.of_same (by simp))

/-! ### The agenda -/

/-- Every consequence passes the laws on. -/
theorem perform_laws (a : Act) (s : State) : LawsPass s (perform a s).1 := by
  cases a
  case pumpDone => exact clsPumpDone_laws s
  case wasteChanged => exact clsWasteChanged_laws s
  case abortCycle c => exact abortCycle_laws c s
  case checkFailed => exact abortCycle_laws .orderFailed s
  case wakeEnd => exact wakeEnd_laws s
  case sessionBegun who => cases who <;> exact .of_same (by simp [perform])
  all_goals exact .of_same (by simp [perform])

theorem runActs_laws (n : Nat) : ∀ r : Run, LawsPass r.1 (runActs n r).1 := by
  induction n with
  | zero => exact fun r => .refl r.1
  | succ n ih =>
    rintro ⟨s, acts⟩
    cases acts with
    | nil => exact .refl s
    | cons a rest =>
      rw [runActs_cons]
      exact (perform_laws a s).trans (ih ((perform a s).1, (perform a s).2 ++ rest))

/-- A command's outcome passes on what its own effect does. -/
theorem settle_laws {s t : State} {r : Run} (h : settle r = .next t) (own : LawsPass s r.1) : LawsPass s t := by
  rcases settle_cases r with ⟨u, hu, run⟩ | fault
  · rw [hu] at h
    cases h
    have agenda := runActs_laws Config.cascadeLimit r
    rw [run] at agenda
    exact own.trans agenda
  · rw [fault] at h
    cases h

/-! ### How a command is taken -/

variable {f : State → Run}

theorem waking_laws (hf : ∀ s, LawsPass s (f s).1) (c : WakeCause) (s : State) : LawsPass s (waking c f s).1 := by
  unfold waking
  split
  · exact (LawsPass.of_same (supplyPart_wake c s)).trans (hf _)
  · exact hf s

theorem event_laws (hf : ∀ s, LawsPass s (f s).1) (s : State) : LawsPass s (event f s).1 := by
  unfold event
  split
  · exact .refl s
  · exact hf s

theorem watched_laws (hf : ∀ s, LawsPass s (f s).1) (c : WakeCause) (changed : State → Bool) (s : State) :
    LawsPass s (watched c changed f s).1 :=
  event_laws (fun s => by
    split
    · exact waking_laws hf c s
    · exact .refl s) s

theorem transaction_laws (hf : ∀ s, LawsPass s (f s).1) (p : Port) (silent : State → Bool) (s : State) :
    LawsPass s (transaction p silent f s).1 := by
  unfold transaction
  dsimp only
  split
  · exact .refl s
  · refine (LawsPass.of_same (supplyPart_beginTransaction p s)).trans ?_
    split
    · exact hf _
    · exact waking_laws hf _ _

theorem fitting_laws (hf : ∀ s, LawsPass s (f s).1) (p : Port) (body : List Byte) (s : State) :
    LawsPass s (fitting p body f s).1 := by
  unfold fitting
  split
  · exact .of_same rfl
  · exact hf s

theorem dispatch_laws (hf : ∀ s, LawsPass s (f s).1) (k : Kind) (p : Port) (body : List Byte) (s : State) :
    LawsPass s (dispatch k p body f s).1 := by
  unfold dispatch
  split
  · exact .of_same rfl
  · exact .of_same rfl
  all_goals
    split
    · exact .of_same rfl
    · split
      · exact .of_same rfl
      · exact (LawsPass.of_same (supplyPart_holdSlot p k s)).trans (hf _)

theorem request_laws (hf : ∀ s, LawsPass s (f s).1) (k : Kind) (p : Port) (body : List Byte) (s : State) :
    LawsPass s (request k p body f s).1 :=
  transaction_laws (fitting_laws (dispatch_laws hf k p body) p body) p _ s

end Sys2Proof.Machine
end

