-- ==== Sys2Proof/Proofs/SupplySteps.lean ====
section
/-!
SUPPORT. Every command and every step passes the laws of chapter 1 on: parameters, resets, every command, every step.
Settles O54 and O55.
-/

namespace Sys2Proof.Machine

/-! ### Parameters (R2, R171) -/

/-- Every supply state evaluated: each channel's record with its own, the rest as it was (R2). -/
theorem chan_evalSupplies (l : List (Fin 6)) (d : Fin 6) : ∀ s : State,
    chan (l.foldl (fun s c => evalSupply c s) s) d =
      if d ∈ l then { chan s d with supply := supplyOf s.params.reserveMark (chan s d) } else chan s d := by
  induction l with
  | nil => intro s; rfl
  | cons c l ih =>
    intro s
    rw [List.foldl_cons, ih, (evalSupply_confined c s).params]
    by_cases e : d = c
    · subst e
      simp [supplyOf]
    · rw [(evalSupply_confined c s).chan d e]
      simp [e]

/-- A new reserve mark: every supply state is evaluated by it (R2). -/
theorem newReserve_laws {s t : State} (hc : t.spu.channels = s.spu.channels) (hb : t.spu.bays = s.spu.bays) :
    LawsPass s (allChannels.foldl (fun s c => evalSupply c s) t) := by
  have bays := (LawsPass.foldl (fun s c => evalSupply_laws c s) allChannels t).bays
  refine ⟨fun laws => ?_, fun laws => bays ?_⟩
  · rw [supplyLaws_iff]
    intro c
    rw [chan_evalSupplies, if_pos (by revert c; decide)]
    rw [params_of_supply (foldl_kept keptBySupply _ (fun s c => evalSupply_kept c s) allChannels t)]
    refine ⟨?_, rfl⟩
    have bound := laws.1 c
    rwa [chan, ← hc] at bound
  · simpa only [BaysLawful, chan, bay, hc, hb] using laws

theorem checkOverAll_laws (cs : List (Fin 6)) (s : State) : LawsPass s (checkOverAll cs s) :=
  .of_same (supplyPart_checkOverAll cs s)

theorem reserveMark_write (q : Params) {id : ParamId} (i : Nat) (v : Int) (h : id ≠ .reserveMark) :
    (q.write id i v).reserveMark = q.reserveMark := by
  cases id
  case reserveMark => exact absurd rfl h
  all_goals rfl

theorem paramActions_reserveMark (s : State) :
    paramActions .reserveMark s
      = Run.done (checkOverAll allChannels (allChannels.foldl (fun s c => evalSupply c s) s)) := by
  simp only [paramActions]

theorem paramActions_refillMark (s : State) :
    paramActions .refillMark s = (refillTestAll s, supplyActs s (refillTestAll s)) := by
  simp only [paramActions]

theorem paramActions_laws {id : ParamId} (s : State) (h : id ≠ .reserveMark) : LawsPass s (paramActions id s).1 := by
  by_cases refill : id = .refillMark
  · subst refill
    rw [paramActions_refillMark]
    dsimp only
    exact refillTestAll_laws s
  · have nothing : paramActions id s = Run.done s := by
      unfold paramActions
      split
      · contradiction
      · contradiction
      · rfl
    rw [nothing]
    exact .refl s

theorem setParam_laws (body : List Byte) (p : Port) (s : State) : LawsPass s (setParam body p s).1 := by
  unfold setParam
  split
  · exact .of_same rfl
  · next id i _ =>
    dsimp only
    generalize hu : answer p .setParam _ _ _ = u
    by_cases h : id = .reserveMark
    · subst h
      have spu : u.spu = s.spu := by rw [← hu]; rfl
      rw [paramActions_reserveMark, Run.done]
      dsimp only
      refine LawsPass.trans ?_ (checkOverAll_laws allChannels _)
      exact newReserve_laws (by rw [spu]) (by rw [spu])
    · refine LawsPass.trans (.of_same ?_) (paramActions_laws u h)
      rw [← hu, supplyPart_answer]
      simp only [supplyPart, reserveMark_write _ _ _ h]

/-! ### Resets (R174) -/

theorem chan_resetWith (r : Readings) (c : Fin 6) : chan (State.resetWith r) c = Channel.reset (r.floats.get c) := by
  fin_cases c <;> rfl

theorem bay_resetWith (r : Readings) (b : Fin 12) : bay (State.resetWith r) b = Bay.reset := by
  fin_cases b <;> rfl

/-- The laws hold after a device reset, whatever the sensors read (R1, R2, R4). -/
theorem resetWith_laws (r : Readings) (s : State) : LawsPass s (State.resetWith r) := by
  refine ⟨fun _ => (supplyLaws_iff _).mpr fun c => ?_, fun _ => ?_⟩
  · rw [chan_resetWith]
    unfold ChannelLawful Channel.reset
    refine ⟨?_, by simp [supplyOf]; rfl⟩
    cases r.floats.get c <;> simp [Config.floatHighMark, Config.floatLowMark, Config.subTankMax]
  · simp [BaysLawful, chan_resetWith, bay_resetWith, Channel.reset, Bay.reset]

theorem assertReset_laws (s : State) : LawsPass s (assertReset s) := by
  have chan : ∀ c, chan (assertReset s) c = { chan s c with stroke := .none } := fun c => by
    simp only [Machine.chan, assertReset, Vector.get, Vector.toArray_ofFn, Array.getElem_ofFn]
    rfl
  refine ⟨fun laws => ?_, fun laws => ?_⟩
  · rw [supplyLaws_iff] at *
    intro c
    rw [chan]
    exact laws c
  · rw [baysLawful_iff] at *
    exact fun c => (laws c).of_same_active (by rw [chan])
      (fun side e => absurd (by rw [chan] at e; exact e.symm) (strokeFrom_ne_none side)) fun _ => rfl

theorem startScan_laws (s : State) : LawsPass s (startScan s).1 := by
  unfold startScan
  dsimp only
  have scanned : LawsPass s (allBays.foldl (fun s b => if s.pins.presence.get b then insertBay b true s else s) s) :=
    .foldl (fun s b => by
      split
      · exact insertBay_laws b true s
      · exact .refl s) allBays s
  generalize allBays.foldl _ s = u at scanned ⊢
  split
  · exact scanned.trans (.of_same (supplyPart_insertWaste u))
  · exact scanned

theorem startUp_laws (s : State) : LawsPass s (startUp s).1 := by
  unfold startUp
  have begun : LawsPass s { s with startup := false } := .of_same rfl
  exact (begun.trans (startScan_laws _)).trans (.of_same (by simp))

theorem deviceReset_laws (r : Readings) (s : State) : LawsPass s (deviceReset r s).1 := by
  unfold deviceReset
  have queued : LawsPass (State.resetWith r) { State.resetWith r with pending := s.pending } := .of_same rfl
  exact ((resetWith_laws r s).trans queued).trans (startUp_laws _)

/-! ### Every command and every step -/

/-- Every command passes the laws of chapter 1 on. -/
theorem exec_laws {i : Instr} {s t : State} (h : exec i s = .next t) : LawsPass s t := by
  cases i <;> simp only [
    exec, execResetNAssert, execDeviceReset, execStatusPoll, execFrameError, execReadReply, execLinkReset,
    execReadEvents, execClearEvents, execSetEventEnable, execGetParam, execSetParam, execSetDate, execReadChannel,
    execReadBay, execConfirmCartridge, execRejectCartridge, execClearRefillFault, execReadWaste, execReadTotals,
    execUsage, execFence, execAdmitPage, execEndPage, execListPages, execZoneRequest, execZoneRelease,
    execReadStation, execStationRetry, execFetchOrder, execOrderDone, execClean, execCancelClean, execCheckNozzles,
    execCalibrateDetector, execReadHealth, execClearDegraded, execRest, execLoadMedia, execUnloadMedia, execAdvance,
    execCut, execManualFeed, execReleaseHold, execReadFeed, execUsageApply, execFenceRelease,
    execBusTransactionStart, execBusAttemptUnacknowledged, execChipReadDone, execChipReadFail, execWasteReadDone,
    execWasteReadFail, execChipWriteDone, execChipWriteFail, execBayPresenceClose, execBayPresenceOpen,
    execWastePresenceClose, execWastePresenceOpen, execStrokeComplete, execFloatChange, execWaitInkEnd,
    execSledMotionDone, execWiperMotionDone, execSledMotionTimeout, execWiperMotionTimeout, execEndSensorChangeIdle,
    execPumpRevolution, execPumpStall, execHomeSensorChange, execParkTimerExpiry, execIdleCapExpiry,
    execGrantHoldExpiry, execOrderTimerExpiry, execWaitingPlacementEntry, execFireSyncStrobe, execDetectorSample,
    execExposureExpiry, execArbiterServe, execLoadMotionDone, execUnloadMotionDone, execAdvanceDone,
    execCutAdvanceDone, execManualFeedDone, execFeedMotionTimeout, execLeadingEdgeChange, execPathEntryChange,
    execSourceEndSensor, execCoverSensorOpen, execCoverSensorClose, execSourceEndSensorClear, execReplyShiftedOut] at h
  case resetNAssert => exact settle_laws h (assertReset_laws s)
  case deviceReset r => exact settle_laws h (deviceReset_laws r s)
  case frameError p bytes =>
    split at h
    · exact settle_laws h (transaction_laws (fun s => .of_same (by simp)) p _ s)
    · exact settle_laws h (event_laws (fun s => .of_same (by simp)) s)
    · exact settle_laws h (event_laws (fun s => .of_same (by simp)) s)
  case readReply p body =>
    exact settle_laws h (transaction_laws (fitting_laws (fun s => .of_same (by simp)) p body) p _ s)
  case linkReset p body =>
    exact settle_laws h (transaction_laws (fitting_laws (fun s => .of_same (by simp)) p body) p _ s)
  case setParam p body => exact settle_laws h (request_laws (setParam_laws body p) _ p body s)
  case confirmCartridge p body => exact settle_laws h (request_laws (confirmBay_laws p body) _ p body s)
  case rejectCartridge p body => exact settle_laws h (request_laws (rejectBay_laws p body) _ p body s)
  case clearRefillFault p body => exact settle_laws h (request_laws (clearRefill_laws p body) _ p body s)
  case usage p body =>
    refine settle_laws h (transaction_laws (fitting_laws (fun s => ?_) p body) p _ s)
    split
    · exact .of_same (by simp)
    · exact dispatch_laws .refl _ p body s
  case usageApply => exact settle_laws h (event_laws usageStep_laws s)
  case chipReadDone r => exact settle_laws h (event_laws (chipRead_laws r) s)
  case chipReadFail => exact settle_laws h (event_laws chipReadFails_laws s)
  case chipWriteDone => exact settle_laws h (event_laws chipWritten_laws s)
  case chipWriteFail => exact settle_laws h (event_laws chipWriteFails_laws s)
  case bayPresenceClose b =>
    exact settle_laws h (watched_laws
      (fun s => (LawsPass.of_same (supplyPart_setPresence b true s)).trans (insertBay_laws b false _)) _ _ s)
  case bayPresenceOpen b => exact settle_laws h (watched_laws (bayGone_laws b) _ _ s)
  case strokeComplete c ink => exact settle_laws h (event_laws (strokeDone_laws c ink) s)
  case floatChange c f => exact settle_laws h (watched_laws (floatTo_laws c f) _ _ s)
  case sledMotionTimeout | wiperMotionTimeout | pumpStall =>
    refine settle_laws h (event_laws (fun s => ?_) s)
    split
    · exact stationFault_laws _ s
    · exact .refl s
  case fenceRelease | parkTimerExpiry | idleCapExpiry | grantHoldExpiry | fireSyncStrobe | exposureExpiry
      | feedMotionTimeout =>
    refine settle_laws h (event_laws (fun s => .of_same ?_) s)
    split <;> simp
  case leadingEdgeChange | pathEntryChange | sourceEndSensor | coverSensorOpen | coverSensorClose | sourceEndSensorClear
      | wastePresenceClose | wastePresenceOpen =>
    exact settle_laws h (watched_laws (fun s => .of_same (by simp)) _ _ s)
  case statusPoll | busTransactionStart | busAttemptUnacknowledged | wasteReadDone | wasteReadFail | waitInkEnd
      | sledMotionDone | wiperMotionDone | endSensorChangeIdle | pumpRevolution | homeSensorChange | orderTimerExpiry
      | waitingPlacementEntry | detectorSample | arbiterServe | loadMotionDone | unloadMotionDone | advanceDone
      | cutAdvanceDone | manualFeedDone | replyShiftedOut =>
    exact settle_laws h (event_laws (fun s => .of_same (by simp)) s)
  all_goals exact settle_laws h (request_laws (fun s => .of_same (by simp)) _ _ _ s)

/-- Every step passes the laws of chapter 1 on. -/
theorem step_laws {s t : State} (h : step s = .next t) : LawsPass s t := by
  unfold step at h
  split at h
  · unfold idleStep at h
    split at h
    · exact settle_laws h (startUp_laws s)
    · cases h
      exact .of_same (supplyPart_tick s)
  · next c rest _ =>
    have taken : LawsPass s { s with pending := rest } := .of_same rfl
    exact taken.trans (exec_laws h)

/-- Settles O54: every step passes the bound of R1 and the supply states of R2 on. -/
theorem supplyLawsKept : Obligations.SupplyLawsKept :=
  fun _ _ laws h => (step_laws h).supply laws

/-- Settles O55: every step passes the law of the active bays on. -/
theorem bayLawsKept : Obligations.BayLawsKept :=
  fun _ _ laws h => (step_laws h).bays laws

end Sys2Proof.Machine
end

