-- ==== Sys2Proof/Proofs/SupplyReads.lean ====
section
/-!
SUPPORT. The readings of a channel and a bay, and the transactions of the cartridge bus. Settles O14, O15 and O20.
-/

namespace Sys2Proof.Machine

/-! ### Indices and immediate replies -/

@[simp] theorem index?_val {n : Nat} (i : Fin n) : index? n i.val = some i := by simp [index?]

theorem index?_none {n x : Nat} (h : n ≤ x) : index? n x = none := by
  unfold index?
  exact dif_neg (Nat.not_lt.mpr h)

/-- An owner's immediate reply to a request answers its transaction. -/
theorem reply_heldFor (k : Kind) (p : Port) (r : Result) (b : List Byte) (s : State) :
    reply p k r b (heldFor k p s) = Run.done (answered p k r b s) :=
  congrArg Run.done (answer_heldFor k k p r b s)

theorem readByChannel_heldFor {k : Kind} {p : Port} {body : List Byte} {make : State → Fin 6 → List Byte} {s : State}
    {c : Fin 6} (h : field body 0 1 = c.val) :
    readByChannel k p body make (heldFor k p s) = Run.done (answered p k .ok (make (heldFor k p s) c) s) := by
  simp only [readByChannel, h, index?_val, reply_heldFor]

theorem readByChannel_badField {k : Kind} {p : Port} {body : List Byte} {make : State → Fin 6 → List Byte} {s : State}
    (h : 5 < field body 0 1) :
    readByChannel k p body make (heldFor k p s) = Run.done (answered p k .badField [] s) := by
  simp only [readByChannel, index?_none (Nat.succ_le_of_lt h), reply_heldFor]

/-! ### READ_CHANNEL and READ_BAY (R3, R13) -/

/-- The byte of the active bay: its index, FFH for none (R3). -/
theorem activeByte_eq (c : Fin 6) (active : Option Side) :
    leOr 1 0xFF (active.map fun side => (bayOf c side).val) =
      le 1 (match active with
        | some side => (bayOf c side).val
        | none => 0xFF) := by
  cases active <;> rfl

/-- The body of READ_CHANNEL, field by field (R3, R185). -/
theorem channelBody_eq (s : State) (c : Fin 6) :
    channelBody s c =
      (let x := chan s c
       le 1 c.val ++ le 4 x.estimate ++ le 1 x.float.ctorIdx ++ leSigned 4 x.drift
         ++ le 1 (match x.active with
           | some side => (bayOf c side).val
           | none => 0xFF)
         ++ le 1 x.refill.ctorIdx ++ le 1 x.strokes ++ le 1 x.stroke.ctorIdx ++ le 1 x.supply.ctorIdx) := by
  unfold channelBody byte
  dsimp only
  rw [activeByte_eq]

/-- Settles O14, reading the record of the channel the body names. -/
theorem channelRead : Obligations.ChannelRead := by
  refine ⟨fun p => by cases p <;> rfl, fun p body s takes => ⟨fun above => ?_, fun c is => ?_⟩⟩
  · simp only [exec, execReadChannel, settle_request takes, readByChannel_badField above, settle_done]
  · simp only [exec, execReadChannel, settle_request takes, readByChannel_heldFor is, settle_done]
    rw [channelBody_eq]
    rfl

/-- Settles O15, reading the record of the bay the body names. -/
theorem bayRead : Obligations.BayRead := by
  refine ⟨fun p => by cases p <;> rfl, fun p body s takes => ⟨fun above => ?_, fun b is => ?_⟩⟩
  · simp only [exec, execReadBay, settle_request takes, readBay, index?_none (Nat.succ_le_of_lt above), reply_heldFor,
      settle_done]
  · simp only [exec, execReadBay, settle_request takes, readBay, is, index?_val, reply_heldFor, settle_done]
    rfl

end Sys2Proof.Machine
end

