-- ==== Sys2Proof/Proofs/CartridgeBus.lean ====
section
/-!
SUPPORT. The cartridge bus: how a transaction begins, what an attempt counts and carries, how a WRITE ends, and how reads
and write-backs join the queue. Settles O20.
-/

namespace Sys2Proof.Machine

/-! ### The executing transaction (R20, R22) -/

theorem executing_some {s : State} {t : Trans} {ts : List Trans} (h : s.spu.bus.executing = true)
    (q : s.spu.bus.queue = t :: ts) : executing s = some t := by
  simp [executing, Bus.current, h, q]

theorem executing_none {s : State} (h : s.spu.bus.executing = false) : executing s = none := by
  simp [executing, Bus.current, h]

theorem startTrans_idle {s : State} (h : s.spu.bus.queue = [] ∨ s.spu.bus.executing = true) : startTrans s = s := by
  unfold startTrans
  rcases h with empty | busy
  · simp [empty]
  · split <;> simp [busy]

/-- The value a transaction carries as it begins: the estimate in µL for a WRITE (R22, R39). -/
def startValue (t : Trans) (s : State) : Nat :=
  match t.kind, t.chip with
  | .read, _ => s.spu.bus.value
  | .write, .bay b => (bay s b).estimate / 1000
  | .write, .waste => match s.uau.waste.data with
    | some d => sat Config.u32Max (d.estimate / 1000)
    | none => 0

theorem startTrans_begins {s : State} {t : Trans} {ts : List Trans} (q : s.spu.bus.queue = t :: ts)
    (h : s.spu.bus.executing = false) :
    startTrans s = onBus (fun x => { x with executing := true, value := startValue t s }) s := by
  simp [startTrans, q, h]
  rfl

theorem startValue_bay {t : Trans} {b : Fin 12} (s : State) (k : t.kind = .write) (c : t.chip = .bay b) :
    startValue t s = (bay s b).estimate / 1000 := by
  simp only [startValue, k, c]

theorem startValue_waste {t : Trans} {s : State} {d : WasteData} (k : t.kind = .write) (c : t.chip = .waste)
    (h : s.uau.waste.data = some d) (bound : d.estimate / 1000 ≤ 4294967295) : startValue t s = d.estimate / 1000 := by
  simp only [startValue, k, c, h, sat, Config.u32Max]
  exact Nat.min_eq_left bound

theorem attemptFails_executing {s : State} {t : Trans} {ts : List Trans} (q : s.spu.bus.queue = t :: ts)
    (h : s.spu.bus.executing = true) :
    attemptFails s = onBus (fun x => { x with queue := { t with attempts := min (t.attempts + 1) 4 } :: ts }) s := by
  simp [attemptFails, executing_some h q, onBus, q, sat, Config.busAttempts]

theorem attemptFails_idle {s : State} (h : s.spu.bus.executing = false) : attemptFails s = s := by
  simp [attemptFails, executing_none h]

theorem busTransfer_executing {s : State} {t : Trans} {ts : List Trans} (h : s.spu.bus.executing = true)
    (q : s.spu.bus.queue = t :: ts) : busTransfer s = some (t.transfer s.spu.bus.value) := by
  simp [busTransfer, executing_some h q]

theorem chipWritten_executing {s : State} {chip : Chip} {scan : Bool} {n : Nat} {ts : List Trans}
    (h : s.spu.bus.executing = true) (q : s.spu.bus.queue = ⟨chip, .write, scan, n⟩ :: ts) (left : n < 4) :
    chipWritten s = setStale chip false (ended s) := by
  simp [chipWritten, executing_some h q, Config.busAttempts, left]

theorem chipWriteFails_executing {s : State} {chip : Chip} {scan : Bool} {n : Nat} {ts : List Trans}
    (h : s.spu.bus.executing = true) (q : s.spu.bus.queue = ⟨chip, .write, scan, n⟩ :: ts) (last : 3 ≤ n) :
    chipWriteFails s = raise .chipStale (one (Chip.code chip)) none (setStale chip true (ended s)) := by
  simp [chipWriteFails, executing_some h q, canFail, Config.busAttempts, last]

/-! ### Joining the queue (R20, R21) -/

/-- A write-back finds its chip's WRITE waiting or no room (R21). -/
theorem Bus.pushWrite_refused {x : Bus} {chip : Chip}
    (h : (∃ t ∈ (if x.executing then x.queue.tail else x.queue), t.chip = chip ∧ t.kind = .write) ∨ 16 ≤ x.queue.length) :
    x.pushWrite chip = x := by
  refine if_pos ?_
  rcases h with waits | full
  · simpa [Bus.writeWaits] using Or.inl waits
  · simp [Config.busDepth, full]

theorem Bus.pushWrite_taken {x : Bus} {chip : Chip}
    (none : ∀ t ∈ (if x.executing then x.queue.tail else x.queue), t.chip = chip → t.kind ≠ .write)
    (room : x.queue.length < 16) :
    x.pushWrite chip = { x with queue := x.queue ++ [⟨chip, .write, false, 0⟩] } := by
  refine if_neg ?_
  simpa [Bus.writeWaits, Config.busDepth, room] using none

/-- Dropping the last WRITE of a list behind which only reads stand. -/
theorem dropLastWrite_append {older newer : List Trans} {youngest : Trans} (k : youngest.kind = .write)
    (reads : ∀ t ∈ newer, t.kind = .read) : dropLastWrite (older ++ youngest :: newer) = older ++ newer := by
  have skipped : ∀ t ∈ newer.reverse, ¬ (t.kind == .write) = true := fun t m => by
    simp [reads t (List.mem_reverse.mp m)]
  simp [dropLastWrite, List.eraseP_append_right _ skipped, k]

theorem Bus.pushRead_room {x : Bus} (chip : Chip) (scan : Bool) (room : x.queue.length < 16) :
    x.pushRead chip scan = { x with queue := x.queue ++ [⟨chip, .read, scan, 0⟩] } := by
  simp [Bus.pushRead, Config.busDepth, Nat.not_le.mpr room]

/-- The youngest WRITE that is not executing is the last one behind the executing transaction (R20). -/
theorem Bus.dropYoungestWrite_eq {x : Bus} {older newer : List Trans} {youngest : Trans}
    (q : x.queue = older ++ youngest :: newer) (k : youngest.kind = .write) (reads : ∀ t ∈ newer, t.kind = .read)
    (first : x.executing = true → older ≠ []) : x.dropYoungestWrite = { x with queue := older ++ newer } := by
  unfold Bus.dropYoungestWrite
  split
  · next executes =>
    cases older with
    | nil => exact absurd rfl (first executes)
    | cons t older =>
      simp only [q, List.cons_append]
      rw [dropLastWrite_append k reads]
  · rw [q, dropLastWrite_append k reads]

/-- A read that finds the queue full takes the room of the youngest WRITE that is not executing (R20). -/
theorem Bus.pushRead_full {x : Bus} {older newer : List Trans} {youngest : Trans} (chip : Chip) (scan : Bool)
    (full : 16 ≤ x.queue.length) (q : x.queue = older ++ youngest :: newer) (k : youngest.kind = .write)
    (reads : ∀ t ∈ newer, t.kind = .read) (first : x.executing = true → older ≠ []) :
    x.pushRead chip scan = { x with queue := older ++ newer ++ [⟨chip, .read, scan, 0⟩] } := by
  simp only [Bus.pushRead, Config.busDepth, ge_iff_le, full, if_true, Bus.dropYoungestWrite_eq q k reads first]

/-! ### The obligation -/

/-- Settles O20, by the part of the bus each clause speaks of. -/
theorem busTransactionsAndWrites : Obligations.BusTransactionsAndWrites := by
  refine ⟨fun s awake => ⟨fun idle => ?start_idle, fun t ts q h => ?start, fun t ts q h => ?attempt, fun h => ?no_attempt,
    fun scan n ts h => ⟨fun b q => ?_, fun b q => ?_, fun q => ?_, fun q => ?_⟩⟩, fun x chip => ⟨?_, ?_⟩,
    fun x chip scan => ⟨?_, ?_⟩, fun scan n ts s awake h =>
      ⟨fun b q => ⟨fun left => ?written_bay, fun last => ?failed_bay⟩,
        fun q => ⟨fun left => ?written_waste, fun last => ?failed_waste⟩⟩⟩
  case start_idle => simp only [exec, execBusTransactionStart, event_awake awake, startTrans_idle idle, settle_done]
  case start =>
    refine ⟨startValue t s, ?_, fun b k c => startValue_bay s k c, fun d k c e bound => startValue_waste k c e bound⟩
    simp only [exec, execBusTransactionStart, event_awake awake, startTrans_begins q h, settle_done]
  case attempt =>
    simp only [exec, execBusAttemptUnacknowledged, event_awake awake, attemptFails_executing q h, settle_done]
  case no_attempt =>
    simp only [exec, execBusAttemptUnacknowledged, event_awake awake, attemptFails_idle h, settle_done, busTransfer,
      executing_none h, Option.map_none, and_self]
  case written_bay =>
    simp only [exec, execChipWriteDone, event_awake awake, chipWritten_executing h q left, settle_done]
    rfl
  case failed_bay =>
    simp only [exec, execChipWriteFail, event_awake awake, chipWriteFails_executing h q last, settle_done]
    rfl
  case written_waste =>
    simp only [exec, execChipWriteDone, event_awake awake, chipWritten_executing h q left, settle_done]
    rfl
  case failed_waste =>
    simp only [exec, execChipWriteFail, event_awake awake, chipWriteFails_executing h q last, settle_done]
    rfl
  · exact busTransfer_executing h q
  · exact busTransfer_executing h q
  · exact busTransfer_executing h q
  · exact busTransfer_executing h q
  · exact Bus.pushWrite_refused
  · exact Bus.pushWrite_taken
  · exact Bus.pushRead_room chip scan
  · exact fun older youngest newer full q k reads first => Bus.pushRead_full chip scan full q k reads first

end Sys2Proof.Machine
end

