-- ==== Sys2Proof/Proofs/SupplyEffects.lean ====
section
/-!
SUPPORT. A command of the Supply Unit with no cycle in WAIT_INK ends with its own effect. Settles O19 and O25.
-/

namespace Sys2Proof.Machine

/-! ### Consequences of a change of supply (R104) -/

theorem waitInkTest_other {s : State} (h : s.cls.stage ≠ .waitInk) : waitInkTest s = Run.done s :=
  if_neg fun waits => h waits.1

/-- Outside WAIT_INK the CLS does nothing on a change of supply (R104). -/
theorem perform_supplyChanged {s : State} (c : Fin 6) (h : s.cls.stage ≠ .waitInk) :
    perform (.supplyChanged c) s = (s, []) := by
  show supplyChanged c s = _
  unfold supplyChanged
  rw [waitInkTest_other h, ite_self, Run.done]

theorem supplyActs_inert {s : State} (u v : State) (h : s.cls.stage ≠ .waitInk) :
    ∀ a ∈ supplyActs u v, perform a s = (s, []) := by
  intro a m
  obtain ⟨c, -, rfl⟩ := List.mem_map.mp m
  exact perform_supplyChanged c h

theorem length_supplyActs_le (u v : State) : (supplyActs u v).length ≤ 6 := by
  unfold supplyActs
  rw [List.length_map]
  exact List.length_filter_le _ _

/-- Outside WAIT_INK a change of supply is all that a command does. -/
theorem settle_supplyActs {s : State} (u v : State) (h : s.cls.stage ≠ .waitInk) :
    settle (s, supplyActs u v) = .next s :=
  settle_inert s _ (supplyActs_inert u v h) ((length_supplyActs_le u v).trans (by decide))

/-! ### CLEAR_REFILL_FAULT (R17) -/

theorem clearFault_eq (c : Fin 6) (s : State) :
    clearFault c s = refillTest c (evalSupply c (setChan s c { chan s c with refill := .idle, strokes := 0 })) := rfl

theorem clearFault_confined (c : Fin 6) (s : State) : Confined c s (clearFault c s) :=
  ((setChan_confined c _ s).trans (evalSupply_confined c _)).trans (refillTest_confined c _)

theorem clearRefill_clears {p : Port} {body : List Byte} {s : State} {c : Fin 6} (is : field body 0 1 = c.val)
    (h : (chan s c).refill = .fault) :
    clearRefill p body s =
      (let u := answer p .clearRefillFault .ok [] s
       (clearFault c u, supplyActs s (clearFault c u))) := by
  simp only [clearRefill, is, index?_val, h, if_true]

/-- Settles O19, by the channel the body names and its refill state. -/
theorem refillFaultCleared : Obligations.RefillFaultCleared := by
  intro p body s takes stage
  refine ⟨fun above => ?_, fun c is => ⟨fun sound => ?_, fun fault => ?_⟩⟩
  · simp only [exec, execClearRefillFault, settle_request takes, clearRefill, index?_none (Nat.succ_le_of_lt above),
      reply_heldFor, settle_done]
  · have held : (chan (heldFor .clearRefillFault p s) c).refill ≠ .fault := sound
    simp only [exec, execClearRefillFault, settle_request takes, clearRefill, is, index?_val, held, if_false,
      reply_heldFor, settle_done]
  · have cleared := clearFault_confined c (answered p .clearRefillFault .ok [] s)
    have held : (chan (heldFor .clearRefillFault p s) c).refill = .fault := fault
    simp only [exec, execClearRefillFault, settle_request takes, clearRefill_clears is held, answer_heldFor]
    rw [settle_supplyActs _ _ (by rw [cls_of_supply cleared.kept]; exact stage), clearFault_eq]
    rfl

/-! ### FLOAT_CHANGE (R18) -/

theorem floatTo_confined (c : Fin 6) (f : FloatLevel) (s : State) : Confined c s (floatTo c f s) := by
  rw [floatTo_eq]
  exact (((setChan_confined c _ s).trans (refillTest_confined c _)).trans (evalSupply_confined c _)).trans
    (checkOver_confined c c _)

theorem watched_unchanged {c : WakeCause} {d : State → Bool} {f : State → Run} {s : State} (h : Awake s)
    (hd : d s = false) : watched c d f s = Run.done s := by
  simp [watched, event, h.1, hd]

/-- The estimate at a change of the float to `f` (R18). -/
theorem Channel.floated_eq (x : Channel) (f : FloatLevel) :
    x.floated f =
      (let e := match f with
        | .high => 27000000
        | .mid => x.estimate
        | .low => min x.estimate 8000000
       { x with float := f, estimate := e, drift := sat32 (x.drift + ((e : Int) - x.estimate)) }) := by
  cases f <;> rfl

/-- Settles O25, by whether the reading is a change. -/
theorem floatCorrects : Obligations.FloatCorrects := by
  intro c f s awake stage
  refine ⟨fun same => ?_, fun changed => ?_⟩
  · simp only [exec, execFloatChange]
    rw [watched_unchanged awake (by simp [same]), settle_done]
  · have corrected : exec (.floatChange c f) s = .next (floatTo c f s) := by
      simp only [exec, execFloatChange]
      rw [watched_awake awake (by simpa using changed), floatRun,
        settle_supplyActs _ _ (by rw [cls_of_supply (floatTo_confined c f s).kept]; exact stage)]
    rw [floatTo_eq, Channel.floated_eq] at corrected
    exact corrected

end Sys2Proof.Machine
end

