-- ==== Sys2Proof/Proofs/BayPresence.lean ====
section
/-!
SUPPORT. The presence switch of a bay, and what a switchover leaves of the channel. Settles O23.
-/

namespace Sys2Proof.Machine

/-! ### A channel through a switchover (R11) -/

@[simp] theorem Channel.promoted_active (x : Channel) (side : Side) (mark : Nat) :
    (x.promoted side mark).active = some side := by
  unfold Channel.promoted
  dsimp only
  split
  · rfl
  · split <;> rfl

@[simp] theorem Channel.promoted_estimate (x : Channel) (side : Side) (mark : Nat) :
    (x.promoted side mark).estimate = x.estimate := by
  unfold Channel.promoted
  dsimp only
  split
  · rfl
  · split <;> rfl

/-- A refill in progress goes on through a promotion. -/
theorem Channel.promoted_refilling {x : Channel} (side : Side) (mark : Nat) (h : x.refill = .refilling) :
    x.promoted side mark = { x with active := some side, supply := .supplied } :=
  if_pos h

/-- A switchover leaves the estimate of the sub-tank. -/
theorem estimate_switchover {c : Fin 6} {side : Side} {s : State} (hp : s.rsc.power = .run) :
    (chan (switchover c side s) c).estimate = (chan s c).estimate := by
  by_cases standby : (bay s (bayOf c side.other)).state = .standby
  · rw [chan_switchover_standby hp standby, Channel.promoted_estimate]
    split <;> rfl
  · rw [chan_switchover_none standby]

/-- A switchover leaves the stroke of a refill in progress. -/
theorem stroke_switchover {c : Fin 6} {side : Side} {s : State} (hp : s.rsc.power = .run)
    (refilling : (chan s c).refill = .refilling) : (chan (switchover c side s) c).stroke = (chan s c).stroke := by
  by_cases standby : (bay s (bayOf c side.other)).state = .standby
  · rw [chan_switchover_standby hp standby, if_pos refilling,
      Channel.promoted_refilling (x := { chan s c with strokes := 0 }) _ _ refilling]
  · rw [chan_switchover_none standby]

/-! ### An active bay taken out (R10, R11) -/

theorem bayOf_ne_other (c : Fin 6) (side : Side) : bayOf c side ≠ bayOf c side.other := by
  simp [(Side.other_ne side).symm]

theorem Channel.strokeLost_eq (x : Channel) (side : Side) :
    x.strokeLost side = if x.stroke = strokeFrom (some side) then { x with stroke := .lost } else x := by
  unfold Channel.strokeLost
  split <;> rfl

/-- The active bay of `side` has left channel `c`, its chip's transactions with it, before the switchover. -/
def takenOut (c : Fin 6) (side : Side) (s : State) : State :=
  setChan (onBus (·.removeChip (.bay (bayOf c side))) (setBay s (bayOf c side) Bay.reset)) c
    ((chan s c).strokeLost side)

theorem removeBay_takenOut {c : Fin 6} {side : Side} {s : State} (h : (bay s (bayOf c side)).state = .active) :
    removeBay (bayOf c side) s = switchover c side (takenOut c side s) := by
  rw [removeBay_active h, channelOf_bayOf, sideOf_bayOf]
  rfl

@[simp] theorem chan_takenOut (c : Fin 6) (side : Side) (s : State) :
    chan (takenOut c side s) c = (chan s c).strokeLost side :=
  chan_setChan _ _ _

@[simp] theorem bay_takenOut (c : Fin 6) (side : Side) (s : State) :
    bay (takenOut c side s) (bayOf c side) = Bay.reset :=
  bay_setBay s _ _

@[simp] theorem bay_takenOut_other (c : Fin 6) (side : Side) (s : State) :
    bay (takenOut c side s) (bayOf c side.other) = bay s (bayOf c side.other) :=
  bay_setBay_other s _ (bayOf_ne_other c side)

/-- What stays on channel `c` and on what the Supply Unit may write changes no pin. -/
theorem Confined.pins {c : Fin 6} {s t : State} (h : Confined c s t) : t.pins = s.pins := by
  have pins := congrArg State.pins (eq_of_supply h.kept s.spu s.pau s.evu)
  exact pins

/-- The frame of a command that has also taken new pins: all else is as it was. -/
theorem Confined.frame {c : Fin 6} {s t : State} {x : Pins} (h : Confined c { s with pins := x } t) :
    { t with spu := s.spu, pau := s.pau, evu := s.evu, pins := s.pins } = s :=
  congrArg (fun u : State => { u with pins := s.pins }) (eq_of_supply h.kept s.spu s.pau s.evu)

theorem insertBay_empty {b : Fin 12} {s : State} (scan : Bool) (h : (bay s b).state = .empty) :
    insertBay b scan s =
      onBus (·.pushRead (.bay b) scan)
        (raise .bayInserted (one b.val) none (setBay s b { bay s b with state := .reading })) :=
  if_pos h

theorem takenOut_confined (c : Fin 6) (side : Side) (s : State) : Confined c s (takenOut c side s) :=
  ((setBay_confined _ s (channelOf_bayOf c side)).trans (onBus_confined c _ _)).trans (setChan_confined c _ _)

/-! ### The presence switch (R5, R10) -/

/-- A change that leaves every channel record alone is no change of supply. -/
theorem supplyActs_same {s t : State} (h : ∀ c, chan t c = chan s c) : supplyActs s t = [] := by
  unfold supplyActs
  simp only [h, ne_eq, not_true_eq_false, decide_false, Bool.or_self, List.filter_false, List.map_nil]

/-- A bay that opens in RUN is taken out. -/
theorem exec_bayPresenceOpen {b : Fin 12} {s : State} (awake : Awake s) (closed : s.pins.presence.get b = true) :
    exec (.bayPresenceOpen b) s = settle (bayGone b s) := by
  simp only [exec, execBayPresenceOpen]
  rw [watched_awake awake closed]

theorem settle_bayGone_inactive {b : Fin 12} {s : State} (h : (bay s b).state ≠ .active) :
    settle (bayGone b s)
      = .next (checkOver (channelOf b) (onBus (·.removeChip (.bay b)) (setBay (setPresence b false s) b Bay.reset))) := by
  have idle : (bay (setPresence b false s) b).state ≠ .active := h
  rw [bayGone, removeBay_inactive idle, supplyActs_same fun c => by rw [chan_checkOver]; rfl]
  rfl

theorem settle_bayGone_active {c : Fin 6} {side : Side} {s : State} (h : (bay s (bayOf c side)).state = .active)
    (stage : s.cls.stage ≠ .waitInk) :
    settle (bayGone (bayOf c side) s)
      = .next (switchover c side (takenOut c side (setPresence (bayOf c side) false s))) := by
  have active : (bay (setPresence (bayOf c side) false s) (bayOf c side)).state = .active := h
  rw [bayGone, settle_supplyActs _ _ (by rw [cls_of_supply (removeBay_confined _ _).kept]; exact stage),
    removeBay_takenOut active]

/-- Settles O23, by the bay's state: a switchover follows the removal of an active one. -/
theorem bayPresence : Obligations.BayPresence := by
  intro b s awake
  obtain ⟨c, side, rfl⟩ : ∃ c side, b = bayOf c side := ⟨_, _, (bayOf_channelOf b).symm⟩
  simp only [channelOf_bayOf, sideOf_bayOf]
  refine ⟨fun opened empty => ?closes, fun closed => ⟨fun idle => ?idle, fun active stage => ?active⟩⟩
  case closes =>
    simp only [exec, execBayPresenceClose]
    have emptied : (bay (setPresence (bayOf c side) true s) (bayOf c side)).state = .empty := empty
    rw [watched_awake awake (by simpa using opened), settle_done, insertBay_empty false emptied]
    rfl
  case idle =>
    rw [exec_bayPresenceOpen awake closed, settle_bayGone_inactive idle, channelOf_bayOf]
    rfl
  case active =>
    rw [exec_bayPresenceOpen awake closed, settle_bayGone_active active stage]
    have power : (takenOut c side (setPresence (bayOf c side) false s)).rsc.power = .run := awake.2
    have taken := takenOut_confined c side (setPresence (bayOf c side) false s)
    have same := taken.trans (switchover_confined c side _)
    refine ⟨_, rfl, ?bay, same.pins, bus_switchover _ _ _, ?estimate, ?stroke, ?standby, ?none, same.chan,
      fun d n m => same.bay d (channelOf_ne n m), same.frame⟩
    case bay => rw [bay_switchover_same, bay_takenOut]
    case estimate =>
      rw [estimate_switchover power, chan_takenOut]
      rfl
    case stroke =>
      intro drawing refilling
      rw [stroke_switchover power (by rw [chan_takenOut]; exact refilling), chan_takenOut]
      exact if_pos drawing
    case standby =>
      intro standby
      have other : (bay (takenOut c side (setPresence (bayOf c side) false s)) (bayOf c side.other)).state = .standby := by
        rw [bay_takenOut_other]
        exact standby
      refine ⟨?_, ?_, ?_, (untold_of_evu rfl).trans_told (told_switchover other)⟩
      · rw [chan_switchover_standby power other, Channel.promoted_active]
      · rw [bay_switchover_standby other, bay_takenOut_other]
        rfl
      · rw [chan_switchover_standby power other, chan_takenOut, Channel.strokeLost_eq]
        rfl
    case none =>
      intro none
      have other : (bay (takenOut c side (setPresence (bayOf c side) false s)) (bayOf c side.other)).state ≠ .standby := by
        rw [bay_takenOut_other]
        exact none
      refine ⟨?_, ?_, ?_, (untold_of_evu rfl).trans (untold_switchover (by decide) (by decide) fun _ => other)⟩
      · rw [chan_switchover_none other]
      · rw [bay_switchover_none other, bay_takenOut_other]
        rfl
      · rw [chan_switchover_none other, chan_takenOut, Channel.strokeLost_eq]
        rfl

end Sys2Proof.Machine
end

