-- ==== Sys2Proof/Proofs/Strokes.lean ====
section
/-!
SUPPORT. A completed refill stroke: the debit of the bay, the credit of the sub-tank, and what the refill does next.
-/

namespace Sys2Proof.Machine

/-! ### The debit of a bay (R15, R21) -/

/-- A debit of `vol` nL: what the bay holds, the rest of it in the overdraw. -/
theorem Bay.debit_eq (x : Bay) (vol : Nat) :
    x.debit vol =
      { x with
        ink := x.ink.map fun i => { i with estimate := i.estimate - vol }
        chip := x.chip.map fun k => { k with drawn := k.drawn + min vol x.estimate }
        overdraw := min (x.overdraw + (vol - x.estimate)) 4294967295, dry := 0 } := by
  have held : x.ink.map (fun i => { i with estimate := i.estimate - min vol x.estimate })
      = x.ink.map fun i => { i with estimate := i.estimate - vol } := by
    unfold Bay.estimate
    cases x.ink with
    | none => rfl
    | some i =>
      simp only [Option.map_some, Option.some.injEq, BayInk.mk.injEq, true_and]
      omega
  have rest : vol - min vol x.estimate = vol - x.estimate := by omega
  unfold Bay.debit
  dsimp only
  rw [held, rest]
  rfl

theorem Bay.debit_estimate (x : Bay) (vol : Nat) : (x.debit vol).estimate = x.estimate - vol := by
  rw [Bay.debit_eq]
  unfold Bay.estimate
  cases x.ink with
  | none => exact (Nat.zero_sub vol).symm
  | some i => rfl

/-- Drawn-since-write after a debit; a bay without chip fields counts nothing. -/
theorem Bay.debit_drawn (x : Bay) (vol : Nat) :
    (x.debit vol).drawn = match x.chip with
      | some k => k.drawn + min vol x.estimate
      | none => 0 := by
  rw [Bay.debit_eq]
  unfold Bay.drawn
  cases x.chip <;> rfl

theorem Bay.debit_drawn_lt {x : Bay} {vol : Nat}
    (below : ∀ k, x.chip = some k → k.drawn + min vol x.estimate < 1000000) :
    ¬ Config.writeBackStep ≤ (x.debit vol).drawn := by
  rw [Bay.debit_drawn, Nat.not_le]
  cases hk : x.chip with
  | none => exact Nat.succ_pos _
  | some k => exact below k hk

theorem Bay.le_debit_drawn {x : Bay} {vol : Nat} {k : BayChip} (chip : x.chip = some k)
    (step : 1000000 ≤ k.drawn + min vol x.estimate) : Config.writeBackStep ≤ (x.debit vol).drawn := by
  rw [Bay.debit_drawn, chip]
  exact step

theorem fallsLow_iff (b : Fin 12) (vol : Nat) (s : State) :
    fallsLow b vol s ↔
      bayLowLine s (bay s b) ≤ (bay s b).estimate ∧ (bay s b).estimate - vol < bayLowLine s (bay s b) := by
  rw [fallsLow, Bay.debit_estimate]

/-- The bay record after a stroke that drew `vol` nL: drawn-since-write starts again at 1,000,000 nL (R15, R21). -/
theorem Bay.drawnFrom_eq (x : Bay) (vol : Nat) :
    x.drawnFrom vol =
      { x with
        ink := x.ink.map fun i => { i with estimate := i.estimate - vol }
        chip := x.chip.map fun k =>
          { k with drawn := if k.drawn + min vol x.estimate < 1000000 then k.drawn + min vol x.estimate else 0 }
        overdraw := min (x.overdraw + (vol - x.estimate)) 4294967295, dry := 0 } := by
  unfold Bay.drawnFrom
  rw [Bay.debit_drawn]
  cases hk : x.chip with
  | none => simp [Bay.debit_eq, hk, Config.writeBackStep]
  | some k =>
    by_cases below : k.drawn + min vol x.estimate < 1000000
    · simp [Bay.debit_eq, hk, Config.writeBackStep, below, Nat.not_le.mpr below]
    · simp [Bay.debit_eq, Bay.clearDrawn, hk, Config.writeBackStep, below, Nat.not_lt.mp below]

/-! ### Records the parts of a stroke leave alone -/

theorem bay_dryStroke_other {c : Fin 6} {b d : Fin 12} (s : State) (h : b ≠ d) :
    bay (dryStroke c b s) d = bay s d :=
  bay_setBay_other s _ h

theorem bay_inkDrawn_other {b d : Fin 12} (vol : Nat) (s : State) (h : b ≠ d) :
    bay (inkDrawn b vol s) d = bay s d := by
  unfold inkDrawn
  dsimp only
  split <;> simp [bay_setBay_other _ _ h]

theorem bays_strokeEnd (c : Fin 6) (s : State) :
    (checkOver c (evalSupply c (strokeNext c s))).spu.bays = s.spu.bays := by
  rw [checkOver_spu, evalSupply_spu]
  unfold strokeNext
  dsimp only
  split
  · rfl
  · split
    · show (evalSupply c _).spu.bays = _
      rw [evalSupply_spu]
      rfl
    · rfl

theorem bay_strokeEnd (c : Fin 6) (s : State) (b : Fin 12) :
    bay (checkOver c (evalSupply c (strokeNext c s))) b = bay s b := by
  rw [bay, bays_strokeEnd]
  rfl

theorem bus_strokeEnd (c : Fin 6) (s : State) :
    (checkOver c (evalSupply c (strokeNext c s))).spu.bus = s.spu.bus := by
  rw [checkOver_spu, evalSupply_spu]
  exact bus_strokeNext c s

/-! ### What the refill does next (R15, R16) -/

/-- What becomes of the record by cases: the refill faults, goes on, or ends. -/
theorem Channel.afterStroke_eq (x : Channel) (maxStrokes reserve : Nat) :
    x.afterStroke maxStrokes reserve =
      (let y : Channel :=
        if (x.float ≠ .high ∧ x.active ≠ none) ∧ maxStrokes ≤ x.strokes then { x with refill := .fault }
        else if x.float ≠ .high ∧ x.active ≠ none then { x with stroke := strokeFrom x.active }
        else { x with refill := .idle }
       { y with supply := supplyOf reserve y }) := by
  unfold Channel.afterStroke
  dsimp only
  by_cases ends : x.float = .high ∨ x.active = none
  · have stops : ¬ (x.float ≠ .high ∧ x.active ≠ none) := fun ⟨low, bay⟩ => ends.elim low bay
    rw [if_pos ends, if_neg fun h => stops h.1, if_neg stops]
  · have goesOn : x.float ≠ .high ∧ x.active ≠ none := not_or.mp ends
    by_cases last : maxStrokes ≤ x.strokes
    · rw [if_neg ends, if_pos last, if_pos ⟨goesOn, last⟩]
    · rw [if_neg ends, if_neg last, if_neg fun h => last h.2, if_pos goesOn]

/-- The end of a stroke, from the state `s'` in which its ink has been accounted since `s`: the record by R15 and R16, and
REFILL_FAULT exactly if the refill faults. -/
theorem strokeEnd_accounted {c : Fin 6} {s s' : State} {y : Channel} (params : s'.params = s.params)
    (record : chan s' c = y) (quiet : Untold .refillFault s s') :
    let t := checkOver c (evalSupply c (strokeNext c s'))
    let faults := (y.float ≠ .high ∧ y.active ≠ none) ∧ s.params.maxStrokes ≤ y.strokes
    chan t c = y.afterStroke s.params.maxStrokes s.params.reserveMark ∧
      (faults → Told .refillFault (one c.val) none s t) ∧ (¬ faults → Untold .refillFault s t) := by
  subst record
  rw [← params]
  refine ⟨chan_strokeEnd c s', fun ⟨⟨low, bay⟩, last⟩ => quiet.trans_told (told_strokeEnd low bay last), fun sound => ?_⟩
  exact quiet.trans (untold_strokeEnd (by decide) (by decide) fun _ ⟨low, bay, last⟩ => sound ⟨⟨low, bay⟩, last⟩)

/-! ### The three strokes that draw from a bay (R15) -/

/-- The channel record with a stroke counted and no longer in flight. -/
def Channel.counted (x : Channel) : Channel :=
  { x with stroke := .none, strokes := sat Config.u8Max (x.strokes + 1) }

/-- The channel record with a stroke of `vol` nL counted and credited to the sub-tank. -/
def Channel.credited (x : Channel) (vol : Nat) : Channel :=
  { x.counted with
    estimate := min (x.estimate + vol) Config.subTankMax
    drift := sat32 (x.drift - ((x.estimate + vol - Config.subTankMax : Nat) : Int)) }

theorem chan_credited (c : Fin 6) (vol : Nat) (s : State) :
    chan (strokeCounted c (creditTank c vol s)) c = (chan s c).credited vol := by
  rw [chan_strokeCounted, chan_creditTank]
  rfl

theorem chan_inkCredited (c : Fin 6) (b : Fin 12) (s : State) :
    chan (strokeCounted c (strokeInk c b s)) c = (chan s c).credited (s.params.strokeVolume.get c) := by
  rw [strokeInk_eq]
  dsimp only
  rw [chan_credited, chan_inkDrawn, chan_lowTold]

theorem strokeDone_inked {c : Fin 6} {side : Side} {s : State} (h : (chan s c).stroke = strokeFrom (some side)) :
    strokeDone c true s =
      checkOver c (evalSupply c (strokeNext c (strokeCounted c (strokeInk c (bayOf c side)
        (inkSampled (bayOf c side) true s))))) := by
  rw [strokeDone_from true h]
  exact if_pos rfl

theorem strokeDone_dry {c : Fin 6} {side : Side} {s : State} (h : (chan s c).stroke = strokeFrom (some side))
    (first : (bay s (bayOf c side)).dry + 1 < 2) :
    strokeDone c false s =
      checkOver c (evalSupply c (strokeNext c (dryStroke c (bayOf c side) (inkSampled (bayOf c side) false s)))) := by
  rw [strokeDone_from false h]
  dsimp only
  rw [if_neg (by simp), if_neg (by rw [bay_dryStroke]; exact Nat.not_le.mpr first)]

/-- The bay of `side` out after its second dry stroke, before the switchover (R15 case 1). -/
def dryOut (c : Fin 6) (side : Side) (s : State) : State :=
  bayOut (bayOf c side) (dryStroke c (bayOf c side) (inkSampled (bayOf c side) false s))

theorem strokeDone_out {c : Fin 6} {side : Side} {s : State} (h : (chan s c).stroke = strokeFrom (some side))
    (again : 2 ≤ (bay s (bayOf c side)).dry + 1) :
    strokeDone c false s = strokeAfterSwitch c (switchover c side (dryOut c side s)) := by
  rw [strokeDone_from false h]
  dsimp only
  rw [if_neg (by simp), if_pos (by rw [bay_dryStroke]; exact again)]
  rfl

theorem dryOut_confined (c : Fin 6) (side : Side) (s : State) :
    Confined c (inkSampled (bayOf c side) false s) (dryOut c side s) :=
  (dryStroke_confined c side _).trans (bayOut_confined _ (channelOf_bayOf c side))

/-- A stroke that draws from a bay stays on its channel, but for the sample of the ink-present sensor. -/
theorem strokeDone_sampled {c : Fin 6} {side : Side} {s : State} (ink : Bool)
    (h : (chan s c).stroke = strokeFrom (some side)) :
    Confined c (inkSampled (bayOf c side) ink s) (strokeDone c ink s) := by
  cases ink with
  | true =>
    rw [strokeDone_inked h]
    exact ((strokeInk_confined c side _).trans (strokeCounted_confined c _)).trans (strokeEnd_confined c _)
  | false =>
    rcases Nat.lt_or_ge ((bay s (bayOf c side)).dry + 1) 2 with once | again
    · rw [strokeDone_dry h once]
      exact (dryStroke_confined c side _).trans (strokeEnd_confined c _)
    · rw [strokeDone_out h again]
      exact ((dryOut_confined c side s).trans (switchover_confined c side _)).trans (strokeAfterSwitch_confined c _)

theorem strokeDone_lost_confined {c : Fin 6} {s : State} (ink : Bool) (h : (chan s c).stroke = .lost) :
    Confined c s (strokeDone c ink s) := by
  rw [strokeDone_lost ink h]
  exact ((creditTank_confined c _ s).trans (strokeCounted_confined c _)).trans (strokeEnd_confined c _)

theorem strokeDone_cls (c : Fin 6) (ink : Bool) (s : State) : (strokeDone c ink s).cls = s.cls := by
  cases hs : (chan s c).stroke with
  | none => rw [strokeDone_none ink hs]
  | lost => exact cls_of_supply (strokeDone_lost_confined ink hs).kept
  | a => exact (cls_of_supply (strokeDone_sampled (side := .a) ink hs).kept).trans rfl
  | b => exact (cls_of_supply (strokeDone_sampled (side := .b) ink hs).kept).trans rfl

/-- A stroke that completes in RUN with no cycle in WAIT_INK is accounted, and that is all. -/
theorem exec_strokeComplete {c : Fin 6} {ink : Bool} {s : State} (awake : Awake s) (stage : s.cls.stage ≠ .waitInk) :
    exec (.strokeComplete c ink) s = .next (strokeDone c ink s) := by
  simp only [exec, execStrokeComplete]
  rw [event_awake awake, strokeRun, settle_supplyActs _ _ (by rw [strokeDone_cls]; exact stage)]

/-! ### A stroke with ink -/

/-- The state in which a stroke with ink has been accounted and nothing has followed yet. -/
def inkStroke (c : Fin 6) (side : Side) (s : State) : State :=
  strokeCounted c (strokeInk c (bayOf c side) (inkSampled (bayOf c side) true s))

theorem inkStroke_eq (c : Fin 6) (side : Side) (s : State) :
    inkStroke c side s =
      strokeCounted c (creditTank c (s.params.strokeVolume.get c)
        (inkDrawn (bayOf c side) (s.params.strokeVolume.get c)
          (lowTold (bayOf c side) (s.params.strokeVolume.get c) (inkSampled (bayOf c side) true s)))) := by
  rw [inkStroke, strokeInk_eq]
  rfl

theorem bay_inkStroke (c : Fin 6) (side : Side) (s : State) :
    bay (inkStroke c side s) (bayOf c side) =
      (bay s (bayOf c side)).drawnFrom (s.params.strokeVolume.get c) := by
  rw [inkStroke_eq, bay_strokeCounted, bay_creditTank, bay_inkDrawn, bay_lowTold, bay_inkSampled]

theorem bay_inkStroke_other (c : Fin 6) (side : Side) (s : State) :
    bay (inkStroke c side s) (bayOf c side.other) = bay s (bayOf c side.other) := by
  rw [inkStroke_eq, bay_strokeCounted, bay_creditTank,
    bay_inkDrawn_other _ _ (bayOf_ne_other c side), bay_lowTold, bay_inkSampled]

theorem bus_inkStroke (c : Fin 6) (side : Side) (s : State) :
    (inkStroke c side s).spu.bus =
      if Config.writeBackStep ≤ ((bay s (bayOf c side)).debit (s.params.strokeVolume.get c)).drawn then
        s.spu.bus.pushWrite (.bay (bayOf c side))
      else s.spu.bus := by
  rw [inkStroke_eq]
  show (inkDrawn _ _ _).spu.bus = _
  rw [bus_inkDrawn, bay_lowTold, lowTold_spu]
  rfl

theorem told_inkStroke {c : Fin 6} {side : Side} {s : State}
    (h : fallsLow (bayOf c side) (s.params.strokeVolume.get c) s) :
    Told .bayLow (one (bayOf c side).val) none s (inkStroke c side s) := by
  rw [inkStroke_eq]
  have told := (untold_of_evu rfl).trans_told (s := s)
    (told_lowTold (s := inkSampled (bayOf c side) true s) h)
  exact told.trans_untold (untold_of_evu (inkDrawn_evu _ _ _))

theorem untold_inkStroke {k : EventKind} {c : Fin 6} {side : Side} {s : State}
    (h : k = .bayLow → ¬ fallsLow (bayOf c side) (s.params.strokeVolume.get c) s) :
    Untold k s (inkStroke c side s) := by
  rw [inkStroke_eq]
  have quiet := (untold_of_evu rfl).trans (s := s) (untold_lowTold (s := inkSampled (bayOf c side) true s) h)
  exact quiet.trans (untold_of_evu (inkDrawn_evu _ _ _))

end Sys2Proof.Machine
end

