-- ==== Sys2Proof/Proofs/StrokesAccounted.lean ====
section
/-!
SUPPORT. The second dry stroke in a row, and the accounting of a stroke as a whole. Settles O24.
-/

namespace Sys2Proof.Machine

/-! ### The second dry stroke in a row (R15 case 1) -/

theorem chan_dryOut (c : Fin 6) (side : Side) (s : State) : chan (dryOut c side s) c = (chan s c).counted := by
  rw [dryOut, chan_bayOut, chan_dryStroke, chan_inkSampled]
  rfl

theorem bay_dryOut (c : Fin 6) (side : Side) (s : State) :
    bay (dryOut c side s) (bayOf c side) =
      (let y := bay s (bayOf c side)
       { y with
          state := .out, ink := y.ink.map fun i => { i with estimate := 0 }
          chip := y.chip.map fun k => { k with drawn := 0 }, dry := y.dry + 1 }) := by
  rw [dryOut, bay_bayOut, bay_dryStroke, bay_inkSampled]
  rfl

theorem bay_dryOut_other (c : Fin 6) (side : Side) (s : State) :
    bay (dryOut c side s) (bayOf c side.other) = bay s (bayOf c side.other) := by
  have n := bayOf_ne_other c side
  rw [dryOut, bay_bayOut_other _ n, bay_dryStroke_other _ n, bay_inkSampled]

theorem bus_dryOut (c : Fin 6) (side : Side) (s : State) :
    (dryOut c side s).spu.bus = s.spu.bus.pushWrite (.bay (bayOf c side)) := rfl

theorem told_dryOut (c : Fin 6) (side : Side) (s : State) :
    Told .bayOut (one (bayOf c side).val) none s (dryOut c side s) :=
  (untold_of_evu rfl).trans_told (told_raise _ _ _ _)

theorem untold_dryOut {k : EventKind} (c : Fin 6) (side : Side) (s : State) (n : k ≠ .bayOut) :
    Untold k s (dryOut c side s) :=
  (untold_of_evu rfl).trans (untold_raise _ _ _ n.symm)

/-- What follows a switchover leaves the active bay and the estimate. -/
theorem active_strokeAfterSwitch (c : Fin 6) (s : State) :
    (chan (strokeAfterSwitch c s) c).active = (chan s c).active ∧
      (chan (strokeAfterSwitch c s) c).estimate = (chan s c).estimate := by
  rw [chan_strokeAfterSwitch]
  split
  · split <;> exact ⟨rfl, rfl⟩
  · exact ⟨rfl, rfl⟩

/-- A refill goes on from the other bay, unless the float reads HIGH (R11, R15). -/
theorem chan_strokeAfterSwitch_standby {c : Fin 6} {side : Side} {s : State} (hp : s.rsc.power = .run)
    (h : (bay s (bayOf c side.other)).state = .standby) (refilling : (chan s c).refill = .refilling) :
    chan (strokeAfterSwitch c (switchover c side s)) c =
      (let going : Channel := { chan s c with active := some side.other, strokes := 0, supply := .supplied }
       if (chan s c).float = .high then { going with refill := .idle }
       else { going with stroke := strokeFrom (some side.other) }) := by
  have going : chan (switchover c side s) c
      = { chan s c with active := some side.other, strokes := 0, supply := .supplied } := by
    rw [chan_switchover_standby hp h, if_pos refilling,
      Channel.promoted_refilling (x := { chan s c with strokes := 0 }) _ _ refilling]
  rw [chan_strokeAfterSwitch, going]
  exact if_pos refilling

/-- Without another bay the refill of a channel with no stroke in flight ends (R11). -/
theorem chan_strokeAfterSwitch_none {c : Fin 6} {side : Side} {s : State}
    (h : (bay s (bayOf c side.other)).state ≠ .standby) (stroke : (chan s c).stroke = .none) :
    chan (strokeAfterSwitch c (switchover c side s)) c =
      (let y : Channel :=
        { chan s c with
          active := none, refill := if (chan s c).refill = .refilling then .idle else (chan s c).refill }
       { y with supply := supplyOf s.params.reserveMark y }) := by
  rw [chan_strokeAfterSwitch, chan_switchover_none h]
  simp only [stroke, and_true]
  refine if_neg ?_
  split
  · decide
  · assumption

/-! ### The obligation -/

/-- Settles O24, by the stroke in flight and, for one from a bay, by the ink it met. -/
theorem strokeAccounted : Obligations.StrokeAccounted := by
  intro c ink s awake stage x vol supplied counted goesOn faults next credited refillFault
  have run := exec_strokeComplete (c := c) (ink := ink) awake stage
  refine ⟨fun idle => ?idle, fun lost => ?lost, fun side drawn => ?fromBay⟩
  case idle => rw [run, strokeDone_none ink idle]
  case lost =>
    have confined := strokeDone_lost_confined ink lost
    refine ⟨_, run, ?_⟩
    rw [strokeDone_lost ink lost] at confined ⊢
    obtain ⟨record, fault⟩ := strokeEnd_accounted (s := s) (s' := strokeCounted c (creditTank c vol s)) rfl
      (chan_credited c vol s) (untold_of_evu rfl)
    exact ⟨record.trans (Channel.afterStroke_eq _ _ _), fault, confined.chan, bays_strokeEnd c _, bus_strokeEnd c _,
      eq_of_supply confined.kept _ _ _⟩
  case fromBay =>
    have drawing : (chan s c).stroke = strokeFrom (some side) := by cases side <;> exact drawn
    have sampled := strokeDone_sampled ink drawing
    intro b y other kept
    have frame : kept (strokeDone c ink s) :=
      ⟨sampled.pins, sampled.chan, fun d n m => sampled.bay d (channelOf_ne n m), sampled.frame⟩
    refine ⟨fun on => ?ink, fun off first => ?dry, fun off again => ?out⟩
    case ink =>
      subst on
      have accounted : strokeDone c true s = checkOver c (evalSupply c (strokeNext c (inkStroke c side s))) :=
        strokeDone_inked drawing
      have params : (inkStroke c side s).params = s.params :=
        ((strokeInk_confined c side _).trans (strokeCounted_confined c _)).params
      obtain ⟨record, fault⟩ := strokeEnd_accounted params (chan_inkCredited c _ _)
        (untold_inkStroke fun e => absurd e (by decide))
      refine ⟨_, run, ?_⟩
      rw [accounted] at frame ⊢
      refine ⟨record.trans (Channel.afterStroke_eq _ _ _), fault, frame, ?_, ?_, ?_, ?_, ?_, ?_⟩
      · rw [bay_strokeEnd, bay_inkStroke, Bay.drawnFrom_eq]
      · rw [bay_strokeEnd, bay_inkStroke_other]
      · intro below
        rw [bus_strokeEnd, bus_inkStroke, if_neg (Bay.debit_drawn_lt below)]
      · intro k chip step
        rw [bus_strokeEnd, bus_inkStroke, if_pos (Bay.le_debit_drawn chip step)]
      · intro low
        exact (told_inkStroke ((fallsLow_iff _ _ _).mpr low)).trans_untold
          (untold_strokeEnd (by decide) (by decide) fun e => absurd e (by decide))
      · intro high
        exact (untold_inkStroke fun _ falls => high ((fallsLow_iff _ _ _).mp falls)).trans
          (untold_strokeEnd (by decide) (by decide) fun e => absurd e (by decide))
    case dry =>
      subst off
      obtain ⟨record, fault⟩ := strokeEnd_accounted (s := s)
        (s' := dryStroke c (bayOf c side) (inkSampled (bayOf c side) false s)) rfl (chan_dryStroke c _ _)
        (untold_of_evu rfl)
      refine ⟨_, run, ?_⟩
      rw [strokeDone_dry drawing first] at frame ⊢
      refine ⟨record.trans (Channel.afterStroke_eq _ _ _), fault, frame, ?_, ?_, ?_⟩
      · rw [bay_strokeEnd, bay_dryStroke, bay_inkSampled]
      · rw [bay_strokeEnd, bay_dryStroke_other _ (bayOf_ne_other c side), bay_inkSampled]
      · rw [bus_strokeEnd]
        rfl
    case out =>
      subst off
      refine ⟨_, run, ?_⟩
      rw [strokeDone_out drawing again] at frame ⊢
      have power : (dryOut c side s).rsc.power = .run := awake.2
      have after : ∀ {k}, Untold k (switchover c side (dryOut c side s))
          (strokeAfterSwitch c (switchover c side (dryOut c side s))) := untold_of_evu (strokeAfterSwitch_evu c _)
      refine ⟨frame, ?_, ?_, ?_, fun standby => ?standby, fun none => ?none⟩
      · rw [bay_strokeAfterSwitch, bay_switchover_same, bay_dryOut]
      · rw [bus_strokeAfterSwitch, bus_switchover, bus_dryOut]
      · exact ((told_dryOut c side s).trans_untold
          (untold_switchover (by decide) (by decide) fun e => absurd e (by decide))).trans_untold after
      case standby =>
        rw [← bay_dryOut_other c side s] at standby
        obtain ⟨active, estimate⟩ := active_strokeAfterSwitch c (switchover c side (dryOut c side s))
        refine ⟨?_, ?_, ?_, ?_, fun refilling => ?_⟩
        · rw [bay_strokeAfterSwitch, bay_switchover_standby standby, bay_dryOut_other]
        · rw [active, chan_switchover_standby power standby, Channel.promoted_active]
        · rw [estimate, estimate_switchover power, chan_dryOut]
          rfl
        · exact ((untold_dryOut c side s (by decide)).trans_told (told_switchover standby)).trans_untold after
        · rw [chan_strokeAfterSwitch_standby power standby (by rw [chan_dryOut]; exact refilling), chan_dryOut]
          rfl
      case none =>
        rw [← bay_dryOut_other c side s] at none
        refine ⟨?_, ?_, ?_⟩
        · rw [bay_strokeAfterSwitch, bay_switchover_none none, bay_dryOut_other]
        · exact ((untold_dryOut c side s (by decide)).trans
            (untold_switchover (by decide) (by decide) fun _ => none)).trans after
        · rw [chan_strokeAfterSwitch_none none (by rw [chan_dryOut]; rfl), chan_dryOut]
          rfl

end Sys2Proof.Machine
end

