-- ==== Sys2Proof/Proofs/Standby.lean ====
section
/-!
SUPPORT. A bay that enters STANDBY, the promotion that follows on a channel without an active bay, and the PRIME request
with the claim the CLS may place for it.
-/

namespace Sys2Proof.Machine

/-! ### The claim for a PRIME request (R72, R101) -/

/-- From `s` to `t` nothing has changed but the cycle record, the station's record and the events: no entry of the cleaning
table, and no event but PAUSE_FOR_SERVICE. -/
structure ClaimOnly (s t : State) : Prop where
  table : t.cls.table = s.cls.table
  frame : { t with cls := s.cls, stc := s.stc, evu := s.evu } = s
  untold : ∀ k, k ≠ .pauseForService → Untold k s t

theorem ClaimOnly.refl (s : State) : ClaimOnly s s := ⟨rfl, rfl, fun k _ => Untold.refl k s⟩

theorem ClaimOnly.trans {s t u : State} (h : ClaimOnly s t) (h' : ClaimOnly t u) : ClaimOnly s u where
  table := h'.table.trans h.table
  frame := (congrArg (fun x : State => { x with cls := s.cls, stc := s.stc, evu := s.evu }) h'.frame).trans h.frame
  untold k n := (h.untold k n).trans (h'.untold k n)

theorem ClaimOnly.spu {s t : State} (h : ClaimOnly s t) : t.spu = s.spu := by
  have spu := congrArg State.spu h.frame
  exact spu

theorem ClaimOnly.liu {s t : State} (h : ClaimOnly s t) : t.liu = s.liu := by
  have liu := congrArg State.liu h.frame
  exact liu

theorem ClaimOnly.of_stage (s : State) (stage : Stage) : ClaimOnly s (setCls { s.cls with stage := stage } s) :=
  ⟨rfl, rfl, fun k _ => Untold.refl k s⟩

/-- The zone is neither OPEN nor CAPPED, so that a claim meets no free moment (R73). -/
def ZoneTaken (s : State) : Prop := s.stc.state ≠ .opened ∧ s.stc.state ≠ .capped

theorem placeClaim_zoneTaken {who : Claimant} {urgent : Bool} {s : State} (zone : ZoneTaken s) :
    ∃ t, placeClaim who urgent s = (t, []) ∧ ClaimOnly s t := by
  unfold placeClaim
  split
  · exact ⟨s, rfl, .refl s⟩
  · obtain ⟨opened, capped⟩ := zone
    unfold claimActs
    dsimp only
    split
    · exact ⟨_, congrArg _ (if_neg fun free => free.elim opened capped), rfl, rfl,
        fun k n => (untold_of_evu rfl).trans (untold_raise _ _ _ n.symm)⟩
    · exact ⟨_, congrArg _ (if_neg fun free => free.elim opened capped), rfl, rfl, fun k _ => untold_of_evu rfl⟩

/-- A request that is not urgent at most places a claim (R95, R101). -/
theorem clsFolded_zoneTaken {s : State} (zone : ZoneTaken s) :
    ∃ t, perform (.clsFolded false) s = (t, []) ∧ ClaimOnly s t := by
  show ∃ t, clsFolded false s = (t, []) ∧ _
  unfold clsFolded clsClaim
  split
  · exact ⟨s, rfl, .refl s⟩
  · split
    · obtain ⟨t, placed, claimed⟩ := placeClaim_zoneTaken (who := .cls) (urgent := anyUrgent s)
        (s := setCls { s.cls with stage := .waitZone } s) zone
      exact ⟨t, placed, (ClaimOnly.of_stage s .waitZone).trans claimed⟩
    · exact ⟨s, rfl, .refl s⟩

/-- Consequences that change nothing are passed over before the rest. -/
theorem runActs_inert_append {s : State} {acts : List Act} (rest : List Act) (n : Nat)
    (h : ∀ a ∈ acts, perform a s = (s, [])) : runActs (acts.length + n) (s, acts ++ rest) = runActs n (s, rest) := by
  induction acts with
  | nil => simp
  | cons a acts ih =>
    rw [List.length_cons, Nat.add_right_comm, List.cons_append, runActs_cons, h a (by simp)]
    exact ih fun b m => h b (by simp [m])

/-- Outside WAIT_INK a last consequence behind a change of supply is all that a command still does. -/
theorem settle_supplyActs_then {s t : State} {a : Act} (u v : State) (h : s.cls.stage ≠ .waitInk)
    (last : perform a s = (t, [])) : settle (s, supplyActs u v ++ [a]) = .next t := by
  apply settle_of_runActs
  have bound := length_supplyActs_le u v
  obtain ⟨n, hn⟩ : ∃ n, Config.cascadeLimit = (supplyActs u v).length + (n + 1) :=
    ⟨Config.cascadeLimit - ((supplyActs u v).length + 1), by simp only [Config.cascadeLimit]; omega⟩
  rw [hn, runActs_inert_append [a] (n + 1) (supplyActs_inert u v h), runActs_cons, last]
  exact runActs_nil n t

/-! ### The run of an entry into STANDBY (R8, R99) -/

theorem standbyRun_waits {b : Fin 12} {s : State} (h : (chan s (channelOf b)).active ≠ none) :
    standbyRun b s = Run.done (stoodBy b s) := by
  unfold standbyRun
  rw [enterStandby_eq, if_neg h]
  simp only [Bool.false_eq_true, if_false]
  rw [supplyActs_same fun c => chan_stoodBy b s c]
  rfl

/-- The bay promoted from STANDBY. -/
def promoted (b : Fin 12) (s : State) : State := promote b (stoodBy b s)

theorem standbyRun_promotes {b : Fin 12} {s : State} (h : (chan s (channelOf b)).active = none) :
    standbyRun b s =
      if (bay s b).scanRead then (promoted b s, supplyActs s (promoted b s))
      else (foldRequest (headOf (channelOf b)) .normal false (OriginSet.of .prime) (promoted b s),
        supplyActs s (promoted b s) ++ [.clsFolded false]) := by
  unfold standbyRun
  rw [enterStandby_eq, if_pos h]
  cases (bay s b).scanRead <;> rfl

theorem promoted_confined (b : Fin 12) (s : State) : Confined (channelOf b) s (promoted b s) :=
  (stoodBy_confined b s).trans (promote_confined b _)

theorem settle_standbyRun_scan {b : Fin 12} {s : State} (h : (chan s (channelOf b)).active = none)
    (scan : (bay s b).scanRead = true) (stage : s.cls.stage ≠ .waitInk) :
    settle (standbyRun b s) = .next (promoted b s) := by
  rw [standbyRun_promotes h, if_pos scan]
  exact settle_supplyActs _ _ (by rw [cls_of_supply (promoted_confined b s).kept]; exact stage)

/-- A request folded behind a change of supply, with the claim that it may bring. -/
theorem settle_folded {s u : State} (h : Fin 3) (l : Level) (o : OriginSet) (stage : u.cls.stage ≠ .waitInk)
    (zone : ZoneTaken u) :
    ∃ t, settle (foldRequest h l false o u, supplyActs s u ++ [.clsFolded false]) = .next t ∧
      ClaimOnly (foldRequest h l false o u) t := by
  obtain ⟨t, folded, claimed⟩ := clsFolded_zoneTaken (s := foldRequest h l false o u) zone
  exact ⟨t, settle_supplyActs_then (s := foldRequest h l false o u) s u stage folded, claimed⟩

theorem settle_standbyRun_prime {b : Fin 12} {s : State} (h : (chan s (channelOf b)).active = none)
    (inserted : (bay s b).scanRead = false) (stage : s.cls.stage ≠ .waitInk) (zone : ZoneTaken s) :
    ∃ t, settle (standbyRun b s) = .next t ∧
      ClaimOnly (foldRequest (headOf (channelOf b)) .normal false (OriginSet.of .prime) (promoted b s)) t := by
  have kept := (promoted_confined b s).kept
  have cls : (promoted b s).cls.stage ≠ .waitInk := by rw [cls_of_supply kept]; exact stage
  have taken : ZoneTaken (promoted b s) := by rw [ZoneTaken, stc_of_supply kept]; exact zone
  rw [standbyRun_promotes h, if_neg (by simp [inserted])]
  exact settle_folded _ _ _ cls taken

/-! ### What the promotion and its request leave -/

theorem bay_stoodBy_other {b d : Fin 12} (s : State) (h : b ≠ d) : bay (stoodBy b s) d = bay s d := by
  unfold stoodBy
  dsimp only
  split <;> simp [bay_setBay_other _ _ h]

theorem bay_promoted (b : Fin 12) (s : State) :
    bay (promoted b s) b = { bay s b with state := .active, dry := 0 } := by
  rw [promoted, bay_promote, bay_stoodBy]

theorem bay_promoted_other {b d : Fin 12} (s : State) (h : b ≠ d) : bay (promoted b s) d = bay s d := by
  rw [promoted, bay_promote_other _ h, bay_stoodBy_other s h]

theorem bus_promoted (b : Fin 12) (s : State) : (promoted b s).spu.bus = s.spu.bus := by
  rw [promoted, bus_promote, bus_stoodBy]

theorem chan_promotedBay {b : Fin 12} {s : State} (hp : s.rsc.power = .run) :
    chan (promoted b s) (channelOf b) = (chan s (channelOf b)).promoted (sideOf b) s.params.refillMark := by
  have stood := stoodBy_confined b s
  rw [promoted, chan_promote b _ (by rw [rsc_of_supply stood.kept]; exact hp), chan_stoodBy, stood.params]

theorem told_promoted (b : Fin 12) (s : State) (h : (bay s b).estimate < bayLowLine s (bay s b)) :
    Told .bayLow (one b.val) none s (promoted b s) :=
  (told_stoodBy b s h).trans_untold (untold_promote b _ (by decide) (by decide))

theorem untold_promoted {b : Fin 12} {s : State} (h : ¬ (bay s b).estimate < bayLowLine s (bay s b)) :
    Untold .bayLow s (promoted b s) :=
  (untold_stoodBy b s (by decide) fun _ => h).trans (untold_promote b _ (by decide) (by decide))

theorem entryOf_promoted (b : Fin 12) (s : State) (h : Fin 3) : entryOf (promoted b s) h = entryOf s h := by
  rw [entryOf, cls_of_supply (promoted_confined b s).kept]
  rfl

theorem entryOf_foldRequest (h : Fin 3) (l : Level) (urgent : Bool) (o : OriginSet) (s : State) (k : Fin 3) :
    entryOf (foldRequest h l urgent o s) k = if k = h then (entryOf s h).fold l urgent o else entryOf s k := by
  show entryOf (setEntry s h _) k = _
  split
  · next is => rw [is, entryOf_setEntry]
  · next other => rw [entryOf_setEntry_other _ _ (Ne.symm other)]

theorem ClaimOnly.entryOf {s t : State} (h : ClaimOnly s t) (k : Fin 3) : entryOf t k = entryOf s k := by
  rw [Machine.entryOf, h.table]
  rfl

end Sys2Proof.Machine
end

