-- ==== Sys2Proof/Proofs/CartridgeConfirmed.lean ====
section
/-!
SUPPORT. The confirmation, rejection and judging of a cartridge. Settles O18 and O21.
-/

namespace Sys2Proof.Machine

/-! ### A bay that becomes ACTIVE at its entry into STANDBY (R8, R99) -/

/-- From `s` to `t` bay `b` has entered STANDBY and been promoted, with the PRIME request of an insertion read and the claim
for it. -/
structure BecameActive (b : Fin 12) (s t : State) : Prop where
  spu : t.spu = (promoted b s).spu
  liu : t.liu = s.liu
  frame : { t with spu := s.spu, pau := s.pau, evu := s.evu, cls := s.cls, stc := s.stc } = s
  entry : ∀ h, entryOf t h =
    if h = headOf (channelOf b) ∧ (bay s b).scanRead = false then
      (entryOf s h).fold .normal false (OriginSet.of .prime)
    else entryOf s h
  untold : Untold .bayLow (promoted b s) t

/-- What the Supply Unit leaves alone, with the records of the CLS and the station aside. -/
theorem frame_of_supply {s t : State} (h : keptBySupply t = keptBySupply s) :
    { t with spu := s.spu, pau := s.pau, evu := s.evu, cls := s.cls, stc := s.stc } = s :=
  congrArg (fun u : State => { u with cls := s.cls, stc := s.stc }) (eq_of_supply h s.spu s.pau s.evu)

/-- A request folded after a change by the Supply Unit, with the claim it may bring. -/
theorem ClaimOnly.frame_folded {s t u : State} {k : Fin 3} {l : Level} {urgent : Bool} {o : OriginSet}
    (h : ClaimOnly (foldRequest k l urgent o u) t) (kept : keptBySupply u = keptBySupply s) :
    { t with spu := s.spu, pau := s.pau, evu := s.evu, cls := s.cls, stc := s.stc } = s := by
  have frame := congrArg
    (fun u : State => { u with spu := s.spu, pau := s.pau, evu := s.evu, cls := s.cls, stc := s.stc }) h.frame
  have around := frame_of_supply kept
  exact frame.trans around

theorem foldRequest_spu (k : Fin 3) (l : Level) (urgent : Bool) (o : OriginSet) (s : State) :
    (foldRequest k l urgent o s).spu = s.spu := rfl

theorem foldRequest_liu (k : Fin 3) (l : Level) (urgent : Bool) (o : OriginSet) (s : State) :
    (foldRequest k l urgent o s).liu = s.liu := rfl

theorem foldRequest_evu (k : Fin 3) (l : Level) (urgent : Bool) (o : OriginSet) (s : State) :
    (foldRequest k l urgent o s).evu = s.evu := rfl

theorem becameActive_scan {b : Fin 12} {s : State} (scan : (bay s b).scanRead = true) :
    BecameActive b s (promoted b s) where
  spu := rfl
  liu := liu_of_supply (promoted_confined b s).kept
  frame := frame_of_supply (promoted_confined b s).kept
  entry h := by rw [entryOf_promoted, if_neg (by simp [scan])]
  untold := Untold.refl _ _

theorem ClaimOnly.becameActive {b : Fin 12} {s t : State} (inserted : (bay s b).scanRead = false)
    (h : ClaimOnly (foldRequest (headOf (channelOf b)) .normal false (OriginSet.of .prime) (promoted b s)) t) :
    BecameActive b s t where
  spu := h.spu.trans (foldRequest_spu _ _ _ _ _)
  liu := (h.liu.trans (foldRequest_liu _ _ _ _ _)).trans (liu_of_supply (promoted_confined b s).kept)
  frame := h.frame_folded (promoted_confined b s).kept
  entry k := by
    rw [h.entryOf, entryOf_foldRequest, entryOf_promoted, entryOf_promoted]
    by_cases is : k = headOf (channelOf b)
    · rw [if_pos is, if_pos ⟨is, inserted⟩, is]
    · rw [if_neg is, if_neg fun both => is both.1]
  untold := (untold_of_evu (foldRequest_evu _ _ _ _ _)).trans (h.untold _ (by decide))

/-- An entry into STANDBY on a channel without an active bay, by a scan read or with no free moment for a claim. -/
theorem settle_standbyRun_vacant {b : Fin 12} {s : State} (h : (chan s (channelOf b)).active = none)
    (stage : s.cls.stage ≠ .waitInk) (zone : (bay s b).scanRead = true ∨ ZoneTaken s) :
    ∃ t, settle (standbyRun b s) = .next t ∧ BecameActive b s t := by
  cases scan : (bay s b).scanRead with
  | true => exact ⟨_, settle_standbyRun_scan h scan stage, becameActive_scan scan⟩
  | false =>
    obtain ⟨t, settled, claimed⟩ :=
      settle_standbyRun_prime h scan stage (zone.resolve_left (by rw [scan]; exact Bool.false_ne_true))
    exact ⟨t, settled, claimed.becameActive scan⟩

theorem BecameActive.bay {b : Fin 12} {s t : State} (h : BecameActive b s t) :
    bay t b = { Machine.bay s b with state := .active, dry := 0 } := by
  rw [← bay_promoted, Machine.bay, h.spu]
  rfl

theorem BecameActive.bay_other {b d : Fin 12} {s t : State} (h : BecameActive b s t) (n : b ≠ d) :
    Machine.bay t d = Machine.bay s d := by
  rw [← bay_promoted_other s n, Machine.bay, h.spu]
  rfl

theorem BecameActive.chan {b : Fin 12} {s t : State} (h : BecameActive b s t) (hp : s.rsc.power = .run) :
    chan t (channelOf b) = (Machine.chan s (channelOf b)).promoted (sideOf b) s.params.refillMark := by
  rw [← chan_promotedBay hp, Machine.chan, h.spu]
  rfl

theorem BecameActive.chan_other {b : Fin 12} {d : Fin 6} {s t : State} (h : BecameActive b s t) (n : d ≠ channelOf b) :
    Machine.chan t d = Machine.chan s d := by
  rw [← (promoted_confined b s).chan d n, Machine.chan, h.spu]
  rfl

theorem BecameActive.bus {b : Fin 12} {s t : State} (h : BecameActive b s t) : t.spu.bus = s.spu.bus := by
  rw [h.spu, bus_promoted]

theorem BecameActive.told {b : Fin 12} {s t : State} (h : BecameActive b s t)
    (low : (Machine.bay s b).estimate < bayLowLine s (Machine.bay s b)) : Told .bayLow (one b.val) none s t :=
  (told_promoted b s low).trans_untold h.untold

theorem BecameActive.untold_low {b : Fin 12} {s t : State} (h : BecameActive b s t)
    (high : ¬ (Machine.bay s b).estimate < bayLowLine s (Machine.bay s b)) : Untold .bayLow s t :=
  (untold_promoted high).trans h.untold

/-! ### CONFIRM_CARTRIDGE and REJECT_CARTRIDGE (R9) -/

/-- The bay has been confirmed and the confirmation answered, before it enters STANDBY. -/
def confirmed (p : Port) (b : Fin 12) (s : State) : State :=
  setBay (answered p .confirmCartridge .ok [] s) b { bay s b with confirmed := true }

@[simp] theorem bay_confirmed (p : Port) (b : Fin 12) (s : State) :
    bay (confirmed p b s) b = { bay s b with confirmed := true } :=
  bay_setBay _ b _

theorem confirmBay_awaiting {p : Port} {body : List Byte} {b : Fin 12} {s : State} (is : field body 0 1 = b.val)
    (waits : (bay s b).state = .awaitConfirm) :
    confirmBay p body (heldFor .confirmCartridge p s) = standbyRun b (confirmed p b s) := by
  have held : (bay (heldFor .confirmCartridge p s) b).state = .awaitConfirm := waits
  simp only [confirmBay, is, index?_val]
  rw [if_pos held, answer_heldFor]
  exact congrArg (standbyRun b) rfl

theorem confirmBay_other {p : Port} {body : List Byte} {b : Fin 12} {s : State} (is : field body 0 1 = b.val)
    (other : (bay s b).state ≠ .awaitConfirm) :
    confirmBay p body (heldFor .confirmCartridge p s) = Run.done (answered p .confirmCartridge .badState [] s) := by
  have held : (bay (heldFor .confirmCartridge p s) b).state ≠ .awaitConfirm := other
  simp only [confirmBay, is, index?_val, held, if_false, reply_heldFor]

theorem rejectBay_awaiting {p : Port} {body : List Byte} {b : Fin 12} {s : State} (is : field body 0 1 = b.val)
    (waits : (bay s b).state = .awaitConfirm) :
    rejectBay p body (heldFor .rejectCartridge p s) =
      Run.done (checkOver (channelOf b)
        (setBay (answered p .rejectCartridge .ok [] s) b { bay s b with state := .rejected })) := by
  have held : (bay (heldFor .rejectCartridge p s) b).state = .awaitConfirm := waits
  simp only [rejectBay, is, index?_val, held, if_true, answer_heldFor]
  rfl

theorem rejectBay_other {p : Port} {body : List Byte} {b : Fin 12} {s : State} (is : field body 0 1 = b.val)
    (other : (bay s b).state ≠ .awaitConfirm) :
    rejectBay p body (heldFor .rejectCartridge p s) = Run.done (answered p .rejectCartridge .badState [] s) := by
  have held : (bay (heldFor .rejectCartridge p s) b).state ≠ .awaitConfirm := other
  simp only [rejectBay, is, index?_val, held, if_false, reply_heldFor]

/-- A confirmed bay that stands by, as one change of its record. -/
theorem stoodBy_confirmed (p : Port) (b : Fin 12) (s : State) :
    stoodBy b (confirmed p b s) =
      (let t := setBay (answered p .confirmCartridge .ok [] s) b { bay s b with confirmed := true, state := .standby }
       checkOver (channelOf b)
        (if (bay s b).estimate < bayLowLine s (bay s b) then raise .bayLow (one b.val) none t else t)) := by
  rw [stoodBy, bay_confirmed, confirmed, setBay_setBay]
  rfl

/-- Settles O18, by the bay's state and its channel's active bay. -/
theorem cartridgeConfirmedOrRejected : Obligations.CartridgeConfirmedOrRejected := by
  intro p body s
  refine ⟨fun takes => ⟨fun above => ?confirm_bad, fun b is => ⟨fun other => ?confirm_other,
      fun waits active => ?confirm_standby, fun waits vacant stage zone => ?confirm_active⟩⟩,
    fun takes => ⟨fun above => ?reject_bad, fun b is => ⟨fun other => ?reject_other, fun waits => ?reject⟩⟩⟩
  case confirm_bad =>
    simp only [exec, execConfirmCartridge, settle_request takes, confirmBay, index?_none (Nat.succ_le_of_lt above),
      reply_heldFor, settle_done]
  case confirm_other =>
    simp only [exec, execConfirmCartridge, settle_request takes, confirmBay_other is other, settle_done]
  case confirm_standby =>
    simp only [exec, execConfirmCartridge, settle_request takes, confirmBay_awaiting is waits]
    rw [standbyRun_waits (s := confirmed p b s) active, settle_done, stoodBy_confirmed]
  case confirm_active =>
    simp only [exec, execConfirmCartridge, settle_request takes, confirmBay_awaiting is waits]
    obtain ⟨t, settled, became⟩ := settle_standbyRun_vacant (s := confirmed p b s) vacant stage
      (by rw [bay_confirmed]; exact zone)
    have same : Untold .bayLow s (confirmed p b s) := untold_of_evu rfl
    have line : ((bay (confirmed p b s) b).estimate < bayLowLine (confirmed p b s) (bay (confirmed p b s) b)) =
        ((bay s b).estimate < bayLowLine s (bay s b)) := by rw [bay_confirmed]; rfl
    refine ⟨t, settled, ?slot, ?bay, fun d n => ?other, became.chan takes.1.2, fun d n => became.chan_other n,
      fun low => same.trans_told (became.told (line ▸ low)),
      fun high => same.trans (became.untold_low (line ▸ high)), fun h => ?entry, ?frame⟩
    case slot =>
      rw [engine, became.liu]
      exact congrArg Engine.slot (engine_answer _ p _ _ _)
    case bay => rw [became.bay, bay_confirmed]
    case other => rw [became.bay_other n.symm, confirmed, bay_setBay_other _ _ n.symm]; rfl
    case entry =>
      rw [became.entry, bay_confirmed]
      rfl
    case frame =>
      exact congrArg (fun u : State =>
        { u with liu := s.liu, spu := s.spu, pau := s.pau, evu := s.evu, cls := s.cls, stc := s.stc }) became.frame
  case reject_bad =>
    simp only [exec, execRejectCartridge, settle_request takes, rejectBay, index?_none (Nat.succ_le_of_lt above),
      reply_heldFor, settle_done]
  case reject_other =>
    simp only [exec, execRejectCartridge, settle_request takes, rejectBay_other is other, settle_done]
  case reject =>
    simp only [exec, execRejectCartridge, settle_request takes, rejectBay_awaiting is waits, settle_done]

end Sys2Proof.Machine
end

