-- ==== Sys2Proof/Proofs/ChipReads.lean ====
section
/-!
SUPPORT. The read of a bay's chip and the judging of its cartridge. Settles O21.
-/

namespace Sys2Proof.Machine

/-! ### The read of a bay's chip (R6, R7) -/

theorem chipRead_reading {r : Vector Byte 18} {b : Fin 12} {scan : Bool} {n : Nat} {ts : List Trans} {s : State}
    (h : s.spu.bus.executing = true) (q : s.spu.bus.queue = ⟨.bay b, .read, scan, n⟩ :: ts)
    (reading : (bay s b).state = .reading) (left : n < 4) :
    chipRead r s = judgeBay b scan (chipFields r) (ended s) := by
  have bayReads : (bay (ended s) b).state = .reading := reading
  simp only [chipRead, executing_some h q, Config.busAttempts, left, bayReads, if_true]

theorem chipReadFails_reading {b : Fin 12} {scan : Bool} {n : Nat} {ts : List Trans} {s : State}
    (h : s.spu.bus.executing = true) (q : s.spu.bus.queue = ⟨.bay b, .read, scan, n⟩ :: ts)
    (reading : (bay s b).state = .reading) (last : 3 ≤ n) :
    chipReadFails s = checkOver (channelOf b) (setBay (ended s) b { bay s b with state := .fault }) := by
  have fourth : canFail ⟨.bay b, .read, scan, n⟩ = true := by simp [canFail, Config.busAttempts, last]
  have bayReads : (bay (ended s) b).state = .reading := reading
  simp only [chipReadFails, executing_some h q]
  rw [if_pos fourth, if_pos bayReads]
  rfl

/-! ### The tests of R6, in their order -/

section
variable {b : Fin 12} {scan : Bool} {f : ChipFields} {s : State}

theorem judgeBay_invalid (h : ¬ (0 < f.capacity ∧ f.capacity ≤ 1000)) :
    judgeBay b scan f s = Run.done (judgedAs b ((bay s b).asRead scan f) .rejected s) := by
  rw [judgeBay_eq]
  exact if_pos h

variable (valid : 0 < f.capacity ∧ f.capacity ≤ 1000)
include valid

theorem judgeBay_wrongChannel (h : f.code ≠ (channelOf b).val) :
    judgeBay b scan f s = Run.done (judgedAs b ((bay s b).asRead scan f) .rejected s) := by
  rw [judgeBay_eq]
  dsimp only
  rw [if_neg (not_not.mpr valid), if_pos h]

variable (code : f.code = (channelOf b).val)
include code

theorem judgeBay_empty (h : f.remaining = 0) :
    judgeBay b scan f s = Run.done (judgedAs b ((bay s b).asRead scan f) .out s) := by
  rw [judgeBay_eq]
  dsimp only
  rw [if_neg (not_not.mpr valid), if_neg (not_not.mpr code), if_pos h]

variable (ink : f.remaining ≠ 0)
include ink

theorem judgeBay_doubtful (h : f.refilled = true ∨ (s.date ≠ 0 ∧ f.expiry < s.date)) :
    judgeBay b scan f s =
      Run.done (raise .confirmNeeded (one b.val) none (judgedAs b ((bay s b).asRead scan f) .awaitConfirm s)) := by
  rw [judgeBay_eq]
  dsimp only
  rw [if_neg (not_not.mpr valid), if_neg (not_not.mpr code), if_neg ink, if_pos h]

theorem judgeBay_accepted (h : ¬ (f.refilled = true ∨ (s.date ≠ 0 ∧ f.expiry < s.date))) :
    judgeBay b scan f s = standbyRun b (setBay s b ((bay s b).asRead scan f)) := by
  rw [judgeBay_eq]
  dsimp only
  rw [if_neg (not_not.mpr valid), if_neg (not_not.mpr code), if_neg ink, if_neg h]

end

/-- The state in which a bay's chip has been read and the bay accepted, before it enters STANDBY. -/
def accepted (b : Fin 12) (scan : Bool) (f : ChipFields) (s : State) : State :=
  setBay (ended s) b ((bay s b).asRead scan f)

theorem bay_accepted (b : Fin 12) (scan : Bool) (f : ChipFields) (s : State) :
    bay (accepted b scan f s) b = (bay s b).asRead scan f :=
  bay_setBay _ b _

/-- Settles O21, by the first test of R6 that applies. -/
theorem chipReadJudged : Obligations.ChipReadJudged := by
  intro r b scan n ts s awake executes queue reading f c valid x goes doubtful
  have read : ∀ left : n < 4, exec (.chipReadDone r) s = settle (judgeBay b scan f (ended s)) := fun left => by
    simp only [exec, execChipReadDone]
    rw [event_awake awake, chipRead_reading executes queue reading left]
  refine ⟨fun left no => ?invalid, fun left ok code => ?channel, fun left ok code out => ?empty,
    fun left ok code ink doubt => ?doubtful, fun left ok code ink sure stage => ?accepted, fun last => ?fails⟩
  case invalid => rw [read left, judgeBay_invalid no]; rfl
  case channel => rw [read left, judgeBay_wrongChannel ok code]; rfl
  case empty => rw [read left, judgeBay_empty ok code out]; rfl
  case doubtful => rw [read left, judgeBay_doubtful (s := ended s) ok code ink doubt]; rfl
  case accepted =>
    have judged : exec (.chipReadDone r) s = settle (standbyRun b (accepted b scan f s)) := by
      rw [read left, judgeBay_accepted (s := ended s) ok code ink sure]
      rfl
    have record : bay (accepted b scan f s) b = x := bay_accepted b scan f s
    have becomes : ∀ {t}, BecameActive b (accepted b scan f s) t →
        bay t b = { x with state := .active, dry := 0 } ∧ (chan t c).active = some (sideOf b) ∧
          t.spu.bus = s.spu.bus.finish := fun {t} h =>
      ⟨by rw [h.bay, record], by rw [h.chan awake.2, Channel.promoted_active], h.bus⟩
    refine ⟨fun active => ?standby, fun vacant scanned => ?scan, fun vacant inserted opened capped => ?prime⟩
    case standby =>
      refine ⟨stoodBy b (accepted b scan f s), ?_, by rw [bay_stoodBy, record], chan_stoodBy _ _ _, bus_stoodBy _ _,
        cls_of_supply (stoodBy_confined b _).kept⟩
      rw [judged, standbyRun_waits (s := accepted b scan f s) active, settle_done]
    case scan =>
      have scanRead : (bay (accepted b scan f s) b).scanRead = true := by rw [record]; exact scanned
      obtain ⟨bayNow, active, bus⟩ := becomes (becameActive_scan scanRead)
      exact ⟨_, judged.trans (settle_standbyRun_scan vacant scanRead stage), bayNow, active, bus,
        cls_of_supply (promoted_confined b (accepted b scan f s)).kept⟩
    case prime =>
      have scanRead : (bay (accepted b scan f s) b).scanRead = false := by rw [record]; exact inserted
      obtain ⟨t, settled, became⟩ := settle_standbyRun_vacant (s := accepted b scan f s) vacant stage
        (.inr ⟨opened, capped⟩)
      obtain ⟨bayNow, active, bus⟩ := becomes became
      refine ⟨t, judged.trans settled, bayNow, active, bus, ?_⟩
      rw [became.entry, if_pos ⟨rfl, scanRead⟩]
      rfl
  case fails =>
    simp only [exec, execChipReadFail]
    rw [event_awake awake, settle_done, chipReadFails_reading executes queue reading last]
    rfl

end Sys2Proof.Machine
end

