-- ==== Sys2Proof/Proofs/AccountReads.lean ====
section
/-!
SUPPORT. The readings of the waste record, the books, the Health Table, the admission table, the station and the media path:
what each request answers, and the codes of the optional choices in their bodies. Settles O16 and O17.
-/

namespace Sys2Proof.Machine

/-! ### Codes of optional choices (R180) -/

/-- The selector's join: none 0, H0 1, H1 2, H2 3 (R57, log entry 53). -/
theorem selectorCode_eq (x : Option (Fin 3)) :
    optCode Fin.val x = match x with
      | none => 0
      | some h => h.val + 1 := by
  cases x <;> rfl

/-- The holder of the session (R57). -/
theorem sessionHolderCode_eq (x : Option Claimant) :
    optCode Claimant.ctorIdx x = match x with
      | none => 0
      | some .cls => 1
      | some .dtu => 2 := by
  rcases x with _ | _ | _ <;> rfl

/-- The last fault cause of the station (R57). -/
theorem lastFaultCode_eq (x : Option StationCause) :
    optCode StationCause.ctorIdx x = match x with
      | none => 0
      | some .sled => 1
      | some .wiper => 2
      | some .pump => 3 := by
  rcases x with _ | _ | _ | _ <;> rfl

/-- The hold cause of the path (R143). -/
theorem pathHoldCode_eq (x : Option PathHold) :
    optCode PathHold.ctorIdx x = match x with
      | none => 0
      | some .jam => 1
      | some .cover => 2 := by
  rcases x with _ | _ | _ <;> rfl

/-- The place asked for of the admission table, FFH where it is empty (R56). -/
theorem listPosition_eq (e : Option Page) (pos : Nat) :
    leOr 1 0xFF (e.map fun _ => pos) = le 1 (if e.isSome then pos else 0xFF) := by
  cases e <;> rfl

/-- The source in path (R143). -/
theorem pathSource_eq (x : Option Source) :
    leOr 1 3 (x.map sourceCode) = le 1 (match x with
      | none => 3
      | some src => sourceCode src) := by
  cases x <;> rfl

/-- The last port served (R146). -/
theorem lastServed_eq (x : Option Port) :
    leOr 1 3 (x.map Port.ctorIdx) = le 1 (match x with
      | none => 3
      | some p => p.ctorIdx) := by
  cases x <;> rfl

/-- The kind of a port's waiting motion (R161, log entry 52). -/
theorem waitingCode_eq (x : Option MotionReq) :
    leOr 1 0 (x.map MotionReq.code) = le 1 (match x with
      | none => 0
      | some (.load _ _ _ _) => 0
      | some .unload => 1
      | some (.advance _ _) => 2
      | some .cut => 3
      | some (.manual _) => 4) := by
  rcases x with _ | _ | _ | _ | _ | _ <;> rfl

/-! ### What the readings answer -/

variable {p : Port} {body : List Byte} {s : State}

theorem exec_readWaste (takes : Takes s .readWaste p body) :
    exec (.readWaste p body) s = .next (answered p .readWaste .ok (wasteBody s) s) := by
  simp only [exec, execReadWaste, settle_request takes, reply_heldFor, settle_done]
  rfl

theorem exec_readTotals {c : Fin 6} (takes : Takes s .readTotals p body) (is : field body 0 1 = c.val) :
    exec (.readTotals p body) s = .next (answered p .readTotals .ok (totalsBody s c) s) := by
  simp only [exec, execReadTotals, settle_request takes, readByChannel_heldFor is, settle_done]
  rfl

theorem exec_readTotals_badField (takes : Takes s .readTotals p body) (above : 5 < field body 0 1) :
    exec (.readTotals p body) s = .next (answered p .readTotals .badField [] s) := by
  simp only [exec, execReadTotals, settle_request takes, readByChannel_badField above, settle_done]

theorem exec_readHealth {c : Fin 6} (takes : Takes s .readHealth p body) (is : field body 0 1 = c.val) :
    exec (.readHealth p body) s = .next (answered p .readHealth .ok (healthBody s c) s) := by
  simp only [exec, execReadHealth, settle_request takes, readHealth, is, index?_val, reply_heldFor, settle_done]
  rfl

theorem exec_readHealth_badField (takes : Takes s .readHealth p body) (above : 5 < field body 0 1) :
    exec (.readHealth p body) s = .next (answered p .readHealth .badField [] s) := by
  simp only [exec, execReadHealth, settle_request takes, readHealth, index?_none (Nat.succ_le_of_lt above),
    reply_heldFor, settle_done]

theorem exec_listPages (takes : Takes s .listPages p body) (within : field body 0 1 ≤ 3) :
    exec (.listPages p body) s = .next (answered p .listPages .ok (listBody s (field body 0 1)) s) := by
  simp only [exec, execListPages, settle_request takes, listPages, gt_iff_lt, Nat.not_lt.mpr within, if_false,
    reply_heldFor, settle_done]
  rfl

theorem exec_listPages_badField (takes : Takes s .listPages p body) (above : 3 < field body 0 1) :
    exec (.listPages p body) s = .next (answered p .listPages .badField [] s) := by
  simp only [exec, execListPages, settle_request takes, listPages, gt_iff_lt, above, if_true, reply_heldFor,
    settle_done]

theorem exec_readStation (takes : Takes s .readStation p body) :
    exec (.readStation p body) s = .next (answered p .readStation .ok (stationBody s) s) := by
  simp only [exec, execReadStation, settle_request takes, reply_heldFor, settle_done]
  rfl

theorem exec_readFeed (takes : Takes s .readFeed p body) (n : Nat) :
    exec (.readFeed p body n) s = .next (answered p .readFeed .ok (feedBody s n) s) := by
  simp only [exec, execReadFeed, settle_request takes, reply_heldFor, settle_done]
  rfl

/-! ### The obligations -/

/-- Settles O16, reading the waste record and the orphan-waste counter; the model has a `wasteRead` of its own. -/
theorem Reads.wasteRead : Obligations.WasteRead :=
  ⟨fun p => by cases p <;> rfl, fun _ _ _ takes => exec_readWaste takes⟩

/-- Settles O17, reading by reading; a body differs from the model's only in how its optional choices are written. -/
theorem recordsRead : Obligations.RecordsRead := by
  intro p body s b list page
  refine ⟨fun takes => ⟨exec_readTotals_badField takes, fun c is => exec_readTotals takes is⟩,
    fun takes => ⟨exec_readHealth_badField takes, fun c is => ?health⟩,
    fun takes => ⟨exec_listPages_badField takes, fun within => ?list⟩, fun takes => ?station, fun takes n => ?feed⟩
  case health =>
    rw [exec_readHealth takes is]
    unfold healthBody
    cases s.dtu.task <;> rfl
  case list =>
    rw [exec_listPages takes within]
    unfold listBody
    dsimp only
    rw [listPosition_eq]
    rfl
  case station =>
    rw [exec_readStation takes]
    unfold stationBody
    dsimp only
    rw [selectorCode_eq, sessionHolderCode_eq, lastFaultCode_eq]
    rfl
  case feed =>
    rw [exec_readFeed takes]
    unfold feedBody waitingBody
    dsimp only
    rw [← List.append_assoc _ (byte _), pathSource_eq, pathHoldCode_eq, lastServed_eq]
    simp only [waitingCode_eq]
    rfl

end Sys2Proof.Machine
end

