-- ==== Sys2Proof/Proofs/MechanicsKept.lean ====
section
/-!
SUPPORT. What the operations of the station, the detector, the cleaning sequencer, the feed and the page table leave alone,
their suction debits aside: the supply, the books and the waste account, the parameters, the clock and the power state, and
the posted queue and fence of the links. One lemma per operation, in the order of the model's files.
-/

namespace Sys2Proof.Machine

/-- The fields that only debits, cartridges, strokes, parameters, the clock and the Raster Port's own commands write: all
but pins, evu, pau, stc, orq, cls, dtu, ext, fdc and the engines of the links. -/
def keptByMechanics (s : State) :=
  ((s.pending, s.freeUsed), s.startup, s.resetLow, s.timeBase, s.date, s.params, s.spu, s.uau, s.rsc,
    (s.liu.posted, s.liu.placed, s.liu.fence))

theorem kept_mechanics_of_station {s t : State} (h : keptByStation t = keptByStation s) :
    keptByMechanics t = keptByMechanics s := by
  simp only [keptByStation, Prod.mk.injEq] at h
  simp only [keptByMechanics, h]

theorem kept_mechanics_of_supply {s t : State} (h : keptBySupply t = keptBySupply s) (hs : t.spu = s.spu) :
    keptByMechanics t = keptByMechanics s := by
  simp only [keptBySupply, Prod.mk.injEq] at h
  simp only [keptByMechanics, h, hs]

theorem spu_of_mechanics {s t : State} (h : keptByMechanics t = keptByMechanics s) : t.spu = s.spu := by
  simp only [keptByMechanics, Prod.mk.injEq] at h; exact h.2.2.2.2.2.2.1

theorem uau_of_mechanics {s t : State} (h : keptByMechanics t = keptByMechanics s) : t.uau = s.uau := by
  simp only [keptByMechanics, Prod.mk.injEq] at h; exact h.2.2.2.2.2.2.2.1

/-! ### Single records -/

@[simp] theorem raise_keptM (k : EventKind) (m : BitVec 16) (d : Option Detail) (s : State) :
    keptByMechanics (raise k m d s) = keptByMechanics s := rfl
@[simp] theorem raiseOn_keptM (p : Port) (k : EventKind) (d : Option Detail) (s : State) :
    keptByMechanics (raiseOn p k d s) = keptByMechanics s := rfl
@[simp] theorem setEntry_keptM (s : State) (h : Fin 3) (x : CleanEntry) :
    keptByMechanics (setEntry s h x) = keptByMechanics s := rfl
@[simp] theorem setCls_keptM (x : Cls) (s : State) : keptByMechanics (setCls x s) = keptByMechanics s := rfl
@[simp] theorem setHealth_keptM (s : State) (c : Fin 6) (x : Health) :
    keptByMechanics (setHealth s c x) = keptByMechanics s := rfl
@[simp] theorem setDtu_keptM (x : Dtu) (s : State) : keptByMechanics (setDtu x s) = keptByMechanics s := rfl
@[simp] theorem setExposure_keptM (s : State) (h : Fin 3) (x : Exposure) :
    keptByMechanics (setExposure s h x) = keptByMechanics s := rfl
@[simp] theorem setSource_keptM (s : State) (a : Source) (x : SourceRec) :
    keptByMechanics (setSource s a x) = keptByMechanics s := rfl
@[simp] theorem setFdc_keptM (x : Fdc) (s : State) : keptByMechanics (setFdc x s) = keptByMechanics s := rfl
@[simp] theorem setPath_keptM (x : Path) (s : State) : keptByMechanics (setPath x s) = keptByMechanics s := rfl
@[simp] theorem setEngine_keptM (s : State) (p : Port) (x : Engine) :
    keptByMechanics (setEngine s p x) = keptByMechanics s := rfl
@[simp] theorem setStc_keptM (x : Stc) (s : State) : keptByMechanics (setStc x s) = keptByMechanics s := rfl
@[simp] theorem setOrq_keptM (x : Orq) (s : State) : keptByMechanics (setOrq x s) = keptByMechanics s := rfl

@[simp] theorem foldRequest_keptM (h : Fin 3) (l : Level) (u : Bool) (o : OriginSet) (s : State) :
    keptByMechanics (foldRequest h l u o s) = keptByMechanics s := rfl
@[simp] theorem beginTransaction_keptM (p : Port) (s : State) :
    keptByMechanics (beginTransaction p s) = keptByMechanics s := rfl
@[simp] theorem countError_keptM (p : Port) (e : ErrorKind) (s : State) :
    keptByMechanics (countError p e s) = keptByMechanics s := rfl
@[simp] theorem answer_keptM (p : Port) (k : Kind) (r : Result) (b : List Byte) (s : State) :
    keptByMechanics (answer p k r b s) = keptByMechanics s := rfl
@[simp] theorem holdSlot_keptM (p : Port) (k : Kind) (s : State) :
    keptByMechanics (holdSlot p k s) = keptByMechanics s := rfl
@[simp] theorem done_keptM (s : State) : keptByMechanics (Run.done s).1 = keptByMechanics s := rfl
@[simp] theorem reply_keptM (p : Port) (k : Kind) (r : Result) (b : List Byte) (s : State) :
    keptByMechanics (reply p k r b s).1 = keptByMechanics s := rfl
@[simp] theorem plus_keptM (r : Run) (acts : List Act) : keptByMechanics (r.plus acts).1 = keptByMechanics r.1 := rfl
@[simp] theorem andThen_keptM (r : Run) (f : State → Run) :
    keptByMechanics (r.andThen f).1 = keptByMechanics (f r.1).1 := rfl

/-! ### Page Admission Unit -/

@[simp] theorem checkOver_keptM (c : Fin 6) (s : State) : keptByMechanics (checkOver c s) = keptByMechanics s :=
  kept_mechanics_of_supply (checkOver_kept c s) (checkOver_spu c s)

@[simp] theorem checkOverAll_keptM (cs : List (Fin 6)) (s : State) :
    keptByMechanics (checkOverAll cs s) = keptByMechanics s :=
  foldl_kept keptByMechanics _ (fun s c => checkOver_keptM c s) cs s

@[simp] theorem modOldest_keptM (f : Page → Page) (s : State) : keptByMechanics (modOldest f s) = keptByMechanics s := by
  unfold modOldest; split <;> rfl

@[simp] theorem pauAdvanceBegins_keptM (tag : Nat) (s : State) :
    keptByMechanics (pauAdvanceBegins tag s) = keptByMechanics s := by
  unfold pauAdvanceBegins; split <;> simp

@[simp] theorem pauAdvanceDone_keptM (tag d : Nat) (s : State) :
    keptByMechanics (pauAdvanceDone tag d s) = keptByMechanics s := by
  unfold pauAdvanceDone; split <;> simp

@[simp] theorem pauJam_keptM (s : State) : keptByMechanics (pauJam s) = keptByMechanics s := modOldest_keptM _ s

@[simp] theorem pauReport_keptM (tag : Nat) (d : Destination) (v : Vector Nat 6) (s : State) :
    keptByMechanics (pauReport tag d v s) = keptByMechanics s := by
  unfold pauReport
  split
  · rfl
  · split
    · simp
    · rfl

@[simp] theorem joinTable_keptM (e : Page) (s : State) : keptByMechanics (joinTable e s) = keptByMechanics s :=
  checkOverAll_keptM _ _

@[simp] theorem endPage_keptM (e : Page) (a : Bool) (s : State) : keptByMechanics (endPage e a s) = keptByMechanics s :=
  checkOverAll_keptM _ _

/-! ### The service side of a report -/

@[simp] theorem addDrops_keptM (body : List Byte) (h : Fin 3) (s : State) :
    keptByMechanics (addDrops body h s) = keptByMechanics s := by
  unfold addDrops; dsimp only; split <;> simp

@[simp] theorem headFired_keptM (h : Fin 3) (s : State) : keptByMechanics (headFired h s) = keptByMechanics s := rfl

@[simp] theorem reportService_keptM (body : List Byte) (d : Destination) (s : State) :
    keptByMechanics (reportService body d s) = keptByMechanics s := by
  unfold reportService
  dsimp only
  rw [foldl_kept keptByMechanics _ (fun s h => by split <;> simp)]
  split
  · exact foldl_kept keptByMechanics _ (fun s h => addDrops_keptM body h s) _ s
  · rfl

/-! ### Order Queue -/

@[simp] theorem enterOrder_keptM (b : OrderBody) (o : Origin) (s : State) :
    keptByMechanics (enterOrder b o s) = keptByMechanics s := kept_mechanics_of_station (enterOrder_keptS b o s)

@[simp] theorem placeOrder_keptM (w : Placer) (b : OrderBody) (s : State) :
    keptByMechanics (placeOrder w b s).1 = keptByMechanics s := kept_mechanics_of_station (placeOrder_keptS w b s)

@[simp] theorem enterWaiting_keptM (s : State) : keptByMechanics (enterWaiting s).1 = keptByMechanics s :=
  kept_mechanics_of_station (enterWaiting_keptS s)

@[simp] theorem withdraw_keptM (w : Placer) (s : State) : keptByMechanics (withdraw w s) = keptByMechanics s := rfl

@[simp] theorem removeQueued_keptM (o : Origin) (s : State) : keptByMechanics (removeQueued o s).1 = keptByMechanics s := rfl

@[simp] theorem beginSample_keptM (o : Order) (s : State) : keptByMechanics (beginSample o s) = keptByMechanics s := by
  unfold beginSample; split <;> rfl

@[simp] theorem takeOldest_keptM (s : State) : keptByMechanics (takeOldest s) = keptByMechanics s := by
  unfold takeOldest; split <;> simp

@[simp] theorem endTaken_keptM (o : Order) (how : OrderEnd) (s : State) :
    keptByMechanics (endTaken o how s).1 = keptByMechanics s := rfl

@[simp] theorem orderTimeout_keptM (o : Order) (s : State) : keptByMechanics (orderTimeout o s).1 = keptByMechanics s := by
  simp [orderTimeout]

@[simp] theorem returnTaken_keptM (s : State) : keptByMechanics (returnTaken s).1 = keptByMechanics s := by
  unfold returnTaken
  split
  · rfl
  · split <;> rfl

@[simp] theorem strobe_keptM (e : Edge) (s : State) : keptByMechanics (strobe e s) = keptByMechanics s := by
  unfold strobe
  split
  · split <;> rfl
  · rfl

@[simp] theorem takeSample_keptM (i : Bool) (s : State) : keptByMechanics (takeSample i s) = keptByMechanics s := by
  unfold takeSample
  split
  · rfl
  · split <;> rfl

/-! ### Station Controller and exposure timers -/

@[simp] theorem exposureSpit_keptM (h : Fin 3) (s : State) : keptByMechanics (exposureSpit h s) = keptByMechanics s :=
  kept_mechanics_of_station (exposureSpit_keptS h s)

@[simp] theorem raiseExposed_keptM (h : Fin 3) (s : State) : keptByMechanics (raiseExposed h s) = keptByMechanics s :=
  kept_mechanics_of_station (raiseExposed_keptS h s)

@[simp] theorem extEntry_keptM (s : State) : keptByMechanics (extEntry s).1 = keptByMechanics s :=
  kept_mechanics_of_station (extEntry_keptS s)

@[simp] theorem exposureExpires_keptM (h : Fin 3) (s : State) :
    keptByMechanics (exposureExpires h s).1 = keptByMechanics s := by
  unfold exposureExpires; dsimp only; split <;> simp

@[simp] theorem sledCommand_keptM (e : SledEnd) (s : State) : keptByMechanics (sledCommand e s).1 = keptByMechanics s :=
  kept_mechanics_of_station (sledCommand_keptS e s)

@[simp] theorem wiperCommand_keptM (e : WiperEnd) (s : State) :
    keptByMechanics (wiperCommand e s).1 = keptByMechanics s := rfl

@[simp] theorem holderSled_keptM (e : SledEnd) (s : State) : keptByMechanics (holderSled e s).1 = keptByMechanics s := by
  unfold holderSled; split <;> simp

@[simp] theorem holderWiper_keptM (e : WiperEnd) (s : State) : keptByMechanics (holderWiper e s).1 = keptByMechanics s := by
  unfold holderWiper; split <;> simp

@[simp] theorem sledArrives_keptM (s : State) : keptByMechanics (sledArrives s).1 = keptByMechanics s := by
  unfold sledArrives; split <;> rfl

@[simp] theorem wiperArrives_keptM (s : State) : keptByMechanics (wiperArrives s).1 = keptByMechanics s := by
  unfold wiperArrives; split <;> rfl

@[simp] theorem joinSelector_keptM (h : Fin 3) (s : State) : keptByMechanics (joinSelector h s) = keptByMechanics s := by
  unfold joinSelector; split <;> rfl

@[simp] theorem releaseSelector_keptM (s : State) : keptByMechanics (releaseSelector s) = keptByMechanics s := by
  unfold releaseSelector; split <;> rfl

@[simp] theorem startPump_keptM (n : Nat) (s : State) : keptByMechanics (startPump n s) = keptByMechanics s := by
  unfold startPump; split <;> rfl

@[simp] theorem stopPump_keptM (s : State) : keptByMechanics (stopPump s) = keptByMechanics s := rfl

@[simp] theorem countRevolution_keptM (s : State) : keptByMechanics (countRevolution s).1 = keptByMechanics s := by
  unfold countRevolution
  dsimp only
  split
  · split <;> rfl
  · rfl

@[simp] theorem beginHoming_keptM (s : State) : keptByMechanics (beginHoming s).1 = keptByMechanics s := by
  simp [beginHoming]

@[simp] theorem enterUnparked_keptM (s : State) : keptByMechanics (enterUnparked s).1 = keptByMechanics s := rfl

@[simp] theorem enterOpen_keptM (e : Bool) (s : State) : keptByMechanics (enterOpen e s).1 = keptByMechanics s := rfl

@[simp] theorem enterCapped_keptM (s : State) : keptByMechanics (enterCapped s).1 = keptByMechanics s := rfl

@[simp] theorem beginCapping_keptM (s : State) : keptByMechanics (beginCapping s).1 = keptByMechanics s :=
  kept_mechanics_of_station (beginCapping_keptS s)

@[simp] theorem beginUncapping_keptM (s : State) : keptByMechanics (beginUncapping s).1 = keptByMechanics s :=
  kept_mechanics_of_station (beginUncapping_keptS s)

@[simp] theorem askCapping_keptM (s : State) : keptByMechanics (askCapping s).1 = keptByMechanics s :=
  kept_mechanics_of_station (askCapping_keptS s)

@[simp] theorem freeMoment_keptM (e : Bool) (s : State) : keptByMechanics (freeMoment e s).1 = keptByMechanics s :=
  kept_mechanics_of_station (freeMoment_keptS e s)

@[simp] theorem grantZone_keptM (s : State) : keptByMechanics (grantZone s).1 = keptByMechanics s :=
  kept_mechanics_of_station (grantZone_keptS s)

@[simp] theorem zoneRequest_keptM (s : State) : keptByMechanics (zoneRequest s).2.1 = keptByMechanics s := by
  unfold zoneRequest; split <;> simp

@[simp] theorem releaseZone_keptM (s : State) : keptByMechanics (releaseZone s).1 = keptByMechanics s :=
  kept_mechanics_of_station (releaseZone_keptS s)

@[simp] theorem resetZone_keptM (s : State) : keptByMechanics (resetZone s).1 = keptByMechanics s := by
  unfold resetZone
  exact kept_ite keptByMechanics (releaseZone_keptM _) (kept_ite keptByMechanics rfl rfl)

@[simp] theorem homeTo_keptM (b : Bool) (s : State) : keptByMechanics (homeTo b s).1 = keptByMechanics s := by
  unfold homeTo
  dsimp only
  repeat' split
  all_goals rfl

@[simp] theorem parkExpires_keptM (s : State) : keptByMechanics (parkExpires s) = keptByMechanics s := rfl

@[simp] theorem idleExpires_keptM (s : State) : keptByMechanics (idleExpires s).1 = keptByMechanics s := by
  simp [idleExpires]

@[simp] theorem holdExpires_keptM (s : State) : keptByMechanics (holdExpires s).1 = keptByMechanics s := rfl

@[simp] theorem placeClaim_keptM (w : Claimant) (u : Bool) (s : State) :
    keptByMechanics (placeClaim w u s).1 = keptByMechanics s := kept_mechanics_of_station (placeClaim_keptS w u s)

@[simp] theorem markUrgent_keptM (w : Claimant) (s : State) : keptByMechanics (markUrgent w s).1 = keptByMechanics s :=
  kept_mechanics_of_station (markUrgent_keptS w s)

@[simp] theorem withdrawClaim_keptM (w : Claimant) (s : State) :
    keptByMechanics (withdrawClaim w s) = keptByMechanics s := rfl

@[simp] theorem startHandBack_keptM (w : Claimant) (s : State) :
    keptByMechanics (startHandBack w s) = keptByMechanics s := by
  unfold startHandBack; split <;> rfl

@[simp] theorem handBack_keptM (s : State) : keptByMechanics (handBack s).1 = keptByMechanics s :=
  kept_mechanics_of_station (handBack_keptS s)

@[simp] theorem faultStation_keptM (c : StationCause) (s : State) :
    keptByMechanics (faultStation c s) = keptByMechanics s := kept_mechanics_of_station (faultStation_keptS c s)

@[simp] theorem stcSledDone_keptM (s : State) : keptByMechanics (stcSledDone s).1 = keptByMechanics s := by
  unfold stcSledDone
  repeat' split
  all_goals simp

@[simp] theorem stcWiperDone_keptM (s : State) : keptByMechanics (stcWiperDone s).1 = keptByMechanics s := by
  unfold stcWiperDone
  repeat' split
  all_goals simp

@[simp] theorem setEndPin_keptM (e : EndSensor) (b : Bool) (s : State) :
    keptByMechanics (setEndPin e b s) = keptByMechanics s := by
  cases e <;> rfl

/-! ### Detector Unit -/

@[simp] theorem createTask_keptM (k : TaskKind) (cs : List (Fin 6)) (p : Port) (s : State) :
    keptByMechanics (createTask k cs p s).1 = keptByMechanics s := by
  simp [createTask]

@[simp] theorem dtuReady_keptM (s : State) : keptByMechanics (dtuReady s).1 = keptByMechanics s := by
  unfold dtuReady; split <;> rfl

@[simp] theorem dtuSession_keptM (s : State) : keptByMechanics (dtuSession s).1 = keptByMechanics s := by
  unfold dtuSession
  dsimp only
  split
  · rfl
  · split <;> simp

@[simp] theorem dtuSledDone_keptM (s : State) : keptByMechanics (dtuSledDone s).1 = keptByMechanics s := by
  unfold dtuSledDone; split <;> simp

@[simp] theorem dtuPlace_keptM (s : State) : keptByMechanics (dtuPlace s).1 = keptByMechanics s := by
  unfold dtuPlace
  split
  · rfl
  · split <;> simp

@[simp] theorem dtuEntered_keptM (id : Nat) (s : State) : keptByMechanics (dtuEntered id s) = keptByMechanics s := rfl

@[simp] theorem dtuAbandon_keptM (s : State) : keptByMechanics (dtuAbandon s) = keptByMechanics s := rfl

@[simp] theorem recordRow_keptM (c : Fin 6) (g l : Nat) (seen : List Nat) (s : State) :
    keptByMechanics (recordRow c g l seen s) = keptByMechanics s := by
  unfold recordRow; dsimp only; split <;> rfl

@[simp] theorem foldSweep_keptM (rs : List (Fin 6 × SweepResult)) (s : State) :
    keptByMechanics (foldSweep rs s) = keptByMechanics s :=
  foldl_kept keptByMechanics _ (fun s r => by split <;> rfl) rs s

@[simp] theorem closeTask_keptM (t : Task) (c : Option CheckCause) (s : State) :
    keptByMechanics (closeTask t c s).1 = keptByMechanics s := by
  simp [closeTask]

@[simp] theorem dtuFinish_keptM (s : State) : keptByMechanics (dtuFinish s).1 = keptByMechanics s := by
  unfold dtuFinish; split <;> simp

@[simp] theorem dtuOrderFailed_keptM (s : State) : keptByMechanics (dtuOrderFailed s).1 = keptByMechanics s := by
  unfold dtuOrderFailed; split <;> simp

@[simp] theorem dtuFault_keptM (s : State) : keptByMechanics (dtuFault s).1 = keptByMechanics s := by
  unfold dtuFault
  split
  · split <;> simp
  · rfl

@[simp] theorem dtuCheckFor_keptM (rows : List (Fin 6)) (s : State) :
    keptByMechanics (dtuCheckFor rows s).1 = keptByMechanics s := rfl

@[simp] theorem dtuEndCheck_keptM (s : State) : keptByMechanics (dtuEndCheck s) = keptByMechanics s := by
  unfold dtuEndCheck; split <;> rfl

@[simp] theorem sweepStepDone_keptM (t : Task) (c : Fin 6) (b : Bool) (s : State) :
    keptByMechanics (sweepStepDone t c b s).1 = keptByMechanics s := by
  unfold sweepStepDone finishRow nextStep
  dsimp only
  repeat' split
  all_goals rfl

@[simp] theorem dtuOrderDone_keptM (x : Option Sample) (s : State) :
    keptByMechanics (dtuOrderDone x s).1 = keptByMechanics s := by
  unfold dtuOrderDone
  dsimp only
  repeat' split
  all_goals simp

@[simp] theorem dtuOrderEnded_keptM (o : Order) (how : OrderEnd) (x : Option Sample) (s : State) :
    keptByMechanics (dtuOrderEnded o how x s).1 = keptByMechanics s := by
  unfold dtuOrderEnded
  dsimp only
  repeat' split
  all_goals simp

/-! ### Cleaning Sequencer, its suction debits aside -/

@[simp] theorem clsClaim_keptM (s : State) : keptByMechanics (clsClaim s).1 = keptByMechanics s := by
  unfold clsClaim; split <;> simp

@[simp] theorem clsFolded_keptM (u : Bool) (s : State) : keptByMechanics (clsFolded u s).1 = keptByMechanics s := by
  unfold clsFolded
  repeat' split
  all_goals simp

@[simp] theorem clsHandBack_keptM (s : State) : keptByMechanics (clsHandBack s).1 = keptByMechanics s := by
  simp [clsHandBack]

@[simp] theorem clearEntries_keptM (hs : List (Fin 3)) (s : State) :
    keptByMechanics (clearEntries hs s) = keptByMechanics s :=
  foldl_kept keptByMechanics _ (fun _ _ => by rfl) hs s

@[simp] theorem dropHeads_keptM (hs : List CycleHead) (s : State) :
    keptByMechanics (dropHeads hs s) = keptByMechanics s := by
  unfold dropHeads; split <;> simp

@[simp] theorem endDropped_keptM (hs : List CycleHead) (s : State) :
    keptByMechanics (endDropped hs s).1 = keptByMechanics s := by
  simp [endDropped]

@[simp] theorem refuseCycle_keptM (hs : List CycleHead) (c : CleanCause) (s : State) :
    keptByMechanics (refuseCycle hs c s).1 = keptByMechanics s := by
  simp [refuseCycle]

@[simp] theorem startCycle_keptM (hs : List CycleHead) (s : State) :
    keptByMechanics (startCycle hs s).1 = keptByMechanics s := by
  simp [startCycle]

@[simp] theorem formCycle_keptM (s : State) : keptByMechanics (formCycle s).1 = keptByMechanics s := by
  unfold formCycle
  dsimp only
  repeat' split
  all_goals simp

@[simp] theorem waitInkTest_keptM (s : State) : keptByMechanics (waitInkTest s).1 = keptByMechanics s := by
  unfold waitInkTest
  dsimp only
  repeat' split
  all_goals simp

@[simp] theorem supplyChanged_keptM (c : Fin 6) (s : State) : keptByMechanics (supplyChanged c s).1 = keptByMechanics s := by
  unfold supplyChanged; split <;> simp

@[simp] theorem nextSuction_keptM (s : State) : keptByMechanics (nextSuction s).1 = keptByMechanics s := by
  unfold nextSuction
  split
  · rfl
  · split <;> rfl

@[simp] theorem startRun_keptM (s : State) : keptByMechanics (startRun s) = keptByMechanics s := by
  unfold startRun
  repeat' split
  all_goals simp

@[simp] theorem recordRun_keptM (h : Fin 3) (n : Nat) (s : State) :
    keptByMechanics (recordRun h n s) = keptByMechanics s := rfl

@[simp] theorem spitsDone_keptM (s : State) : keptByMechanics (spitsDone s).1 = keptByMechanics s := by
  unfold spitsDone leaveSpitting
  repeat' split
  all_goals rfl

@[simp] theorem nextSpit_keptM (s : State) : keptByMechanics (nextSpit s).1 = keptByMechanics s := by
  unfold nextSpit
  repeat' split
  all_goals simp

@[simp] theorem clsEntered_keptM (id : Nat) (s : State) : keptByMechanics (clsEntered id s).1 = keptByMechanics s := by
  unfold clsEntered
  dsimp only
  repeat' split
  all_goals rfl

@[simp] theorem clsSledDone_keptM (s : State) : keptByMechanics (clsSledDone s).1 = keptByMechanics s := by
  unfold clsSledDone
  repeat' split
  all_goals simp

@[simp] theorem clsWiperDone_keptM (s : State) : keptByMechanics (clsWiperDone s).1 = keptByMechanics s := by
  unfold clsWiperDone
  repeat' split
  all_goals simp

@[simp] theorem markDegraded_keptM (cs : List (Fin 6)) (s : State) :
    keptByMechanics (cs.foldl (fun s c => markDegraded c s) s) = keptByMechanics s :=
  foldl_kept keptByMechanics _ (fun _ _ => by rfl) cs s

@[simp] theorem setStep_keptM (h : Fin 3) (n : Nat) (s : State) : keptByMechanics (setStep h n s) = keptByMechanics s := rfl

@[simp] theorem judgeHead_keptM (rs : List RowResult) (x : CycleHead) (s : State) :
    keptByMechanics (judgeHead rs x s) = keptByMechanics s := by
  unfold judgeHead
  dsimp only
  repeat' split
  all_goals simp

@[simp] theorem checkResults_keptM (rs : List RowResult) (s : State) :
    keptByMechanics (checkResults rs s).1 = keptByMechanics s := by
  unfold checkResults
  split
  · exact foldl_kept keptByMechanics _ (fun s x => judgeHead_keptM rs x s) _ s
  · rfl

@[simp] theorem zeroDrops_keptM (hs : List CycleHead) (s : State) :
    keptByMechanics (zeroDrops hs s) = keptByMechanics s :=
  foldl_kept keptByMechanics _ (fun _ _ => by rfl) hs s

@[simp] theorem clearUrgent_keptM (s : State) : keptByMechanics (clearUrgent s) = keptByMechanics s :=
  foldl_kept keptByMechanics _ (fun s h => by split <;> rfl) allHeads s

@[simp] theorem finishCycle_keptM (s : State) : keptByMechanics (finishCycle s).1 = keptByMechanics s := by
  unfold finishCycle
  dsimp only
  repeat' split
  all_goals simp

@[simp] theorem stageEntered_keptM (s : State) : keptByMechanics (stageEntered s).1 = keptByMechanics s := by
  unfold stageEntered
  repeat' split
  all_goals simp

@[simp] theorem foldBack_keptM (s : State) : keptByMechanics (foldBack s) = keptByMechanics s :=
  foldl_kept keptByMechanics _ (fun _ _ => by rfl) _ s

@[simp] theorem closeAborted_keptM (c : CleanCause) (s : State) :
    keptByMechanics (closeAborted c s) = keptByMechanics s := by
  simp [closeAborted]

@[simp] theorem safePoint_keptM (s : State) : keptByMechanics (safePoint s).1 = keptByMechanics s := by
  unfold safePoint
  repeat' split
  all_goals simp

@[simp] theorem clsOrderEnded_keptM (o : Order) (how : OrderEnd) (s : State) :
    keptByMechanics (clsOrderEnded o how s).1 = keptByMechanics s := by
  unfold clsOrderEnded
  dsimp only
  repeat' split
  all_goals simp

@[simp] theorem clsSession_keptM (s : State) : keptByMechanics (clsSession s).1 = keptByMechanics s := by
  unfold clsSession; split <;> simp

@[simp] theorem nextCycle_keptM (s : State) : keptByMechanics (nextCycle s).1 = keptByMechanics s := by
  unfold nextCycle; split <;> simp

@[simp] theorem cleanRequest_keptM (hs : List (Fin 3)) (l : Level) (u : Bool) (o : CleanOrigin) (s : State) :
    keptByMechanics (cleanRequest hs l u o s) = keptByMechanics s :=
  foldl_kept keptByMechanics _ (fun _ _ => by rfl) hs s

@[simp] theorem cancelEntries_keptM (hs : List (Fin 3)) (s : State) :
    keptByMechanics (cancelEntries hs s) = keptByMechanics s := by
  unfold cancelEntries dropHold; split <;> simp

@[simp] theorem cancelCycle_keptM (hs : List (Fin 3)) (s : State) :
    keptByMechanics (cancelCycle hs s).1 = keptByMechanics s := by
  unfold cancelCycle
  dsimp only
  repeat' split
  all_goals rfl

/-! ### Feed Controller -/

@[simp] theorem modRemaining_keptM (a : Source) (f : Nat → Nat) (s : State) :
    keptByMechanics (modRemaining a f s) = keptByMechanics s := rfl

@[simp] theorem mediaOutTest_keptM (a : Source) (s : State) : keptByMechanics (mediaOutTest a s) = keptByMechanics s := by
  unfold mediaOutTest; dsimp only; split <;> rfl

@[simp] theorem mediaForward_keptM (d : Nat) (s : State) : keptByMechanics (mediaForward d s) = keptByMechanics s := by
  unfold mediaForward; dsimp only; split <;> simp

@[simp] theorem mediaReverse_keptM (d : Nat) (s : State) : keptByMechanics (mediaReverse d s) = keptByMechanics s := by
  unfold mediaReverse; dsimp only; split <;> rfl

@[simp] theorem setEndReading_keptM (a : Source) (b : Bool) (s : State) :
    keptByMechanics (setEndReading a b s) = keptByMechanics s := by
  cases a <;> rfl

@[simp] theorem endSeen_keptM (a : Source) (s : State) : keptByMechanics (endSeen a s) = keptByMechanics s := by
  unfold endSeen; dsimp only; split <;> simp

@[simp] theorem motorFree_keptM (s : State) : keptByMechanics (motorFree s) = keptByMechanics s := rfl

@[simp] theorem answerMotion_keptM (m : Motion) (r : Result) (b : List Byte) (s : State) :
    keptByMechanics (answerMotion m r b s) = keptByMechanics s := by
  unfold answerMotion; split <;> rfl

@[simp] theorem loadDone_keptM (a : Source) (s : State) : keptByMechanics (loadDone a s) = keptByMechanics s := by
  simp [loadDone, apply_ite keptByMechanics]

@[simp] theorem unloadDone_keptM (d : Nat) (s : State) : keptByMechanics (unloadDone d s) = keptByMechanics s := by
  unfold unloadDone
  split
  · rfl
  · simp only [raise_keptM, setPath_keptM]
    split <;> rfl

@[simp] theorem advanceDone_keptM (m : Motion) (tag : Nat) (s : State) :
    keptByMechanics (advanceDone m tag s) = keptByMechanics s := by
  simp [advanceDone]

@[simp] theorem cutAdvanceDone_keptM (m : Motion) (s : State) :
    keptByMechanics (cutAdvanceDone m s).1 = keptByMechanics s := by
  simp [cutAdvanceDone]

@[simp] theorem jogForwardDone_keptM (m : Motion) (s : State) :
    keptByMechanics (jogForwardDone m s) = keptByMechanics s := by
  simp [jogForwardDone]

@[simp] theorem jogReverseDone_keptM (m : Motion) (n d : Nat) (s : State) :
    keptByMechanics (jogReverseDone m n d s) = keptByMechanics s := by
  simp [jogReverseDone]

@[simp] theorem motionDone_keptM (m : Motion) (s : State) : keptByMechanics (motionDone m s).1 = keptByMechanics s := by
  unfold motionDone; split <;> simp

@[simp] theorem beginMotion_keptM (m : Motion) (st : PathState) (s : State) :
    keptByMechanics (beginMotion m st s).1 = keptByMechanics s := by
  unfold beginMotion; dsimp only; split <;> simp

@[simp] theorem beginRequest_keptM (p : Port) (r : MotionReq) (s : State) :
    keptByMechanics (beginRequest p r s).1 = keptByMechanics s := by
  unfold beginRequest beginLoad beginUnload beginAdvance beginCut beginManual
  dsimp only
  repeat' split
  all_goals simp

@[simp] theorem serveOne_keptM (p : Port) (r : MotionReq) (s : State) :
    keptByMechanics (serveOne p r s).1 = keptByMechanics s := by
  unfold serveOne; dsimp only; split <;> simp

theorem serveLoop_keptM (n : Nat) : ∀ s, keptByMechanics (serveLoop n s).1 = keptByMechanics s := by
  induction n with
  | zero => intro s; rfl
  | succ n ih =>
    intro s
    unfold serveLoop
    repeat' split
    all_goals simp [ih]

@[simp] theorem serve_keptM (s : State) : keptByMechanics (serve s).1 = keptByMechanics s := serveLoop_keptM 3 s

@[simp] theorem enterMotion_keptM (p : Port) (r : MotionReq) (s : State) :
    keptByMechanics (enterMotion p r s).1 = keptByMechanics s := by
  simp [enterMotion]

@[simp] theorem completeMotion_keptM (m : Motion) (s : State) :
    keptByMechanics (completeMotion m s).1 = keptByMechanics s := by
  simp [completeMotion]

@[simp] theorem stopMotion_keptM (n : Nat) (s : State) : keptByMechanics (stopMotion n s) = keptByMechanics s := by
  unfold stopMotion accountPartial
  repeat' split
  all_goals simp

@[simp] theorem endCut_keptM (s : State) : keptByMechanics (endCut s) = keptByMechanics s := by
  unfold endCut; dsimp only; split <;> rfl

@[simp] theorem holdWaiting_keptM (p : Port) (s : State) : keptByMechanics (holdWaiting p s) = keptByMechanics s := by
  unfold holdWaiting; split <;> rfl

@[simp] theorem answerHeld_keptM (m : Option Motion) (n : Nat) (s : State) :
    keptByMechanics (answerHeld m n s) = keptByMechanics s := by
  unfold answerHeld
  dsimp only
  rw [foldl_kept keptByMechanics _ (fun s p => holdWaiting_keptM p s)]
  split <;> simp

@[simp] theorem holdPath_keptM (h : PathHold) (s : State) : keptByMechanics (holdPath h s) = keptByMechanics s := rfl

@[simp] theorem declareJam_keptM (n : Nat) (s : State) : keptByMechanics (declareJam n s).1 = keptByMechanics s := by
  simp [declareJam]

@[simp] theorem openCover_keptM (n : Nat) (s : State) : keptByMechanics (openCover n s) = keptByMechanics s := by
  unfold openCover
  dsimp only
  repeat' split
  all_goals simp

@[simp] theorem closeCover_keptM (s : State) : keptByMechanics (closeCover s) = keptByMechanics s := by
  unfold closeCover; dsimp only; split <;> rfl

@[simp] theorem edgeTo_keptM (b : Bool) (n : Nat) (s : State) : keptByMechanics (edgeTo b n s).1 = keptByMechanics s := by
  unfold edgeTo edgeInMotion edgeAtRest
  dsimp only
  repeat' split
  all_goals simp

@[simp] theorem entryTo_keptM (b : Bool) (n : Nat) (s : State) : keptByMechanics (entryTo b n s).1 = keptByMechanics s := by
  unfold entryTo
  dsimp only
  repeat' split
  all_goals simp

@[simp] theorem sourceEnds_keptM (a : Source) (s : State) : keptByMechanics (sourceEnds a s) = keptByMechanics s := by
  unfold sourceEnds; split <;> simp

@[simp] theorem sourceEndClears_keptM (a : Source) (s : State) :
    keptByMechanics (sourceEndClears a s) = keptByMechanics s := by
  unfold sourceEndClears; split <;> simp

@[simp] theorem releasePath_keptM (s : State) : keptByMechanics (releasePath s) = keptByMechanics s := by
  unfold releasePath; dsimp only; split <;> rfl

@[simp] theorem fdcEntered_keptM (id : Nat) (s : State) : keptByMechanics (fdcEntered id s) = keptByMechanics s := by
  unfold fdcEntered; split <;> rfl

@[simp] theorem fdcOrderEnded_keptM (o : Order) (how : OrderEnd) (s : State) :
    keptByMechanics (fdcOrderEnded o how s) = keptByMechanics s := by
  unfold fdcOrderEnded
  repeat' split
  all_goals rfl

@[simp] theorem resetFeed_keptM (p : Port) (s : State) : keptByMechanics (resetFeed p s) = keptByMechanics s := rfl

/-! ### Agenda and links -/

@[simp] theorem sledDone_keptM (s : State) : keptByMechanics (sledDone s).1 = keptByMechanics s := by
  unfold sledDone
  repeat' split
  all_goals simp

@[simp] theorem wiperDone_keptM (s : State) : keptByMechanics (wiperDone s).1 = keptByMechanics s := by
  unfold wiperDone
  repeat' split
  all_goals simp

@[simp] theorem enteredFor_keptM (w : Placer) (id : Nat) (s : State) :
    keptByMechanics (enteredFor w id s).1 = keptByMechanics s := by
  unfold enteredFor; split <;> simp

@[simp] theorem orderEndedFor_keptM (o : Order) (how : OrderEnd) (x : Option Sample) (s : State) :
    keptByMechanics (orderEndedFor o how x s).1 = keptByMechanics s := by
  unfold orderEndedFor; split <;> simp

@[simp] theorem returnOrders_keptM (s : State) : keptByMechanics (returnOrders s).1 = keptByMechanics s := by
  unfold returnOrders; dsimp only; split <;> simp

@[simp] theorem readReply_keptM (p : Port) (body : List Byte) (s : State) :
    keptByMechanics (readReply p body s) = keptByMechanics s := by
  unfold readReply; dsimp only; split <;> rfl

@[simp] theorem replyShifted_keptM (p : Port) (s : State) : keptByMechanics (replyShifted p s) = keptByMechanics s := by
  unfold replyShifted; dsimp only; split <;> rfl

@[simp] theorem resetPort_keptM (p : Port) (s : State) : keptByMechanics (resetPort p s) = keptByMechanics s := rfl

/-! ### The requests and events of the other blocks -/

@[simp] theorem readEvents_keptM (body : List Byte) (p : Port) (s : State) :
    keptByMechanics (readEvents body p s).1 = keptByMechanics s := by
  unfold readEvents; split <;> simp

@[simp] theorem clearEvents_keptM (body : List Byte) (p : Port) (s : State) :
    keptByMechanics (clearEvents body p s).1 = keptByMechanics s := by
  unfold clearEvents; dsimp only; split <;> rfl

@[simp] theorem setEnables_keptM (body : List Byte) (p : Port) (s : State) :
    keptByMechanics (setEnables body p s).1 = keptByMechanics s := by
  unfold setEnables; dsimp only; split <;> rfl

@[simp] theorem getParam_keptM (body : List Byte) (p : Port) (s : State) :
    keptByMechanics (getParam body p s).1 = keptByMechanics s := by
  unfold getParam; split <;> rfl

@[simp] theorem readByChannel_keptM (k : Kind) (p : Port) (body : List Byte) (make : State → Fin 6 → List Byte)
    (s : State) : keptByMechanics (readByChannel k p body make s).1 = keptByMechanics s := by
  unfold readByChannel; split <;> rfl

@[simp] theorem readBay_keptM (p : Port) (body : List Byte) (s : State) :
    keptByMechanics (readBay p body s).1 = keptByMechanics s := by
  unfold readBay; split <;> rfl

@[simp] theorem admitPage_keptM (p : Port) (body : List Byte) (s : State) :
    keptByMechanics (admitPage p body s).1 = keptByMechanics s := by
  unfold admitPage; split <;> simp

@[simp] theorem endPageRun_keptM (p : Port) (body : List Byte) (s : State) :
    keptByMechanics (endPageRun p body s).1 = keptByMechanics s := by
  unfold endPageRun
  dsimp only
  repeat' split
  all_goals simp

@[simp] theorem listPages_keptM (p : Port) (body : List Byte) (s : State) :
    keptByMechanics (listPages p body s).1 = keptByMechanics s := by
  unfold listPages; dsimp only; split <;> rfl

@[simp] theorem takeZoneRequest_keptM (p : Port) (s : State) :
    keptByMechanics (takeZoneRequest p s).1 = keptByMechanics s := by
  simp [takeZoneRequest]

@[simp] theorem takeZoneRelease_keptM (p : Port) (s : State) :
    keptByMechanics (takeZoneRelease p s).1 = keptByMechanics s := by
  unfold takeZoneRelease; split <;> simp

@[simp] theorem retryStation_keptM (p : Port) (s : State) : keptByMechanics (retryStation p s).1 = keptByMechanics s := by
  unfold retryStation; split <;> simp

@[simp] theorem fetchOrder_keptM (p : Port) (s : State) : keptByMechanics (fetchOrder p s).1 = keptByMechanics s := by
  unfold fetchOrder
  repeat' split
  all_goals simp

@[simp] theorem orderDone_keptM (p : Port) (body : List Byte) (s : State) :
    keptByMechanics (orderDone p body s).1 = keptByMechanics s := by
  unfold orderDone
  dsimp only
  repeat' split
  all_goals simp

@[simp] theorem clean_keptM (p : Port) (body : List Byte) (s : State) :
    keptByMechanics (clean p body s).1 = keptByMechanics s := by
  unfold clean
  repeat' split
  all_goals simp

@[simp] theorem cancelClean_keptM (p : Port) (body : List Byte) (s : State) :
    keptByMechanics (cancelClean p body s).1 = keptByMechanics s := by
  unfold cancelClean; split <;> simp

@[simp] theorem askTask_keptM (k : Kind) (t : TaskKind) (p : Port) (body : List Byte) (s : State) :
    keptByMechanics (askTask k t p body s).1 = keptByMechanics s := by
  unfold askTask
  repeat' split
  all_goals simp

@[simp] theorem readHealth_keptM (p : Port) (body : List Byte) (s : State) :
    keptByMechanics (readHealth p body s).1 = keptByMechanics s := by
  unfold readHealth; split <;> rfl

@[simp] theorem clearDegraded_keptM (p : Port) (body : List Byte) (s : State) :
    keptByMechanics (clearDegraded p body s).1 = keptByMechanics s := by
  unfold clearDegraded
  split
  · exact foldl_kept keptByMechanics _ (fun _ _ => by rfl) _ _
  · rfl

@[simp] theorem askMotion_keptM (p : Port) (r : MotionReq) (s : State) :
    keptByMechanics (askMotion p r s).1 = keptByMechanics s := by
  unfold askMotion; split <;> simp

@[simp] theorem loadMedia_keptM (p : Port) (body : List Byte) (s : State) :
    keptByMechanics (loadMedia p body s).1 = keptByMechanics s := by
  unfold loadMedia
  dsimp only
  repeat' split
  all_goals simp

@[simp] theorem advanceMedia_keptM (p : Port) (body : List Byte) (s : State) :
    keptByMechanics (advanceMedia p body s).1 = keptByMechanics s := by
  unfold advanceMedia; dsimp only; split <;> simp

@[simp] theorem manualFeed_keptM (p : Port) (body : List Byte) (s : State) :
    keptByMechanics (manualFeed p body s).1 = keptByMechanics s := by
  unfold manualFeed; dsimp only; split <;> simp

@[simp] theorem releaseHold_keptM (p : Port) (s : State) : keptByMechanics (releaseHold p s).1 = keptByMechanics s := by
  unfold releaseHold; split <;> simp

@[simp] theorem onMotion_keptM (sel : MotionKind → Bool) (f : Motion → State → Run) (s : State)
    (h : ∀ m, keptByMechanics (f m s).1 = keptByMechanics s) : keptByMechanics (onMotion sel f s).1 = keptByMechanics s := by
  unfold onMotion
  split
  · split
    · exact h _
    · rfl
  · rfl

@[simp] theorem loadArrives_keptM (m : Motion) (s : State) : keptByMechanics (loadArrives m s).1 = keptByMechanics s := by
  simp [loadArrives]

@[simp] theorem unloadArrives_keptM (n : Nat) (m : Motion) (s : State) :
    keptByMechanics (unloadArrives n m s).1 = keptByMechanics s := by
  simp [unloadArrives]

@[simp] theorem sledEnds_keptM (s : State) : keptByMechanics (sledEnds s).1 = keptByMechanics s := by
  unfold sledEnds
  split
  · exact sledArrives_keptM _
  · rfl

@[simp] theorem wiperEnds_keptM (s : State) : keptByMechanics (wiperEnds s).1 = keptByMechanics s := by
  unfold wiperEnds
  split
  · exact wiperArrives_keptM _
  · rfl

@[simp] theorem endSensor_keptM (e : EndSensor) (b : Bool) (s : State) :
    keptByMechanics (endSensor e b s).1 = keptByMechanics s := by
  unfold endSensor
  dsimp only
  repeat' split
  all_goals simp

@[simp] theorem homeChange_keptM (b : Bool) (s : State) : keptByMechanics (homeChange b s).1 = keptByMechanics s := by
  unfold homeChange
  split
  · rfl
  · simp

@[simp] theorem orderExpires_keptM (s : State) : keptByMechanics (orderExpires s).1 = keptByMechanics s := by
  unfold orderExpires; split <;> simp

@[simp] theorem setWastePresence_keptM (b : Bool) (s : State) :
    keptByMechanics (setWastePresence b s) = keptByMechanics s := rfl

@[simp] theorem setPresence_keptM (n : Fin 12) (b : Bool) (s : State) :
    keptByMechanics (setPresence n b s) = keptByMechanics s := rfl

end Sys2Proof.Machine
end

