-- ==== Sys2Proof/Proofs/TakingCommands.lean ====
section
/-!
SUPPORT. What holds from a command's handler on holds from the command on: a relation between a state and a later one that
the links' own writes and every consequence of the agenda satisfy is passed through the ways a command is taken.
-/

namespace Sys2Proof.Machine

/-- The fields that taking a command does not write: all but evu, rsc and the engines of the links. -/
def keptByTaking (s : State) :=
  ((s.pending, s.freeUsed), s.startup, s.resetLow, s.timeBase, s.date, s.params, s.pins, s.spu, s.uau, s.pau, s.stc, s.orq,
    s.cls, s.dtu, s.ext, s.fdc, (s.liu.posted, s.liu.placed, s.liu.fence))

@[simp] theorem setEngine_keptT (s : State) (p : Port) (x : Engine) :
    keptByTaking (setEngine s p x) = keptByTaking s := rfl
@[simp] theorem beginTransaction_keptT (p : Port) (s : State) :
    keptByTaking (beginTransaction p s) = keptByTaking s := rfl
@[simp] theorem countError_keptT (p : Port) (e : ErrorKind) (s : State) :
    keptByTaking (countError p e s) = keptByTaking s := rfl
@[simp] theorem answer_keptT (p : Port) (k : Kind) (r : Result) (b : List Byte) (s : State) :
    keptByTaking (answer p k r b s) = keptByTaking s := rfl
@[simp] theorem holdSlot_keptT (p : Port) (k : Kind) (s : State) :
    keptByTaking (holdSlot p k s) = keptByTaking s := rfl
@[simp] theorem wake_keptT (c : WakeCause) (s : State) : keptByTaking (wake c s) = keptByTaking s := rfl
@[simp] theorem raise_keptT (k : EventKind) (m : BitVec 16) (d : Option Detail) (s : State) :
    keptByTaking (raise k m d s) = keptByTaking s := rfl

/-- A reflexive and transitive relation between a state and a later one that taking a command satisfies. -/
structure Carries (R : State → State → Prop) : Prop where
  refl : ∀ s, R s s
  trans : ∀ {s t u}, R s t → R t u → R s u
  taking : ∀ {s t}, keptByTaking t = keptByTaking s → R s t

namespace Carries

variable {R : State → State → Prop} {f : State → Run}

theorem foldl {α : Type} (hR : Carries R) {g : State → α → State} (hg : ∀ s a, R s (g s a)) (l : List α) :
    ∀ s, R s (l.foldl g s) := by
  induction l with
  | nil => exact hR.refl
  | cons a l ih => exact fun s => hR.trans (hg s a) (ih (g s a))

theorem waking (hR : Carries R) (hf : ∀ s, R s (f s).1) (c : WakeCause) (s : State) :
    R s (Machine.waking c f s).1 := by
  unfold Machine.waking
  split
  · exact hR.trans (hR.taking (wake_keptT c s)) (hf _)
  · exact hf s

theorem event (hR : Carries R) (hf : ∀ s, R s (f s).1) (s : State) : R s (Machine.event f s).1 := by
  unfold Machine.event
  split
  · exact hR.refl s
  · exact hf s

theorem watched (hR : Carries R) (hf : ∀ s, R s (f s).1) (c : WakeCause) (changed : State → Bool) (s : State) :
    R s (Machine.watched c changed f s).1 :=
  hR.event (fun s => by
    split
    · exact hR.waking hf c s
    · exact hR.refl s) s

theorem transaction (hR : Carries R) (hf : ∀ s, R s (f s).1) (p : Port) (silent : State → Bool) (s : State) :
    R s (Machine.transaction p silent f s).1 := by
  unfold Machine.transaction
  dsimp only
  split
  · exact hR.refl s
  · refine hR.trans (hR.taking (beginTransaction_keptT p s)) ?_
    split
    · exact hf _
    · exact hR.waking hf _ _

theorem fitting (hR : Carries R) (hf : ∀ s, R s (f s).1) (p : Port) (body : List Byte) (s : State) :
    R s (Machine.fitting p body f s).1 := by
  unfold Machine.fitting
  split
  · exact hR.taking rfl
  · exact hf s

theorem dispatch (hR : Carries R) (hf : ∀ s, R s (f s).1) (k : Kind) (p : Port) (body : List Byte) (s : State) :
    R s (Machine.dispatch k p body f s).1 := by
  unfold Machine.dispatch
  split
  · exact hR.taking rfl
  · exact hR.taking rfl
  all_goals
    split
    · exact hR.taking rfl
    · split
      · exact hR.taking rfl
      · exact hR.trans (hR.taking (holdSlot_keptT p k s)) (hf _)

theorem request (hR : Carries R) (hf : ∀ s, R s (f s).1) (k : Kind) (p : Port) (body : List Byte) (s : State) :
    R s (Machine.request k p body f s).1 :=
  hR.transaction (hR.fitting (hR.dispatch hf k p body) p body) p _ s

theorem runActs (hR : Carries R) (ha : ∀ a s, R s (perform a s).1) (n : Nat) : ∀ r : Run, R r.1 (runActs n r).1 := by
  induction n with
  | zero => exact fun r => hR.refl r.1
  | succ n ih =>
    rintro ⟨s, acts⟩
    cases acts with
    | nil => exact hR.refl s
    | cons a rest =>
      rw [runActs_cons]
      exact hR.trans (ha a s) (ih ((perform a s).1, (perform a s).2 ++ rest))

/-- A command's outcome is related to what its own effect starts from if every consequence is. -/
theorem settle (hR : Carries R) (ha : ∀ a s, R s (perform a s).1) {s t : State} {r : Run}
    (h : settle r = .next t) (own : R s r.1) : R s t := by
  rcases settle_cases r with ⟨u, hu, run⟩ | fault
  · rw [hu] at h
    cases h
    have agenda := hR.runActs ha Config.cascadeLimit r
    rw [run] at agenda
    exact hR.trans own agenda
  · rw [fault] at h
    cases h

end Carries

end Sys2Proof.Machine
end

