-- ==== Sys2Proof/Proofs/BooksBalance.lean ====
section
/-!
SUPPORT. A book stays balanced under every debit, and nothing but a debit or a device reset writes a book: every
operation and consequence keeps the books balanced (R24, R30, R32).
-/

namespace Sys2Proof.Machine

/-- A book as R24 and R30 have it: both splits of its total, the residue below one nanolitre, the overdraw in four
bytes. -/
def Book.Balanced (x : Book) : Prop :=
  x.total = x.media + x.waste ∧ x.total = x.usage + x.suction ∧ x.residue < Config.residueUnit ∧
    x.overdraw ≤ Config.u32Max

theorem booksBalance_iff (s : State) : BooksBalance s ↔ ∀ c, (book s c).Balanced := Iff.rfl

/-! ### One book -/

theorem Book.balanced_reset : Book.reset.Balanced := by simp [Book.reset, Book.Balanced, Config.residueUnit]

theorem Book.Balanced.addUsage {x : Book} (h : x.Balanced) (d : Destination) (amount excess residue : Nat)
    (below : residue < Config.residueUnit) : ({ x.addUsage d amount excess with residue := residue } : Book).Balanced := by
  obtain ⟨places, causes, -, -⟩ := h
  have capped : sat Config.u32Max (x.overdraw + excess) ≤ Config.u32Max := Nat.min_le_right _ _
  cases d with
  | media =>
    refine ⟨?_, ?_, below, capped⟩ <;> simp only [Book.addUsage] <;> omega
  | waste =>
    refine ⟨?_, ?_, below, capped⟩ <;> simp only [Book.addUsage] <;> omega

theorem Book.Balanced.addSuction {x : Book} (h : x.Balanced) (amount excess : Nat) :
    (x.addSuction amount excess).Balanced := by
  obtain ⟨places, causes, below, -⟩ := h
  have capped : sat Config.u32Max (x.overdraw + excess) ≤ Config.u32Max := Nat.min_le_right _ _
  refine ⟨?_, ?_, below, capped⟩ <;> simp only [Book.addSuction] <;> omega

/-! ### The relation -/

/-- `t` follows `s` by what keeps the books balanced. -/
def BooksPass (s t : State) : Prop := BooksBalance s → BooksBalance t

theorem BooksPass.trans {s t u : State} (h : BooksPass s t) (h' : BooksPass t u) : BooksPass s u := h' ∘ h

theorem BooksPass.refl (s : State) : BooksPass s s := id

/-- The law speaks of nothing but the books. -/
theorem BooksPass.of_books {s t : State} (h : t.uau.books = s.uau.books) : BooksPass s t := by
  simp only [BooksPass, BooksBalance, book, h, imp_self]

theorem BooksPass.of_uau {s t : State} (h : t.uau = s.uau) : BooksPass s t := .of_books (by rw [h])

theorem BooksPass.of_mechanics {s t : State} (h : keptByMechanics t = keptByMechanics s) : BooksPass s t :=
  .of_uau (uau_of_mechanics h)

theorem BooksPass.of_supply {s t : State} (h : keptBySupply t = keptBySupply s) : BooksPass s t :=
  .of_uau (uau_of_supply h)

theorem booksPass_carries : Carries BooksPass where
  refl := .refl
  trans := .trans
  taking h := by
    simp only [keptByTaking, Prod.mk.injEq] at h
    exact .of_uau (by simp only [h])

theorem setBook_passes {s : State} {c : Fin 6} {x : Book} (h : (book s c).Balanced → x.Balanced) :
    BooksPass s (setBook s c x) := by
  intro balance d
  by_cases e : c = d
  · subst e
    rw [book_setBook]
    exact h (balance c)
  · rw [book_setBook_other s x e]
    exact balance d

/-! ### The waste account -/

@[simp] theorem setWaste_books (w : Waste) (s : State) : (setWaste w s).uau.books = s.uau.books := rfl

@[simp] theorem wasteDebit_books (n : Nat) (s : State) : (wasteDebit n s).uau.books = s.uau.books := by
  unfold wasteDebit; dsimp only; split <;> rfl

@[simp] theorem wasteEvent_books (w : WasteState) (s : State) : (wasteEvent w s).uau.books = s.uau.books := by
  cases w <;> rfl

@[simp] theorem wasteWriteBack_books (s : State) : (wasteWriteBack s).uau.books = s.uau.books := by
  unfold wasteWriteBack
  dsimp only
  repeat' split
  all_goals rfl

@[simp] theorem testWaste_books (s : State) : (testWaste s).1.uau.books = s.uau.books := by
  unfold testWaste
  cases fitted : s.uau.waste.fittedData with
  | none => simp only [fitted, Run.done]
  | some d =>
    simp only [fitted]
    exact kept_ite (fun u => u.uau.books) (wasteWriteBack_books s)
      ((wasteWriteBack_books _).trans ((wasteEvent_books _ _).trans (setWaste_books _ s)))

@[simp] theorem insertWaste_books (s : State) : (insertWaste s).1.uau.books = s.uau.books := by
  unfold insertWaste; split <;> rfl

@[simp] theorem fitWaste_books (r : Vector Byte 6) (s : State) : (fitWaste r s).1.uau.books = s.uau.books := by
  unfold fitWaste
  exact kept_ite (fun u => u.uau.books) (setWaste_books _ s) ((wasteEvent_books _ _).trans (setWaste_books _ s))

@[simp] theorem removeWaste_books (s : State) : (removeWaste s).1.uau.books = s.uau.books := by
  unfold removeWaste; split <;> rfl

@[simp] theorem wasteRead_books (r : Vector Byte 6) (s : State) : (wasteRead r s).1.uau.books = s.uau.books := by
  unfold wasteRead
  split
  · split
    · dsimp only
      split
      · rw [fitWaste_books]
        rfl
      · rfl
    · rfl
  · rfl

@[simp] theorem wasteReadFails_books (s : State) : (wasteReadFails s).1.uau.books = s.uau.books := by
  unfold wasteReadFails
  dsimp only
  repeat' split
  all_goals rfl

@[simp] theorem setStale_books (chip : Chip) (stale : Bool) (s : State) :
    (setStale chip stale s).uau.books = s.uau.books := by
  cases chip <;> rfl

@[simp] theorem chipWritten_books (s : State) : (chipWritten s).uau.books = s.uau.books := by
  unfold chipWritten
  split
  · split
    · rw [setStale_books]
      rfl
    · rfl
  · rfl

@[simp] theorem chipWriteFails_books (s : State) : (chipWriteFails s).uau.books = s.uau.books := by
  unfold chipWriteFails
  split
  · split
    · exact setStale_books _ true (ended s)
    · rfl
  · rfl

/-! ### Debits (R29, R30, R32) -/

theorem usageResidue_lt (s : State) (body : List Byte) (c : Fin 6) : usageResidue s body c < Config.residueUnit :=
  Nat.mod_lt _ (by decide)

theorem chargeUsage_booksPass (body : List Byte) (d : Destination) (c : Fin 6) (s : State) :
    BooksPass s (chargeUsage body d c s) := by
  unfold chargeUsage
  dsimp only
  have drawn : BooksPass s (if usageDebit s body c = 0 then s else debitTank c (usageDebit s body c) s) := by
    split
    · exact .refl s
    · exact .of_supply (debitTank_kept c _ s)
  generalize (if usageDebit s body c = 0 then s else debitTank c (usageDebit s body c) s) = u at drawn ⊢
  have booked : BooksPass u (setBook u c
      { (book u c).addUsage d (usageDebit s body c) (debitExcess s c (usageDebit s body c)) with
        residue := usageResidue s body c }) :=
    setBook_passes fun h => h.addUsage d _ _ _ (usageResidue_lt s body c)
  cases d with
  | media => exact drawn.trans booked
  | waste => exact (drawn.trans booked).trans (.of_books (wasteDebit_books _ _))

theorem chargeAll_booksPass (body : List Byte) (d : Destination) (s : State) : BooksPass s (chargeAll body d s) :=
  booksPass_carries.foldl (fun s c => chargeUsage_booksPass body d c s) allChannels s

theorem reportInk_booksPass (body : List Byte) (d : Destination) (s : State) : BooksPass s (reportInk body d s) := by
  unfold reportInk
  dsimp only
  have told : BooksPass s
      (if anyClamped body then raise .clampedUsage 0 (some (.swath (usageSwath body))) s else s) := by
    split
    · exact .of_uau rfl
    · exact .refl s
  exact (told.trans (chargeAll_booksPass body d _)).trans (.of_mechanics (by simp))

theorem applyReport_booksPass (body : List Byte) (d : Destination) (s : State) :
    BooksPass s (applyReport body d s).1 := by
  unfold applyReport
  have noted : BooksPass s (noteReport body s) := .of_books rfl
  dsimp only
  split
  · exact noted
  · have served : BooksPass s (reportService body d (reportInk body d (noteReport body s))) :=
      (noted.trans (reportInk_booksPass body d _)).trans (.of_mechanics (reportService_keptM body d _))
    cases d with
    | media => exact served
    | waste => exact served.trans (.of_books (testWaste_books _))

theorem usageStep_booksPass (s : State) : BooksPass s (usageStep s).1 := by
  unfold usageStep
  split
  · exact .refl s
  · next body rest _ =>
    dsimp only
    generalize hu : State.mk _ _ _ _ _ _ _ _ _ _ _ _ _ _ _ _ _ _ _ _ = u
    have taken : BooksPass s u := .of_books (by rw [← hu])
    split
    · exact taken.trans (.of_uau rfl)
    · exact taken.trans (applyReport_booksPass _ _ _)

theorem chargeSuction_booksPass (n : Nat) (c : Fin 6) (s : State) : BooksPass s (chargeSuction n c s) := by
  unfold chargeSuction
  dsimp only
  split
  · exact .refl s
  · have drawn := BooksPass.of_supply (debitTank_kept c (n * s.params.suctionYield.get c) s)
    have checked := BooksPass.of_supply (checkOver_kept c (debitTank c (n * s.params.suctionYield.get c) s))
    exact ((drawn.trans checked).trans (setBook_passes fun h => h.addSuction _ _)).trans (.of_books (wasteDebit_books _ _))

theorem suctionDebit_booksPass (h : Fin 3) (n : Nat) (s : State) : BooksPass s (suctionDebit h n s).1 := by
  unfold suctionDebit
  dsimp only
  split
  · exact .refl s
  · exact ((chargeSuction_booksPass n (firstChannel h) s).trans (chargeSuction_booksPass n (secondChannel h) _)).trans
      (.of_books (testWaste_books _))

/-! ### The suction of the Cleaning Sequencer (R106, R111) -/

theorem debitRun_booksPass (s : State) : BooksPass s (debitRun s).1 := by
  unfold debitRun
  split
  · exact .refl s
  · exact (BooksPass.of_mechanics (recordRun_keptM _ _ s)).trans (suctionDebit_booksPass _ _ _)

theorem clsPumpDone_booksPass (s : State) : BooksPass s (clsPumpDone s).1 := by
  unfold clsPumpDone
  dsimp only
  split
  · exact (debitRun_booksPass s).trans (.of_mechanics (releaseSelector_keptM _))
  · exact .refl s

theorem abortCycle_booksPass (cause : CleanCause) (s : State) : BooksPass s (abortCycle cause s).1 := by
  unfold abortCycle
  dsimp only
  split
  · refine BooksPass.trans (t := dtuEndCheck (withdraw .cls (setCls { s.cls with abort := some cause } s)))
      (.of_mechanics (by simp)) ?_
    unfold stopRun
    split
    · exact (BooksPass.of_mechanics (stopPump_keptM _)).trans (debitRun_booksPass _)
    · exact .refl _
  · exact .refl s

theorem clsWasteChanged_booksPass (s : State) : BooksPass s (clsWasteChanged s).1 := by
  unfold clsWasteChanged
  split
  · exact abortCycle_booksPass _ s
  · split
    · exact .of_mechanics (by simp)
    · exact .refl s

theorem clsFault_booksPass (run : Option (Fin 3 × Nat)) (s : State) : BooksPass s (clsFault run s).1 := by
  unfold clsFault
  dsimp only
  split
  · refine BooksPass.trans ?_ (.of_mechanics (by simp; rfl))
    split
    · exact (BooksPass.of_mechanics (recordRun_keptM _ _ s)).trans (suctionDebit_booksPass _ _ _)
    · exact .refl s
  · exact .refl s

theorem stationFault_booksPass (cause : StationCause) (s : State) : BooksPass s (stationFault cause s).1 := by
  unfold stationFault
  dsimp only
  have faulted : BooksPass s (faultStation cause s) := .of_mechanics (faultStation_keptM cause s)
  split
  · exact faulted.trans (clsFault_booksPass _ _)
  · exact faulted.trans (.of_mechanics (dtuFault_keptM _))
  · exact faulted

/-! ### The agenda -/

theorem wakeEnd_booksPass (s : State) : BooksPass s (wakeEnd s).1 := by
  unfold wakeEnd
  exact (BooksPass.of_supply (refillTestAll_kept s)).trans (.of_mechanics (by simp))

theorem perform_booksPass (a : Act) (s : State) : BooksPass s (perform a s).1 := by
  cases a
  case pumpDone => exact clsPumpDone_booksPass s
  case wasteChanged => exact clsWasteChanged_booksPass s
  case abortCycle c => exact abortCycle_booksPass c s
  case checkFailed => exact abortCycle_booksPass .orderFailed s
  case wakeEnd => exact wakeEnd_booksPass s
  case sessionBegun who => cases who <;> exact .of_mechanics (by simp [perform])
  all_goals exact .of_mechanics (by simp [perform])

theorem settle_booksPass {s t : State} {r : Run} (h : settle r = .next t) (own : BooksPass s r.1) : BooksPass s t :=
  booksPass_carries.settle perform_booksPass h own

end Sys2Proof.Machine
end

