-- ==== Sys2Proof/Proofs/BooksBalanceKept.lean ====
section
/-!
SUPPORT. Every command and every step keeps the books balanced: what the commands of the supply, the bus, the links, the
parameters and the resets leave of the Usage Accounting Unit. Settles O53.
-/

namespace Sys2Proof.Machine

/-! ### Commands of the Supply Unit and the bus -/

@[simp] theorem checkOver_uau (c : Fin 6) (s : State) : (checkOver c s).uau = s.uau := uau_of_supply (checkOver_kept c s)

@[simp] theorem standbyRun_uau (b : Fin 12) (s : State) : (standbyRun b s).1.uau = s.uau := by
  have stood := uau_of_supply (enterStandby_kept b s)
  unfold standbyRun
  split
  next u prime entered =>
    rw [entered] at stood
    split
    · exact stood
    · exact stood

@[simp] theorem judgeBay_uau (b : Fin 12) (scan : Bool) (f : ChipFields) (s : State) :
    (judgeBay b scan f s).1.uau = s.uau := by
  rw [judgeBay_eq]
  unfold judgedAs Run.done
  dsimp only
  repeat' split
  all_goals simp [raise]

@[simp] theorem chipRead_uau (r : Vector Byte 18) (s : State) : (chipRead r s).1.uau = s.uau := by
  unfold chipRead
  dsimp only
  split
  · split
    · split
      · exact judgeBay_uau _ _ _ (ended s)
      · rfl
    · rfl
  · rfl

@[simp] theorem chipReadFails_uau (s : State) : (chipReadFails s).uau = s.uau := by
  unfold chipReadFails
  dsimp only
  split
  · split
    · split
      · rw [checkOver_uau, setBay_uau]
        rfl
      · rfl
    · rfl
  · rfl

@[simp] theorem startTrans_uau (s : State) : (startTrans s).uau = s.uau := by
  unfold startTrans
  repeat' split
  all_goals rfl

@[simp] theorem attemptFails_uau (s : State) : (attemptFails s).uau = s.uau := by
  unfold attemptFails; split <;> rfl

@[simp] theorem confirmBay_uau (p : Port) (body : List Byte) (s : State) : (confirmBay p body s).1.uau = s.uau := by
  unfold confirmBay
  split
  · rfl
  · split
    · rw [standbyRun_uau, setBay_uau]
      rfl
    · rfl

@[simp] theorem rejectBay_uau (p : Port) (body : List Byte) (s : State) : (rejectBay p body s).1.uau = s.uau := by
  unfold rejectBay Run.done
  split
  · rfl
  · split
    · rw [checkOver_uau, setBay_uau]
      rfl
    · rfl

@[simp] theorem clearRefill_uau (p : Port) (body : List Byte) (s : State) : (clearRefill p body s).1.uau = s.uau := by
  unfold clearRefill
  split
  · rfl
  · next c _ =>
    dsimp only
    split
    · exact (uau_of_supply (clearFault_kept c _)).trans rfl
    · rfl

@[simp] theorem insertBay_uau (b : Fin 12) (scan : Bool) (s : State) : (insertBay b scan s).uau = s.uau :=
  uau_of_supply (insertBay_kept b scan s)

@[simp] theorem setPresence_uau (b : Fin 12) (closed : Bool) (s : State) : (setPresence b closed s).uau = s.uau := rfl

@[simp] theorem bayGone_uau (b : Fin 12) (s : State) : (bayGone b s).1.uau = s.uau := by
  unfold bayGone
  exact (uau_of_supply (removeBay_kept b (setPresence b false s))).trans rfl

@[simp] theorem strokeDone_uau (c : Fin 6) (ink : Bool) (s : State) : (strokeDone c ink s).uau = s.uau := by
  have sampled (b : Fin 12) :
      ({ s with pins := { s.pins with ink := vset s.pins.ink b ink } } : State).uau = s.uau := rfl
  unfold strokeDone
  split
  · rfl
  · exact uau_of_supply (by simp)
  · split
    · rfl
    · next b _ =>
      rw [← sampled b]
      generalize ({ s with pins := { s.pins with ink := vset s.pins.ink b ink } } : State) = u
      dsimp only
      split
      · exact uau_of_supply (by simp)
      · split <;> exact uau_of_supply (by simp)

@[simp] theorem floatRun_uau (c : Fin 6) (f : FloatLevel) (s : State) : (floatRun c f s).1.uau = s.uau := by
  unfold floatRun
  exact uau_of_supply (floatTo_kept c f s)

/-! ### Posted reports, FENCE, REST and parameters -/

@[simp] theorem postUsage_uau (body : List Byte) (s : State) : (postUsage body s).uau = s.uau := by
  unfold postUsage
  repeat' split
  all_goals rfl

@[simp] theorem takeFence_uau (s : State) : (takeFence s).uau = s.uau := by
  unfold takeFence; split <;> rfl

@[simp] theorem takeRest_uau (p : Port) (s : State) : (takeRest p s).uau = s.uau := by
  unfold takeRest
  repeat' split
  all_goals rfl

@[simp] theorem paramActions_uau (id : ParamId) (s : State) : (paramActions id s).1.uau = s.uau := by
  unfold paramActions
  split
  · have evaluated := uau_of_supply (foldl_kept keptBySupply _ (fun s c => evalSupply_kept c s) allChannels s)
    rw [Run.done]
    exact (uau_of_supply (checkOverAll_kept _ _)).trans evaluated
  · dsimp only
    exact uau_of_supply (refillTestAll_kept s)
  · rfl

@[simp] theorem setParam_uau (body : List Byte) (p : Port) (s : State) : (setParam body p s).1.uau = s.uau := by
  unfold setParam
  split
  · rfl
  · dsimp only
    rw [paramActions_uau]
    rfl

/-! ### Resets (R173, R174) -/

@[simp] theorem linkReset_uau (p : Port) (s : State) : (linkReset p s).1.uau = s.uau := by
  unfold linkReset
  dsimp only
  split
  · rw [uau_of_mechanics (answer_keptM _ _ _ _ _), uau_of_mechanics (plus_keptM _ _),
      uau_of_mechanics (resetZone_keptM _)]
    rfl
  · rfl

theorem book_resetWith (r : Readings) (c : Fin 6) : book (State.resetWith r) c = Book.reset := by
  fin_cases c <;> rfl

theorem startScan_booksPass (s : State) : BooksPass s (startScan s).1 := by
  unfold startScan
  dsimp only
  have scanned : BooksPass s (allBays.foldl (fun s b => if s.pins.presence.get b then insertBay b true s else s) s) :=
    .of_supply (foldl_kept keptBySupply _ (fun s b => by split <;> simp) allBays s)
  generalize allBays.foldl _ s = u at scanned ⊢
  split
  · exact scanned.trans (.of_books (insertWaste_books u))
  · exact scanned

theorem startUp_booksPass (s : State) : BooksPass s (startUp s).1 := by
  unfold startUp
  have begun : BooksPass s { s with startup := false } := .of_uau rfl
  exact (begun.trans (startScan_booksPass _)).trans (.of_mechanics (by simp))

/-- A device reset leaves balanced books, whatever they held before (R24, R174). -/
theorem deviceReset_booksPass (r : Readings) (s : State) : BooksPass s (deviceReset r s).1 := by
  unfold deviceReset
  have reset : BooksPass s { State.resetWith r with pending := s.pending } := fun _ c => by
    show (book (State.resetWith r) c).Balanced
    rw [book_resetWith]
    exact Book.balanced_reset
  exact reset.trans (startUp_booksPass _)

@[simp] theorem tick_uau (s : State) : (tick s).uau = s.uau := by
  unfold tick tickTimers
  dsimp only
  repeat' split
  all_goals rfl

/-! ### Every command and every step -/

theorem exec_booksPass {i : Instr} {s t : State} (h : exec i s = .next t) : BooksPass s t := by
  have hR := booksPass_carries
  cases i <;> simp only [exec] at h
  case resetNAssert => exact settle_booksPass h (.of_uau rfl)
  case deviceReset r => exact settle_booksPass h (deviceReset_booksPass r s)
  case frameError p bytes =>
    unfold execFrameError at h
    split at h
    · exact settle_booksPass h (hR.transaction (fun s => .of_uau rfl) p _ s)
    · exact settle_booksPass h (hR.event (fun s => .of_uau rfl) s)
    · exact settle_booksPass h (hR.event (fun s => .of_uau rfl) s)
  case readReply p body =>
    exact settle_booksPass h
      (hR.transaction (hR.fitting (fun s => .of_mechanics (readReply_keptM p body s)) p body) p _ s)
  case linkReset p body =>
    exact settle_booksPass h (hR.transaction (hR.fitting (fun s => .of_uau (linkReset_uau p s)) p body) p _ s)
  case usage p body =>
    refine settle_booksPass h (hR.transaction (hR.fitting (fun s => ?_) p body) p _ s)
    split
    · exact .of_uau (postUsage_uau body s)
    · exact hR.dispatch .refl _ p body s
  case usageApply => exact settle_booksPass h (hR.event usageStep_booksPass s)
  case sledMotionTimeout | wiperMotionTimeout | pumpStall =>
    refine settle_booksPass h (hR.event (fun s => ?_) s)
    split
    · exact stationFault_booksPass _ s
    · exact .refl s
  case fenceRelease =>
    refine settle_booksPass h (hR.event (fun s => .of_uau ?_) s)
    split <;> rfl
  case chipReadDone | chipReadFail | busTransactionStart | busAttemptUnacknowledged | strokeComplete =>
    exact settle_booksPass h (hR.event (fun s => .of_uau (by simp [strokeRun, Run.done])) s)
  case chipWriteDone | chipWriteFail | wasteReadDone | wasteReadFail =>
    exact settle_booksPass h (hR.event (fun s => .of_books (by simp [Run.done])) s)
  case bayPresenceClose | bayPresenceOpen | floatChange =>
    exact settle_booksPass h (hR.watched (fun s => .of_uau (by simp [Run.done])) _ _ s)
  case wastePresenceClose | wastePresenceOpen =>
    exact settle_booksPass h (hR.watched (fun s => .of_books (by simp [setWastePresence])) _ _ s)
  case parkTimerExpiry | idleCapExpiry | grantHoldExpiry | fireSyncStrobe | exposureExpiry | feedMotionTimeout =>
    refine settle_booksPass h (hR.event (fun s => .of_mechanics ?_) s)
    split <;> simp
  case leadingEdgeChange | pathEntryChange | sourceEndSensor | coverSensorOpen | coverSensorClose | sourceEndSensorClear =>
    exact settle_booksPass h (hR.watched (fun s => .of_mechanics (by simp)) _ _ s)
  case statusPoll | waitInkEnd | sledMotionDone | wiperMotionDone | endSensorChangeIdle | pumpRevolution
      | homeSensorChange | orderTimerExpiry | waitingPlacementEntry | detectorSample | arbiterServe | loadMotionDone
      | unloadMotionDone | advanceDone | cutAdvanceDone | manualFeedDone | replyShiftedOut =>
    exact settle_booksPass h (hR.event (fun s => .of_mechanics (by simp)) s)
  case setDate => exact settle_booksPass h (hR.request (fun s => .of_uau rfl) _ _ _ s)
  case setParam | confirmCartridge | rejectCartridge | clearRefillFault | fence | rest =>
    exact settle_booksPass h (hR.request (fun s => .of_uau (by simp [Run.done])) _ _ _ s)
  all_goals exact settle_booksPass h (hR.request (fun s => .of_mechanics (by simp)) _ _ _ s)

theorem step_booksPass {s t : State} (h : step s = .next t) : BooksPass s t := by
  unfold step at h
  split at h
  · unfold idleStep at h
    split at h
    · exact settle_booksPass h (startUp_booksPass s)
    · cases h
      exact .of_uau (tick_uau s)
  · next c rest _ =>
    have taken : BooksPass s { s with pending := rest } := .of_uau rfl
    exact taken.trans (exec_booksPass h)

/-- Settles O53: every step passes the balance of the books on. -/
theorem booksBalanceKept : Obligations.BooksBalanceKept :=
  fun _ _ balance h => step_booksPass h balance

end Sys2Proof.Machine
end

