-- ==== Sys2Proof/Proofs/Debits.lean ====
section
/-!
SUPPORT. What a debit does to its channel, to the waste account and to everything else, and what a fold of an operation
over the channels or heads leaves of each of them.
-/

namespace Sys2Proof.Machine

/-! ### An operation folded over channels or heads -/

/-- What a fold leaves at index `j`, if its operation acts at index `i` by `F` and elsewhere not at all, and `F` at `j` does
not depend on what it does elsewhere. -/
theorem foldl_at {ι β : Type} [DecidableEq ι] {Q : State → Prop} {g : State → ι → State} {π F : State → ι → β}
    (keep : ∀ s i, Q s → Q (g s i)) (same : ∀ s i, Q s → π (g s i) i = F s i)
    (other : ∀ s i j, i ≠ j → Q s → π (g s i) j = π s j ∧ F (g s i) j = F s j) (j : ι) {l : List ι} (distinct : l.Nodup) :
    ∀ {s : State}, Q s → π (l.foldl g s) j = if j ∈ l then F s j else π s j := by
  induction l with
  | nil => intro s _; rfl
  | cons i l ih =>
    intro s q
    obtain ⟨fresh, distinct⟩ := List.nodup_cons.mp distinct
    rw [List.foldl_cons, ih distinct (keep s i q)]
    by_cases e : i = j
    · subst e
      rw [if_neg fresh, if_pos List.mem_cons_self, same s i q]
    · obtain ⟨apart, aside⟩ := other s i j e q
      rw [apart, aside]
      simp only [List.mem_cons, Ne.symm e, false_or]

theorem mem_allChannels (c : Fin 6) : c ∈ allChannels := by revert c; decide

theorem allChannels_nodup : allChannels.Nodup := by decide

theorem mem_allHeads (h : Fin 3) : h ∈ allHeads := by revert h; decide

theorem allHeads_nodup : allHeads.Nodup := by decide

/-! ### The channel debited (R14, R19) -/

/-- The channel record once `amount` nL have been debited in RUN with the marks `reserve` and `mark`. -/
def Channel.debited (x : Channel) (amount reserve mark : Nat) : Channel :=
  let x' : Channel := { x with estimate := x.estimate - amount }
  let due := x'.active ≠ none ∧ x'.refill = .idle ∧ (x'.float = .low ∨ x'.estimate < mark) ∧ x'.float ≠ .high
  let y : Channel := if due then { x' with refill := .refilling, strokes := 0, stroke := strokeFrom x'.active } else x'
  if amount = 0 then x else { y with supply := supplyOf reserve y }

@[simp] theorem Channel.debited_estimate (x : Channel) (amount reserve mark : Nat) :
    (x.debited amount reserve mark).estimate = x.estimate - amount := by
  unfold Channel.debited
  dsimp only
  split
  · next nothing => rw [nothing, Nat.sub_zero]
  · split <;> rfl

theorem refillDue_iff {s : State} (run : s.rsc.power = .run) (c : Fin 6) :
    refillDue s c = true ↔
      (chan s c).active ≠ none ∧ (chan s c).refill = .idle ∧
        ((chan s c).float = .low ∨ (chan s c).estimate < s.params.refillMark) ∧ (chan s c).float ≠ .high := by
  simp only [refillDue, run, Bool.and_eq_true, Bool.or_eq_true, beq_iff_eq, bne_iff_ne, decide_eq_true_eq,
    Option.isSome_iff_ne_none, ne_eq, and_true, and_assoc]

/-- A debit of a channel's sub-tank, none when it is of nothing (R19). -/
def drawTank (c : Fin 6) (n : Nat) (s : State) : State := if n = 0 then s else debitTank c n s

theorem debitTank_confined (c : Fin 6) (n : Nat) (s : State) : Confined c s (debitTank c n s) :=
  ((setChan_confined c _ s).trans (refillTest_confined c _)).trans (evalSupply_confined c _)

theorem drawTank_confined (c : Fin 6) (n : Nat) (s : State) : Confined c s (drawTank c n s) := by
  unfold drawTank
  split
  · exact .refl c s
  · exact debitTank_confined c n s

theorem chan_drawTank {s : State} (run : s.rsc.power = .run) (c : Fin 6) (n : Nat) :
    chan (drawTank c n s) c = (chan s c).debited n s.params.reserveMark s.params.refillMark := by
  unfold drawTank Channel.debited
  split
  · next nothing => rw [if_pos nothing]
  · next draws =>
    rw [if_neg draws, debitTank_eq, chan_evalSupply, (refillTest_confined c _).params, chan_refillTest]
    have due := refillDue_iff (s := setChan s c { chan s c with estimate := (chan s c).estimate - n }) run c
    simp only [chan_setChan] at due
    simp only [chan_setChan, due]
    rfl

/-! ### What debits leave alone -/

/-- From `s` to `t` debits have been taken: nothing has changed but channels, books, the waste account, the overcommitment
flags and the events CHANNEL_STARVED and OVERCOMMITTED. -/
structure DebitsOnly (s t : State) : Prop where
  kept : keptByUsage t = keptByUsage s
  bays : t.spu.bays = s.spu.bays
  bus : t.spu.bus = s.spu.bus
  pau : { t.pau with overSet := s.pau.overSet } = s.pau
  counts : t.uau.applied = s.uau.applied ∧ t.uau.lastTag = s.uau.lastTag ∧ t.uau.lastSwath = s.uau.lastSwath
  untold : ∀ k, k ≠ .channelStarved → k ≠ .overcommitted → Untold k s t

theorem DebitsOnly.refl (s : State) : DebitsOnly s s :=
  ⟨rfl, rfl, rfl, rfl, ⟨rfl, rfl, rfl⟩, fun k _ _ => Untold.refl k s⟩

theorem DebitsOnly.trans {s t u : State} (h : DebitsOnly s t) (h' : DebitsOnly t u) : DebitsOnly s u where
  kept := h'.kept.trans h.kept
  bays := h'.bays.trans h.bays
  bus := h'.bus.trans h.bus
  pau := (congrArg (fun x : Pau => { x with overSet := s.pau.overSet }) h'.pau).trans h.pau
  counts := by
    obtain ⟨applied, tag, swath⟩ := h.counts
    obtain ⟨applied', tag', swath'⟩ := h'.counts
    exact ⟨applied'.trans applied, tag'.trans tag, swath'.trans swath⟩
  untold k n m := (h.untold k n m).trans (h'.untold k n m)

theorem DebitsOnly.foldl {α : Type} {g : State → α → State} (hg : ∀ s a, DebitsOnly s (g s a)) (l : List α) :
    ∀ s, DebitsOnly s (l.foldl g s) := by
  induction l with
  | nil => exact .refl
  | cons a l ih => exact fun s => (hg s a).trans (ih (g s a))

theorem DebitsOnly.params {s t : State} (h : DebitsOnly s t) : t.params = s.params := params_of_usage h.kept

theorem DebitsOnly.rsc {s t : State} (h : DebitsOnly s t) : t.rsc = s.rsc := by
  have kept := h.kept
  simp only [keptByUsage, Prod.mk.injEq] at kept
  simp only [kept]

theorem DebitsOnly.of_uau (s : State) {x : Uau}
    (counts : x.applied = s.uau.applied ∧ x.lastTag = s.uau.lastTag ∧ x.lastSwath = s.uau.lastSwath) :
    DebitsOnly s { s with uau := x } :=
  ⟨rfl, rfl, rfl, rfl, counts, fun _ _ _ => untold_of_evu rfl⟩

theorem setBook_debitsOnly (s : State) (c : Fin 6) (x : Book) : DebitsOnly s (setBook s c x) :=
  .of_uau s ⟨rfl, rfl, rfl⟩

theorem wasteDebit_debitsOnly (n : Nat) (s : State) : DebitsOnly s (wasteDebit n s) := by
  unfold wasteDebit
  dsimp only
  split
  · exact .of_uau s ⟨rfl, rfl, rfl⟩
  · exact .of_uau s ⟨rfl, rfl, rfl⟩

theorem checkOver_pau (c : Fin 6) (s : State) : { (checkOver c s).pau with overSet := s.pau.overSet } = s.pau := by
  unfold checkOver
  dsimp only
  split
  · rfl
  · split <;> rfl

theorem checkOver_debitsOnly (c : Fin 6) (s : State) : DebitsOnly s (checkOver c s) where
  kept := checkOver_keptU c s
  bays := by rw [checkOver_spu]
  bus := by rw [checkOver_spu]
  pau := checkOver_pau c s
  counts := by rw [uau_of_supply (checkOver_kept c s)]; exact ⟨rfl, rfl, rfl⟩
  untold _ _ m := untold_checkOver c s m

theorem evalSupply_pau (c : Fin 6) (s : State) : (evalSupply c s).pau = s.pau := by
  unfold evalSupply
  dsimp only
  split <;> rfl

theorem refillTest_pau (c : Fin 6) (s : State) : (refillTest c s).pau = s.pau := by
  unfold refillTest
  split <;> rfl

theorem debitTank_debitsOnly (c : Fin 6) (n : Nat) (s : State) : DebitsOnly s (debitTank c n s) where
  kept := debitTank_keptU c n s
  bays := by
    rw [debitTank_eq, evalSupply_spu]
    unfold refillTest
    split <;> rfl
  bus := by
    rw [debitTank_eq, evalSupply_spu]
    exact bus_refillTest c _
  pau := by rw [debitTank_eq, evalSupply_pau, refillTest_pau]; rfl
  counts := by rw [uau_of_supply (debitTank_kept c n s)]; exact ⟨rfl, rfl, rfl⟩
  untold k n _ := by
    rw [debitTank_eq]
    refine Untold.trans (untold_of_evu ?_) (untold_evalSupply c _ n)
    rw [refillTest_evu]
    rfl

theorem drawTank_debitsOnly (c : Fin 6) (n : Nat) (s : State) : DebitsOnly s (drawTank c n s) := by
  unfold drawTank
  split
  · exact .refl s
  · exact debitTank_debitsOnly c n s

/-! ### The waste account (R36, R37, R39) -/

theorem Waste.fittedData_eq_some {w : Waste} {d : WasteData} (h : w.fittedData = some d) :
    w.state.isFitted = true ∧ w.data = some d := by
  unfold Waste.fittedData at h
  split at h
  · next fitted => exact ⟨fitted, h⟩
  · cases h

/-- Waste-attributed debits of `amount` nL have been entered since `s`, their thresholds not yet tested (R36). -/
structure WasteAdded (amount : Nat) (s t : State) : Prop where
  fitted : ∀ d, s.uau.waste.fittedData = some d →
    t.uau.waste =
      { s.uau.waste with data := some { d with estimate := d.estimate + amount, added := d.added + amount } } ∧
    t.uau.orphan = s.uau.orphan
  unfitted : s.uau.waste.fittedData = none →
    t.uau.waste = s.uau.waste ∧
      (t.uau.orphan = min (s.uau.orphan + amount) 4294967295 ∨ amount = 0 ∧ t.uau.orphan = s.uau.orphan)

theorem WasteAdded.of_same {s t : State} (waste : t.uau.waste = s.uau.waste) (orphan : t.uau.orphan = s.uau.orphan) :
    WasteAdded 0 s t where
  fitted d h := ⟨by rw [waste]; simp [← (Waste.fittedData_eq_some h).2], orphan⟩
  unfitted _ := ⟨waste, .inr ⟨rfl, orphan⟩⟩

theorem WasteAdded.trans {m n : Nat} {s t u : State} (h : WasteAdded m s t) (h' : WasteAdded n t u) :
    WasteAdded (m + n) s u where
  fitted d fits := by
    obtain ⟨waste, orphan⟩ := h.fitted d fits
    have fits' : t.uau.waste.fittedData = some { d with estimate := d.estimate + m, added := d.added + m } := by
      rw [waste]
      exact if_pos (Waste.fittedData_eq_some fits).1
    obtain ⟨waste', orphan'⟩ := h'.fitted _ fits'
    refine ⟨?_, orphan'.trans orphan⟩
    rw [waste', waste]
    simp only [Nat.add_assoc]
  unfitted empty := by
    obtain ⟨waste, orphan⟩ := h.unfitted empty
    obtain ⟨waste', orphan'⟩ := h'.unfitted (by rw [waste]; exact empty)
    refine ⟨waste'.trans waste, ?_⟩
    omega

theorem wasteDebit_added (n : Nat) (s : State) : WasteAdded n s (wasteDebit n s) := by
  unfold wasteDebit
  refine ⟨fun d fits => ?_, fun empty => ?_⟩
  · simp only [fits, setWaste_uau, and_self]
  · simp only [empty, true_and]
    exact .inl rfl

end Sys2Proof.Machine
end

