-- ==== Sys2Proof/Proofs/WasteTests.lean ====
section
/-!
SUPPORT. The test of the waste account behind debits, the states it leaves and tells, and what the CLS does on a change of
the waste state.
-/

namespace Sys2Proof.Machine

/-! ### The write-back step and the test (R37, R39) -/

theorem wasteLevel_isFitted (capacity estimate : Nat) : (wasteLevel capacity estimate).isFitted = true := by
  unfold wasteLevel
  split
  · rfl
  · split <;> rfl

/-- The waste record once its state has become `now`. -/
theorem Waste.fittedData_of_level {w : Waste} {d : WasteData} (h : w.fittedData = some d) (capacity estimate : Nat) :
    ({ w with state := wasteLevel capacity estimate } : Waste).fittedData = some d := by
  unfold Waste.fittedData
  rw [if_pos (wasteLevel_isFitted capacity estimate)]
  exact (Waste.fittedData_eq_some h).2

/-- What is left of the count added since the last write-back (R39). -/
def addedLeft (n : Nat) : Nat := if n < 1000000 then n else 0

theorem wasteWriteBack_fitted {s : State} {d : WasteData} (h : s.uau.waste.fittedData = some d) :
    wasteWriteBack s =
      if d.added < 1000000 then s
      else onBus (·.pushWrite .waste) (setWaste { s.uau.waste with data := some { d with added := 0 } } s) := by
  unfold wasteWriteBack
  simp only [h]
  by_cases due : Config.writeBackStep ≤ d.added
  · exact (if_pos due).trans (if_neg (Nat.not_lt.mpr due)).symm
  · exact (if_neg due).trans (if_pos (Nat.not_le.mp due)).symm

theorem waste_wasteWriteBack {s : State} {d : WasteData} (h : s.uau.waste.fittedData = some d) :
    (wasteWriteBack s).uau.waste = { s.uau.waste with data := some { d with added := addedLeft d.added } } ∧
      (wasteWriteBack s).spu.bus = if d.added < 1000000 then s.spu.bus else s.spu.bus.pushWrite .waste := by
  rw [wasteWriteBack_fitted h, addedLeft]
  split
  · exact ⟨by rw [← (Waste.fittedData_eq_some h).2], rfl⟩
  · exact ⟨rfl, rfl⟩

/-- The waste record's state set, with the event of a state entered; nothing where it is the state it has (R37). -/
def enterLevel (now : WasteState) (s : State) : State :=
  if now = s.uau.waste.state then s else wasteEvent now (setWaste { s.uau.waste with state := now } s)

theorem testWaste_fitted {s : State} {d : WasteData} (h : s.uau.waste.fittedData = some d) :
    testWaste s =
      (wasteWriteBack (enterLevel (wasteLevel d.capacity d.estimate) s),
        if wasteLevel d.capacity d.estimate = s.uau.waste.state then [] else [.wasteChanged]) := by
  unfold testWaste enterLevel
  simp only [h]
  split <;> rfl

theorem testWaste_unfitted {s : State} (h : s.uau.waste.fittedData = none) : testWaste s = Run.done s := by
  unfold testWaste
  simp only [h]

/-! ### What the test leaves alone -/

/-- From `s` to `t` nothing has changed but the waste record, the bus and the events WASTE_NEAR_FULL and WASTE_FULL. -/
structure WasteOnly (s t : State) : Prop where
  frame : { t with uau := { t.uau with waste := s.uau.waste }, spu := { t.spu with bus := s.spu.bus }, evu := s.evu } = s
  untold : ∀ k, k ≠ .wasteNearFull → k ≠ .wasteFull → Untold k s t

theorem WasteOnly.refl (s : State) : WasteOnly s s := ⟨rfl, fun k _ _ => Untold.refl k s⟩

theorem WasteOnly.trans {s t u : State} (h : WasteOnly s t) (h' : WasteOnly t u) : WasteOnly s u where
  frame := (congrArg (fun x : State =>
    { x with uau := { x.uau with waste := s.uau.waste }, spu := { x.spu with bus := s.spu.bus }, evu := s.evu })
    h'.frame).trans h.frame
  untold k n m := (h.untold k n m).trans (h'.untold k n m)

theorem setWaste_wasteOnly (w : Waste) (s : State) : WasteOnly s (setWaste w s) := ⟨rfl, fun _ _ _ => untold_of_evu rfl⟩

theorem wasteEvent_wasteOnly (now : WasteState) (s : State) : WasteOnly s (wasteEvent now s) := by
  cases now with
  | nearFull => exact ⟨rfl, fun _ n _ => untold_raise _ _ _ n.symm⟩
  | full => exact ⟨rfl, fun _ _ m => untold_raise _ _ _ m.symm⟩
  | absent | reading | fitted | fault => exact .refl s

theorem enterLevel_wasteOnly (now : WasteState) (s : State) : WasteOnly s (enterLevel now s) := by
  unfold enterLevel
  split
  · exact .refl s
  · exact (setWaste_wasteOnly _ s).trans (wasteEvent_wasteOnly now _)

theorem wasteWriteBack_wasteOnly (s : State) : WasteOnly s (wasteWriteBack s) := by
  cases h : s.uau.waste.fittedData with
  | none =>
    unfold wasteWriteBack
    simp only [h]
    exact .refl s
  | some d =>
    rw [wasteWriteBack_fitted h]
    split
    · exact .refl s
    · exact ⟨rfl, fun _ _ _ => untold_of_evu rfl⟩

theorem testWaste_wasteOnly (s : State) : WasteOnly s (testWaste s).1 := by
  cases h : s.uau.waste.fittedData with
  | none => rw [testWaste_unfitted h]; exact .refl s
  | some d =>
    rw [testWaste_fitted h]
    exact (enterLevel_wasteOnly _ s).trans (wasteWriteBack_wasteOnly _)

/-! ### The state entered, its event and its consequence -/

theorem waste_enterLevel (now : WasteState) (s : State) :
    (enterLevel now s).uau.waste = { s.uau.waste with state := now } ∧ (enterLevel now s).spu.bus = s.spu.bus := by
  unfold enterLevel
  split
  · next same => exact ⟨by rw [same], rfl⟩
  · cases now <;> exact ⟨rfl, rfl⟩

theorem told_enterLevel_nearFull {s : State} (h : s.uau.waste.state ≠ .nearFull) :
    Told .wasteNearFull 0 none s (enterLevel .nearFull s) := by
  rw [enterLevel, if_neg h.symm]
  exact (untold_of_evu rfl).trans_told (told_raise _ _ _ _)

theorem told_enterLevel_full {s : State} (h : s.uau.waste.state ≠ .full) :
    Told .wasteFull 0 none s (enterLevel .full s) := by
  rw [enterLevel, if_neg h.symm]
  exact (untold_of_evu rfl).trans_told (told_raise _ _ _ _)

theorem wasteWriteBack_evu (s : State) : (wasteWriteBack s).evu = s.evu := by
  unfold wasteWriteBack
  dsimp only
  split
  · split <;> rfl
  · rfl

theorem orphan_of_wasteOnly {s t : State} (h : WasteOnly s t) : t.uau.orphan = s.uau.orphan := by
  have orphan := congrArg (fun x : State => x.uau.orphan) h.frame
  exact orphan

/-- The test completes the debits entered before it (R36, R37, R39). -/
theorem testWaste_taken {n : Nat} {s t : State} (added : WasteAdded n s t) (bus : t.spu.bus = s.spu.bus)
    (near : Untold .wasteNearFull s t) (full : Untold .wasteFull s t) : WasteTaken n s (testWaste t).1 := by
  refine ⟨fun d fits => ?_, fun empty => ?_⟩
  · obtain ⟨waste, orphan⟩ := added.fitted d fits
    have fits' : t.uau.waste.fittedData = some { d with estimate := d.estimate + n, added := d.added + n } := by
      rw [waste]
      exact if_pos (Waste.fittedData_eq_some fits).1
    have state : t.uau.waste.state = s.uau.waste.state := by rw [waste]
    have tested := orphan_of_wasteOnly (testWaste_wasteOnly t)
    rw [testWaste_fitted fits'] at tested ⊢
    dsimp only at tested ⊢
    obtain ⟨level, bus'⟩ := waste_enterLevel (wasteLevel d.capacity (d.estimate + n)) t
    have entered : (enterLevel (wasteLevel d.capacity (d.estimate + n)) t).uau.waste.fittedData
        = some { d with estimate := d.estimate + n, added := d.added + n } := by
      rw [level]
      exact Waste.fittedData_of_level fits' _ _
    obtain ⟨left, queued⟩ := waste_wasteWriteBack entered
    refine ⟨?_, tested.trans orphan, ?_, fun now other => ?_, fun now other => ?_⟩
    · rw [left, level, waste]
      rfl
    · rw [queued, bus', bus]
    · have now' : wasteLevel d.capacity (d.estimate + n) = .nearFull := now
      rw [now']
      exact near.trans_told ((told_enterLevel_nearFull (by rw [state]; exact fun e => other (e.trans now.symm))).of_evu
        (wasteWriteBack_evu _))
    · have now' : wasteLevel d.capacity (d.estimate + n) = .full := now
      rw [now']
      exact full.trans_told ((told_enterLevel_full (by rw [state]; exact fun e => other (e.trans now.symm))).of_evu
        (wasteWriteBack_evu _))
  · obtain ⟨waste, orphan⟩ := added.unfitted empty
    rw [testWaste_unfitted (by rw [waste]; exact empty)]
    refine ⟨waste, bus, fun some => ?_, fun nothing small => ?_⟩
    · rcases orphan with counted | ⟨nothing, -⟩
      · exact counted
      · exact absurd nothing some
    · rcases orphan with counted | ⟨-, same⟩
      · exact counted.trans (by omega)
      · exact same

/-- The test has a consequence only where a cartridge is fitted, which it leaves fitted. -/
theorem testWaste_acts (s : State) :
    (testWaste s).2 = [] ∨ (testWaste s).2 = [.wasteChanged] ∧ (testWaste s).1.uau.waste.state ≠ .absent := by
  cases h : s.uau.waste.fittedData with
  | none => exact .inl (by rw [testWaste_unfitted h]; rfl)
  | some d =>
    rw [testWaste_fitted h]
    dsimp only
    split
    · exact .inl rfl
    · refine .inr ⟨rfl, fun absent => ?_⟩
      have level := (waste_enterLevel (wasteLevel d.capacity d.estimate) s).1
      have entered := Waste.fittedData_of_level h d.capacity d.estimate
      rw [← level] at entered
      rw [(waste_wasteWriteBack entered).1, level] at absent
      have fitted := wasteLevel_isFitted d.capacity d.estimate
      rw [show wasteLevel d.capacity d.estimate = .absent from absent] at fitted
      cases fitted

/-! ### The CLS on a change of the waste state (R111, R112) -/

theorem clsClaim_zoneTaken {s : State} (zone : ZoneTaken s) : ∃ t, clsClaim s = (t, []) ∧ ClaimOnly s t := by
  unfold clsClaim
  split
  · obtain ⟨t, placed, claimed⟩ := placeClaim_zoneTaken (who := .cls) (urgent := anyUrgent s)
      (s := setCls { s.cls with stage := .waitZone } s) zone
    exact ⟨t, placed, (ClaimOnly.of_stage s .waitZone).trans claimed⟩
  · exact ⟨s, rfl, .refl s⟩

/-- A change of the waste state that aborts no cycle at most ends a hold, and the CLS claims then (R112). -/
theorem wasteChanged_zoneTaken {s : State} (zone : ZoneTaken s)
    (keeps : ¬ (s.uau.waste.state = .absent ∧ s.cls.stage = .sucking)) :
    ∃ t, perform .wasteChanged s = (t, []) ∧ ClaimOnly s t := by
  show ∃ t, clsWasteChanged s = (t, []) ∧ _
  unfold clsWasteChanged
  rw [if_neg keeps]
  split
  · obtain ⟨t, claims, claimed⟩ := clsClaim_zoneTaken (s := setCls { s.cls with hold := none } s) zone
    have freed : ClaimOnly s (setCls { s.cls with hold := none } s) := ⟨rfl, rfl, fun k _ => Untold.refl k s⟩
    exact ⟨t, claims, freed.trans claimed⟩
  · exact ⟨s, rfl, .refl s⟩

end Sys2Proof.Machine
end

