-- ==== Sys2Proof/Proofs/UsageReports.lean ====
section
/-!
SUPPORT. What the application of a USAGE report does, part by part: each channel's debit (R27 to R30), the waste account,
the page of its tag (R52, R53), the heads' drop counts (R98) and exposure counts (R132).
-/

namespace Sys2Proof.Machine

/-! ### One channel of a report (R29, R30) -/

/-- The book of channel `c` once the report's share has been entered. -/
def chargedBook (s : State) (body : List Byte) (d : Destination) (c : Fin 6) : Book :=
  { (book s c).addUsage d (usageDebit s body c) (debitExcess s c (usageDebit s body c)) with
    residue := usageResidue s body c }

/-- The channel record of `c` once the report's share has been drawn. -/
def chargedChannel (s : State) (body : List Byte) (c : Fin 6) : Channel :=
  (chan s c).debited (usageDebit s body c) s.params.reserveMark s.params.refillMark

/-- The share of channel `c` drawn and entered, its waste aside. -/
def chargeInk (body : List Byte) (d : Destination) (c : Fin 6) (s : State) : State :=
  setBook (drawTank c (usageDebit s body c) s) c (chargedBook s body d c)

theorem book_drawTank (c : Fin 6) (n : Nat) (s : State) (e : Fin 6) : book (drawTank c n s) e = book s e := by
  rw [book, uau_of_supply (drawTank_confined c n s).kept]
  rfl

theorem chargeUsage_media (body : List Byte) (c : Fin 6) (s : State) :
    chargeUsage body .media c s = chargeInk body .media c s := by
  rw [chargeInk, chargedBook, ← book_drawTank c (usageDebit s body c)]
  rfl

theorem chargeUsage_waste (body : List Byte) (c : Fin 6) (s : State) :
    chargeUsage body .waste c s = wasteDebit (usageDebit s body c) (chargeInk body .waste c s) := by
  rw [chargeInk, chargedBook, ← book_drawTank c (usageDebit s body c)]
  rfl

theorem chargeInk_debitsOnly (body : List Byte) (d : Destination) (c : Fin 6) (s : State) :
    DebitsOnly s (chargeInk body d c s) :=
  (drawTank_debitsOnly c _ s).trans (setBook_debitsOnly _ _ _)

theorem chargeInk_waste (body : List Byte) (d : Destination) (c : Fin 6) (s : State) :
    (chargeInk body d c s).uau.waste = s.uau.waste ∧ (chargeInk body d c s).uau.orphan = s.uau.orphan := by
  have uau := uau_of_supply (drawTank_confined c (usageDebit s body c) s).kept
  refine ⟨?_, ?_⟩
  · show (drawTank c _ s).uau.waste = _
    rw [uau]
  · show (drawTank c _ s).uau.orphan = _
    rw [uau]

theorem wasteDebit_spu (n : Nat) (s : State) : (wasteDebit n s).spu = s.spu := by
  unfold wasteDebit
  dsimp only
  split <;> rfl

/-- The destination says nothing about the books and channels but by what is entered. -/
theorem chargeUsage_records (body : List Byte) (d : Destination) (c : Fin 6) (s : State) :
    (chargeUsage body d c s).uau.books = (chargeInk body d c s).uau.books ∧
      (chargeUsage body d c s).spu = (chargeInk body d c s).spu := by
  cases d with
  | media => rw [chargeUsage_media]; exact ⟨rfl, rfl⟩
  | waste => rw [chargeUsage_waste]; exact ⟨wasteDebit_books _ _, wasteDebit_spu _ _⟩

theorem chargeUsage_debitsOnly (body : List Byte) (d : Destination) (c : Fin 6) (s : State) :
    DebitsOnly s (chargeUsage body d c s) := by
  have entered := chargeInk_debitsOnly body d c s
  cases d with
  | media => rw [chargeUsage_media]; exact entered
  | waste => rw [chargeUsage_waste]; exact entered.trans (wasteDebit_debitsOnly _ _)

theorem book_chargeUsage (body : List Byte) (d : Destination) (c : Fin 6) (s : State) :
    book (chargeUsage body d c s) c = chargedBook s body d c := by
  rw [book, (chargeUsage_records body d c s).1]
  exact book_setBook _ _ _

theorem book_chargeUsage_other (body : List Byte) (d : Destination) {c e : Fin 6} (s : State) (h : c ≠ e) :
    book (chargeUsage body d c s) e = book s e := by
  rw [book, (chargeUsage_records body d c s).1]
  exact (book_setBook_other _ _ h).trans (book_drawTank _ _ _ _)

theorem chan_chargeUsage (body : List Byte) (d : Destination) (c : Fin 6) {s : State} (run : s.rsc.power = .run) :
    chan (chargeUsage body d c s) c = chargedChannel s body c := by
  rw [chan, (chargeUsage_records body d c s).2]
  exact chan_drawTank run c _

theorem chan_chargeUsage_other (body : List Byte) (d : Destination) {c e : Fin 6} (s : State) (h : c ≠ e) :
    chan (chargeUsage body d c s) e = chan s e := by
  rw [chan, (chargeUsage_records body d c s).2]
  exact (drawTank_confined c _ s).chan e h.symm

/-! ### All channels of a report (R26) -/

/-- What a report draws from a channel depends on its own records and the parameters only. -/
theorem usageDebit_congr {s t : State} {c : Fin 6} (params : t.params = s.params) (book' : book t c = book s c)
    (body : List Byte) : usageDebit t body c = usageDebit s body c := by
  simp only [usageDebit, params, book']

theorem usageDebit_chargeUsage_other (body : List Byte) (d : Destination) {c e : Fin 6} (s : State) (h : c ≠ e) :
    usageDebit (chargeUsage body d c s) body e = usageDebit s body e :=
  usageDebit_congr (chargeUsage_debitsOnly body d c s).params (book_chargeUsage_other body d s h) body

theorem chargedBook_other (body : List Byte) (d : Destination) {c e : Fin 6} (s : State) (h : c ≠ e) :
    chargedBook (chargeUsage body d c s) body d e = chargedBook s body d e := by
  have params := (chargeUsage_debitsOnly body d c s).params
  simp only [chargedBook, usageResidue, debitExcess, usageDebit_chargeUsage_other body d s h, params,
    book_chargeUsage_other body d s h, chan_chargeUsage_other body d s h]

theorem chargedChannel_other (body : List Byte) (d : Destination) {c e : Fin 6} (s : State) (h : c ≠ e) :
    chargedChannel (chargeUsage body d c s) body e = chargedChannel s body e := by
  have params := (chargeUsage_debitsOnly body d c s).params
  simp only [chargedChannel, usageDebit_chargeUsage_other body d s h, params, chan_chargeUsage_other body d s h]

theorem chargeAll_debitsOnly (body : List Byte) (d : Destination) (s : State) : DebitsOnly s (chargeAll body d s) :=
  .foldl (fun s c => chargeUsage_debitsOnly body d c s) allChannels s

theorem book_chargeAll (body : List Byte) (d : Destination) (s : State) (c : Fin 6) :
    book (chargeAll body d s) c = chargedBook s body d c := by
  have folded := foldl_at (Q := fun _ => True) (π := book) (F := fun s c => chargedBook s body d c)
    (g := fun s c => chargeUsage body d c s) (fun _ _ _ => trivial) (fun s c _ => book_chargeUsage body d c s)
    (fun s _ _ h _ => ⟨book_chargeUsage_other body d s h, chargedBook_other body d s h⟩) c allChannels_nodup
    (s := s) trivial
  exact folded.trans (if_pos (mem_allChannels c))

theorem chan_chargeAll (body : List Byte) (d : Destination) {s : State} (run : s.rsc.power = .run) (c : Fin 6) :
    chan (chargeAll body d s) c = chargedChannel s body c := by
  have folded := foldl_at (Q := fun s => s.rsc.power = .run) (π := chan) (F := fun s c => chargedChannel s body c)
    (g := fun s c => chargeUsage body d c s)
    (fun s c run => by rw [(chargeUsage_debitsOnly body d c s).rsc]; exact run)
    (fun s c run => chan_chargeUsage body d c run)
    (fun s _ _ h _ => ⟨chan_chargeUsage_other body d s h, chargedChannel_other body d s h⟩) c allChannels_nodup
    (s := s) run
  exact folded.trans (if_pos (mem_allChannels c))

theorem chargeAll_media (body : List Byte) (s : State) :
    (chargeAll body .media s).uau.waste = s.uau.waste ∧ (chargeAll body .media s).uau.orphan = s.uau.orphan := by
  have kept := foldl_kept (fun s => (s.uau.waste, s.uau.orphan)) (fun s c => chargeUsage body .media c s)
    (fun s c => by
      rw [chargeUsage_media]
      obtain ⟨waste, orphan⟩ := chargeInk_waste body .media c s
      exact Prod.ext waste orphan) allChannels s
  exact Prod.mk.inj kept

theorem chargeUsage_added (body : List Byte) (c : Fin 6) (s : State) :
    WasteAdded (usageDebit s body c) s (chargeUsage body .waste c s) := by
  rw [chargeUsage_waste, ← Nat.zero_add (usageDebit s body c)]
  obtain ⟨waste, orphan⟩ := chargeInk_waste body .waste c s
  exact (WasteAdded.of_same waste orphan).trans (by rw [Nat.zero_add]; exact wasteDebit_added _ _)

theorem charges_added (body : List Byte) {l : List (Fin 6)} (distinct : l.Nodup) : ∀ s : State,
    WasteAdded (l.map (usageDebit s body)).sum s (l.foldl (fun s c => chargeUsage body .waste c s) s) := by
  induction l with
  | nil => exact fun s => .of_same rfl rfl
  | cons c l ih =>
    intro s
    obtain ⟨fresh, distinct⟩ := List.nodup_cons.mp distinct
    have rest := ih distinct (chargeUsage body .waste c s)
    have apart : l.map (usageDebit (chargeUsage body .waste c s) body) = l.map (usageDebit s body) :=
      List.map_congr_left fun e m => usageDebit_chargeUsage_other body .waste s fun h => fresh (h ▸ m)
    rw [apart] at rest
    rw [List.map_cons, List.sum_cons, List.foldl_cons]
    exact (chargeUsage_added body c s).trans rest

theorem chargeAll_added (body : List Byte) (s : State) :
    WasteAdded (usageDebit s body 0 + usageDebit s body 1 + usageDebit s body 2 + usageDebit s body 3
      + usageDebit s body 4 + usageDebit s body 5) s (chargeAll body .waste s) := by
  have added := charges_added body allChannels_nodup s
  have total : (allChannels.map (usageDebit s body)).sum =
      usageDebit s body 0 + usageDebit s body 1 + usageDebit s body 2 + usageDebit s body 3 + usageDebit s body 4
        + usageDebit s body 5 := by
    simp only [allChannels, List.map_cons, List.map_nil, List.sum_cons, List.sum_nil, Nat.add_zero, ← Nat.add_assoc]
  rw [← total]
  exact added

/-! ### The page of the report's tag (R52, R53) -/

/-- The page table's record once a MEDIA report with tag `tag` has been handed over. -/
def Pau.reported (x : Pau) (tag : Nat) (debits : Vector Nat 6) : Pau :=
  match x.pages with
  | e :: es =>
    if e.tag = tag ∧ e.tag ≠ 0 then { x with pages := e.consume debits :: es }
    else
      { x with
        unmatchedCount := sat Config.u32Max (x.unmatchedCount + 1)
        unmatchedInk := Vector.ofFn fun c => x.unmatchedInk.get c + debits.get c }
  | [] =>
    { x with
      unmatchedCount := sat Config.u32Max (x.unmatchedCount + 1)
      unmatchedInk := Vector.ofFn fun c => x.unmatchedInk.get c + debits.get c }

theorem namesOldest_iff {s : State} {e : Page} {es : List Page} (h : s.pau.pages = e :: es) (tag : Nat) :
    namesOldest s tag = true ↔ e.tag = tag ∧ e.tag ≠ 0 := by
  unfold namesOldest
  simp only [h, Bool.and_eq_true, bne_iff_ne, beq_iff_eq]
  constructor
  · rintro ⟨nonzero, rfl⟩
    exact ⟨rfl, nonzero⟩
  · rintro ⟨rfl, nonzero⟩
    exact ⟨nonzero, rfl⟩

theorem pauReport_media (tag : Nat) (debits : Vector Nat 6) (s : State) :
    pauReport tag .media debits s = { s with pau := s.pau.reported tag debits } := by
  unfold pauReport Pau.reported
  dsimp only
  cases h : s.pau.pages with
  | nil => simp only [namesOldest, h, Bool.false_eq_true, if_false]
  | cons e es =>
    simp only [namesOldest_iff h]
    split
    · simp only [modOldest, h]
    · rfl

/-- The overcommitment flags are no part of what a report does to the page table's record. -/
theorem Pau.reported_overSet (x : Pau) (o : Vector Bool 6) (tag : Nat) (debits : Vector Nat 6) :
    { x with overSet := o }.reported tag debits = { x.reported tag debits with overSet := o } := by
  unfold Pau.reported
  dsimp only
  split
  · split <;> rfl
  · rfl

/-! ### The heads' drop counts and exposure counts (R98, R132) -/

/-- The entry of a head whose drop count has become `n` under the threshold `limit` (R98). -/
def CleanEntry.counted (x : CleanEntry) (n limit : Nat) : CleanEntry :=
  if limit ≠ 0 ∧ limit ≤ n ∧ x.dropPlaced = false then
    { x with drops := n, dropPlaced := true }.fold .light false (OriginSet.of .dropCount)
  else { x with drops := n }

/-- The drop count of head `h` once the report has been counted to it (R98). -/
def countedDrops (body : List Byte) (h : Fin 3) (s : State) : Nat :=
  sat Config.u32Max ((entryOf s h).drops + dropSum body (firstChannel h) + dropSum body (secondChannel h))

theorem entryOf_addDrops (body : List Byte) (h : Fin 3) (s : State) :
    entryOf (addDrops body h s) h =
      (entryOf s h).counted (countedDrops body h s) (s.params.dropThreshold.get h) := by
  unfold addDrops CleanEntry.counted countedDrops
  simp only [Bool.not_eq_true]
  split
  · rw [entryOf_foldRequest, if_pos rfl, entryOf_setEntry, entryOf_setEntry]
  · rw [entryOf_setEntry]

theorem entryOf_addDrops_other (body : List Byte) {h k : Fin 3} (s : State) (n : h ≠ k) :
    entryOf (addDrops body h s) k = entryOf s k := by
  unfold addDrops
  dsimp only
  split
  · rw [entryOf_foldRequest, if_neg n.symm, entryOf_setEntry_other _ _ n, entryOf_setEntry_other _ _ n]
  · rw [entryOf_setEntry_other _ _ n]

/-- From `s` to `t` nothing has changed but the cleaning table, a hold and the exposure counts. -/
structure ServiceOnly (s t : State) : Prop where
  frame : { t with cls := s.cls, ext := s.ext } = s
  stage : t.cls.stage = s.cls.stage

theorem ServiceOnly.refl (s : State) : ServiceOnly s s := ⟨rfl, rfl⟩

theorem ServiceOnly.trans {s t u : State} (h : ServiceOnly s t) (h' : ServiceOnly t u) : ServiceOnly s u where
  frame := (congrArg (fun x : State => { x with cls := s.cls, ext := s.ext }) h'.frame).trans h.frame
  stage := h'.stage.trans h.stage

theorem ServiceOnly.foldl {α : Type} {g : State → α → State} (hg : ∀ s a, ServiceOnly s (g s a)) (l : List α) :
    ∀ s, ServiceOnly s (l.foldl g s) := by
  induction l with
  | nil => exact .refl
  | cons a l ih => exact fun s => (hg s a).trans (ih (g s a))

theorem ServiceOnly.params {s t : State} (h : ServiceOnly s t) : t.params = s.params := by
  have params := congrArg State.params h.frame
  exact params

theorem setEntry_serviceOnly (s : State) (h : Fin 3) (x : CleanEntry) : ServiceOnly s (setEntry s h x) := ⟨rfl, rfl⟩

theorem foldRequest_serviceOnly (h : Fin 3) (l : Level) (urgent : Bool) (o : OriginSet) (s : State) :
    ServiceOnly s (foldRequest h l urgent o s) := ⟨rfl, rfl⟩

theorem addDrops_serviceOnly (body : List Byte) (h : Fin 3) (s : State) : ServiceOnly s (addDrops body h s) := by
  unfold addDrops
  dsimp only
  split
  · exact ((setEntry_serviceOnly s h _).trans (setEntry_serviceOnly _ h _)).trans (foldRequest_serviceOnly h _ _ _ _)
  · exact setEntry_serviceOnly s h _

/-- The heads' drop counts, for a MEDIA report (R98). -/
def countDrops (body : List Byte) (d : Destination) (s : State) : State :=
  match d with
  | .media => allHeads.foldl (fun s h => addDrops body h s) s
  | .waste => s

/-- Every fired head's exposure count restarts (R132). -/
def fireHeads (body : List Byte) (s : State) : State :=
  allHeads.foldl (fun s h => if firesHead body h then headFired h s else s) s

theorem reportService_eq (body : List Byte) (d : Destination) (s : State) :
    reportService body d s = fireHeads body (countDrops body d s) := rfl

theorem entryOf_countDrops (body : List Byte) (s : State) (h : Fin 3) :
    entryOf (countDrops body .media s) h =
      (entryOf s h).counted (countedDrops body h s) (s.params.dropThreshold.get h) := by
  have folded := foldl_at (Q := fun _ => True) (π := entryOf) (g := fun s h => addDrops body h s)
    (F := fun s h => (entryOf s h).counted (countedDrops body h s) (s.params.dropThreshold.get h))
    (fun _ _ _ => trivial) (fun s h _ => entryOf_addDrops body h s)
    (fun s i j n _ => by
      have apart := entryOf_addDrops_other body s n
      exact ⟨apart, by simp only [countedDrops, apart, (addDrops_serviceOnly body i s).params]⟩) h allHeads_nodup
    (s := s) trivial
  exact folded.trans (if_pos (mem_allHeads h))

theorem countDrops_serviceOnly (body : List Byte) (d : Destination) (s : State) :
    ServiceOnly s (countDrops body d s) := by
  cases d with
  | media => exact .foldl (fun s h => addDrops_serviceOnly body h s) allHeads s
  | waste => exact .refl s

theorem fireHead_serviceOnly (body : List Byte) (h : Fin 3) (s : State) :
    ServiceOnly s (if firesHead body h then headFired h s else s) := by
  split
  · exact ⟨rfl, rfl⟩
  · exact .refl s

theorem fireHeads_serviceOnly (body : List Byte) (s : State) : ServiceOnly s (fireHeads body s) :=
  .foldl (fun s h => fireHead_serviceOnly body h s) allHeads s

theorem fireHeads_cls (body : List Byte) (s : State) : (fireHeads body s).cls = s.cls :=
  foldl_kept State.cls _ (fun s h => by split <;> rfl) allHeads s

theorem exposure_countDrops (body : List Byte) (d : Destination) (s : State) (h : Fin 3) :
    exposure (countDrops body d s) h = exposure s h := by
  have ext : (countDrops body d s).ext = s.ext := by
    cases d with
    | media =>
      exact foldl_kept State.ext _ (fun s h => by unfold addDrops; dsimp only; split <;> rfl) allHeads s
    | waste => rfl
  rw [exposure, ext]
  rfl

theorem exposure_fireHeads (body : List Byte) (s : State) (h : Fin 3) :
    exposure (fireHeads body s) h =
      if firesHead body h then { exposure s h with count := 0, due := false } else exposure s h := by
  have folded := foldl_at (Q := fun _ => True) (π := exposure)
    (g := fun s h => if firesHead body h then headFired h s else s)
    (F := fun s h => if firesHead body h then { exposure s h with count := 0, due := false } else exposure s h)
    (fun _ _ _ => trivial)
    (fun s h _ => by
      dsimp only
      split
      · exact exposure_setExposure _ _ _
      · rfl)
    (fun s i j n _ => by
      have apart : exposure (if firesHead body i then headFired i s else s) j = exposure s j := by
        split
        · exact exposure_setExposure_other _ _ n
        · rfl
      exact ⟨apart, by simp only [apart]⟩) h allHeads_nodup (s := s) trivial
  exact folded.trans (if_pos (mem_allHeads h))

end Sys2Proof.Machine
end

