-- ==== Sys2Proof/Proofs/UsageInk.lean ====
section
/-!
SUPPORT. A USAGE report applied: its ink, its service side, the test of the waste account and the claim it may bring.
Settles O27.
-/

namespace Sys2Proof.Machine

/-! ### The report's ink (R27 to R31, R52 to R54) -/

theorem anyClamped_iff (body : List Byte) :
    anyClamped body = true ↔ ∃ (c : Fin 6) (k : Fin 3), Config.dropCountMax < usageCount body c k := by
  unfold anyClamped
  rw [List.any_eq_true]
  constructor
  · rintro ⟨c, -, above⟩
    obtain ⟨k, -, above⟩ := List.any_eq_true.mp above
    exact ⟨c, k, of_decide_eq_true above⟩
  · rintro ⟨c, k, above⟩
    refine ⟨c, mem_allChannels c, List.any_eq_true.mpr ⟨k, ?_, decide_eq_true above⟩⟩
    fin_cases k <;> decide

theorem allZero_iff (body : List Byte) : allZero body = true ↔ ∀ c, dropSum body c = 0 := by
  unfold allZero
  rw [List.all_eq_true]
  exact ⟨fun h c => by simpa using h c (mem_allChannels c), fun h c _ => by simp [h c]⟩

/-- A clamped count is no count of zero. -/
theorem dropSum_of_clamped {body : List Byte} {c : Fin 6} {k : Fin 3} (h : Config.dropCountMax < usageCount body c k) :
    dropSum body c ≠ 0 := by
  have clamped : dropCount body c k = Config.dropCountMax := Nat.min_eq_right (Nat.le_of_lt h)
  have large : Config.dropCountMax ≠ 0 := by decide
  unfold dropSum
  fin_cases k <;> simp only [Fin.zero_eta, Fin.mk_one, Fin.reduceFinMk] at clamped <;> omega

/-- CLAMPED_USAGE raised where a count of the report is clamped (R27). -/
def tellClamped (body : List Byte) (s : State) : State :=
  if anyClamped body then raise .clampedUsage 0 (some (.swath (usageSwath body))) s else s

/-- What the report debits from each channel. -/
def reportDebits (body : List Byte) (s : State) : Vector Nat 6 := Vector.ofFn fun c => usageDebit s body c

/-- The report's ink charged, before the page table is handed it. -/
def inkCharged (body : List Byte) (d : Destination) (s : State) : State := chargeAll body d (tellClamped body s)

theorem reportInk_eq (body : List Byte) (d : Destination) (s : State) :
    reportInk body d s =
      checkOverAll (allChannels.filter fun c => (reportDebits body s).get c != 0)
        (pauReport (usageTag body) d (reportDebits body s) (inkCharged body d s)) := rfl

theorem tellClamped_eq (body : List Byte) (s : State) : ∃ e, tellClamped body s = { s with evu := e } := by
  unfold tellClamped
  split
  · exact ⟨_, rfl⟩
  · exact ⟨s.evu, rfl⟩

theorem pauReport_eq (tag : Nat) (d : Destination) (debits : Vector Nat 6) (s : State) :
    ∃ x, pauReport tag d debits s = { s with pau := x } := by
  cases d with
  | media => exact ⟨_, pauReport_media tag debits s⟩
  | waste => exact ⟨s.pau, rfl⟩

theorem checkOverAll_debitsOnly (cs : List (Fin 6)) (s : State) : DebitsOnly s (checkOverAll cs s) :=
  .foldl (fun s c => checkOver_debitsOnly c s) cs s

theorem checkOverAll_spu (cs : List (Fin 6)) (s : State) : (checkOverAll cs s).spu = s.spu :=
  foldl_kept State.spu _ (fun s c => checkOver_spu c s) cs s

/-- What the page table is handed and the checks behind it leave the records of ink and waste alone. -/
theorem reportInk_records (body : List Byte) (d : Destination) (s : State) :
    (reportInk body d s).uau = (inkCharged body d s).uau ∧ (reportInk body d s).spu = (inkCharged body d s).spu := by
  obtain ⟨x, handed⟩ := pauReport_eq (usageTag body) d (reportDebits body s) (inkCharged body d s)
  rw [reportInk_eq, uau_of_supply (checkOverAll_kept _ _), checkOverAll_spu, handed]
  exact ⟨rfl, rfl⟩

theorem book_reportInk (body : List Byte) (d : Destination) (s : State) (c : Fin 6) :
    book (reportInk body d s) c = chargedBook s body d c := by
  rw [book, (reportInk_records body d s).1]
  refine (book_chargeAll body d _ c).trans ?_
  obtain ⟨e, told⟩ := tellClamped_eq body s
  rw [told]
  rfl

theorem chan_reportInk (body : List Byte) (d : Destination) {s : State} (run : s.rsc.power = .run) (c : Fin 6) :
    chan (reportInk body d s) c = chargedChannel s body c := by
  obtain ⟨e, told⟩ := tellClamped_eq body s
  have charged := chan_chargeAll body d (s := { s with evu := e }) run c
  have same : chargedChannel { s with evu := e } body c = chargedChannel s body c := rfl
  rw [chan, (reportInk_records body d s).2, inkCharged, told, ← same, ← charged]
  rfl

theorem reportInk_kept (body : List Byte) (d : Destination) (s : State) :
    keptByUsage (reportInk body d s) = keptByUsage s := by
  obtain ⟨e, told⟩ := tellClamped_eq body s
  have charged := (chargeAll_debitsOnly body d { s with evu := e }).kept
  have same : keptByUsage { s with evu := e } = keptByUsage s := rfl
  rw [reportInk_eq, checkOverAll_keptU, pauReport_keptU, inkCharged, told, charged, same]

theorem reportInk_counts (body : List Byte) (d : Destination) (s : State) :
    (reportInk body d s).uau.applied = s.uau.applied ∧ (reportInk body d s).uau.lastTag = s.uau.lastTag ∧
      (reportInk body d s).uau.lastSwath = s.uau.lastSwath := by
  obtain ⟨e, told⟩ := tellClamped_eq body s
  rw [(reportInk_records body d s).1, inkCharged, told]
  exact (chargeAll_debitsOnly body d _).counts

theorem reportInk_bays (body : List Byte) (d : Destination) (s : State) :
    (reportInk body d s).spu.bays = s.spu.bays ∧ (reportInk body d s).spu.bus = s.spu.bus := by
  obtain ⟨e, told⟩ := tellClamped_eq body s
  rw [(reportInk_records body d s).2, inkCharged, told]
  have charged := chargeAll_debitsOnly body d { s with evu := e }
  exact ⟨charged.bays, charged.bus⟩

theorem reportInk_media (body : List Byte) (s : State) :
    (reportInk body .media s).uau.waste = s.uau.waste ∧ (reportInk body .media s).uau.orphan = s.uau.orphan := by
  obtain ⟨e, told⟩ := tellClamped_eq body s
  rw [(reportInk_records body .media s).1, inkCharged, told]
  exact chargeAll_media body _

/-- The nanolitres of a report over all channels. -/
def reportTotal (body : List Byte) (s : State) : Nat :=
  usageDebit s body 0 + usageDebit s body 1 + usageDebit s body 2 + usageDebit s body 3 + usageDebit s body 4
    + usageDebit s body 5

theorem reportInk_added (body : List Byte) (s : State) :
    WasteAdded (reportTotal body s) s (reportInk body .waste s) := by
  obtain ⟨e, told⟩ := tellClamped_eq body s
  have added := chargeAll_added body { s with evu := e }
  have uau := (reportInk_records body .waste s).1
  rw [inkCharged, told] at uau
  refine ⟨fun d fits => ?_, fun empty => ?_⟩
  · rw [uau]
    exact added.fitted d fits
  · rw [uau]
    exact added.unfitted empty

/-- What the report leaves of the page table's record, its overcommitment flags aside (R52, R53). -/
theorem reportInk_pau (body : List Byte) (d : Destination) (s : State) :
    { (reportInk body d s).pau with overSet := s.pau.overSet } =
      match d with
      | .media => s.pau.reported (usageTag body) (reportDebits body s)
      | .waste => s.pau := by
  obtain ⟨e, told⟩ := tellClamped_eq body s
  have charged := (chargeAll_debitsOnly body d { s with evu := e }).pau
  have checked (u : State) : { (checkOverAll (allChannels.filter fun c => (reportDebits body s).get c != 0) u).pau with
      overSet := s.pau.overSet } = { u.pau with overSet := s.pau.overSet } :=
    congrArg (fun x : Pau => { x with overSet := s.pau.overSet }) (checkOverAll_debitsOnly _ u).pau
  rw [reportInk_eq, inkCharged, told, checked]
  cases d with
  | media =>
    rw [pauReport_media]
    dsimp only
    rw [← Pau.reported_overSet]
    exact congrArg (fun x : Pau => x.reported (usageTag body) (reportDebits body s)) charged
  | waste => exact charged

/-- Behind CLAMPED_USAGE the report's ink raises CHANNEL_STARVED and OVERCOMMITTED only. -/
theorem untold_inkCharged {k : EventKind} (body : List Byte) (d : Destination) (s : State)
    (starved : k ≠ .channelStarved) (exceeded : k ≠ .overcommitted) :
    Untold k (tellClamped body s) (reportInk body d s) := by
  obtain ⟨x, handed⟩ := pauReport_eq (usageTag body) d (reportDebits body s) (inkCharged body d s)
  have charged := (chargeAll_debitsOnly body d (tellClamped body s)).untold k starved exceeded
  rw [reportInk_eq, handed]
  exact (charged.trans (untold_of_evu rfl)).trans ((checkOverAll_debitsOnly _ _).untold k starved exceeded)

theorem untold_reportInk {k : EventKind} (body : List Byte) (d : Destination) (s : State) (clamped : k ≠ .clampedUsage)
    (starved : k ≠ .channelStarved) (exceeded : k ≠ .overcommitted) : Untold k s (reportInk body d s) := by
  refine Untold.trans ?_ (untold_inkCharged body d s starved exceeded)
  unfold tellClamped
  split
  · exact untold_raise _ _ _ clamped.symm
  · exact Untold.refl k s

theorem told_reportInk {body : List Byte} (d : Destination) (s : State) (h : anyClamped body = true) :
    Told .clampedUsage 0 (some (.swath (usageSwath body))) s (reportInk body d s) := by
  refine Told.trans_untold ?_ (untold_inkCharged body d s (by decide) (by decide))
  rw [tellClamped, if_pos h]
  exact told_raise _ _ _ s

theorem unclamped_reportInk {body : List Byte} (d : Destination) (s : State) (h : anyClamped body ≠ true) :
    Untold .clampedUsage s (reportInk body d s) := by
  refine Untold.trans ?_ (untold_inkCharged body d s (by decide) (by decide))
  rw [tellClamped, if_neg h]
  exact Untold.refl _ s

end Sys2Proof.Machine
end

