-- ==== Sys2Proof/Proofs/UsageApplied.lean ====
section
/-!
SUPPORT. A USAGE report applied whole: its service side, the test of the waste account and the claim it may bring.
Settles O27.
-/

namespace Sys2Proof.Machine

/-! ### The agenda of a report (R98, R101, R104, R112) -/

/-- The state once the report's ink and its service side are done. -/
def reportServed (body : List Byte) (d : Destination) (s : State) : State := reportService body d (reportInk body d s)

/-- The state once the report's own effect is done: a WASTE report's thresholds are tested. -/
def reportDone (body : List Byte) (d : Destination) (s : State) : State :=
  match d with
  | .media => reportServed body .media s
  | .waste => (testWaste (reportServed body .waste s)).1

theorem reportService_serviceOnly (body : List Byte) (d : Destination) (s : State) :
    ServiceOnly s (reportService body d s) := by
  rw [reportService_eq]
  exact (countDrops_serviceOnly body d s).trans (fireHeads_serviceOnly body _)

theorem cls_of_wasteOnly {s t : State} (h : WasteOnly s t) : t.cls = s.cls := by
  have cls := congrArg State.cls h.frame
  exact cls

theorem stc_of_wasteOnly {s t : State} (h : WasteOnly s t) : t.stc = s.stc := by
  have stc := congrArg State.stc h.frame
  exact stc

theorem stc_of_serviceOnly {s t : State} (h : ServiceOnly s t) : t.stc = s.stc := by
  have stc := congrArg State.stc h.frame
  exact stc

theorem reportServed_stage (body : List Byte) (d : Destination) (s : State) :
    (reportServed body d s).cls.stage = s.cls.stage := by
  rw [reportServed, (reportService_serviceOnly body d _).stage, cls_of_usage (reportInk_kept body d s)]

theorem reportServed_stc (body : List Byte) (d : Destination) (s : State) :
    (reportServed body d s).stc = s.stc := by
  rw [reportServed, stc_of_serviceOnly (reportService_serviceOnly body d _), stc_of_usage (reportInk_kept body d s)]

/-- A WASTE report is counted to no head. -/
theorem dropsFolded_waste (body : List Byte) (s : State) : dropsFolded s (reportService body .waste s) = false := by
  have cls : (reportService body .waste s).cls = s.cls := fireHeads_cls body s
  simp only [dropsFolded, entryOf, cls, bne_self_eq_false, List.any_eq_false, Bool.false_eq_true, not_false_eq_true,
    implies_true]

theorem applyReport_nothing {body : List Byte} (d : Destination) (s : State) (h : allZero body = true) :
    applyReport body d s = Run.done (noteReport body s) := by
  unfold applyReport
  simp only [h, if_true]

theorem applyReport_media {body : List Byte} (s : State) (h : allZero body ≠ true) :
    applyReport body .media s =
      (let n := noteReport body s
       (reportServed body .media n,
        supplyActs n (reportServed body .media n) ++
          if dropsFolded (reportInk body .media n) (reportServed body .media n) then [.clsFolded false] else [])) := by
  unfold applyReport
  simp only [h]
  rfl

theorem applyReport_waste {body : List Byte} (s : State) (h : allZero body ≠ true) :
    applyReport body .waste s =
      (let n := noteReport body s
       ((testWaste (reportServed body .waste n)).1,
        supplyActs n (reportServed body .waste n) ++ (testWaste (reportServed body .waste n)).2)) := by
  unfold applyReport
  simp only [h, if_false, dropsFolded_waste, Bool.false_eq_true, List.append_nil]
  rfl

/-- Behind a report's own effect at most a claim of the CLS follows. -/
theorem settle_applyReport {body : List Byte} (d : Destination) {s : State} (fires : allZero body ≠ true)
    (stage : s.cls.stage ≠ .waitInk) (zone : ZoneTaken s) :
    ∃ t, settle (applyReport body d s) = .next t ∧ ClaimOnly (reportDone body d (noteReport body s)) t := by
  generalize hn : noteReport body s = n
  have stageN : n.cls.stage ≠ .waitInk := by rw [← hn]; exact stage
  have zoneN : ZoneTaken n := by rw [← hn]; exact zone
  have stage' : (reportServed body d n).cls.stage ≠ .waitInk := by rw [reportServed_stage]; exact stageN
  have zone' : ZoneTaken (reportServed body d n) := by rw [ZoneTaken, reportServed_stc]; exact zoneN
  cases d with
  | media =>
    rw [applyReport_media s fires, hn]
    dsimp only
    split
    · obtain ⟨t, folded, claimed⟩ := clsFolded_zoneTaken zone'
      exact ⟨t, settle_supplyActs_then _ _ stage' folded, claimed⟩
    · rw [List.append_nil]
      exact ⟨_, settle_supplyActs _ _ stage', .refl _⟩
  | waste =>
    have tested := testWaste_wasteOnly (reportServed body .waste n)
    have stageT : (testWaste (reportServed body .waste n)).1.cls.stage ≠ .waitInk := by
      rw [cls_of_wasteOnly tested]; exact stage'
    have zoneT : ZoneTaken (testWaste (reportServed body .waste n)).1 := by
      rw [ZoneTaken, stc_of_wasteOnly tested]; exact zone'
    rw [applyReport_waste s fires, hn]
    dsimp only
    rcases testWaste_acts (reportServed body .waste n) with acts | ⟨acts, present⟩
    · rw [acts, List.append_nil]
      exact ⟨_, settle_supplyActs _ _ stageT, .refl _⟩
    · obtain ⟨t, changed, claimed⟩ := wasteChanged_zoneTaken zoneT fun gone => present gone.1
      rw [acts]
      exact ⟨t, settle_supplyActs_then _ _ stageT changed, claimed⟩

/-! ### What follows the report's ink leaves of it -/

/-- The fields that no part of a report behind its ink writes. -/
def keptBehindInk (s : State) :=
  (s.liu, s.fdc, s.rsc, s.dtu, s.params, s.pau, (s.spu.channels, s.spu.bays),
    (s.uau.books, s.uau.applied, s.uau.lastTag, s.uau.lastSwath))

theorem ServiceOnly.behindInk {s t : State} (h : ServiceOnly s t) : keptBehindInk t = keptBehindInk s := by
  have kept := congrArg keptBehindInk h.frame
  exact kept

theorem WasteOnly.behindInk {s t : State} (h : WasteOnly s t) : keptBehindInk t = keptBehindInk s := by
  have kept := congrArg keptBehindInk h.frame
  exact kept

theorem ClaimOnly.behindInk {s t : State} (h : ClaimOnly s t) : keptBehindInk t = keptBehindInk s := by
  have kept := congrArg keptBehindInk h.frame
  exact kept

theorem ServiceOnly.evu {s t : State} (h : ServiceOnly s t) : t.evu = s.evu := by
  have evu := congrArg State.evu h.frame
  exact evu

theorem ClaimOnly.uau {s t : State} (h : ClaimOnly s t) : t.uau = s.uau := by
  have uau := congrArg State.uau h.frame
  exact uau

theorem ClaimOnly.ext {s t : State} (h : ClaimOnly s t) : t.ext = s.ext := by
  have ext := congrArg State.ext h.frame
  exact ext

theorem WasteOnly.ext {s t : State} (h : WasteOnly s t) : t.ext = s.ext := by
  have ext := congrArg State.ext h.frame
  exact ext

theorem ServiceOnly.uau {s t : State} (h : ServiceOnly s t) : t.uau = s.uau := by
  have uau := congrArg State.uau h.frame
  exact uau

theorem ServiceOnly.spu {s t : State} (h : ServiceOnly s t) : t.spu = s.spu := by
  have spu := congrArg State.spu h.frame
  exact spu

/-- A report's own effect and the claim behind it, from the state its ink leaves. -/
structure ReportEnded (body : List Byte) (d : Destination) (s t : State) : Prop where
  kept : keptBehindInk t = keptBehindInk (reportInk body d s)
  untold : ∀ k, k ≠ .pauseForService → k ≠ .wasteNearFull → k ≠ .wasteFull → Untold k (reportInk body d s) t
  entries : ∀ h, entryOf t h = entryOf (countDrops body d (reportInk body d s)) h
  exposures : ∀ h, exposure t h = exposure (fireHeads body (countDrops body d (reportInk body d s))) h
  media : d = .media → t.uau = (reportInk body d s).uau ∧ t.spu.bus = (reportInk body d s).spu.bus
  waste : d = .waste → WasteTaken (reportTotal body s) s t

theorem WasteTaken.claimed {n : Nat} {s t u : State} (h : WasteTaken n s t) (claimed : ClaimOnly t u) :
    WasteTaken n s u := by
  obtain ⟨fitted, unfitted⟩ := h
  rw [WasteTaken, claimed.uau, claimed.spu]
  refine ⟨fun d fits => ?_, unfitted⟩
  obtain ⟨waste, orphan, bus, near, full⟩ := fitted d fits
  exact ⟨waste, orphan, bus,
    fun now other => (near now other).trans_untold (claimed.untold _ (by decide)),
    fun now other => (full now other).trans_untold (claimed.untold _ (by decide))⟩

theorem WasteOnly.entryOf {s t : State} (h : WasteOnly s t) (k : Fin 3) : entryOf t k = entryOf s k := by
  rw [Machine.entryOf, cls_of_wasteOnly h]
  rfl

theorem ReportEnded.of_served {body : List Byte} {s t : State}
    (claimed : ClaimOnly (reportServed body .media s) t) : ReportEnded body .media s t where
  kept := claimed.behindInk.trans (reportService_serviceOnly body .media _).behindInk
  untold k claim _ _ := by
    have served : Untold k (reportInk body .media s) (reportServed body .media s) :=
      untold_of_evu (reportService_serviceOnly body .media _).evu
    exact served.trans (claimed.untold k claim)
  entries h := by
    rw [claimed.entryOf, reportServed, reportService_eq, entryOf, fireHeads_cls]
    rfl
  exposures h := by
    rw [exposure, claimed.ext]
    rfl
  media _ := by
    have served := reportService_serviceOnly body .media (reportInk body .media s)
    rw [claimed.uau, claimed.spu, reportServed, served.uau, served.spu]
    exact ⟨rfl, rfl⟩
  waste other := by cases other

theorem ReportEnded.of_tested {body : List Byte} {s t : State}
    (claimed : ClaimOnly (testWaste (reportServed body .waste s)).1 t) : ReportEnded body .waste s t where
  kept := (claimed.behindInk.trans (testWaste_wasteOnly _).behindInk).trans
    (reportService_serviceOnly body .waste _).behindInk
  untold k claim near full := by
    have served : Untold k (reportInk body .waste s) (reportServed body .waste s) :=
      untold_of_evu (reportService_serviceOnly body .waste _).evu
    exact (served.trans ((testWaste_wasteOnly _).untold k near full)).trans (claimed.untold k claim)
  entries h := by
    rw [claimed.entryOf, (testWaste_wasteOnly _).entryOf, reportServed, reportService_eq, entryOf, fireHeads_cls]
    rfl
  exposures h := by
    rw [exposure, claimed.ext, (testWaste_wasteOnly _).ext]
    rfl
  media other := by cases other
  waste _ := by
    have service := reportService_serviceOnly body .waste (reportInk body .waste s)
    have added : WasteAdded (reportTotal body s) s (reportServed body .waste s) := by
      obtain ⟨fitted, unfitted⟩ := reportInk_added body s
      rw [← service.uau] at fitted unfitted
      exact ⟨fitted, unfitted⟩
    have bus : (reportServed body .waste s).spu.bus = s.spu.bus := by
      rw [reportServed, service.spu, (reportInk_bays body .waste s).2]
    refine (testWaste_taken added bus ?_ ?_).claimed claimed
    · exact (untold_reportInk body .waste s (by decide) (by decide) (by decide)).of_evu service.evu
    · exact (untold_reportInk body .waste s (by decide) (by decide) (by decide)).of_evu service.evu

theorem reportEnded {body : List Byte} {d : Destination} {s t : State} (claimed : ClaimOnly (reportDone body d s) t) :
    ReportEnded body d s t := by
  cases d with
  | media => exact .of_served claimed
  | waste => exact .of_tested claimed

/-! ### A report that fires nothing (R26) -/

theorem scaledVolume_zero {q : Params} {body : List Byte} {c : Fin 6} (h : dropSum body c = 0) :
    scaledVolume q body c = 0 := by
  have counts : dropCount body c 0 = 0 ∧ dropCount body c 1 = 0 ∧ dropCount body c 2 = 0 := by
    unfold dropSum at h
    omega
  obtain ⟨small, middle, large⟩ := counts
  simp only [scaledVolume, rawVolume, small, middle, large, Nat.zero_mul, Nat.add_zero]

theorem usageDebit_zero {s : State} {body : List Byte} {c : Fin 6} (h : dropSum body c = 0)
    (balanced : (book s c).Balanced) : usageDebit s body c = 0 ∧ usageResidue s body c = (book s c).residue := by
  obtain ⟨-, -, below, -⟩ := balanced
  simp only [usageDebit, usageResidue, scaledVolume_zero h, Nat.zero_add]
  exact ⟨Nat.div_eq_of_lt below, Nat.mod_eq_of_lt below⟩

theorem chargedBook_zero {s : State} {body : List Byte} (d : Destination) {c : Fin 6} (h : dropSum body c = 0)
    (balanced : (book s c).Balanced) : chargedBook s body d c = book s c := by
  obtain ⟨nothing, residue⟩ := usageDebit_zero h balanced
  obtain ⟨-, -, -, capped⟩ := balanced
  have overdraw : sat Config.u32Max ((book s c).overdraw + debitExcess s c 0) = (book s c).overdraw := by
    simp only [debitExcess, Nat.zero_sub, Nat.add_zero]
    exact Nat.min_eq_left capped
  rw [chargedBook, nothing, residue]
  cases d <;> simp only [Book.addUsage, overdraw, Nat.add_zero]

theorem chargedChannel_zero {s : State} {body : List Byte} {c : Fin 6} (h : usageDebit s body c = 0) :
    chargedChannel s body c = chan s c := by
  rw [chargedChannel, h]
  rfl

/-! ### The whole report -/

/-- What a report with a destination does, said by the parts of the model (R26 to R31). -/
structure ReportApplied (body : List Byte) (rest : List (List Byte)) (d : Destination) (s t : State) : Prop where
  liu : t.liu = { s.liu with posted := rest }
  counts : t.uau.applied = (s.uau.applied + 1) % 4294967296 ∧ t.uau.lastTag = usageTag body ∧
    t.uau.lastSwath = usageSwath body
  books : ∀ c, book t c = chargedBook s body d c
  channels : ∀ c, chan t c = chargedChannel s body c
  told : anyClamped body = true → Told .clampedUsage 0 (some (.swath (usageSwath body))) s t
  untold : anyClamped body ≠ true → Untold .clampedUsage s t
  waste : allZero body ≠ true → d = .waste → WasteTaken (reportTotal body s) s t
  noWaste : allZero body = true ∨ d = .media →
    t.uau.waste = s.uau.waste ∧ t.uau.orphan = s.uau.orphan ∧ t.spu.bus = s.spu.bus
  pau : { t.pau with overSet := s.pau.overSet } =
    if allZero body = true ∨ d = .waste then s.pau else s.pau.reported (usageTag body) (reportDebits body s)
  entries : ∀ h, entryOf t h =
    if allZero body = true ∨ d = .waste then entryOf s h
    else (entryOf s h).counted (countedDrops body h s) (s.params.dropThreshold.get h)
  exposures : ∀ h, exposure t h =
    if firesHead body h then { exposure s h with count := 0, due := false } else exposure s h
  others : t.fdc = s.fdc ∧ t.rsc = s.rsc ∧ t.dtu = s.dtu ∧ t.params = s.params ∧ t.spu.bays = s.spu.bays

/-- The state once the report is taken from the queue and noted (R26). -/
def reportTaken (body : List Byte) (rest : List (List Byte)) (s : State) : State :=
  { s with
    liu := { s.liu with posted := rest }
    uau := { s.uau with
      applied := (s.uau.applied + 1) % 4294967296, lastTag := usageTag body, lastSwath := usageSwath body } }

theorem firesHead_iff (body : List Byte) (h : Fin 3) :
    firesHead body h = true ↔ ¬ (dropSum body (firstChannel h) = 0 ∧ dropSum body (secondChannel h) = 0) := by
  simp only [firesHead, Bool.or_eq_true, bne_iff_ne, ne_eq, not_and_or]

theorem reportApplied_nothing {body : List Byte} {rest : List (List Byte)} {d : Destination} {s : State}
    (nothing : allZero body = true) (balance : BooksBalance s) :
    ReportApplied body rest d s (reportTaken body rest s) := by
  have zero := (allZero_iff body).mp nothing
  refine ⟨rfl, ⟨rfl, rfl, rfl⟩, fun c => ?_, fun c => ?_, fun clamped => ?_, fun _ => Untold.refl _ s,
    fun fires => absurd nothing fires, fun _ => ⟨rfl, rfl, rfl⟩, ?_, fun h => ?_, fun h => ?_, ⟨rfl, rfl, rfl, rfl, rfl⟩⟩
  · exact (chargedBook_zero d (zero c) (balance c)).symm
  · exact (chargedChannel_zero (usageDebit_zero (zero c) (balance c)).1).symm
  · obtain ⟨c, k, above⟩ := (anyClamped_iff body).mp clamped
    exact absurd (zero c) (dropSum_of_clamped above)
  · rw [if_pos (.inl nothing)]
    rfl
  · rw [if_pos (.inl nothing)]
    rfl
  · rw [if_neg (mt (firesHead_iff body h).mp (not_not_intro ⟨zero _, zero _⟩))]
    rfl

theorem reportApplied_fires {body : List Byte} {rest : List (List Byte)} {d : Destination} {s t : State}
    (fires : allZero body ≠ true) (run : s.rsc.power = .run) (ended : ReportEnded body d (reportTaken body rest s) t) :
    ReportApplied body rest d s t := by
  have inked := reportInk_kept body d (reportTaken body rest s)
  have counted := reportInk_counts body d (reportTaken body rest s)
  have supplied := reportInk_bays body d (reportTaken body rest s)
  have kept := ended.kept
  simp only [keptByUsage, Prod.mk.injEq] at inked
  simp only [keptBehindInk, Prod.mk.injEq] at kept
  obtain ⟨liu, fdc, rsc, dtu, params, pau, ⟨channels, bays⟩, books, applied, tag, swath⟩ := kept
  obtain ⟨applied', tag', swath'⟩ := counted
  have entries (h : Fin 3) : entryOf (reportInk body d (reportTaken body rest s)) h = entryOf s h := by
    rw [entryOf, cls_of_usage (reportInk_kept body d _)]
    rfl
  have ext : (reportInk body d (reportTaken body rest s)).ext = s.ext := by simp only [inked]; rfl
  refine
    { liu := by simp only [liu, inked]; rfl
      counts := ⟨applied.trans applied', tag.trans tag', swath.trans swath'⟩
      books := fun c => ?books
      channels := fun c => ?channels
      told := fun clamped => ?told
      untold := fun unclamped => ?untold
      waste := fun _ waste => ended.waste waste
      noWaste := fun none => ?noWaste
      pau := ?pau
      entries := fun h => ?entries
      exposures := fun h => ?exposures
      others := ?others }
  case books =>
    rw [book, books]
    exact book_reportInk body d (reportTaken body rest s) c
  case channels =>
    rw [chan, channels]
    exact chan_reportInk body d (s := reportTaken body rest s) run c
  case told =>
    have told := told_reportInk d (reportTaken body rest s) clamped
    exact told.trans_untold (ended.untold _ (by decide) (by decide) (by decide))
  case untold =>
    have untold := unclamped_reportInk d (reportTaken body rest s) unclamped
    exact untold.trans (ended.untold _ (by decide) (by decide) (by decide))
  case noWaste =>
    cases d with
    | waste => exact absurd none (by simp [fires])
    | media =>
      obtain ⟨uau, bus⟩ := ended.media rfl
      obtain ⟨waste, orphan⟩ := reportInk_media body (reportTaken body rest s)
      rw [uau, bus]
      exact ⟨waste, orphan, supplied.2⟩
  case pau =>
    rw [pau]
    have handed := reportInk_pau body d (reportTaken body rest s)
    cases d with
    | media => rw [if_neg (by simp [fires])]; exact handed
    | waste => rw [if_pos (.inr rfl)]; exact handed
  case entries =>
    rw [ended.entries h]
    cases d with
    | media =>
      rw [if_neg (by simp [fires]), entryOf_countDrops, countedDrops, entries, params_of_usage (reportInk_kept body _ _)]
      rfl
    | waste =>
      rw [if_pos (.inr rfl)]
      exact entries h
  case exposures =>
    rw [ended.exposures h, exposure_fireHeads, exposure_countDrops, exposure, ext]
    rfl
  case others =>
    refine ⟨?_, ?_, ?_, ?_, bays.trans supplied.1⟩
    · simp only [fdc, inked]; rfl
    · simp only [rsc, inked]; rfl
    · simp only [dtu, inked]; rfl
    · simp only [params, inked]; rfl

theorem usageStep_some {body : List Byte} {rest : List (List Byte)} {d : Destination} {s : State}
    (posted : s.liu.posted = body :: rest) (sent : usageDestination body = some d) :
    usageStep s = applyReport body d
      { s with
        liu := { s.liu with posted := rest }
        uau := { s.uau with applied := (s.uau.applied + 1) % 4294967296 } } := by
  unfold usageStep
  simp only [posted, sent]

theorem usageApply_applied {body : List Byte} {rest : List (List Byte)} {d : Destination} {s : State} (awake : Awake s)
    (posted : s.liu.posted = body :: rest) (sent : usageDestination body = some d) (balance : BooksBalance s)
    (stage : s.cls.stage ≠ .waitInk) (zone : ZoneTaken s) :
    ∃ t, exec .usageApply s = .next t ∧ ReportApplied body rest d s t := by
  simp only [exec, execUsageApply, event_awake awake, usageStep_some posted sent]
  by_cases nothing : allZero body = true
  · rw [applyReport_nothing d _ nothing, settle_done]
    exact ⟨_, rfl, reportApplied_nothing nothing balance⟩
  · obtain ⟨t, settled, claimed⟩ := settle_applyReport (body := body) d
      (s := { s with
        liu := { s.liu with posted := rest }
        uau := { s.uau with applied := (s.uau.applied + 1) % 4294967296 } }) nothing stage zone
    exact ⟨t, settled, reportApplied_fires nothing awake.2 (reportEnded claimed)⟩

/-! ### The statement's words -/

theorem firing_iff (body : List Byte) : (∃ c, dropSum body c ≠ 0) ↔ allZero body ≠ true := by
  rw [ne_eq, allZero_iff, not_forall]

theorem Pau.reported_matched {x : Pau} {e : Page} {es : List Page} {tag : Nat} (debits : Vector Nat 6)
    (h : x.pages = e :: es) (is : e.tag = tag) (nonzero : e.tag ≠ 0) :
    x.reported tag debits = { x with pages := e.consume debits :: es } := by
  unfold Pau.reported
  simp only [h]
  exact if_pos ⟨is, nonzero⟩

theorem Pau.reported_unmatched {x : Pau} {tag : Nat} (debits : Vector Nat 6)
    (h : ∀ e es, x.pages = e :: es → e.tag = 0 ∨ e.tag ≠ tag) :
    x.reported tag debits =
      { x with
        unmatchedCount := min (x.unmatchedCount + 1) 4294967295
        unmatchedInk := Vector.ofFn fun c => x.unmatchedInk.get c + debits.get c } := by
  unfold Pau.reported
  split
  · next e es pages =>
    rw [if_neg fun both => (h e es pages).elim both.2 fun other => other both.1]
    rfl
  · rfl

/-- Settles O27, by what the report's destination is. -/
theorem usageApplied : Obligations.UsageApplied := by
  intro body rest s awake posted
  refine ⟨fun unsent => ?_, fun d sent balance stage opened capped => ?_⟩
  · simp only [exec, execUsageApply, event_awake awake, usageStep, posted, unsent, settle_done]
    rfl
  · obtain ⟨t, applied, report⟩ := usageApply_applied awake posted sent balance stage ⟨opened, capped⟩
    have silent : (¬ ∃ c, dropSum body c ≠ 0) → allZero body = true := fun quiet =>
      not_not.mp (mt (firing_iff body).mpr quiet)
    have loud (fires : ∃ c, dropSum body c ≠ 0) (media : d = .media) : ¬ (allZero body = true ∨ d = .waste) := by
      simp [(firing_iff body).mp fires, media]
    refine ⟨t, applied, report.liu, report.counts.1, report.counts.2.1, report.counts.2.2, fun c => ⟨?_, ?_⟩,
      fun clamped => report.told ((anyClamped_iff body).mpr clamped),
      fun unclamped => report.untold (mt (anyClamped_iff body).mp unclamped),
      fun fires waste => report.waste ((firing_iff body).mp fires) waste,
      fun none => report.noWaste (none.imp_left silent),
      fun quiet => ?_, fun fires media => ?_, fun h => ⟨fun quiet => ?_, fun fires media => ?_, ?_⟩, report.others⟩
    · refine (report.books c).trans ?_
      cases d <;> rfl
    · exact report.channels c
    · exact report.pau.trans (if_pos (quiet.imp_left silent))
    · have handed := report.pau.trans (if_neg (loud fires media))
      exact ⟨fun e es pages is nonzero => handed.trans (Pau.reported_matched _ pages is nonzero),
        fun other => handed.trans (Pau.reported_unmatched _ other)⟩
    · exact (report.entries h).trans (if_pos (quiet.imp_left silent))
    · exact (report.entries h).trans (if_neg (loud fires media))
    · have exposed := report.exposures h
      simp only [firesHead_iff, ite_not] at exposed
      exact exposed

end Sys2Proof.Machine
end

