-- ==== Sys2Proof/Proofs/SuctionDebits.lean ====
section
/-!
SUPPORT. What the debit of a suction run does to the books, the estimates and the orphan-waste counter (R32, R36), and how a
running pump is stopped and its run debited (R111).
-/

namespace Sys2Proof.Machine

/-! ### One channel of a run (R32) -/

/-- What `revs` revolutions draw from channel `c`. -/
def suctionAmount (s : State) (revs : Nat) (c : Fin 6) : Nat := revs * s.params.suctionYield.get c

theorem estimate_debitTank (c : Fin 6) (n : Nat) (s : State) :
    (chan (debitTank c n s) c).estimate = (chan s c).estimate - n := by
  rw [debitTank_eq, chan_evalSupply, chan_refillTest]
  split <;> simp only [chan_setChan]

theorem chargeSuction_nothing {revs : Nat} {c : Fin 6} {s : State} (h : suctionAmount s revs c = 0) :
    chargeSuction revs c s = s := if_pos h

/-- The channel drawn and checked, and its book entered. -/
def suckInk (revs : Nat) (c : Fin 6) (s : State) : State :=
  setBook (checkOver c (debitTank c (suctionAmount s revs c) s)) c
    ((book s c).addSuction (suctionAmount s revs c) (debitExcess s c (suctionAmount s revs c)))

theorem chargeSuction_draws {revs : Nat} {c : Fin 6} {s : State} (h : suctionAmount s revs c ≠ 0) :
    chargeSuction revs c s = wasteDebit (suctionAmount s revs c) (suckInk revs c s) := by
  have drawn : (checkOver c (debitTank c (suctionAmount s revs c) s)).uau = s.uau := by
    rw [checkOver_uau, uau_of_supply (debitTank_kept c _ s)]
  have entered : book (checkOver c (debitTank c (suctionAmount s revs c) s)) c = book s c := by
    rw [book, drawn]
    rfl
  rw [suckInk, ← entered]
  exact if_neg h

theorem chan_suckInk (revs : Nat) (c : Fin 6) (s : State) (e : Fin 6) :
    chan (suckInk revs c s) e = chan (debitTank c (suctionAmount s revs c) s) e := by
  rw [suckInk, chan, setBook_spu, checkOver_spu]
  rfl

theorem suckInk_debitsOnly (revs : Nat) (c : Fin 6) (s : State) : DebitsOnly s (suckInk revs c s) :=
  ((debitTank_debitsOnly c _ s).trans (checkOver_debitsOnly c _)).trans (setBook_debitsOnly _ _ _)

theorem chargeSuction_debitsOnly (revs : Nat) (c : Fin 6) (s : State) : DebitsOnly s (chargeSuction revs c s) := by
  by_cases h : suctionAmount s revs c = 0
  · rw [chargeSuction_nothing h]
    exact .refl s
  · rw [chargeSuction_draws h]
    exact (suckInk_debitsOnly revs c s).trans (wasteDebit_debitsOnly _ _)

/-- The book of a channel once a run's share has been entered. -/
def suckedBook (s : State) (revs : Nat) (c : Fin 6) : Book :=
  let amount := suctionAmount s revs c
  { book s c with
    total := (book s c).total + amount, suction := (book s c).suction + amount, waste := (book s c).waste + amount
    overdraw :=
      if amount = 0 then (book s c).overdraw
      else min ((book s c).overdraw + (amount - (chan s c).estimate)) 4294967295 }

theorem book_chargeSuction (revs : Nat) (c : Fin 6) (s : State) :
    book (chargeSuction revs c s) c = suckedBook s revs c := by
  unfold suckedBook
  dsimp only
  by_cases h : suctionAmount s revs c = 0
  · rw [chargeSuction_nothing h, if_pos h, h]
    rfl
  · rw [chargeSuction_draws h, if_neg h, book, wasteDebit_books]
    exact book_setBook _ _ _

theorem book_chargeSuction_other (revs : Nat) {c e : Fin 6} (s : State) (n : c ≠ e) :
    book (chargeSuction revs c s) e = book s e := by
  by_cases h : suctionAmount s revs c = 0
  · rw [chargeSuction_nothing h]
  · rw [chargeSuction_draws h, book, wasteDebit_books]
    refine (book_setBook_other _ _ n).trans ?_
    rw [book, checkOver_uau, uau_of_supply (debitTank_kept c _ s)]
    rfl

theorem estimate_chargeSuction (revs : Nat) (c : Fin 6) (s : State) :
    (chan (chargeSuction revs c s) c).estimate = (chan s c).estimate - suctionAmount s revs c := by
  by_cases h : suctionAmount s revs c = 0
  · rw [chargeSuction_nothing h, h, Nat.sub_zero]
  · rw [chargeSuction_draws h, chan, wasteDebit_spu]
    rw [← chan, chan_suckInk, estimate_debitTank]

theorem chan_chargeSuction_other (revs : Nat) {c e : Fin 6} (s : State) (n : c ≠ e) :
    chan (chargeSuction revs c s) e = chan s e := by
  by_cases h : suctionAmount s revs c = 0
  · rw [chargeSuction_nothing h]
  · rw [chargeSuction_draws h, chan, wasteDebit_spu]
    rw [← chan, chan_suckInk, (debitTank_confined c _ s).chan e n.symm]

/-- Without a cartridge fitted what a run draws goes to the orphan-waste counter (R36). -/
theorem waste_chargeSuction (revs : Nat) (c : Fin 6) {s : State} (unfitted : s.uau.waste.fittedData = none) :
    (chargeSuction revs c s).uau.waste = s.uau.waste ∧
      (chargeSuction revs c s).uau.orphan =
        if suctionAmount s revs c = 0 then s.uau.orphan
        else min (s.uau.orphan + suctionAmount s revs c) 4294967295 := by
  by_cases h : suctionAmount s revs c = 0
  · rw [chargeSuction_nothing h, if_pos h]
    exact ⟨rfl, rfl⟩
  · have drawn : (checkOver c (debitTank c (suctionAmount s revs c) s)).uau = s.uau := by
      rw [checkOver_uau, uau_of_supply (debitTank_kept c _ s)]
    have waste : (suckInk revs c s).uau.waste = s.uau.waste := by rw [suckInk, setBook_uau, drawn]
    have orphan : (suckInk revs c s).uau.orphan = s.uau.orphan := by rw [suckInk, setBook_uau, drawn]
    rw [chargeSuction_draws h, if_neg h, ← waste, ← orphan]
    unfold wasteDebit
    simp only [waste, unfitted, true_and]
    rfl

/-! ### A whole run (R32) -/

/-- The two channels of head `h` debited for `revs` revolutions. -/
def suctionPair (h : Fin 3) (revs : Nat) (s : State) : State :=
  chargeSuction revs (secondChannel h) (chargeSuction revs (firstChannel h) s)

theorem suctionPair_debitsOnly (h : Fin 3) (revs : Nat) (s : State) : DebitsOnly s (suctionPair h revs s) :=
  (chargeSuction_debitsOnly revs _ s).trans (chargeSuction_debitsOnly revs _ _)

theorem firstChannel_ne_secondChannel (h : Fin 3) : firstChannel h ≠ secondChannel h := by revert h; decide

theorem headOf_eq_iff (c : Fin 6) (h : Fin 3) : headOf c = h ↔ c = firstChannel h ∨ c = secondChannel h := by
  revert c h; decide

theorem suctionPair_booked (h : Fin 3) (revs : Nat) (s : State) : SuctionBooked h revs s (suctionPair h revs s) := by
  have params := (chargeSuction_debitsOnly revs (firstChannel h) s).params
  have apart := firstChannel_ne_secondChannel h
  intro c
  dsimp only
  by_cases here : headOf c = h
  · rw [if_pos here]
    rcases (headOf_eq_iff c h).mp here with rfl | rfl
    · rw [suctionPair, book_chargeSuction_other _ _ apart.symm, book_chargeSuction, chan_chargeSuction_other _ _ apart.symm,
        estimate_chargeSuction]
      exact ⟨rfl, rfl⟩
    · rw [suctionPair, book_chargeSuction, estimate_chargeSuction, suckedBook, suctionAmount, params,
        book_chargeSuction_other _ _ apart, chan_chargeSuction_other _ _ apart]
      exact ⟨rfl, rfl⟩
  · obtain ⟨first, second⟩ := not_or.mp (mt (headOf_eq_iff c h).mpr here)
    rw [if_neg here, suctionPair,
      book_chargeSuction_other _ _ (Ne.symm second), book_chargeSuction_other _ _ (Ne.symm first),
      chan_chargeSuction_other _ _ (Ne.symm second), chan_chargeSuction_other _ _ (Ne.symm first)]
    exact ⟨rfl, rfl⟩

theorem suctionPair_orphan (h : Fin 3) (revs : Nat) {s : State} (unfitted : s.uau.waste.fittedData = none) :
    let amount := revs * (s.params.suctionYield.get (firstChannel h) + s.params.suctionYield.get (secondChannel h))
    (suctionPair h revs s).uau.waste = s.uau.waste ∧
      (suctionPair h revs s).uau.orphan =
        if amount = 0 then s.uau.orphan else min (s.uau.orphan + amount) 4294967295 := by
  have params := (chargeSuction_debitsOnly revs (firstChannel h) s).params
  obtain ⟨waste, orphan⟩ := waste_chargeSuction revs (firstChannel h) unfitted
  obtain ⟨waste', orphan'⟩ := waste_chargeSuction revs (secondChannel h)
    (s := chargeSuction revs (firstChannel h) s) (by rw [waste]; exact unfitted)
  refine ⟨waste'.trans waste, orphan'.trans ?_⟩
  rw [orphan, suctionAmount, suctionAmount, params, Nat.mul_add]
  split <;> split <;> split <;> omega

theorem SuctionBooked.nothing (h : Fin 3) (s : State) : SuctionBooked h 0 s s := by
  intro c
  simp only [Nat.zero_mul, ite_self, Nat.sub_zero, Nat.add_zero, if_true, true_and]

/-- A run of no revolutions draws nothing. -/
theorem suctionPair_zero (h : Fin 3) (s : State) : suctionPair h 0 s = s := by
  rw [suctionPair, chargeSuction_nothing (c := firstChannel h) (Nat.zero_mul _), chargeSuction_nothing (Nat.zero_mul _)]

theorem suctionDebit_unfitted (h : Fin 3) (revs : Nat) {s : State} (unfitted : s.uau.waste.fittedData = none) :
    suctionDebit h revs s = (suctionPair h revs s, supplyActs s (suctionPair h revs s)) := by
  have waste := (suctionPair_orphan h revs unfitted).1
  unfold suctionDebit
  split
  · next none =>
    rw [none, suctionPair_zero, supplyActs_same fun c => rfl]
    rfl
  · dsimp only
    rw [← suctionPair, testWaste_unfitted (by rw [waste]; exact unfitted)]
    exact congrArg (Prod.mk _) (List.append_nil _)

end Sys2Proof.Machine
end

