-- ==== Sys2Proof/Proofs/WasteCartridge.lean ====
section
/-!
SUPPORT. The read of the waste chip and the waste presence switch, where no cycle is in SUCKING (R35, R37, R38).
-/

namespace Sys2Proof.Machine

/-- A change of the waste state that neither aborts a cycle nor ends a hold changes nothing (R111, R112). -/
theorem wasteChanged_inert {s : State} (keeps : ¬ (s.uau.waste.state = .absent ∧ s.cls.stage = .sucking))
    (full : s.cls.hold ≠ some .wasteFull) (absent : s.cls.hold ≠ some .wasteAbsent) :
    perform .wasteChanged s = (s, []) := by
  show clsWasteChanged s = _
  unfold clsWasteChanged
  rw [if_neg keeps, if_neg (not_or.mpr ⟨full, absent⟩)]
  rfl

/-! ### The read of the waste chip (R35, R37) -/

theorem cls_wasteEvent (now : WasteState) (s : State) : (wasteEvent now s).cls = s.cls :=
  cls_of_wasteOnly (wasteEvent_wasteOnly now s)

theorem waste_wasteEvent (now : WasteState) (s : State) : (wasteEvent now s).uau = s.uau := by
  cases now <;> rfl

/-- The cartridge fitted at the state `now` of its thresholds, with its event (R35, R37). -/
def fitAt (capacity fill : Nat) (now : WasteState) (s : State) : State :=
  wasteEvent now (setWaste ⟨now, some ⟨capacity, fill, fill * 1000, 0⟩, false⟩ s)

theorem state_fitAt (capacity fill : Nat) (now : WasteState) (s : State) :
    (fitAt capacity fill now s).uau.waste.state = now := by
  rw [fitAt, waste_wasteEvent]
  rfl

theorem cls_fitAt (capacity fill : Nat) (now : WasteState) (s : State) : (fitAt capacity fill now s).cls = s.cls :=
  cls_wasteEvent now _

/-- What the chip's record fits: the state of its thresholds with its event, or FAULT on a capacity of 0. -/
def wasteFitted (r : Vector Byte 6) (s : State) : State :=
  if field r.toList 0 2 = 0 then setWaste { s.uau.waste with state := .fault } s
  else fitAt (field r.toList 0 2) (field r.toList 2 4) (wasteLevel (field r.toList 0 2) (field r.toList 2 4 * 1000)) s

theorem fitWaste_eq (r : Vector Byte 6) (s : State) : fitWaste r s = (wasteFitted r s, [.wasteChanged]) := by
  unfold fitWaste wasteFitted fitAt
  dsimp only
  split <;> rfl

theorem cls_wasteFitted (r : Vector Byte 6) (s : State) : (wasteFitted r s).cls = s.cls := by
  unfold wasteFitted
  split
  · rfl
  · exact cls_fitAt _ _ _ s

theorem wasteLevel_ne_absent (capacity estimate : Nat) : wasteLevel capacity estimate ≠ .absent := by
  have fitted := wasteLevel_isFitted capacity estimate
  intro gone
  rw [gone] at fitted
  cases fitted

theorem wasteFitted_present (r : Vector Byte 6) (s : State) : (wasteFitted r s).uau.waste.state ≠ .absent := by
  unfold wasteFitted
  split
  · exact nofun
  · rw [state_fitAt]
    exact wasteLevel_ne_absent _ _

section
variable {scan : Bool} {n : Nat} {ts : List Trans} {s : State} (awake : Awake s) (executing : s.spu.bus.executing = true)
  (front : s.spu.bus.queue = ⟨.waste, .read, scan, n⟩ :: ts) (reading : s.uau.waste.state = .reading)
include executing front reading

theorem wasteRead_reading (r : Vector Byte 6) (left : n < 4) : wasteRead r s = fitWaste r (ended s) := by
  have reads : (ended s).uau.waste.state = .reading := reading
  simp only [wasteRead, executing_some executing front, Config.busAttempts, left, reads, if_true]

theorem wasteReadFails_reading (last : 3 ≤ n) : wasteReadFails s = wasteFault (ended s) := by
  have fourth : canFail ⟨.waste, .read, scan, n⟩ = true := by simp [canFail, Config.busAttempts, last]
  have reads : (ended s).uau.waste.state = .reading := reading
  simp only [wasteReadFails, executing_some executing front]
  rw [if_pos fourth, if_pos reads]

variable (full : s.cls.hold ≠ some .wasteFull) (absent : s.cls.hold ≠ some .wasteAbsent)
include awake full absent

theorem exec_wasteReadDone (r : Vector Byte 6) (left : n < 4) :
    exec (.wasteReadDone r) s = .next (wasteFitted r (ended s)) := by
  simp only [exec, execWasteReadDone, event_awake awake, wasteRead_reading executing front reading r left, fitWaste_eq]
  have kept := cls_wasteFitted r (ended s)
  exact settle_one (wasteChanged_inert (fun gone => wasteFitted_present r _ gone.1) (by rw [kept]; exact full)
    (by rw [kept]; exact absent))

theorem exec_wasteReadFail (last : 3 ≤ n) :
    exec .wasteReadFail s = .next (setWaste { s.uau.waste with state := .fault } (onBus Bus.finish s)) := by
  simp only [exec, execWasteReadFail, event_awake awake, wasteReadFails_reading executing front reading last]
  exact settle_one (wasteChanged_inert (fun gone => nomatch gone.1) full absent)

end

/-- The states that a read leaves, by the capacity and the thresholds of its record (R35, R37). -/
theorem wasteFitted_cases (r : Vector Byte 6) (s : State) :
    let capacity := field r.toList 0 2
    let fill := field r.toList 2 4
    let fitted (st : WasteState) : State := setWaste ⟨st, some ⟨capacity, fill, fill * 1000, 0⟩, false⟩ s
    (capacity = 0 → wasteFitted r s = setWaste { s.uau.waste with state := .fault } s) ∧
      (capacity ≠ 0 → fill * 1000 < capacity * 900000 → wasteFitted r s = fitted .fitted) ∧
      (capacity ≠ 0 → capacity * 900000 ≤ fill * 1000 → fill * 1000 < capacity * 980000 →
        wasteFitted r s = raise .wasteNearFull 0 none (fitted .nearFull)) ∧
      (capacity ≠ 0 → capacity * 980000 ≤ fill * 1000 → wasteFitted r s = raise .wasteFull 0 none (fitted .full)) := by
  unfold wasteFitted
  dsimp only
  generalize field r.toList 0 2 = capacity
  generalize field r.toList 2 4 = fill
  refine ⟨fun none => if_pos none, fun some low => ?_, fun some high low => ?_, fun some high => ?_⟩
  · have level : wasteLevel capacity (fill * 1000) = .fitted := by
      rw [wasteLevel, if_pos low]
    rw [if_neg some, level]
    rfl
  · have level : wasteLevel capacity (fill * 1000) = .nearFull := by
      rw [wasteLevel, if_neg (Nat.not_lt.mpr high), if_pos low]
    rw [if_neg some, level]
    rfl
  · have level : wasteLevel capacity (fill * 1000) = .full := by
      have above : capacity * 900000 ≤ fill * 1000 :=
        Nat.le_trans (Nat.mul_le_mul_left capacity (by decide)) high
      rw [wasteLevel, if_neg (Nat.not_lt.mpr above), if_neg (Nat.not_lt.mpr high)]
    rw [if_neg some, level]
    rfl

/-! ### The presence switch (R35, R38) -/

/-- The cartridge taken out: ABSENT, its fields and transactions discarded, WASTE_REMOVED raised (R38). -/
def wasteTaken (s : State) : State :=
  raise .wasteRemoved 0 none
    (onBus (·.removeChip .waste) (setWaste ⟨.absent, none, false⟩ (setWastePresence false s)))

theorem removeWaste_present {s : State} (h : s.uau.waste.state ≠ .absent) :
    removeWaste (setWastePresence false s) = (wasteTaken s, [.wasteChanged]) := if_neg h

theorem insertWaste_absent {s : State} (h : s.uau.waste.state = .absent) :
    insertWaste (setWastePresence true s) =
      (onBus (·.pushRead .waste false) (setWaste { s.uau.waste with state := .reading } (setWastePresence true s)),
        [.wasteChanged]) := if_pos h

section
variable {s : State} (awake : Awake s) (full : s.cls.hold ≠ some .wasteFull) (absent : s.cls.hold ≠ some .wasteAbsent)
include awake full absent

theorem exec_wastePresenceClose (opened : s.pins.wastePresence = false) (empty : s.uau.waste.state = .absent) :
    exec .wastePresenceClose s =
      .next (onBus (·.pushRead .waste false)
        (setWaste { s.uau.waste with state := .reading } (setWastePresence true s))) := by
  simp only [exec, execWastePresenceClose]
  rw [watched_awake awake (by rw [opened]; rfl), insertWaste_absent empty]
  exact settle_one (wasteChanged_inert (fun gone => nomatch gone.1) full absent)

theorem exec_wastePresenceOpen (closed : s.pins.wastePresence = true) (present : s.uau.waste.state ≠ .absent)
    (stage : s.cls.stage ≠ .sucking) : exec .wastePresenceOpen s = .next (wasteTaken s) := by
  simp only [exec, execWastePresenceOpen]
  rw [watched_awake awake closed, removeWaste_present present]
  exact settle_one (wasteChanged_inert (fun gone => stage gone.2) full absent)

end

end Sys2Proof.Machine
end

