-- ==== Sys2Proof/Proofs/CycleAborted.lean ====
section
/-!
SUPPORT. A cycle in SUCKING whose waste cartridge is taken out: the run stopped and debited, the heads folded back, the
cycle recorded and the zone handed back (R74, R111, R112). Settles O22.
-/

namespace Sys2Proof.Machine

/-! ### The run stopped (R59, R111) -/

/-- The state once a running pump is stopped and its run debited without a cartridge fitted. -/
def runStopped (s : State) : State :=
  if s.stc.pump.running then
    match s.stc.selector with
    | none => stopPump s
    | some h => suctionPair h s.stc.pump.revs (recordRun h s.stc.pump.revs (stopPump s))
  else s

theorem stopRun_unfitted {s : State} (unfitted : s.uau.waste.fittedData = none) :
    ∃ u v, stopRun s = (runStopped s, supplyActs u v) := by
  have same : supplyActs s s = [] := supplyActs_same fun _ => rfl
  unfold stopRun runStopped
  split
  · unfold debitRun
    show ∃ u v, (match s.stc.selector with
      | none => Run.done (stopPump s)
      | some h => suctionDebit h s.stc.pump.revs (recordRun h s.stc.pump.revs (stopPump s))) = _
    cases s.stc.selector with
    | none => exact ⟨s, s, by rw [same]; rfl⟩
    | some h => exact ⟨_, _, suctionDebit_unfitted h _ unfitted⟩
  · exact ⟨s, s, by rw [same]; rfl⟩

/-- What the stopped run changes (R32, R59, R111): the pump, the cycle's heads, the books of its head and the orphan-waste
counter; and no event but CHANNEL_STARVED and OVERCOMMITTED. -/
structure RunStopped (s t : State) : Prop where
  pins : t.pins = s.pins
  orq : t.orq = s.orq
  stc : t.stc =
    { s.stc with
      pump := { s.stc.pump with running := false }, stall := if s.stc.pump.running then none else s.stc.stall }
  cls : t.cls = { s.cls with heads := headsStopped s }
  waste : t.uau.waste = s.uau.waste
  bus : t.spu.bus = s.spu.bus
  untold : ∀ k, k ≠ .channelStarved → k ≠ .overcommitted → Untold k s t
  still : s.stc.pump.running = false → SuctionBooked 0 0 s t ∧ t.uau.orphan = s.uau.orphan
  run : ∀ h, s.stc.pump.running = true → s.stc.selector = some h →
    let amount := s.stc.pump.revs
      * (s.params.suctionYield.get (firstChannel h) + s.params.suctionYield.get (secondChannel h))
    SuctionBooked h s.stc.pump.revs s t ∧
      t.uau.orphan = if amount = 0 then s.uau.orphan else min (s.uau.orphan + amount) 4294967295

theorem headsStopped_of_none {s : State} (h : s.stc.selector = none) : headsStopped s = s.cls.heads := by
  simp [headsStopped, h]

theorem headsStopped_of_still {s : State} (h : s.stc.pump.running = false) : headsStopped s = s.cls.heads := by
  simp [headsStopped, h]

theorem headsStopped_of_run {s : State} {h : Fin 3} (running : s.stc.pump.running = true)
    (joined : s.stc.selector = some h) :
    headsStopped s = s.cls.heads.map fun x => if x.head = h then { x with done := s.stc.pump.revs } else x := by
  simp only [headsStopped, running, joined, true_and, Option.some.injEq, eq_comm]

theorem stc_stopPump {s : State} (running : s.stc.pump.running = true) :
    (stopPump s).stc =
      { s.stc with
        pump := { s.stc.pump with running := false }, stall := if s.stc.pump.running then none else s.stc.stall } := by
  rw [running]
  rfl

theorem runStopped_still {s : State} (still : s.stc.pump.running = false) : RunStopped s s where
  pins := rfl
  orq := rfl
  stc := by
    have pump : ({ s.stc.pump with running := false } : Pump) = s.stc.pump := by rw [← still]
    rw [pump, still]
    rfl
  cls := by rw [headsStopped_of_still still]
  waste := rfl
  bus := rfl
  untold k _ _ := Untold.refl k s
  still _ := ⟨SuctionBooked.nothing 0 s, rfl⟩
  run _ running := by rw [still] at running; cases running

theorem runStopped_unjoined {s : State} (running : s.stc.pump.running = true) (unjoined : s.stc.selector = none) :
    RunStopped s (stopPump s) where
  pins := rfl
  orq := rfl
  stc := stc_stopPump running
  cls := by rw [headsStopped_of_none unjoined]; rfl
  waste := rfl
  bus := rfl
  untold _ _ _ := untold_of_evu rfl
  still idle := by rw [idle] at running; cases running
  run _ _ joined := by rw [unjoined] at joined; cases joined

theorem runStopped_joined {s : State} {h : Fin 3} (running : s.stc.pump.running = true)
    (joined : s.stc.selector = some h) (unfitted : s.uau.waste.fittedData = none) :
    RunStopped s (suctionPair h s.stc.pump.revs (recordRun h s.stc.pump.revs (stopPump s))) := by
  generalize hu : recordRun h s.stc.pump.revs (stopPump s) = u
  have debits := suctionPair_debitsOnly h s.stc.pump.revs u
  have kept := debits.kept
  simp only [keptByUsage, Prod.mk.injEq] at kept
  obtain ⟨-, -, -, -, -, -, pins, stc, orq, cls, -⟩ := kept
  have waste := suctionPair_orphan h s.stc.pump.revs (s := u) (by rw [← hu]; exact unfitted)
  exact {
    pins := pins.trans (by rw [← hu]; rfl)
    orq := orq.trans (by rw [← hu]; rfl)
    stc := stc.trans (by rw [← hu]; exact stc_stopPump running)
    cls := cls.trans (by rw [← hu, headsStopped_of_run running joined]; rfl)
    waste := by rw [waste.1, ← hu]; rfl
    bus := by rw [debits.bus, ← hu]; rfl
    untold := fun k starved exceeded =>
      Untold.trans (t := u) (by rw [← hu]; exact untold_of_evu rfl) (debits.untold k starved exceeded)
    still := fun idle => by rw [idle] at running; cases running
    run := fun h' _ joined' => by
      rw [joined] at joined'
      cases joined'
      have booked := suctionPair_booked h s.stc.pump.revs u
      have orphan := waste.2
      rw [← hu] at booked orphan ⊢
      exact ⟨booked, orphan⟩ }

theorem runStopped_spec {s : State} (unfitted : s.uau.waste.fittedData = none) : RunStopped s (runStopped s) := by
  unfold runStopped
  cases running : s.stc.pump.running with
  | false => exact runStopped_still running
  | true =>
    rw [if_pos rfl]
    cases joined : s.stc.selector with
    | none => exact runStopped_unjoined running joined
    | some h => exact runStopped_joined running joined unfitted

/-! ### The heads folded back (R95, R111) -/

/-- From `s` to `t` nothing has changed but the cleaning table and a hold. -/
structure FoldOnly (s t : State) : Prop where
  frame : { t with cls := s.cls } = s
  cls : { t.cls with table := s.cls.table, hold := s.cls.hold } = s.cls

/-- One head folded back into its entry. -/
def foldHead (s : State) (x : CycleHead) : State := foldRequest x.head x.level x.urgent x.origins s

theorem foldBack_eq (s : State) :
    foldBack s = (s.cls.heads.filter fun x => !s.cls.cancelled.contains x.head).foldl foldHead s := rfl

theorem foldHeads_foldOnly (l : List CycleHead) : ∀ s, FoldOnly s (l.foldl foldHead s) := by
  induction l with
  | nil => exact fun s => ⟨rfl, rfl⟩
  | cons x l ih =>
    intro s
    obtain ⟨frame, cls⟩ := ih (foldHead s x)
    exact ⟨(congrArg (fun y : State => { y with cls := s.cls }) frame).trans rfl,
      (congrArg (fun y : Cls => { y with table := s.cls.table, hold := s.cls.hold }) cls).trans rfl⟩

theorem entryOf_foldHeads (l : List CycleHead) (h : Fin 3) : ∀ s,
    entryOf (l.foldl foldHead s) h =
      (l.filter fun x => x.head == h).foldl (fun e x => e.fold x.level x.urgent x.origins) (entryOf s h) := by
  induction l with
  | nil => exact fun s => rfl
  | cons x l ih =>
    intro s
    rw [List.foldl_cons, ih, foldHead, entryOf_foldRequest, List.filter_cons]
    by_cases here : x.head = h
    · subst here
      rw [if_pos rfl, if_pos (beq_self_eq_true _)]
      rfl
    · rw [if_neg (Ne.symm here), if_neg (by simpa using here)]

theorem foldBack_foldedBack (s : State) : FoldedBack s.cls.heads s.cls.cancelled s (foldBack s) := by
  intro h
  rw [foldBack_eq, entryOf_foldHeads, List.filter_filter]
  congr 1
  refine List.filter_congr fun x _ => ?_
  by_cases here : x.head = h
  · rw [here]
  · have other : (x.head == h) = false := beq_eq_false_iff_ne.mpr here
    rw [other, Bool.false_and, Bool.false_and]

/-! ### The cycle closed and the zone given back (R111, R112) -/

/-- The aborted cycle closed with cause WASTE_ABSENT, and the handback begun. -/
def cycleClosed (s : State) : State :=
  let x := closeAborted .wasteAbsent (releaseSelector s)
  startHandBack .cls (setCls
    { x.cls with
      stage := .none, heads := [], suckLeft := [], spitLeft := [], outstanding := [], escalated := 0, abort := none } x)

/-- The safe point of the abort, with the pump stopped and no order of the cycle taken. -/
theorem safePoint_closes {s : State} (abort : s.cls.abort = some .wasteAbsent) (stage : s.cls.stage = .sucking)
    (still : s.stc.pump.running = false) (untaken : cycleOrderTaken s = false) :
    perform .safePoint s = (cycleClosed s, [.clsClaim, .handBack]) := by
  show safePoint s = _
  unfold safePoint
  simp only [abort]
  rw [if_pos (by simp [stage, still, untaken, Stage.running])]
  rfl

/-- What the close and the handback's begin change. -/
structure CycleClosed (s t : State) : Prop where
  pins : t.pins = s.pins
  orq : t.orq = s.orq
  uau : t.uau = s.uau
  spu : t.spu = s.spu
  stc : t.stc = { s.stc with selector := none, handingBack := true }
  cls : t.cls = { s.cls.aborted .wasteAbsent s.cls.heads with table := t.cls.table, hold := some .wasteAbsent }
  folded : FoldedBack s.cls.heads s.cls.cancelled s t
  told : Told .cleanAborted (several (s.cls.heads.map fun x => x.head.val)) (some (.cleanCause .wasteAbsent)) s t
  untold : ∀ k, k ≠ .cleanAborted → Untold k s t

/-- The abort told, before the heads are folded back. -/
def abortTold (s : State) : State :=
  raise .cleanAborted (headSubjects (s.cls.heads.map CycleHead.head)) (some (.cleanCause .wasteAbsent)) s

/-- The aborted cycle's heads folded back, the selector released and the abort told. -/
def headsReturned (s : State) : State := foldBack (abortTold (setStc { s.stc with selector := none } s))

theorem startHandBack_held {s : State} {who : Claimant} (h : s.stc.holder = some who) :
    startHandBack who s = setStc { s.stc with handingBack := true } s := if_pos h

theorem cycleClosed_eq {s : State} (still : s.stc.pump.running = false) (holder : s.stc.holder = some .cls) :
    cycleClosed s =
      { headsReturned s with
        stc := { s.stc with selector := none, handingBack := true }
        cls := { (headsReturned s).cls.aborted .wasteAbsent s.cls.heads with hold := some .wasteAbsent } } := by
  have released : releaseSelector s = setStc { s.stc with selector := none } s := if_neg (by simp [still])
  have stc : (headsReturned s).stc = { s.stc with selector := none } := by
    have kept := congrArg State.stc (foldHeads_foldOnly
      (s.cls.heads.filter fun x => !s.cls.cancelled.contains x.head)
      (abortTold (setStc { s.stc with selector := none } s))).frame
    exact kept
  have closed : closeAborted .wasteAbsent (setStc { s.stc with selector := none } s) =
      setCls { (headsReturned s).cls with
        hold := some .wasteAbsent, last := (s.cls.aborted .wasteAbsent s.cls.heads).last } (headsReturned s) := rfl
  unfold cycleClosed
  rw [released, closed]
  refine (startHandBack_held ?_).trans ?_
  · show (headsReturned s).stc.holder = some .cls
    rw [stc]
    exact holder
  · show setStc { (headsReturned s).stc with handingBack := true } _ = _
    rw [stc]
    rfl

theorem cycleClosed_spec {s : State} (still : s.stc.pump.running = false) (holder : s.stc.holder = some .cls) :
    CycleClosed s (cycleClosed s) := by
  obtain ⟨frame, cls⟩ : FoldOnly (abortTold (setStc { s.stc with selector := none } s)) (headsReturned s) :=
    foldHeads_foldOnly _ _
  have cancelled := congrArg Cls.cancelled cls
  have told : Told .cleanAborted (several (s.cls.heads.map fun x => x.head.val)) (some (.cleanCause .wasteAbsent)) s
      (abortTold (setStc { s.stc with selector := none } s)) := by
    have fresh : Untold .cleanAborted s (setStc { s.stc with selector := none } s) := untold_of_evu rfl
    have raised := fresh.raise_self (headSubjects (s.cls.heads.map CycleHead.head)) (some (.cleanCause .wasteAbsent))
    have subjects : headSubjects (s.cls.heads.map CycleHead.head) = several (s.cls.heads.map fun x => x.head.val) := by
      rw [headSubjects, List.map_map]
      rfl
    rw [← subjects]
    exact raised
  have evu : (headsReturned s).evu = (abortTold (setStc { s.stc with selector := none } s)).evu := by
    have kept := congrArg State.evu frame
    exact kept
  rw [cycleClosed_eq still holder]
  exact {
    pins := by have kept := congrArg State.pins frame; exact kept
    orq := by have kept := congrArg State.orq frame; exact kept
    uau := by have kept := congrArg State.uau frame; exact kept
    spu := by have kept := congrArg State.spu frame; exact kept
    stc := rfl
    cls := by
      have same : (headsReturned s).cls.cancelled = s.cls.cancelled := cancelled
      simp only [Cls.aborted, same]
    folded := foldBack_foldedBack _
    told := told.of_evu evu
    untold := fun k n =>
      ((untold_of_evu (t := setStc { s.stc with selector := none } s) rfl).raise_other _ _ n.symm).of_evu evu }

/-! ### The handback (R74) -/

theorem not_moving {s : State} (retracted : wiperIsRetracted s = true) (up : sledIsUp s = true) : ¬ Moving s := by
  simp only [wiperIsRetracted, sledIsUp, Bool.and_eq_true, Option.isNone_iff_eq_none] at retracted up
  exact fun moving => moving.elim (fun sled => sled up.1) fun wiper => wiper retracted.1

theorem not_down_of_up {s : State} (up : sledIsUp s = true) : sledIsDown s = false := by
  simp only [sledIsUp, Bool.and_eq_true, beq_iff_eq] at up
  simp only [sledIsDown, up.2]
  exact Bool.and_false _

section
variable {s c : State} (stc : c.stc = s.stc.handsBack) (servicing : s.stc.state = .servicing)
include stc

theorem moving_handsBack : (c.stc.sled.motion.isSome = true ∨ c.stc.wiper.motion.isSome = true) ↔ Moving s := by
  rw [stc]
  simp only [Stc.handsBack, Moving, Option.isSome_iff_ne_none]

theorem retracted_handsBack : wiperIsRetracted c = wiperIsRetracted s := by
  simp only [wiperIsRetracted, stc]
  rfl

theorem up_handsBack : sledIsUp c = sledIsUp s := by
  simp only [sledIsUp, stc]
  rfl

theorem down_handsBack : sledIsDown c = sledIsDown s := by
  simp only [sledIsDown, stc]
  rfl

include servicing

theorem handBack_moving (moving : Moving s) : perform .handBack c = (c, []) := by
  show handBack c = _
  unfold handBack
  rw [if_pos (by rw [stc]; exact ⟨servicing, rfl⟩), if_pos ((moving_handsBack stc).mpr moving)]
  rfl

theorem handBack_retracts (still : ¬ Moving s) (out : wiperIsRetracted s = false)
    (pin : c.pins.wiperRetracted = false) :
    perform .handBack c =
      (setStc { c.stc with wiper := { c.stc.wiper with motion := some (.retracted, 0) } } c, []) := by
  have idle : ¬ c.stc.wiper.motion.isSome = true := fun moves => still ((moving_handsBack stc).mp (.inr moves))
  have commanded : c.stc.wiper.command .retracted (wiperSensor c .retracted)
      = ({ c.stc.wiper with motion := some (.retracted, 0) }, false) := by
    rw [Moved.command, if_neg idle, wiperSensor, pin]
    rfl
  show handBack c = _
  unfold handBack
  rw [if_pos (by rw [stc]; exact ⟨servicing, rfl⟩), if_neg (mt (moving_handsBack stc).mp still),
    if_pos (by rw [retracted_handsBack stc, out]; decide), wiperCommand, commanded]
  rfl

theorem handBack_lowers (retracted : wiperIsRetracted s = true) (up : sledIsUp s = true) (out : s.stc.home = false)
    (pin : c.pins.sledDown = false) :
    perform .handBack c = (setStc { c.stc with sled := { c.stc.sled with motion := some (.down, 0) } } c, []) := by
  have still := not_moving retracted up
  have idle : ¬ c.stc.sled.motion.isSome = true := fun moves => still ((moving_handsBack stc).mp (.inl moves))
  have stopped : ¬ c.stc.pump.running = true := by rw [stc]; exact nofun
  have commanded : c.stc.sled.command .down (sledSensor c .down)
      = ({ c.stc.sled with motion := some (.down, 0) }, false) := by
    rw [Moved.command, if_neg idle, sledSensor, pin]
    rfl
  show handBack c = _
  unfold handBack
  rw [if_pos (by rw [stc]; exact ⟨servicing, rfl⟩), if_neg (mt (moving_handsBack stc).mp still),
    if_neg (by rw [retracted_handsBack stc, retracted]; decide),
    if_neg (by rw [stc]; exact fun parked => by rw [show s.stc.home = true from parked.1] at out; cases out),
    if_neg (by rw [down_handsBack stc, not_down_of_up up]; decide), sledCommand, if_neg stopped, commanded]
  rfl

theorem handBack_caps (still : ¬ Moving s) (retracted : wiperIsRetracted s = true) (up : sledIsUp s = true)
    (home : s.stc.home = true) : perform .handBack c = enterCapped (endSession c) := by
  show handBack c = _
  unfold handBack
  rw [if_pos (by rw [stc]; exact ⟨servicing, rfl⟩), if_neg (mt (moving_handsBack stc).mp still),
    if_neg (by rw [retracted_handsBack stc, retracted]; decide), if_pos (by rw [up_handsBack stc, stc]; exact ⟨home, up⟩)]

end

/-- Where the handback waits for a motion, nothing but the station's record changes, as R74 has it. -/
theorem handBack_waits {s c : State} (stc : c.stc = s.stc.handsBack) (servicing : s.stc.state = .servicing)
    (wiperPin : c.pins.wiperRetracted = s.pins.wiperRetracted) (sledPin : c.pins.sledDown = s.pins.sledDown)
    (waits : HandBackWaits s) :
    ∃ x, perform .handBack c = (setStc x c, []) ∧ x.claims = s.stc.claims ∧
      ∀ t : State, t.stc = x → HandBackBegun s t := by
  by_cases moving : Moving s
  · refine ⟨s.stc.handsBack, ?_, rfl, fun t is => ⟨fun _ => by rw [is], fun still => absurd moving still, ?_⟩⟩
    · rw [handBack_moving stc servicing moving, ← stc]
      rfl
    · exact fun retracted up _ _ => absurd moving (not_moving retracted up)
  · cases out : wiperIsRetracted s with
    | false =>
      have pin : s.pins.wiperRetracted = false :=
        (waits.resolve_left moving).elim (fun wiper => wiper.2) fun sled => by rw [out] at sled; cases sled.1
      refine ⟨_, handBack_retracts stc servicing moving out (wiperPin.trans pin), by rw [stc]; rfl, fun t is =>
        ⟨fun moves => absurd moves moving, fun _ _ _ => by rw [is, stc], ?_⟩⟩
      intro retracted
      rw [out] at retracted
      cases retracted
    | true =>
      obtain ⟨-, up, home, pin⟩ : wiperIsRetracted s = true ∧ sledIsUp s = true ∧ s.stc.home = false ∧
          s.pins.sledDown = false :=
        (waits.resolve_left moving).resolve_left fun wiper => by rw [out] at wiper; cases wiper.1
      refine ⟨_, handBack_lowers stc servicing out up home (sledPin.trans pin), by rw [stc]; rfl, fun t is =>
        ⟨fun moves => absurd moves moving, ?_, fun _ _ _ _ => by rw [is, stc]⟩⟩
      intro _ astray
      rw [out] at astray
      cases astray

theorem freeMoment_unclaimed {s : State} (free : Unclaimed s) : perform (.freeMoment false) s = (s, []) := by
  obtain ⟨claims, entry, capping⟩ := free
  show freeMoment false s = _
  unfold freeMoment
  split
  · rw [claims, capping]
    simp only [List.find?_nil, Bool.false_eq_true, or_self, and_false, if_false, Run.done]
  · rfl

/-- The zone back in CAPPED, with nothing waiting (R63, R74, R88). -/
def cappedIn (s : State) : State :=
  let x := (removeQueued .exposure (resetExposure (setStc { (endSession s).stc with state := .capped } s))).1
  setOrq { x.orq with waiting := [] } x

/-- Where the sled is UP in park, the zone is back at once, and no claim or placement moves it on (R73, R74, R81). -/
theorem handBack_capped {c : State} (caps : perform .handBack c = enterCapped (endSession c))
    (unclaimed : c.stc.claims = [] ∧ c.stc.entry ≠ .waiting ∧ c.stc.cappingDue = false) (empty : c.orq.waiting = [])
    (n : Nat) : runActs (n + 3) (c, [.handBack]) = (cappedIn c, []) := by
  have entered : perform .handBack c =
      ((enterCapped (endSession c)).1, [.enterWaiting, .freeMoment false]) := caps
  have waited : perform .enterWaiting (enterCapped (endSession c)).1 = (cappedIn c, []) := by
    show enterWaitingFrom c.orq.waiting _ = _
    rw [empty]
    rfl
  have moment : perform (.freeMoment false) (cappedIn c) = (cappedIn c, []) := freeMoment_unclaimed unclaimed
  rw [runActs_cons, entered, List.append_nil, runActs_cons, waited, List.nil_append, runActs_cons, moment]
  exact runActs_nil n _

/-! ### The cartridge taken out in SUCKING (R38, R111) -/

/-- The abort marked on the cycle, the CLS's waiting placement withdrawn (R111). -/
def abortMarked (s : State) : State := withdraw .cls (setCls { s.cls with abort := some .wasteAbsent } s)

theorem wasteChanged_aborts {s : State} (gone : s.uau.waste = ⟨.absent, none, false⟩) (stage : s.cls.stage = .sucking)
    (unaborted : s.cls.abort = none) (unchecked : s.dtu.clsCheck = none) :
    ∃ u v, perform .wasteChanged s = (runStopped (abortMarked s), supplyActs u v ++ [.safePoint]) := by
  have runs : cycleRuns s = true := by simp [cycleRuns, stage, unaborted, Stage.running]
  have check : dtuEndCheck (abortMarked s) = abortMarked s :=
    if_neg (by simp [abortMarked, withdraw, setCls, setOrq, unchecked])
  have unfitted : (abortMarked s).uau.waste.fittedData = none := by
    show s.uau.waste.fittedData = none
    rw [gone]
    rfl
  obtain ⟨u, v, stopped⟩ := stopRun_unfitted unfitted
  refine ⟨u, v, ?_⟩
  show clsWasteChanged s = _
  unfold clsWasteChanged abortCycle
  rw [if_pos ⟨by rw [gone], stage⟩, if_pos runs]
  dsimp only
  rw [← abortMarked, check, stopped]
  rfl

theorem settle_aborted {s b c t : State} {u v : State}
    (aborts : perform .wasteChanged s = (b, supplyActs u v ++ [.safePoint])) (stage : b.cls.stage ≠ .waitInk)
    (safe : perform .safePoint b = (c, [.clsClaim, .handBack])) (held : c.cls.hold ≠ none)
    (handed : ∀ n, runActs (n + 3) (c, [.handBack]) = (t, [])) : settle (s, [.wasteChanged]) = .next t := by
  have claim : perform .clsClaim c = (c, []) := by
    show clsClaim c = _
    unfold clsClaim
    rw [if_neg (by simp [Option.isNone_iff_eq_none, held])]
    rfl
  apply settle_of_runActs
  have bound := length_supplyActs_le u v
  obtain ⟨n, hn⟩ : ∃ n, Config.cascadeLimit = (supplyActs u v).length + (n + 3 + 1 + 1) + 1 :=
    ⟨Config.cascadeLimit - ((supplyActs u v).length + 6), by simp only [Config.cascadeLimit]; omega⟩
  rw [hn, runActs_cons, aborts]
  dsimp only
  rw [List.append_nil, runActs_inert_append [.safePoint] _ (supplyActs_inert u v stage), runActs_cons, safe]
  dsimp only [List.append_nil]
  rw [List.append_nil, runActs_cons, claim]
  exact handed n

/-- What the removal of the cartridge in SUCKING leaves, the station's record aside (R32, R36, R38, R111, R112). -/
structure CycleEnded (s t : State) : Prop where
  pins : t.pins = { s.pins with wastePresence := false }
  waste : t.uau.waste = ⟨.absent, none, false⟩
  bus : t.spu.bus = s.spu.bus.removeChip .waste
  removed : Told .wasteRemoved 0 none s t
  aborted : Told .cleanAborted (several (s.cls.heads.map fun x => x.head.val)) (some (.cleanCause .wasteAbsent)) s t
  folded : FoldedBack s.cls.heads s.cls.cancelled s t
  cls : t.cls = { s.cls.aborted .wasteAbsent (headsStopped s) with table := t.cls.table, hold := some .wasteAbsent }
  still : s.stc.pump.running = false → SuctionBooked 0 0 s t ∧ t.uau.orphan = s.uau.orphan
  run : ∀ h, s.stc.pump.running = true → s.stc.selector = some h →
    let amount := s.stc.pump.revs
      * (s.params.suctionYield.get (firstChannel h) + s.params.suctionYield.get (secondChannel h))
    SuctionBooked h s.stc.pump.revs s t ∧
      t.uau.orphan = if amount = 0 then s.uau.orphan else min (s.uau.orphan + amount) 4294967295

/-- A run's debit is a matter of the books, the channels and the parameters. -/
theorem SuctionBooked.of_records {h : Fin 3} {revs : Nat} {s s' t t' : State} (booked : SuctionBooked h revs s t)
    (before : (s'.uau.books, s'.spu.channels, s'.params) = (s.uau.books, s.spu.channels, s.params))
    (after : (t'.uau.books, t'.spu.channels) = (t.uau.books, t.spu.channels)) : SuctionBooked h revs s' t' := by
  simp only [Prod.mk.injEq] at before after
  intro c
  have charged := booked c
  simp only [chan, book, before, after] at charged ⊢
  exact charged

/-- What still changes is the station's record, the order queue and the exposure timers. -/
theorem CycleEnded.of_same {s c t : State} (h : CycleEnded s c) (pins : t.pins = c.pins) (uau : t.uau = c.uau)
    (spu : t.spu = c.spu) (cls : t.cls = c.cls) (evu : t.evu = c.evu) : CycleEnded s t where
  pins := pins.trans h.pins
  waste := by rw [uau]; exact h.waste
  bus := by rw [spu]; exact h.bus
  removed := h.removed.of_evu evu
  aborted := h.aborted.of_evu evu
  folded k := by rw [entryOf, cls]; exact h.folded k
  cls := by rw [cls]; exact h.cls
  still idle := by
    obtain ⟨booked, orphan⟩ := h.still idle
    exact ⟨booked.of_records rfl (by rw [uau, spu]), by rw [uau]; exact orphan⟩
  run k running joined := by
    obtain ⟨booked, orphan⟩ := h.run k running joined
    exact ⟨booked.of_records rfl (by rw [uau, spu]), by rw [uau]; exact orphan⟩

/-- A stopped run leaves the heads of the cycle what they are but for the revolutions done. -/
theorem foldedBack_headsStopped {s b t : State} (h : FoldedBack (headsStopped s) s.cls.cancelled b t)
    (entries : ∀ k, entryOf b k = entryOf s k) : FoldedBack s.cls.heads s.cls.cancelled s t := by
  intro k
  have head (x : CycleHead) : (if s.stc.pump.running = true ∧ s.stc.selector = some x.head then
      { x with done := s.stc.pump.revs } else x).head = x.head := by split <;> rfl
  rw [h k, entries, headsStopped, List.filter_map, List.foldl_map]
  congr 1
  · funext e x
    split <;> rfl
  · refine List.filter_congr fun x _ => ?_
    rw [Function.comp_apply, head]

theorem subjects_headsStopped (s : State) :
    ((headsStopped s).map fun x => x.head.val) = s.cls.heads.map fun x => x.head.val := by
  rw [headsStopped, List.map_map]
  refine List.map_congr_left fun x _ => ?_
  rw [Function.comp_apply]
  split <;> rfl

/-- The cartridge gone and the abort marked: what later parts of the abort read of it. -/
structure CycleMarked (s t : State) : Prop where
  pins : t.pins = { s.pins with wastePresence := false }
  waste : t.uau.waste = ⟨.absent, none, false⟩
  bus : t.spu.bus = s.spu.bus.removeChip .waste
  orphan : t.uau.orphan = s.uau.orphan
  records : (s.uau.books, s.spu.channels, s.params) = (t.uau.books, t.spu.channels, t.params)
  stc : t.stc = s.stc
  cls : t.cls = { s.cls with abort := some .wasteAbsent }
  queue : t.orq.queue = s.orq.queue
  waiting : s.orq.waiting = [] → t.orq.waiting = []
  removed : Told .wasteRemoved 0 none s t
  untold : Untold .cleanAborted s t

theorem abortMarked_cls (s : State) : (abortMarked s).cls = { s.cls with abort := some .wasteAbsent } := rfl

theorem abortMarked_waiting {s : State} (empty : s.orq.waiting = []) : (abortMarked s).orq.waiting = [] := by
  show s.orq.waiting.filter _ = []
  rw [empty]
  rfl

theorem wasteTaken_pins (s : State) : (wasteTaken s).pins = { s.pins with wastePresence := false } := by
  rw [wasteTaken, raise_pins, onBus_pins, setWaste_pins]
  rfl

theorem wasteTaken_cls (s : State) : (wasteTaken s).cls = s.cls := by
  rw [wasteTaken, raise_cls, onBus_cls, setWaste_cls]
  rfl

theorem wasteTaken_uau (s : State) : (wasteTaken s).uau = { s.uau with waste := ⟨.absent, none, false⟩ } := by
  rw [wasteTaken, raise_uau, onBus_uau, setWaste_uau]
  rfl

theorem wasteTaken_spu (s : State) : (wasteTaken s).spu = { s.spu with bus := s.spu.bus.removeChip .waste } := by
  rw [wasteTaken, raise_spu, onBus_spu, setWaste_spu]
  rfl

theorem wasteTaken_params (s : State) : (wasteTaken s).params = s.params := by
  rw [wasteTaken, raise_params, onBus_params, setWaste_params]
  rfl

theorem wasteTaken_stc (s : State) : (wasteTaken s).stc = s.stc := by
  rw [wasteTaken, raise_stc, onBus_stc, setWaste_stc]
  rfl

theorem wasteTaken_orq (s : State) : (wasteTaken s).orq = s.orq := by
  rw [wasteTaken, raise_orq, onBus_orq, setWaste_orq]
  rfl

theorem abortMarked_pins (s : State) : (abortMarked s).pins = s.pins := rfl

theorem abortMarked_stc (s : State) : (abortMarked s).stc = s.stc := rfl

theorem abortMarked_queue (s : State) : (abortMarked s).orq.queue = s.orq.queue := rfl

theorem abortMarked_spu (s : State) : (abortMarked s).spu = s.spu := rfl

theorem abortMarked_params (s : State) : (abortMarked s).params = s.params := rfl

theorem abortMarked_uau (s : State) : (abortMarked s).uau = s.uau := rfl

theorem told_wasteTaken (s : State) : Told .wasteRemoved 0 none s (wasteTaken s) := by
  unfold wasteTaken
  exact (untold_of_evu rfl).raise_self 0 none

theorem untold_wasteTaken (s : State) : Untold .cleanAborted s (wasteTaken s) := by
  unfold wasteTaken
  exact (untold_of_evu rfl).raise_other 0 none (by decide)

theorem abortMarked_evu (s : State) : (abortMarked s).evu = s.evu := rfl

theorem cycleMarked (s : State) : CycleMarked s (abortMarked (wasteTaken s)) where
  pins := by rw [abortMarked_pins, wasteTaken_pins]
  waste := by rw [abortMarked_uau, wasteTaken_uau]
  bus := by rw [abortMarked_spu, wasteTaken_spu]
  orphan := by rw [abortMarked_uau, wasteTaken_uau]
  records := by
    rw [abortMarked_uau, abortMarked_spu, abortMarked_params, wasteTaken_uau, wasteTaken_spu, wasteTaken_params]
  stc := by rw [abortMarked_stc, wasteTaken_stc]
  cls := by rw [abortMarked_cls, wasteTaken_cls]
  queue := by rw [abortMarked_queue, wasteTaken_orq]
  waiting empty := abortMarked_waiting (by rw [wasteTaken_orq]; exact empty)
  removed := (told_wasteTaken s).of_evu (abortMarked_evu _)
  untold := (untold_wasteTaken s).of_evu (abortMarked_evu _)

theorem CycleMarked.heads {s a : State} (marked : CycleMarked s a) : headsStopped a = headsStopped s := by
  rw [headsStopped, marked.stc, marked.cls]
  rfl

theorem cycleEnded {s a b c : State} (marked : CycleMarked s a) (stopped : RunStopped a b) (closed : CycleClosed b c) :
    CycleEnded s c := by
  have params : a.params = s.params := (Prod.mk.inj (Prod.mk.inj marked.records).2).2.symm
  have cls := stopped.cls
  have still := stopped.still
  have run := stopped.run
  rw [marked.heads, marked.cls] at cls
  rw [marked.stc, marked.orphan] at still
  rw [marked.stc, marked.orphan, params] at run
  refine
    { pins := by rw [closed.pins, stopped.pins, marked.pins]
      waste := by rw [closed.uau, stopped.waste, marked.waste]
      bus := by rw [closed.spu, stopped.bus, marked.bus]
      removed := (marked.removed.trans_untold (stopped.untold _ (by decide) (by decide))).trans_untold
        (closed.untold _ (by decide))
      aborted := ?aborted
      folded := ?folded
      cls := ?cls
      still := fun idle => ?still
      run := fun h running joined => ?run }
  case aborted =>
    have told := closed.told
    rw [cls, subjects_headsStopped] at told
    exact (marked.untold.trans (stopped.untold _ (by decide) (by decide))).trans_told told
  case folded =>
    have folded := closed.folded
    rw [cls] at folded
    exact foldedBack_headsStopped folded fun k => by rw [entryOf, cls]; rfl
  case cls =>
    refine closed.cls.trans ?_
    rw [cls]
    rfl
  case still =>
    obtain ⟨booked, orphan⟩ := still idle
    exact ⟨booked.of_records marked.records (by rw [closed.uau, closed.spu]), by rw [closed.uau]; exact orphan⟩
  case run =>
    obtain ⟨booked, orphan⟩ := run h running joined
    exact ⟨booked.of_records marked.records (by rw [closed.uau, closed.spu]), by rw [closed.uau]; exact orphan⟩

/-! ### The statement -/

theorem setStc_ended {s c : State} (x : Stc) (h : CycleEnded s c) : CycleEnded s (setStc x c) :=
  h.of_same rfl rfl rfl rfl rfl

theorem cappedIn_ended {s c : State} (h : CycleEnded s c) : CycleEnded s (cappedIn c) := h.of_same rfl rfl rfl rfl rfl

theorem stc_cappedIn (c : State) :
    (cappedIn c).stc = { c.stc with state := .capped, holder := none, handingBack := false } := rfl

/-- The zone as the abort hands it back (R74, R111). -/
theorem stc_cycleClosed {s a b c : State} (marked : CycleMarked s a) (stopped : RunStopped a b)
    (closed : CycleClosed b c) : c.stc = s.stc.handsBack := by
  rw [closed.stc, stopped.stc, marked.stc]
  rfl

theorem cycleOrderTaken_marked {s a b : State} (marked : CycleMarked s a) (stopped : RunStopped a b)
    (untaken : ∀ o ∈ s.orq.queue, o.isTaken = true → o.id ∉ s.cls.outstanding) : cycleOrderTaken b = false := by
  have outstanding : b.cls.outstanding = s.cls.outstanding := by rw [stopped.cls, marked.cls]
  have queue : b.orq.queue = s.orq.queue := by rw [stopped.orq, marked.queue]
  rw [cycleOrderTaken, queue, outstanding, List.any_eq_false]
  intro o here
  have other := untaken o here
  simpa using other

/-- The abort run to its handback: what has ended, and what the handback starts from. -/
theorem abort_closes {s : State} (present : s.uau.waste.state ≠ .absent) (closed : s.pins.wastePresence = true)
    (awake : Awake s) (cycle : CycleIn s .sucking) (unchecked : s.dtu.clsCheck = none)
    (untaken : ∀ o ∈ s.orq.queue, o.isTaken = true → o.id ∉ s.cls.outstanding) :
    ∃ c, CycleEnded s c ∧ c.stc = s.stc.handsBack ∧ (s.orq.waiting = [] → c.orq.waiting = []) ∧
      ∀ t, (∀ n, runActs (n + 3) (c, [.handBack]) = (t, [])) → exec .wastePresenceOpen s = .next t := by
  obtain ⟨stage, unaborted, servicing, holder, -⟩ := cycle
  have marked := cycleMarked s
  have gone : (wasteTaken s).uau.waste = ⟨.absent, none, false⟩ := by rw [wasteTaken_uau]
  have cls := wasteTaken_cls s
  obtain ⟨u, v, aborts⟩ := wasteChanged_aborts gone (by rw [cls]; exact stage) (by rw [cls]; exact unaborted)
    (show (wasteTaken s).dtu.clsCheck = none from unchecked)
  generalize abortMarked (wasteTaken s) = a at marked aborts
  have stopped : RunStopped a (runStopped a) := runStopped_spec (by rw [marked.waste]; rfl)
  generalize runStopped a = b at stopped aborts
  have still : b.stc.pump.running = false := by rw [stopped.stc]
  have held : b.stc.holder = some .cls := by rw [stopped.stc, marked.stc]; exact holder
  have sucking : b.cls.stage = .sucking := by rw [stopped.cls, marked.cls]; exact stage
  have safe := safePoint_closes (by rw [stopped.cls, marked.cls]) sucking still
    (cycleOrderTaken_marked marked stopped untaken)
  have closes := cycleClosed_spec still held
  generalize cycleClosed b = c at safe closes
  refine ⟨c, cycleEnded marked stopped closes, stc_cycleClosed marked stopped closes,
    fun empty => by rw [closes.orq, stopped.orq, marked.waiting empty], fun t handed => ?_⟩
  simp only [exec, execWastePresenceOpen]
  rw [watched_awake awake closed, removeWaste_present present]
  exact settle_aborted aborts (by rw [sucking]; exact nofun) safe (by rw [closes.cls]; exact nofun) handed

theorem not_handBackWaits {s : State} (still : ¬ Moving s) (retracted : wiperIsRetracted s = true)
    (home : s.stc.home = true) : ¬ HandBackWaits s := by
  rintro (moving | ⟨out, -⟩ | ⟨-, -, away, -⟩)
  · exact still moving
  · rw [retracted] at out
    cases out
  · rw [home] at away
    cases away

/-- Settles O22, by the command and, for a removal in SUCKING, by where the handback finds the zone. -/
theorem wasteCartridgeRead : Obligations.WasteCartridgeRead := by
  refine ⟨?_, ?_, ?_⟩
  · intro r scan n ts s awake executing front reading full absent
    dsimp only
    obtain ⟨nothing, fitted, nearFull, fullUp⟩ := wasteFitted_cases r (onBus Bus.finish s)
    have read (left : n < 4) := exec_wasteReadDone awake executing front reading full absent r left
    refine ⟨fun left none => ?_, fun left some low => ?_, fun left some high low => ?_, fun left some high => ?_,
      fun last => exec_wasteReadFail awake executing front reading full absent last⟩
    · rw [read left, ended, nothing none]
      rfl
    · rw [read left, ended, fitted some low]
    · rw [read left, ended, nearFull some high low]
    · rw [read left, ended, fullUp some high]
  · intro s awake stage full absent
    exact ⟨exec_wastePresenceClose awake full absent,
      fun closed present => exec_wastePresenceOpen awake full absent closed present stage⟩
  · intro s awake closed present cycle unchecked untaken capped found
    obtain ⟨c, ended, stc, waiting, exec⟩ := abort_closes present closed awake cycle unchecked untaken
    obtain ⟨-, -, servicing, -, -⟩ := cycle
    rcases found with waits | caps
    · obtain ⟨x, handed, claims, begun⟩ := handBack_waits stc servicing (by rw [ended.pins]) (by rw [ended.pins]) waits
      have stays := setStc_ended x ended
      refine ⟨setStc x c, exec _ fun n => ?_, stays.pins, stays.waste, stays.bus, stays.removed, stays.aborted,
        stays.folded, stays.cls, stays.still, stays.run, fun _ => ⟨begun _ rfl, claims⟩, ?_⟩
      · rw [runActs_cons, handed]
        exact runActs_nil _ _
      · rintro ⟨still, retracted, up, home, -⟩
        exact absurd waits (not_handBackWaits still retracted home)
    · obtain ⟨still, retracted, up, home, unclaimed, empty⟩ := caps
      have stays := cappedIn_ended ended
      refine ⟨cappedIn c, exec _ fun n => ?_, stays.pins, stays.waste, stays.bus, stays.removed, stays.aborted,
        stays.folded, stays.cls, stays.still, stays.run, fun waits => ?_, fun _ => by rw [stc_cappedIn, stc]⟩
      · exact handBack_capped (handBack_caps stc servicing still retracted up home) (by rw [stc]; exact unclaimed)
          (waiting empty) n
      · exact absurd waits (not_handBackWaits still retracted home)

end Sys2Proof.Machine
end

