-- ==== Sys2Proof/Proofs/PageAdmission.lean ====
section
/-!
SUPPORT. The Page Admission Unit's own operations: available ink and the overcommitment check, the verdict of the six
admission checks outcome by outcome, the removal of an entry. Settles O28 and O29.
-/

namespace Sys2Proof.Machine

/-! ### Available ink and the overcommitment check (R43, R54) -/

/-- A bay counts towards available ink in ACTIVE and STANDBY only (R43). -/
theorem Bay.available_eq (x : Bay) :
    x.available = if x.state = .active ∨ x.state = .standby then x.estimate else 0 := by
  cases h : x.state <;> simp [Bay.available, h]

/-- The state with the overcommitment flag of channel `c` at `b`. -/
def overFlagged (c : Fin 6) (b : Bool) (s : State) : State :=
  { s with pau := { s.pau with overSet := vset s.pau.overSet c b } }

variable {c : Fin 6} {s : State}

theorem checkOver_same (h : s.pau.overSet.get c = decide (availableInk s c < outstandingInk s c)) :
    checkOver c s = s :=
  if_pos h.symm

theorem checkOver_exceeded (exceeds : availableInk s c < outstandingInk s c) (clear : s.pau.overSet.get c = false) :
    checkOver c s = raise .overcommitted (one c.val) none (overFlagged c true s) := by
  simp [checkOver, exceeds, clear, overFlagged]

theorem checkOver_covered (covered : ¬ availableInk s c < outstandingInk s c) (flagged : s.pau.overSet.get c = true) :
    checkOver c s = overFlagged c false s := by
  simp [checkOver, covered, flagged, overFlagged]

/-! ### The verdict of the six checks (R44 to R46) -/

/-- The fields of a request that R44's second check refuses. -/
def AdmitFields.Bad (f : AdmitFields) : Prop :=
  f.source = none ∨ f.tag = 0 ∨ f.length = 0 ∨ 200000000 < f.length ∨ ∃ c : Fin 6, 100000 < f.ink.get c

/-- The entry a request that passes joins the table with (R45). -/
def AdmitFields.page (f : AdmitFields) (src : Source) : Page :=
  { tag := f.tag, source := src, state := .admitted, reserved := Vector.ofFn fun c => f.ink.get c * 1000
    consumed := Vector.replicate 6 0, mediaReserved := f.length, mediaConsumed := 0, overrun := false }

/-- The source's known remaining length does not cover the request beside what is outstanding on it (R45). -/
def MediaShort (s : State) (f : AdmitFields) (src : Source) : Prop :=
  ∃ n, remainingOf s src = some n ∧ n < f.length + outstandingMediaOf s src

/-- The fifth of the six checks (R45). -/
def mediaShort (s : State) (f : AdmitFields) (src : Source) : Bool :=
  match remainingOf s src with
  | none => false
  | some n => decide (n < f.length + outstandingMediaOf s src)

theorem mediaShort_iff (s : State) (f : AdmitFields) (src : Source) :
    mediaShort s f src = true ↔ MediaShort s f src := by
  unfold mediaShort MediaShort
  cases remainingOf s src <;> simp

/-- The request reserves ink on channel `c`, and available ink does not cover it beside what is outstanding (R46). -/
def Lacks (s : State) (f : AdmitFields) (c : Fin 6) : Prop :=
  f.ink.get c * 1000 ≠ 0 ∧ availableInk s c < f.ink.get c * 1000 + outstandingInk s c

theorem mem_shortChannels (f : AdmitFields) :
    c ∈ shortChannels s (Vector.ofFn fun c => f.ink.get c * 1000) ↔ Lacks s f c := by
  simp only [shortChannels, List.mem_filter, mem_allChannels, Lacks, Vector.get_ofFn, true_and, Bool.and_eq_true,
    bne_iff_ne, decide_eq_true_eq]

/-- The last two of the six checks, media and ink (R45, R46). -/
def admitSupplied (s : State) (f : AdmitFields) (src : Source) : Except (Result × List Byte) Page :=
  if mediaShort s f src then .error (.mediaShort, [])
  else match shortChannels s (Vector.ofFn fun c => f.ink.get c * 1000) with
    | [] => .ok (f.page src)
    | cs => .error (.inkShort, le 1 (channelMask cs))

variable {f : AdmitFields} {src : Source}

theorem admitSupplied_mediaShort (short : MediaShort s f src) : admitSupplied s f src = .error (.mediaShort, []) :=
  if_pos ((mediaShort_iff s f src).mpr short)

theorem admitSupplied_media (enough : ¬ MediaShort s f src) :
    admitSupplied s f src = match shortChannels s (Vector.ofFn fun c => f.ink.get c * 1000) with
      | [] => .ok (f.page src)
      | cs => .error (.inkShort, le 1 (channelMask cs)) :=
  if_neg (mt (mediaShort_iff s f src).mp enough)

theorem admitSupplied_inkShort (enough : ¬ MediaShort s f src) (short : ∃ c, Lacks s f c) :
    ∃ cs, (∀ c, c ∈ cs ↔ Lacks s f c) ∧ admitSupplied s f src = .error (.inkShort, le 1 (channelMask cs)) := by
  refine ⟨shortChannels s (Vector.ofFn fun c => f.ink.get c * 1000), fun c => mem_shortChannels f, ?_⟩
  obtain ⟨c, lacks⟩ := short
  have listed := (mem_shortChannels f).mpr lacks
  rw [admitSupplied_media enough]
  split
  · next empty => rw [empty] at listed; cases listed
  · rfl

theorem admitSupplied_ok (enough : ¬ MediaShort s f src) (covered : ∀ c, ¬ Lacks s f c) :
    admitSupplied s f src = .ok (f.page src) := by
  have empty : shortChannels s (Vector.ofFn fun c => f.ink.get c * 1000) = [] :=
    List.eq_nil_iff_forall_not_mem.mpr fun c h => covered c ((mem_shortChannels f).mp h)
  rw [admitSupplied_media enough, empty]

theorem page_of_admitSupplied {e : Page} (h : admitSupplied s f src = .ok e) : e = f.page src := by
  by_cases short : MediaShort s f src
  · rw [admitSupplied_mediaShort short] at h
    cases h
  · by_cases lacking : ∃ c, Lacks s f c
    · obtain ⟨_, -, refused⟩ := admitSupplied_inkShort short lacking
      rw [refused] at h
      cases h
    · rw [admitSupplied_ok short (not_exists.mp lacking)] at h
      cases h
      rfl

theorem admitVerdict_tableFull (full : 4 ≤ s.pau.pages.length) : admitVerdict s f = .error (.tableFull, []) :=
  if_pos full

theorem admitVerdict_badField (room : s.pau.pages.length < 4) (bad : f.Bad) :
    admitVerdict s f = .error (.badField, []) := by
  have free : ¬ s.pau.pages.length ≥ Config.pageDepth := Nat.not_le.mpr room
  unfold admitVerdict
  rw [if_neg free]
  split
  · rfl
  · next known =>
    refine if_pos ?_
    rcases bad with unknown | tag | length | long | ⟨c, much⟩
    · rw [unknown] at known; cases known
    · exact .inl tag
    · exact .inr (.inl length)
    · exact .inr (.inr (.inl long))
    · exact .inr (.inr (.inr (List.any_eq_true.mpr ⟨c, mem_allChannels c, decide_eq_true much⟩)))

/-- A request in range with a free place in the table: what the checks from the third on are made of (R44). -/
structure InRange (s : State) (f : AdmitFields) (src : Source) : Prop where
  room : s.pau.pages.length < 4
  good : ¬ f.Bad
  source : f.source = some src

/-- The verdict from the third check on. -/
theorem InRange.verdict (h : InRange s f src) :
    admitVerdict s f =
      if s.pau.pages.any fun e => e.tag == f.tag then .error (.duplicateTag, [])
      else match (sourceRec s src).state with
      | .empty | .endOfRoll | .out => .error (.notLoaded, [])
      | .loaded | .inPath =>
        match s.uau.waste.state with
        | .full => .error (.wasteFull, [])
        | .absent | .fault => .error (.wasteAbsent, [])
        | .reading | .fitted | .nearFull => admitSupplied s f src := by
  have free : ¬ s.pau.pages.length ≥ Config.pageDepth := Nat.not_le.mpr h.room
  have good : ¬ (f.tag = 0 ∨ f.length = 0 ∨ f.length > Config.mediaMax
      ∨ allChannels.any (fun c => decide (f.ink.get c > Config.reserveInkMax)) = true) := by
    rintro (tag | length | long | much)
    · exact h.good (.inr (.inl tag))
    · exact h.good (.inr (.inr (.inl length)))
    · exact h.good (.inr (.inr (.inr (.inl long))))
    · obtain ⟨c, -, much⟩ := List.any_eq_true.mp much
      exact h.good (.inr (.inr (.inr (.inr ⟨c, of_decide_eq_true much⟩))))
  unfold admitVerdict
  rw [if_neg free, h.source]
  dsimp only
  rw [if_neg good]
  rfl

theorem InRange.duplicate (h : InRange s f src) (held : ∃ e ∈ s.pau.pages, e.tag = f.tag) :
    admitVerdict s f = .error (.duplicateTag, []) := by
  rw [h.verdict, if_pos (by simpa using held)]

/-- The tag is new to the table (R44's third check). -/
structure Fresh (s : State) (f : AdmitFields) (src : Source) : Prop extends InRange s f src where
  fresh : ∀ e ∈ s.pau.pages, e.tag ≠ f.tag

theorem Fresh.notHeld (h : Fresh s f src) : ¬ (s.pau.pages.any fun e => e.tag == f.tag) = true := by
  simpa using h.fresh

theorem Fresh.notLoaded (h : Fresh s f src)
    (state : (sourceRec s src).state = .empty ∨ (sourceRec s src).state = .endOfRoll ∨ (sourceRec s src).state = .out) :
    admitVerdict s f = .error (.notLoaded, []) := by
  rw [h.verdict, if_neg h.notHeld]
  rcases state with state | state | state <;> rw [state]

/-- The source is LOADED or IN_PATH (R44's fourth check). -/
structure OnSource (s : State) (f : AdmitFields) (src : Source) : Prop extends Fresh s f src where
  ready : (sourceRec s src).state = .loaded ∨ (sourceRec s src).state = .inPath

theorem OnSource.verdict (h : OnSource s f src) :
    admitVerdict s f = match s.uau.waste.state with
      | .full => .error (.wasteFull, [])
      | .absent | .fault => .error (.wasteAbsent, [])
      | .reading | .fitted | .nearFull => admitSupplied s f src := by
  rw [h.toInRange.verdict, if_neg h.notHeld]
  rcases h.ready with state | state <;> rw [state]

theorem OnSource.wasteFull (h : OnSource s f src) (full : s.uau.waste.state = .full) :
    admitVerdict s f = .error (.wasteFull, []) := by
  rw [h.verdict, full]

theorem OnSource.wasteAbsent (h : OnSource s f src)
    (absent : s.uau.waste.state = .absent ∨ s.uau.waste.state = .fault) :
    admitVerdict s f = .error (.wasteAbsent, []) := by
  rw [h.verdict]
  rcases absent with state | state <;> rw [state]

theorem OnSource.supplied (h : OnSource s f src)
    (able : s.uau.waste.state = .reading ∨ s.uau.waste.state = .fitted ∨ s.uau.waste.state = .nearFull) :
    admitVerdict s f = admitSupplied s f src := by
  rw [h.verdict]
  rcases able with state | state | state <;> rw [state]

/-- A request that passes has passed the first three checks, and joins the table as its own entry. -/
theorem fresh_of_admitted {e : Page} (h : admitVerdict s f = .ok e) : ∃ src, Fresh s f src ∧ e = f.page src := by
  have room : s.pau.pages.length < 4 := by
    by_contra full
    rw [admitVerdict_tableFull (Nat.not_lt.mp full)] at h
    cases h
  have good : ¬ f.Bad := fun bad => by
    rw [admitVerdict_badField room bad] at h
    cases h
  obtain ⟨src, source⟩ := Option.ne_none_iff_exists'.mp fun unknown => good (.inl unknown)
  have range : InRange s f src := ⟨room, good, source⟩
  have fresh : Fresh s f src := ⟨range, fun e here same => by
    rw [range.duplicate ⟨e, here, same⟩] at h
    cases h⟩
  have loaded : OnSource s f src := ⟨fresh, by
    by_contra other
    rw [fresh.notLoaded (by cases state : (sourceRec s src).state <;> simp_all)] at h
    cases h⟩
  have able : s.uau.waste.state = .reading ∨ s.uau.waste.state = .fitted ∨ s.uau.waste.state = .nearFull := by
    have verdict := loaded.verdict.symm.trans h
    cases state : s.uau.waste.state <;> rw [state] at verdict <;> simp at verdict ⊢
  exact ⟨src, fresh, page_of_admitSupplied ((loaded.supplied able).symm.trans h)⟩

/-! ### ADMIT_PAGE (R44 to R46) -/

variable {p : Port} {body : List Byte}

theorem exec_admitPage_refused {r : Result} {b : List Byte} (takes : Takes s .admitPage p body)
    (refused : admitVerdict s (admitFields body) = .error (r, b)) :
    exec (.admitPage p body) s = .next (answered p .admitPage r b s) := by
  have taken : admitVerdict (heldFor .admitPage p s) (admitFields body) = .error (r, b) := refused
  simp only [exec, execAdmitPage, settle_request takes, admitPage, taken, reply_heldFor, settle_done]

theorem exec_admitPage_admitted {e : Page} (takes : Takes s .admitPage p body)
    (passed : admitVerdict s (admitFields body) = .ok e) :
    exec (.admitPage p body) s = .next (joinTable e (answered p .admitPage .ok [] s)) := by
  have taken : admitVerdict (heldFor .admitPage p s) (admitFields body) = .ok e := passed
  simp only [exec, execAdmitPage, settle_request takes, admitPage, taken, answer_heldFor, settle_done]

/-- Settles O28, the overcommitment check by its three cases and ADMIT_PAGE check by check. -/
theorem pageAdmitted : Obligations.PageAdmitted := by
  refine ⟨fun c s => ⟨?available, rfl, checkOver_exceeded, checkOver_covered, checkOver_same, rfl, fun _ => rfl⟩, ?_⟩
  case available => simp only [availableInk, Bay.available_eq]
  intro p body s takes f refused bad
  have refuses {r : Result} {b : List Byte} (h : admitVerdict s f = .error (r, b)) : refused r b :=
    exec_admitPage_refused takes h
  refine ⟨fun full => refuses (admitVerdict_tableFull full),
    fun room bad => refuses (admitVerdict_badField room bad), fun src room good source => ?_⟩
  have range : InRange s f src := ⟨room, good, source⟩
  refine ⟨fun held => refuses (range.duplicate held), fun new => ?_⟩
  have fresh : Fresh s f src := ⟨range, new⟩
  refine ⟨fun state => refuses (fresh.notLoaded state), fun ready => ?_⟩
  have loaded : OnSource s f src := ⟨fresh, ready⟩
  refine ⟨fun full => refuses (loaded.wasteFull full), fun absent => refuses (loaded.wasteAbsent absent),
    fun able => ?_⟩
  have verdict := loaded.supplied able
  refine ⟨fun short => refuses (verdict.trans (admitSupplied_mediaShort short)),
    fun enough => ⟨fun short => ?ink, fun covered => ?ok⟩⟩
  case ink =>
    obtain ⟨cs, listed, short⟩ := admitSupplied_inkShort enough short
    exact ⟨cs, listed, refuses (verdict.trans short)⟩
  case ok =>
    dsimp only
    rw [exec_admitPage_admitted takes (verdict.trans (admitSupplied_ok enough covered))]
    simp only [joinTable, AdmitFields.page, Vector.get_ofFn]
    rfl

/-! ### END_PAGE (R55) -/

theorem exec_endPage_badField (takes : Takes s .endPage p body) (bad : field body 0 2 = 0 ∨ 1 < field body 2 1) :
    exec (.endPage p body) s = .next (answered p .endPage .badField [] s) := by
  simp only [exec, execEndPage, settle_request takes, endPageRun, gt_iff_lt, if_pos bad, reply_heldFor, settle_done]

theorem exec_endPage_unknownTag (takes : Takes s .endPage p body) (tag : field body 0 2 ≠ 0) (flag : field body 2 1 ≤ 1)
    (unknown : ∀ e ∈ s.pau.pages, e.tag ≠ field body 0 2) :
    exec (.endPage p body) s = .next (answered p .endPage .unknownTag [] s) := by
  have absent : s.pau.pages.find? (fun e => e.tag == field body 0 2) = none := by simpa using unknown
  have taken : (heldFor .endPage p s).pau.pages.find? (fun e => e.tag == field body 0 2) = none := absent
  have fields : ¬ (field body 0 2 = 0 ∨ 1 < field body 2 1) := by omega
  simp only [exec, execEndPage, settle_request takes, endPageRun, gt_iff_lt, if_neg fields, taken, reply_heldFor,
    settle_done]

theorem exec_endPage_known {e : Page} (takes : Takes s .endPage p body) (tag : field body 0 2 ≠ 0)
    (flag : field body 2 1 ≤ 1) (known : s.pau.pages.find? (fun e => e.tag == field body 0 2) = some e) :
    exec (.endPage p body) s =
      .next (endPage e (field body 2 1 == 1) (answered p .endPage .ok (endPageBody e (field body 2 1 == 1)) s)) := by
  have taken : (heldFor .endPage p s).pau.pages.find? (fun e => e.tag == field body 0 2) = some e := known
  have fields : ¬ (field body 0 2 = 0 ∨ 1 < field body 2 1) := by omega
  simp only [exec, execEndPage, settle_request takes, endPageRun, gt_iff_lt, if_neg fields, taken, answer_heldFor,
    settle_done]

/-- A removal counts as complete unless the flag says aborted or the entry is FAULTED (R55). -/
theorem endsComplete_eq {n : Nat} (flag : n ≤ 1) (e : Page) :
    endsComplete (n == 1) e = decide (n = 0 ∧ e.state ≠ .faulted) := by
  have clear : ¬ n = 1 ↔ n = 0 := by omega
  rw [Bool.eq_iff_iff]
  simp [endsComplete, clear]

theorem bit_not_decide (P : Prop) [Decidable P] : bit (!decide P) = le 1 (if P then 0 else 1) := by
  by_cases h : P <;> simp [bit, h]

/-- The removal of the first entry of its tag (R55). -/
theorem endPage_eq {e : Page} {pre post : List Page} (at_ : s.pau.pages = pre ++ e :: post)
    (before : ∀ x ∈ pre, x.tag ≠ e.tag) (aborted : Bool) :
    endPage e aborted s =
      checkOverAll (allChannels.filter fun c => e.outstanding c != 0)
        { s with pau := { s.pau with
            pages := pre ++ post
            endedComplete :=
              if endsComplete aborted e then min (s.pau.endedComplete + 1) 65535 else s.pau.endedComplete
            endedAborted :=
              if endsComplete aborted e then s.pau.endedAborted else min (s.pau.endedAborted + 1) 65535 } } := by
  have removed : s.pau.pages.eraseP (fun x => x.tag == e.tag) = pre ++ post := by
    rw [at_, List.eraseP_append_right _ (by simpa using before), List.eraseP_cons_of_pos (by simp)]
  unfold endPage
  rw [removed]
  cases endsComplete aborted e <;> rfl

/-- Settles O29, by the fields, by whether the tag is known, and for a known one by how the removal is counted. -/
theorem pageEnded : Obligations.PageEnded := by
  intro p body s takes tag flag
  refine ⟨exec_endPage_badField takes, fun named within => ⟨exec_endPage_unknownTag takes named within, ?_⟩⟩
  intro e pre post at_ is before
  have known : s.pau.pages.find? (fun x => x.tag == tag) = some e := by
    have skipped : pre.find? (fun x => x.tag == tag) = none := by simpa using before
    rw [at_, List.find?_append, skipped, List.find?_cons_of_pos (by simpa using is)]
    rfl
  rw [exec_endPage_known takes named within known,
    endPage_eq (s := answered p .endPage .ok _ s) at_ (by rw [is]; exact before), endPageBody, endsComplete_eq within,
    bit_not_decide]
  simp only [decide_eq_true_eq]
  rfl

end Sys2Proof.Machine
end

