-- ==== Sys2Proof/Proofs/PageTable.lean ====
section
/-!
SUPPORT. The part of the admission table that only ADMIT_PAGE, END_PAGE and a device reset write: its tags and the
entries behind the oldest. The law of the table speaks of nothing else; the operations of the page table on its oldest
entry, of the supply and of the usage account leave it alone, one lemma per operation.
-/

namespace Sys2Proof.Machine

/-- The tags of the admission table, and the entries behind the oldest. -/
def pageTable (s : State) : List Nat × List Page := (s.pau.pages.map Page.tag, s.pau.pages.tail)

theorem pageTable_of_pages {s t : State} (h : t.pau.pages = s.pau.pages) : pageTable t = pageTable s := by
  rw [pageTable, pageTable, h]

theorem pageTable_of_station {s t : State} (h : keptByStation t = keptByStation s) : pageTable t = pageTable s := by
  simp only [keptByStation, Prod.mk.injEq] at h
  exact pageTable_of_pages (by simp only [h])

/-- The law of the admission table speaks of nothing else (R41). -/
theorem PagesLawful.of_table {s t : State} (h : pageTable t = pageTable s) (lawful : PagesLawful s) :
    PagesLawful t := by
  obtain ⟨tags, young⟩ := Prod.mk.inj h
  obtain ⟨few, distinct, nonzero, admitted⟩ := lawful
  refine ⟨?_, tags ▸ distinct, fun e here zero => ?_, young ▸ admitted⟩
  · have lengths : (t.pau.pages.map Page.tag).length = (s.pau.pages.map Page.tag).length := congrArg List.length tags
    rw [List.length_map, List.length_map] at lengths
    exact lengths.trans_le few
  · have listed : e.tag ∈ s.pau.pages.map Page.tag := tags ▸ List.mem_map_of_mem here
    obtain ⟨x, there, same⟩ := List.mem_map.mp listed
    exact nonzero x there (same.trans zero)

/-! ### Single records -/

@[simp] theorem pageTable_raise (k : EventKind) (m : BitVec 16) (d : Option Detail) (s : State) :
    pageTable (raise k m d s) = pageTable s := rfl
@[simp] theorem pageTable_setEntry (s : State) (h : Fin 3) (x : CleanEntry) :
    pageTable (setEntry s h x) = pageTable s := rfl
@[simp] theorem pageTable_setCls (x : Cls) (s : State) : pageTable (setCls x s) = pageTable s := rfl
@[simp] theorem pageTable_setDtu (x : Dtu) (s : State) : pageTable (setDtu x s) = pageTable s := rfl
@[simp] theorem pageTable_setExposure (s : State) (h : Fin 3) (x : Exposure) :
    pageTable (setExposure s h x) = pageTable s := rfl
@[simp] theorem pageTable_setSource (s : State) (a : Source) (x : SourceRec) :
    pageTable (setSource s a x) = pageTable s := rfl
@[simp] theorem pageTable_setFdc (x : Fdc) (s : State) : pageTable (setFdc x s) = pageTable s := rfl
@[simp] theorem pageTable_setPath (x : Path) (s : State) : pageTable (setPath x s) = pageTable s := rfl
@[simp] theorem pageTable_setEngine (s : State) (p : Port) (x : Engine) :
    pageTable (setEngine s p x) = pageTable s := rfl
@[simp] theorem pageTable_setChan (s : State) (c : Fin 6) (x : Channel) : pageTable (setChan s c x) = pageTable s := rfl
@[simp] theorem pageTable_setBay (s : State) (b : Fin 12) (x : Bay) : pageTable (setBay s b x) = pageTable s := rfl
@[simp] theorem pageTable_onBus (f : Bus → Bus) (s : State) : pageTable (onBus f s) = pageTable s := rfl
@[simp] theorem pageTable_setBook (s : State) (c : Fin 6) (x : Book) : pageTable (setBook s c x) = pageTable s := rfl
@[simp] theorem pageTable_setStc (x : Stc) (s : State) : pageTable (setStc x s) = pageTable s := rfl
@[simp] theorem pageTable_setOrq (x : Orq) (s : State) : pageTable (setOrq x s) = pageTable s := rfl

@[simp] theorem pageTable_foldRequest (h : Fin 3) (l : Level) (u : Bool) (o : OriginSet) (s : State) :
    pageTable (foldRequest h l u o s) = pageTable s := rfl
@[simp] theorem pageTable_beginTransaction (p : Port) (s : State) :
    pageTable (beginTransaction p s) = pageTable s := rfl
@[simp] theorem pageTable_answer (p : Port) (k : Kind) (r : Result) (b : List Byte) (s : State) :
    pageTable (answer p k r b s) = pageTable s := rfl
@[simp] theorem pageTable_done (s : State) : pageTable (Run.done s).1 = pageTable s := rfl
@[simp] theorem pageTable_reply (p : Port) (k : Kind) (r : Result) (b : List Byte) (s : State) :
    pageTable (reply p k r b s).1 = pageTable s := rfl
@[simp] theorem pageTable_plus (r : Run) (acts : List Act) : pageTable (r.plus acts).1 = pageTable r.1 := rfl
@[simp] theorem pageTable_andThen (r : Run) (f : State → Run) :
    pageTable (r.andThen f).1 = pageTable (f r.1).1 := rfl

/-! ### Page Admission Unit -/

theorem DebitsOnly.pageTable {s t : State} (h : DebitsOnly s t) : pageTable t = pageTable s :=
  pageTable_of_pages (congrArg Pau.pages h.pau :)

@[simp] theorem pageTable_checkOver (c : Fin 6) (s : State) : pageTable (checkOver c s) = pageTable s :=
  (checkOver_debitsOnly c s).pageTable

@[simp] theorem pageTable_checkOverAll (cs : List (Fin 6)) (s : State) : pageTable (checkOverAll cs s) = pageTable s :=
  (checkOverAll_debitsOnly cs s).pageTable

/-- A change of the oldest entry that leaves its tag alone (R41). -/
theorem pageTable_modOldest {f : Page → Page} (keeps : ∀ e, (f e).tag = e.tag) (s : State) :
    pageTable (modOldest f s) = pageTable s := by
  unfold modOldest
  cases pages : s.pau.pages with
  | nil => rfl
  | cons e es => simp [pageTable, pages, keeps]

@[simp] theorem pageTable_pauAdvanceBegins (tag : Nat) (s : State) :
    pageTable (pauAdvanceBegins tag s) = pageTable s := by
  unfold pauAdvanceBegins
  split
  · exact pageTable_modOldest (fun e => by split <;> rfl) s
  · rfl

@[simp] theorem pageTable_pauAdvanceDone (tag d : Nat) (s : State) :
    pageTable (pauAdvanceDone tag d s) = pageTable s := by
  unfold pauAdvanceDone
  split
  · exact pageTable_modOldest (fun e => by split <;> rfl) s
  · rfl

@[simp] theorem pageTable_pauJam (s : State) : pageTable (pauJam s) = pageTable s :=
  pageTable_modOldest (fun e => by split <;> rfl) s

@[simp] theorem pageTable_pauReport (tag : Nat) (d : Destination) (v : Vector Nat 6) (s : State) :
    pageTable (pauReport tag d v s) = pageTable s := by
  unfold pauReport
  split
  · rfl
  · split
    · exact pageTable_modOldest (f := fun e => e.consume v) (fun _ => rfl) s
    · rfl

/-! ### Supply Unit and bus -/

@[simp] theorem pageTable_evalSupply (c : Fin 6) (s : State) : pageTable (evalSupply c s) = pageTable s := by
  unfold evalSupply; dsimp only; split <;> rfl

@[simp] theorem pageTable_refillTest (c : Fin 6) (s : State) : pageTable (refillTest c s) = pageTable s := by
  unfold refillTest; split <;> rfl

@[simp] theorem pageTable_refillTestAll (s : State) : pageTable (refillTestAll s) = pageTable s :=
  foldl_kept pageTable _ (fun s c => pageTable_refillTest c s) allChannels s

@[simp] theorem pageTable_makeActive (b : Fin 12) (s : State) : pageTable (makeActive b s) = pageTable s := rfl

@[simp] theorem pageTable_promote (b : Fin 12) (s : State) : pageTable (promote b s) = pageTable s := by
  simp [promote]

@[simp] theorem pageTable_enterStandby (b : Fin 12) (s : State) : pageTable (enterStandby b s).1 = pageTable s := by
  unfold enterStandby
  dsimp only
  repeat' split
  all_goals simp

@[simp] theorem pageTable_switchover (c : Fin 6) (side : Side) (s : State) :
    pageTable (switchover c side s) = pageTable s := by
  unfold switchover
  dsimp only
  repeat' split
  all_goals simp

@[simp] theorem pageTable_insertBay (b : Fin 12) (scan : Bool) (s : State) :
    pageTable (insertBay b scan s) = pageTable s := by
  unfold insertBay; dsimp only; split <;> rfl

@[simp] theorem pageTable_removeBay (b : Fin 12) (s : State) : pageTable (removeBay b s) = pageTable s := by
  unfold removeBay
  dsimp only
  split <;> simp

@[simp] theorem pageTable_creditTank (c : Fin 6) (v : Nat) (s : State) :
    pageTable (creditTank c v s) = pageTable s := rfl

@[simp] theorem pageTable_strokeInk (c : Fin 6) (b : Fin 12) (s : State) :
    pageTable (strokeInk c b s) = pageTable s := by
  unfold strokeInk
  dsimp only
  repeat' split
  all_goals simp

@[simp] theorem pageTable_bayOut (b : Fin 12) (s : State) : pageTable (bayOut b s) = pageTable s := rfl

@[simp] theorem pageTable_strokeCounted (c : Fin 6) (s : State) : pageTable (strokeCounted c s) = pageTable s := rfl

@[simp] theorem pageTable_strokeNext (c : Fin 6) (s : State) : pageTable (strokeNext c s) = pageTable s := by
  unfold strokeNext
  dsimp only
  repeat' split
  all_goals simp

@[simp] theorem pageTable_strokeAfterSwitch (c : Fin 6) (s : State) :
    pageTable (strokeAfterSwitch c s) = pageTable s := by
  unfold strokeAfterSwitch
  dsimp only
  repeat' split
  all_goals simp

@[simp] theorem pageTable_floatTo (c : Fin 6) (f : FloatLevel) (s : State) :
    pageTable (floatTo c f s) = pageTable s := by
  simp [floatTo]

@[simp] theorem pageTable_clearFault (c : Fin 6) (s : State) : pageTable (clearFault c s) = pageTable s := by
  simp [clearFault]

@[simp] theorem pageTable_debitTank (c : Fin 6) (n : Nat) (s : State) : pageTable (debitTank c n s) = pageTable s := by
  simp [debitTank]

/-! ### Usage Accounting Unit -/

@[simp] theorem pageTable_wasteDebit (n : Nat) (s : State) : pageTable (wasteDebit n s) = pageTable s :=
  (wasteDebit_debitsOnly n s).pageTable

theorem WasteOnly.pageTable {s t : State} (h : WasteOnly s t) : pageTable t = pageTable s :=
  pageTable_of_pages (congrArg (fun u : State => u.pau.pages) h.frame :)

@[simp] theorem pageTable_testWaste (s : State) : pageTable (testWaste s).1 = pageTable s :=
  (testWaste_wasteOnly s).pageTable

@[simp] theorem pageTable_chargeAll (body : List Byte) (d : Destination) (s : State) :
    pageTable (chargeAll body d s) = pageTable s := (chargeAll_debitsOnly body d s).pageTable

@[simp] theorem pageTable_chargeSuction (n : Nat) (c : Fin 6) (s : State) :
    pageTable (chargeSuction n c s) = pageTable s := by
  unfold chargeSuction
  dsimp only
  split <;> simp

@[simp] theorem pageTable_suctionDebit (h : Fin 3) (n : Nat) (s : State) :
    pageTable (suctionDebit h n s).1 = pageTable s := by
  unfold suctionDebit
  split
  · rfl
  · simp

@[simp] theorem pageTable_reportInk (body : List Byte) (d : Destination) (s : State) :
    pageTable (reportInk body d s) = pageTable s := by
  unfold reportInk
  dsimp only
  rw [pageTable_checkOverAll, pageTable_pauReport, pageTable_chargeAll]
  split <;> rfl

@[simp] theorem pageTable_addDrops (body : List Byte) (h : Fin 3) (s : State) :
    pageTable (addDrops body h s) = pageTable s := by
  unfold addDrops; dsimp only; split <;> simp

@[simp] theorem pageTable_headFired (h : Fin 3) (s : State) : pageTable (headFired h s) = pageTable s := rfl

@[simp] theorem pageTable_reportService (body : List Byte) (d : Destination) (s : State) :
    pageTable (reportService body d s) = pageTable s := by
  unfold reportService
  dsimp only
  rw [foldl_kept pageTable _ (fun s h => by split <;> simp)]
  split
  · exact foldl_kept pageTable _ (fun s h => pageTable_addDrops body h s) _ s
  · rfl

@[simp] theorem pageTable_applyReport (body : List Byte) (d : Destination) (s : State) :
    pageTable (applyReport body d s).1 = pageTable s := by
  have noted : pageTable (noteReport body s) = pageTable s := rfl
  unfold applyReport
  dsimp only
  split
  · exact noted
  · cases d <;> simp [noted]

@[simp] theorem pageTable_usageStep (s : State) : pageTable (usageStep s).1 = pageTable s := by
  unfold usageStep
  split
  · rfl
  · dsimp only
    split
    · rfl
    · rw [pageTable_applyReport]
      rfl

end Sys2Proof.Machine
end

