-- ==== Sys2Proof/Proofs/PageTableServices.lean ====
section
/-!
SUPPORT. The operations of the station, the order queue, the detector, the cleaning sequencer, the feed and the links
leave the admission table's tags and young entries alone, and so does every consequence: one lemma per operation, in the
order of the model's files.
-/

namespace Sys2Proof.Machine

/-! ### Order Queue -/

@[simp] theorem pageTable_placeOrder (w : Placer) (b : OrderBody) (s : State) :
    pageTable (placeOrder w b s).1 = pageTable s := pageTable_of_station (placeOrder_keptS w b s)

@[simp] theorem pageTable_enterWaiting (s : State) : pageTable (enterWaiting s).1 = pageTable s :=
  pageTable_of_station (enterWaiting_keptS s)

@[simp] theorem pageTable_withdraw (w : Placer) (s : State) : pageTable (withdraw w s) = pageTable s := rfl

@[simp] theorem pageTable_removeQueued (o : Origin) (s : State) : pageTable (removeQueued o s).1 = pageTable s := rfl

@[simp] theorem pageTable_beginSample (o : Order) (s : State) : pageTable (beginSample o s) = pageTable s := by
  unfold beginSample; split <;> rfl

@[simp] theorem pageTable_takeOldest (s : State) : pageTable (takeOldest s) = pageTable s := by
  unfold takeOldest; split <;> simp

@[simp] theorem pageTable_endTaken (o : Order) (how : OrderEnd) (s : State) :
    pageTable (endTaken o how s).1 = pageTable s := rfl

@[simp] theorem pageTable_orderTimeout (o : Order) (s : State) : pageTable (orderTimeout o s).1 = pageTable s := by
  simp [orderTimeout]

@[simp] theorem pageTable_returnTaken (s : State) : pageTable (returnTaken s).1 = pageTable s := by
  unfold returnTaken
  split
  · rfl
  · split <;> rfl

@[simp] theorem pageTable_strobe (e : Edge) (s : State) : pageTable (strobe e s) = pageTable s := by
  unfold strobe
  split
  · split <;> rfl
  · rfl

@[simp] theorem pageTable_takeSample (i : Bool) (s : State) : pageTable (takeSample i s) = pageTable s := by
  unfold takeSample
  split
  · rfl
  · split <;> rfl

/-! ### Station Controller and exposure timers -/

@[simp] theorem pageTable_exposureSpit (h : Fin 3) (s : State) : pageTable (exposureSpit h s) = pageTable s :=
  pageTable_of_station (exposureSpit_keptS h s)

@[simp] theorem pageTable_raiseExposed (h : Fin 3) (s : State) : pageTable (raiseExposed h s) = pageTable s :=
  pageTable_of_station (raiseExposed_keptS h s)

@[simp] theorem pageTable_extEntry (s : State) : pageTable (extEntry s).1 = pageTable s :=
  pageTable_of_station (extEntry_keptS s)

@[simp] theorem pageTable_exposureExpires (h : Fin 3) (s : State) :
    pageTable (exposureExpires h s).1 = pageTable s := by
  unfold exposureExpires; dsimp only; split <;> simp

@[simp] theorem pageTable_sledCommand (e : SledEnd) (s : State) : pageTable (sledCommand e s).1 = pageTable s :=
  pageTable_of_station (sledCommand_keptS e s)

@[simp] theorem pageTable_wiperCommand (e : WiperEnd) (s : State) :
    pageTable (wiperCommand e s).1 = pageTable s := rfl

@[simp] theorem pageTable_holderSled (e : SledEnd) (s : State) : pageTable (holderSled e s).1 = pageTable s := by
  unfold holderSled; split <;> simp

@[simp] theorem pageTable_holderWiper (e : WiperEnd) (s : State) : pageTable (holderWiper e s).1 = pageTable s := by
  unfold holderWiper; split <;> simp

@[simp] theorem pageTable_sledArrives (s : State) : pageTable (sledArrives s).1 = pageTable s := by
  unfold sledArrives; split <;> rfl

@[simp] theorem pageTable_wiperArrives (s : State) : pageTable (wiperArrives s).1 = pageTable s := by
  unfold wiperArrives; split <;> rfl

@[simp] theorem pageTable_joinSelector (h : Fin 3) (s : State) : pageTable (joinSelector h s) = pageTable s := by
  unfold joinSelector; split <;> rfl

@[simp] theorem pageTable_releaseSelector (s : State) : pageTable (releaseSelector s) = pageTable s := by
  unfold releaseSelector; split <;> rfl

@[simp] theorem pageTable_startPump (n : Nat) (s : State) : pageTable (startPump n s) = pageTable s := by
  unfold startPump; split <;> rfl

@[simp] theorem pageTable_stopPump (s : State) : pageTable (stopPump s) = pageTable s := rfl

@[simp] theorem pageTable_countRevolution (s : State) : pageTable (countRevolution s).1 = pageTable s := by
  unfold countRevolution
  dsimp only
  split
  · split <;> rfl
  · rfl

@[simp] theorem pageTable_beginHoming (s : State) : pageTable (beginHoming s).1 = pageTable s := by
  simp [beginHoming]

@[simp] theorem pageTable_enterUnparked (s : State) : pageTable (enterUnparked s).1 = pageTable s := rfl

@[simp] theorem pageTable_enterOpen (e : Bool) (s : State) : pageTable (enterOpen e s).1 = pageTable s := rfl

@[simp] theorem pageTable_enterCapped (s : State) : pageTable (enterCapped s).1 = pageTable s := rfl

@[simp] theorem pageTable_beginCapping (s : State) : pageTable (beginCapping s).1 = pageTable s :=
  pageTable_of_station (beginCapping_keptS s)

@[simp] theorem pageTable_beginUncapping (s : State) : pageTable (beginUncapping s).1 = pageTable s :=
  pageTable_of_station (beginUncapping_keptS s)

@[simp] theorem pageTable_askCapping (s : State) : pageTable (askCapping s).1 = pageTable s :=
  pageTable_of_station (askCapping_keptS s)

@[simp] theorem pageTable_freeMoment (e : Bool) (s : State) : pageTable (freeMoment e s).1 = pageTable s :=
  pageTable_of_station (freeMoment_keptS e s)

@[simp] theorem pageTable_grantZone (s : State) : pageTable (grantZone s).1 = pageTable s :=
  pageTable_of_station (grantZone_keptS s)

@[simp] theorem pageTable_zoneRequest (s : State) : pageTable (zoneRequest s).2.1 = pageTable s := by
  unfold zoneRequest; split <;> simp

@[simp] theorem pageTable_releaseZone (s : State) : pageTable (releaseZone s).1 = pageTable s :=
  pageTable_of_station (releaseZone_keptS s)

@[simp] theorem pageTable_resetZone (s : State) : pageTable (resetZone s).1 = pageTable s := by
  unfold resetZone
  exact kept_ite pageTable (pageTable_releaseZone _) (kept_ite pageTable rfl rfl)

@[simp] theorem pageTable_homeTo (b : Bool) (s : State) : pageTable (homeTo b s).1 = pageTable s := by
  unfold homeTo
  dsimp only
  repeat' split
  all_goals rfl

@[simp] theorem pageTable_parkExpires (s : State) : pageTable (parkExpires s) = pageTable s := rfl

@[simp] theorem pageTable_idleExpires (s : State) : pageTable (idleExpires s).1 = pageTable s := by
  simp [idleExpires]

@[simp] theorem pageTable_holdExpires (s : State) : pageTable (holdExpires s).1 = pageTable s := rfl

@[simp] theorem pageTable_placeClaim (w : Claimant) (u : Bool) (s : State) :
    pageTable (placeClaim w u s).1 = pageTable s := pageTable_of_station (placeClaim_keptS w u s)

@[simp] theorem pageTable_markUrgent (w : Claimant) (s : State) : pageTable (markUrgent w s).1 = pageTable s :=
  pageTable_of_station (markUrgent_keptS w s)

@[simp] theorem pageTable_startHandBack (w : Claimant) (s : State) :
    pageTable (startHandBack w s) = pageTable s := by
  unfold startHandBack; split <;> rfl

@[simp] theorem pageTable_handBack (s : State) : pageTable (handBack s).1 = pageTable s :=
  pageTable_of_station (handBack_keptS s)

@[simp] theorem pageTable_faultStation (c : StationCause) (s : State) :
    pageTable (faultStation c s) = pageTable s := pageTable_of_station (faultStation_keptS c s)

@[simp] theorem pageTable_stcSledDone (s : State) : pageTable (stcSledDone s).1 = pageTable s := by
  unfold stcSledDone
  repeat' split
  all_goals simp

@[simp] theorem pageTable_stcWiperDone (s : State) : pageTable (stcWiperDone s).1 = pageTable s := by
  unfold stcWiperDone
  repeat' split
  all_goals simp

@[simp] theorem pageTable_setEndPin (e : EndSensor) (b : Bool) (s : State) :
    pageTable (setEndPin e b s) = pageTable s := by
  cases e <;> rfl

/-! ### Detector Unit -/

@[simp] theorem pageTable_createTask (k : TaskKind) (cs : List (Fin 6)) (p : Port) (s : State) :
    pageTable (createTask k cs p s).1 = pageTable s := by
  simp [createTask]

@[simp] theorem pageTable_dtuReady (s : State) : pageTable (dtuReady s).1 = pageTable s := by
  unfold dtuReady; split <;> rfl

@[simp] theorem pageTable_dtuSession (s : State) : pageTable (dtuSession s).1 = pageTable s := by
  unfold dtuSession
  dsimp only
  split
  · rfl
  · split <;> simp

@[simp] theorem pageTable_dtuSledDone (s : State) : pageTable (dtuSledDone s).1 = pageTable s := by
  unfold dtuSledDone; split <;> simp

@[simp] theorem pageTable_dtuPlace (s : State) : pageTable (dtuPlace s).1 = pageTable s := by
  unfold dtuPlace
  split
  · rfl
  · split <;> simp

@[simp] theorem pageTable_dtuEntered (id : Nat) (s : State) : pageTable (dtuEntered id s) = pageTable s := rfl

@[simp] theorem pageTable_dtuAbandon (s : State) : pageTable (dtuAbandon s) = pageTable s := rfl

@[simp] theorem pageTable_recordRow (c : Fin 6) (g l : Nat) (seen : List Nat) (s : State) :
    pageTable (recordRow c g l seen s) = pageTable s := by
  unfold recordRow; dsimp only; split <;> rfl

@[simp] theorem pageTable_foldSweep (rs : List (Fin 6 × SweepResult)) (s : State) :
    pageTable (foldSweep rs s) = pageTable s :=
  foldl_kept pageTable _ (fun s r => by split <;> rfl) rs s

@[simp] theorem pageTable_closeTask (t : Task) (c : Option CheckCause) (s : State) :
    pageTable (closeTask t c s).1 = pageTable s := by
  simp [closeTask]

@[simp] theorem pageTable_dtuFinish (s : State) : pageTable (dtuFinish s).1 = pageTable s := by
  unfold dtuFinish; split <;> simp

@[simp] theorem pageTable_dtuOrderFailed (s : State) : pageTable (dtuOrderFailed s).1 = pageTable s := by
  unfold dtuOrderFailed; split <;> simp

@[simp] theorem pageTable_dtuFault (s : State) : pageTable (dtuFault s).1 = pageTable s := by
  unfold dtuFault
  split
  · split <;> simp
  · rfl

@[simp] theorem pageTable_dtuCheckFor (rows : List (Fin 6)) (s : State) :
    pageTable (dtuCheckFor rows s).1 = pageTable s := rfl

@[simp] theorem pageTable_dtuEndCheck (s : State) : pageTable (dtuEndCheck s) = pageTable s := by
  unfold dtuEndCheck; split <;> rfl

@[simp] theorem pageTable_sweepStepDone (t : Task) (c : Fin 6) (b : Bool) (s : State) :
    pageTable (sweepStepDone t c b s).1 = pageTable s := by
  unfold sweepStepDone finishRow nextStep
  dsimp only
  repeat' split
  all_goals rfl

@[simp] theorem pageTable_dtuOrderDone (x : Option Sample) (s : State) :
    pageTable (dtuOrderDone x s).1 = pageTable s := by
  unfold dtuOrderDone
  dsimp only
  repeat' split
  all_goals simp

@[simp] theorem pageTable_dtuOrderEnded (o : Order) (how : OrderEnd) (x : Option Sample) (s : State) :
    pageTable (dtuOrderEnded o how x s).1 = pageTable s := by
  unfold dtuOrderEnded
  dsimp only
  repeat' split
  all_goals simp

/-! ### Cleaning Sequencer -/

@[simp] theorem pageTable_clsClaim (s : State) : pageTable (clsClaim s).1 = pageTable s := by
  unfold clsClaim; split <;> simp

@[simp] theorem pageTable_clsFolded (u : Bool) (s : State) : pageTable (clsFolded u s).1 = pageTable s := by
  unfold clsFolded
  repeat' split
  all_goals simp

@[simp] theorem pageTable_clsHandBack (s : State) : pageTable (clsHandBack s).1 = pageTable s := by
  simp [clsHandBack]

@[simp] theorem pageTable_clearEntries (hs : List (Fin 3)) (s : State) :
    pageTable (clearEntries hs s) = pageTable s :=
  foldl_kept pageTable _ (fun _ _ => by rfl) hs s

@[simp] theorem pageTable_dropHeads (hs : List CycleHead) (s : State) :
    pageTable (dropHeads hs s) = pageTable s := by
  unfold dropHeads; split <;> simp

@[simp] theorem pageTable_endDropped (hs : List CycleHead) (s : State) :
    pageTable (endDropped hs s).1 = pageTable s := by
  simp [endDropped]

@[simp] theorem pageTable_refuseCycle (hs : List CycleHead) (c : CleanCause) (s : State) :
    pageTable (refuseCycle hs c s).1 = pageTable s := by
  simp [refuseCycle]

@[simp] theorem pageTable_startCycle (hs : List CycleHead) (s : State) :
    pageTable (startCycle hs s).1 = pageTable s := by
  simp [startCycle]

@[simp] theorem pageTable_formCycle (s : State) : pageTable (formCycle s).1 = pageTable s := by
  unfold formCycle
  dsimp only
  repeat' split
  all_goals simp

@[simp] theorem pageTable_waitInkTest (s : State) : pageTable (waitInkTest s).1 = pageTable s := by
  unfold waitInkTest
  dsimp only
  repeat' split
  all_goals simp

@[simp] theorem pageTable_supplyChanged (c : Fin 6) (s : State) : pageTable (supplyChanged c s).1 = pageTable s := by
  unfold supplyChanged; split <;> simp

@[simp] theorem pageTable_nextSuction (s : State) : pageTable (nextSuction s).1 = pageTable s := by
  unfold nextSuction
  split
  · rfl
  · split <;> rfl

@[simp] theorem pageTable_startRun (s : State) : pageTable (startRun s) = pageTable s := by
  unfold startRun
  repeat' split
  all_goals simp

@[simp] theorem pageTable_recordRun (h : Fin 3) (n : Nat) (s : State) :
    pageTable (recordRun h n s) = pageTable s := rfl

@[simp] theorem pageTable_spitsDone (s : State) : pageTable (spitsDone s).1 = pageTable s := by
  unfold spitsDone leaveSpitting
  repeat' split
  all_goals rfl

@[simp] theorem pageTable_nextSpit (s : State) : pageTable (nextSpit s).1 = pageTable s := by
  unfold nextSpit
  repeat' split
  all_goals simp

@[simp] theorem pageTable_clsEntered (id : Nat) (s : State) : pageTable (clsEntered id s).1 = pageTable s := by
  unfold clsEntered
  dsimp only
  repeat' split
  all_goals rfl

@[simp] theorem pageTable_clsSledDone (s : State) : pageTable (clsSledDone s).1 = pageTable s := by
  unfold clsSledDone
  repeat' split
  all_goals simp

@[simp] theorem pageTable_clsWiperDone (s : State) : pageTable (clsWiperDone s).1 = pageTable s := by
  unfold clsWiperDone
  repeat' split
  all_goals simp

@[simp] theorem pageTable_markDegraded (cs : List (Fin 6)) (s : State) :
    pageTable (cs.foldl (fun s c => markDegraded c s) s) = pageTable s :=
  foldl_kept pageTable _ (fun _ _ => by rfl) cs s

@[simp] theorem pageTable_setStep (h : Fin 3) (n : Nat) (s : State) : pageTable (setStep h n s) = pageTable s := rfl

@[simp] theorem pageTable_judgeHead (rs : List RowResult) (x : CycleHead) (s : State) :
    pageTable (judgeHead rs x s) = pageTable s := by
  unfold judgeHead
  dsimp only
  repeat' split
  all_goals simp

@[simp] theorem pageTable_checkResults (rs : List RowResult) (s : State) :
    pageTable (checkResults rs s).1 = pageTable s := by
  unfold checkResults
  split
  · exact foldl_kept pageTable _ (fun s x => pageTable_judgeHead rs x s) _ s
  · rfl

@[simp] theorem pageTable_zeroDrops (hs : List CycleHead) (s : State) :
    pageTable (zeroDrops hs s) = pageTable s :=
  foldl_kept pageTable _ (fun _ _ => by rfl) hs s

@[simp] theorem pageTable_clearUrgent (s : State) : pageTable (clearUrgent s) = pageTable s :=
  foldl_kept pageTable _ (fun s h => by split <;> rfl) allHeads s

@[simp] theorem pageTable_finishCycle (s : State) : pageTable (finishCycle s).1 = pageTable s := by
  unfold finishCycle
  dsimp only
  repeat' split
  all_goals simp

@[simp] theorem pageTable_stageEntered (s : State) : pageTable (stageEntered s).1 = pageTable s := by
  unfold stageEntered
  repeat' split
  all_goals simp

@[simp] theorem pageTable_foldBack (s : State) : pageTable (foldBack s) = pageTable s :=
  foldl_kept pageTable _ (fun _ _ => by rfl) _ s

@[simp] theorem pageTable_closeAborted (c : CleanCause) (s : State) :
    pageTable (closeAborted c s) = pageTable s := by
  simp [closeAborted]

@[simp] theorem pageTable_safePoint (s : State) : pageTable (safePoint s).1 = pageTable s := by
  unfold safePoint
  repeat' split
  all_goals simp

@[simp] theorem pageTable_clsOrderEnded (o : Order) (how : OrderEnd) (s : State) :
    pageTable (clsOrderEnded o how s).1 = pageTable s := by
  unfold clsOrderEnded
  dsimp only
  repeat' split
  all_goals simp

@[simp] theorem pageTable_clsSession (s : State) : pageTable (clsSession s).1 = pageTable s := by
  unfold clsSession; split <;> simp

@[simp] theorem pageTable_nextCycle (s : State) : pageTable (nextCycle s).1 = pageTable s := by
  unfold nextCycle; split <;> simp

@[simp] theorem pageTable_cleanRequest (hs : List (Fin 3)) (l : Level) (u : Bool) (o : CleanOrigin) (s : State) :
    pageTable (cleanRequest hs l u o s) = pageTable s :=
  foldl_kept pageTable _ (fun _ _ => by rfl) hs s

@[simp] theorem pageTable_cancelEntries (hs : List (Fin 3)) (s : State) :
    pageTable (cancelEntries hs s) = pageTable s := by
  unfold cancelEntries dropHold; split <;> simp

@[simp] theorem pageTable_cancelCycle (hs : List (Fin 3)) (s : State) :
    pageTable (cancelCycle hs s).1 = pageTable s := by
  unfold cancelCycle
  dsimp only
  repeat' split
  all_goals rfl

@[simp] theorem pageTable_debitRun (s : State) : pageTable (debitRun s).1 = pageTable s := by
  unfold debitRun
  split
  · rfl
  · simp

@[simp] theorem pageTable_clsPumpDone (s : State) : pageTable (clsPumpDone s).1 = pageTable s := by
  unfold clsPumpDone
  dsimp only
  split <;> simp

@[simp] theorem pageTable_stopRun (s : State) : pageTable (stopRun s).1 = pageTable s := by
  unfold stopRun
  split <;> simp

@[simp] theorem pageTable_abortCycle (c : CleanCause) (s : State) : pageTable (abortCycle c s).1 = pageTable s := by
  unfold abortCycle
  dsimp only
  split <;> simp

@[simp] theorem pageTable_clsWasteChanged (s : State) : pageTable (clsWasteChanged s).1 = pageTable s := by
  unfold clsWasteChanged
  repeat' split
  all_goals simp

@[simp] theorem pageTable_clsFault (run : Option (Fin 3 × Nat)) (s : State) :
    pageTable (clsFault run s).1 = pageTable s := by
  unfold clsFault
  dsimp only
  split
  · simp only [pageTable_setCls, pageTable_closeAborted, pageTable_withdraw, pageTable_dtuEndCheck]
    split <;> simp
  · rfl

@[simp] theorem pageTable_stationFault (c : StationCause) (s : State) :
    pageTable (stationFault c s).1 = pageTable s := by
  unfold stationFault
  dsimp only
  rw [pageTable_plus]
  split <;> simp

/-! ### Feed Controller -/

@[simp] theorem pageTable_modRemaining (a : Source) (f : Nat → Nat) (s : State) :
    pageTable (modRemaining a f s) = pageTable s := rfl

@[simp] theorem pageTable_mediaOutTest (a : Source) (s : State) : pageTable (mediaOutTest a s) = pageTable s := by
  unfold mediaOutTest; dsimp only; split <;> rfl

@[simp] theorem pageTable_mediaForward (d : Nat) (s : State) : pageTable (mediaForward d s) = pageTable s := by
  unfold mediaForward; dsimp only; split <;> simp

@[simp] theorem pageTable_mediaReverse (d : Nat) (s : State) : pageTable (mediaReverse d s) = pageTable s := by
  unfold mediaReverse; dsimp only; split <;> rfl

@[simp] theorem pageTable_setEndReading (a : Source) (b : Bool) (s : State) :
    pageTable (setEndReading a b s) = pageTable s := by
  cases a <;> rfl

@[simp] theorem pageTable_endSeen (a : Source) (s : State) : pageTable (endSeen a s) = pageTable s := by
  unfold endSeen; dsimp only; split <;> simp

@[simp] theorem pageTable_motorFree (s : State) : pageTable (motorFree s) = pageTable s := rfl

@[simp] theorem pageTable_answerMotion (m : Motion) (r : Result) (b : List Byte) (s : State) :
    pageTable (answerMotion m r b s) = pageTable s := by
  unfold answerMotion; split <;> rfl

@[simp] theorem pageTable_loadDone (a : Source) (s : State) : pageTable (loadDone a s) = pageTable s := by
  simp [loadDone, apply_ite pageTable]

@[simp] theorem pageTable_unloadDone (d : Nat) (s : State) : pageTable (unloadDone d s) = pageTable s := by
  unfold unloadDone
  split
  · rfl
  · simp only [pageTable_raise, pageTable_setPath]
    split <;> rfl

@[simp] theorem pageTable_advanceDone (m : Motion) (tag : Nat) (s : State) :
    pageTable (advanceDone m tag s) = pageTable s := by
  simp [advanceDone]

@[simp] theorem pageTable_cutAdvanceDone (m : Motion) (s : State) :
    pageTable (cutAdvanceDone m s).1 = pageTable s := by
  simp [cutAdvanceDone]

@[simp] theorem pageTable_jogForwardDone (m : Motion) (s : State) :
    pageTable (jogForwardDone m s) = pageTable s := by
  simp [jogForwardDone]

@[simp] theorem pageTable_jogReverseDone (m : Motion) (n d : Nat) (s : State) :
    pageTable (jogReverseDone m n d s) = pageTable s := by
  simp [jogReverseDone]

@[simp] theorem pageTable_motionDone (m : Motion) (s : State) : pageTable (motionDone m s).1 = pageTable s := by
  unfold motionDone; split <;> simp

@[simp] theorem pageTable_beginMotion (m : Motion) (st : PathState) (s : State) :
    pageTable (beginMotion m st s).1 = pageTable s := by
  unfold beginMotion; dsimp only; split <;> simp

@[simp] theorem pageTable_beginRequest (p : Port) (r : MotionReq) (s : State) :
    pageTable (beginRequest p r s).1 = pageTable s := by
  unfold beginRequest beginLoad beginUnload beginAdvance beginCut beginManual
  dsimp only
  repeat' split
  all_goals simp

@[simp] theorem pageTable_serveOne (p : Port) (r : MotionReq) (s : State) :
    pageTable (serveOne p r s).1 = pageTable s := by
  unfold serveOne; dsimp only; split <;> simp

theorem pageTable_serveLoop (n : Nat) : ∀ s, pageTable (serveLoop n s).1 = pageTable s := by
  induction n with
  | zero => intro s; rfl
  | succ n ih =>
    intro s
    unfold serveLoop
    repeat' split
    all_goals simp [ih]

@[simp] theorem pageTable_serve (s : State) : pageTable (serve s).1 = pageTable s := pageTable_serveLoop 3 s

@[simp] theorem pageTable_enterMotion (p : Port) (r : MotionReq) (s : State) :
    pageTable (enterMotion p r s).1 = pageTable s := by
  simp [enterMotion]

@[simp] theorem pageTable_completeMotion (m : Motion) (s : State) :
    pageTable (completeMotion m s).1 = pageTable s := by
  simp [completeMotion]

@[simp] theorem pageTable_stopMotion (n : Nat) (s : State) : pageTable (stopMotion n s) = pageTable s := by
  unfold stopMotion accountPartial
  repeat' split
  all_goals simp

@[simp] theorem pageTable_endCut (s : State) : pageTable (endCut s) = pageTable s := by
  unfold endCut; dsimp only; split <;> rfl

@[simp] theorem pageTable_holdWaiting (p : Port) (s : State) : pageTable (holdWaiting p s) = pageTable s := by
  unfold holdWaiting; split <;> rfl

@[simp] theorem pageTable_answerHeld (m : Option Motion) (n : Nat) (s : State) :
    pageTable (answerHeld m n s) = pageTable s := by
  unfold answerHeld
  dsimp only
  rw [foldl_kept pageTable _ (fun s p => pageTable_holdWaiting p s)]
  split <;> simp

@[simp] theorem pageTable_holdPath (h : PathHold) (s : State) : pageTable (holdPath h s) = pageTable s := rfl

@[simp] theorem pageTable_declareJam (n : Nat) (s : State) : pageTable (declareJam n s).1 = pageTable s := by
  simp [declareJam]

@[simp] theorem pageTable_openCover (n : Nat) (s : State) : pageTable (openCover n s) = pageTable s := by
  unfold openCover
  dsimp only
  repeat' split
  all_goals simp

@[simp] theorem pageTable_closeCover (s : State) : pageTable (closeCover s) = pageTable s := by
  unfold closeCover; dsimp only; split <;> rfl

@[simp] theorem pageTable_edgeTo (b : Bool) (n : Nat) (s : State) : pageTable (edgeTo b n s).1 = pageTable s := by
  unfold edgeTo edgeInMotion edgeAtRest
  dsimp only
  repeat' split
  all_goals simp

@[simp] theorem pageTable_entryTo (b : Bool) (n : Nat) (s : State) : pageTable (entryTo b n s).1 = pageTable s := by
  unfold entryTo
  dsimp only
  repeat' split
  all_goals simp

@[simp] theorem pageTable_sourceEnds (a : Source) (s : State) : pageTable (sourceEnds a s) = pageTable s := by
  unfold sourceEnds; split <;> simp

@[simp] theorem pageTable_sourceEndClears (a : Source) (s : State) :
    pageTable (sourceEndClears a s) = pageTable s := by
  unfold sourceEndClears; split <;> simp

@[simp] theorem pageTable_releasePath (s : State) : pageTable (releasePath s) = pageTable s := by
  unfold releasePath; dsimp only; split <;> rfl

@[simp] theorem pageTable_fdcEntered (id : Nat) (s : State) : pageTable (fdcEntered id s) = pageTable s := by
  unfold fdcEntered; split <;> rfl

@[simp] theorem pageTable_fdcOrderEnded (o : Order) (how : OrderEnd) (s : State) :
    pageTable (fdcOrderEnded o how s) = pageTable s := by
  unfold fdcOrderEnded
  repeat' split
  all_goals rfl

@[simp] theorem pageTable_resetFeed (p : Port) (s : State) : pageTable (resetFeed p s) = pageTable s := rfl

/-! ### Agenda and links -/

@[simp] theorem pageTable_sledDone (s : State) : pageTable (sledDone s).1 = pageTable s := by
  unfold sledDone
  repeat' split
  all_goals simp

@[simp] theorem pageTable_wiperDone (s : State) : pageTable (wiperDone s).1 = pageTable s := by
  unfold wiperDone
  repeat' split
  all_goals simp

@[simp] theorem pageTable_enteredFor (w : Placer) (id : Nat) (s : State) :
    pageTable (enteredFor w id s).1 = pageTable s := by
  unfold enteredFor; split <;> simp

@[simp] theorem pageTable_orderEndedFor (o : Order) (how : OrderEnd) (x : Option Sample) (s : State) :
    pageTable (orderEndedFor o how x s).1 = pageTable s := by
  unfold orderEndedFor; split <;> simp

@[simp] theorem pageTable_returnOrders (s : State) : pageTable (returnOrders s).1 = pageTable s := by
  unfold returnOrders; dsimp only; split <;> simp

@[simp] theorem pageTable_readReply (p : Port) (body : List Byte) (s : State) :
    pageTable (readReply p body s) = pageTable s := by
  unfold readReply; dsimp only; split <;> rfl

@[simp] theorem pageTable_replyShifted (p : Port) (s : State) : pageTable (replyShifted p s) = pageTable s := by
  unfold replyShifted; dsimp only; split <;> rfl

@[simp] theorem pageTable_resetPort (p : Port) (s : State) : pageTable (resetPort p s) = pageTable s := rfl

@[simp] theorem pageTable_wakeEnd (s : State) : pageTable (wakeEnd s).1 = pageTable s := by
  simp [wakeEnd]

/-- No consequence writes the tags or the young entries. -/
theorem pageTable_perform (a : Act) (s : State) : pageTable (perform a s).1 = pageTable s := by
  cases a
  case sessionBegun who => cases who <;> simp [perform]
  all_goals simp [perform]

/-! ### The requests and events of the other blocks -/

@[simp] theorem pageTable_readEvents (body : List Byte) (p : Port) (s : State) :
    pageTable (readEvents body p s).1 = pageTable s := by
  unfold readEvents; split <;> simp

@[simp] theorem pageTable_clearEvents (body : List Byte) (p : Port) (s : State) :
    pageTable (clearEvents body p s).1 = pageTable s := by
  unfold clearEvents; dsimp only; split <;> rfl

@[simp] theorem pageTable_setEnables (body : List Byte) (p : Port) (s : State) :
    pageTable (setEnables body p s).1 = pageTable s := by
  unfold setEnables; dsimp only; split <;> rfl

@[simp] theorem pageTable_getParam (body : List Byte) (p : Port) (s : State) :
    pageTable (getParam body p s).1 = pageTable s := by
  unfold getParam; split <;> rfl

@[simp] theorem pageTable_readByChannel (k : Kind) (p : Port) (body : List Byte) (make : State → Fin 6 → List Byte)
    (s : State) : pageTable (readByChannel k p body make s).1 = pageTable s := by
  unfold readByChannel; split <;> rfl

@[simp] theorem pageTable_readBay (p : Port) (body : List Byte) (s : State) :
    pageTable (readBay p body s).1 = pageTable s := by
  unfold readBay; split <;> rfl

@[simp] theorem pageTable_listPages (p : Port) (body : List Byte) (s : State) :
    pageTable (listPages p body s).1 = pageTable s := by
  unfold listPages; dsimp only; split <;> rfl

@[simp] theorem pageTable_takeZoneRequest (p : Port) (s : State) :
    pageTable (takeZoneRequest p s).1 = pageTable s := by
  simp [takeZoneRequest]

@[simp] theorem pageTable_takeZoneRelease (p : Port) (s : State) :
    pageTable (takeZoneRelease p s).1 = pageTable s := by
  unfold takeZoneRelease; split <;> simp

@[simp] theorem pageTable_retryStation (p : Port) (s : State) : pageTable (retryStation p s).1 = pageTable s := by
  unfold retryStation; split <;> simp

@[simp] theorem pageTable_fetchOrder (p : Port) (s : State) : pageTable (fetchOrder p s).1 = pageTable s := by
  unfold fetchOrder
  repeat' split
  all_goals simp

@[simp] theorem pageTable_orderDone (p : Port) (body : List Byte) (s : State) :
    pageTable (orderDone p body s).1 = pageTable s := by
  unfold orderDone
  dsimp only
  repeat' split
  all_goals simp

@[simp] theorem pageTable_clean (p : Port) (body : List Byte) (s : State) :
    pageTable (clean p body s).1 = pageTable s := by
  unfold clean
  repeat' split
  all_goals simp

@[simp] theorem pageTable_cancelClean (p : Port) (body : List Byte) (s : State) :
    pageTable (cancelClean p body s).1 = pageTable s := by
  unfold cancelClean; split <;> simp

@[simp] theorem pageTable_askTask (k : Kind) (t : TaskKind) (p : Port) (body : List Byte) (s : State) :
    pageTable (askTask k t p body s).1 = pageTable s := by
  unfold askTask
  repeat' split
  all_goals simp

@[simp] theorem pageTable_readHealth (p : Port) (body : List Byte) (s : State) :
    pageTable (readHealth p body s).1 = pageTable s := by
  unfold readHealth; split <;> rfl

@[simp] theorem pageTable_clearDegraded (p : Port) (body : List Byte) (s : State) :
    pageTable (clearDegraded p body s).1 = pageTable s := by
  unfold clearDegraded
  split
  · exact foldl_kept pageTable _ (fun _ _ => by rfl) _ _
  · rfl

@[simp] theorem pageTable_askMotion (p : Port) (r : MotionReq) (s : State) :
    pageTable (askMotion p r s).1 = pageTable s := by
  unfold askMotion; split <;> simp

@[simp] theorem pageTable_loadMedia (p : Port) (body : List Byte) (s : State) :
    pageTable (loadMedia p body s).1 = pageTable s := by
  unfold loadMedia
  dsimp only
  repeat' split
  all_goals simp

@[simp] theorem pageTable_advanceMedia (p : Port) (body : List Byte) (s : State) :
    pageTable (advanceMedia p body s).1 = pageTable s := by
  unfold advanceMedia; dsimp only; split <;> simp

@[simp] theorem pageTable_manualFeed (p : Port) (body : List Byte) (s : State) :
    pageTable (manualFeed p body s).1 = pageTable s := by
  unfold manualFeed; dsimp only; split <;> simp

@[simp] theorem pageTable_releaseHold (p : Port) (s : State) : pageTable (releaseHold p s).1 = pageTable s := by
  unfold releaseHold; split <;> simp

@[simp] theorem pageTable_onMotion (sel : MotionKind → Bool) (f : Motion → State → Run) (s : State)
    (h : ∀ m, pageTable (f m s).1 = pageTable s) : pageTable (onMotion sel f s).1 = pageTable s := by
  unfold onMotion
  split
  · split
    · exact h _
    · rfl
  · rfl

@[simp] theorem pageTable_loadArrives (m : Motion) (s : State) : pageTable (loadArrives m s).1 = pageTable s := by
  simp [loadArrives]

@[simp] theorem pageTable_unloadArrives (n : Nat) (m : Motion) (s : State) :
    pageTable (unloadArrives n m s).1 = pageTable s := by
  simp [unloadArrives]

@[simp] theorem pageTable_sledEnds (s : State) : pageTable (sledEnds s).1 = pageTable s := by
  unfold sledEnds
  split
  · exact pageTable_sledArrives _
  · rfl

@[simp] theorem pageTable_wiperEnds (s : State) : pageTable (wiperEnds s).1 = pageTable s := by
  unfold wiperEnds
  split
  · exact pageTable_wiperArrives _
  · rfl

@[simp] theorem pageTable_endSensor (e : EndSensor) (b : Bool) (s : State) :
    pageTable (endSensor e b s).1 = pageTable s := by
  unfold endSensor
  dsimp only
  repeat' split
  all_goals simp

@[simp] theorem pageTable_homeChange (b : Bool) (s : State) : pageTable (homeChange b s).1 = pageTable s := by
  unfold homeChange
  split
  · rfl
  · simp

@[simp] theorem pageTable_orderExpires (s : State) : pageTable (orderExpires s).1 = pageTable s := by
  unfold orderExpires; split <;> simp

@[simp] theorem pageTable_setWastePresence (b : Bool) (s : State) :
    pageTable (setWastePresence b s) = pageTable s := rfl

@[simp] theorem pageTable_setPresence (n : Fin 12) (b : Bool) (s : State) :
    pageTable (setPresence n b s) = pageTable s := rfl

end Sys2Proof.Machine
end

