-- ==== Sys2Proof/Proofs/PageTableKept.lean ====
section
/-!
SUPPORT. Every command and every step keeps the admission table lawful: the commands of the supply, the links, the
parameters and the clock leave its tags and young entries alone; ADMIT_PAGE appends an entry its checks have passed,
END_PAGE removes one, and a device reset empties the table. Settles O56.
-/

namespace Sys2Proof.Machine

/-! ### Commands of the Supply Unit and the bus -/

@[simp] theorem pageTable_ended (s : State) : pageTable (ended s) = pageTable s := rfl

@[simp] theorem pageTable_standbyRun (b : Fin 12) (s : State) : pageTable (standbyRun b s).1 = pageTable s := by
  have stood := pageTable_enterStandby b s
  unfold standbyRun
  dsimp only
  split <;> simp [stood]

@[simp] theorem pageTable_judgeBay (b : Fin 12) (scan : Bool) (f : ChipFields) (s : State) :
    pageTable (judgeBay b scan f s).1 = pageTable s := by
  rw [judgeBay_eq]
  unfold judgedAs
  dsimp only
  repeat' split
  all_goals simp

@[simp] theorem pageTable_chipRead (r : Vector Byte 18) (s : State) : pageTable (chipRead r s).1 = pageTable s := by
  unfold chipRead
  dsimp only
  repeat' split
  all_goals simp

@[simp] theorem pageTable_chipReadFails (s : State) : pageTable (chipReadFails s) = pageTable s := by
  unfold chipReadFails
  dsimp only
  repeat' split
  all_goals simp

@[simp] theorem pageTable_startTrans (s : State) : pageTable (startTrans s) = pageTable s := by
  unfold startTrans
  repeat' split
  all_goals rfl

@[simp] theorem pageTable_attemptFails (s : State) : pageTable (attemptFails s) = pageTable s := by
  unfold attemptFails; split <;> rfl

@[simp] theorem pageTable_fitWaste (r : Vector Byte 6) (s : State) : pageTable (fitWaste r s).1 = pageTable s := by
  unfold fitWaste
  dsimp only
  split
  · rfl
  · exact ((setWaste_wasteOnly _ s).trans (wasteEvent_wasteOnly _ _)).pageTable

@[simp] theorem pageTable_wasteRead (r : Vector Byte 6) (s : State) : pageTable (wasteRead r s).1 = pageTable s := by
  unfold wasteRead
  dsimp only
  repeat' split
  all_goals simp

@[simp] theorem pageTable_wasteReadFails (s : State) : pageTable (wasteReadFails s).1 = pageTable s := by
  unfold wasteReadFails
  dsimp only
  repeat' split
  all_goals rfl

@[simp] theorem pageTable_insertWaste (s : State) : pageTable (insertWaste s).1 = pageTable s := by
  unfold insertWaste; split <;> rfl

@[simp] theorem pageTable_removeWaste (s : State) : pageTable (removeWaste s).1 = pageTable s := by
  unfold removeWaste; split <;> rfl

@[simp] theorem pageTable_setStale (chip : Chip) (stale : Bool) (s : State) :
    pageTable (setStale chip stale s) = pageTable s := by
  cases chip <;> rfl

@[simp] theorem pageTable_chipWritten (s : State) : pageTable (chipWritten s) = pageTable s := by
  unfold chipWritten
  repeat' split
  all_goals simp

@[simp] theorem pageTable_chipWriteFails (s : State) : pageTable (chipWriteFails s) = pageTable s := by
  unfold chipWriteFails
  repeat' split
  all_goals simp

@[simp] theorem pageTable_confirmBay (p : Port) (body : List Byte) (s : State) :
    pageTable (confirmBay p body s).1 = pageTable s := by
  unfold confirmBay
  repeat' split
  all_goals simp

@[simp] theorem pageTable_rejectBay (p : Port) (body : List Byte) (s : State) :
    pageTable (rejectBay p body s).1 = pageTable s := by
  unfold rejectBay
  repeat' split
  all_goals simp

@[simp] theorem pageTable_clearRefill (p : Port) (body : List Byte) (s : State) :
    pageTable (clearRefill p body s).1 = pageTable s := by
  unfold clearRefill
  dsimp only
  repeat' split
  all_goals simp

@[simp] theorem pageTable_bayGone (b : Fin 12) (s : State) : pageTable (bayGone b s).1 = pageTable s := by
  simp [bayGone]

@[simp] theorem pageTable_strokeDone (c : Fin 6) (ink : Bool) (s : State) :
    pageTable (strokeDone c ink s) = pageTable s := by
  have sampled (b : Fin 12) :
      pageTable { s with pins := { s.pins with ink := vset s.pins.ink b ink } } = pageTable s := rfl
  unfold strokeDone
  dsimp only
  repeat' split
  all_goals simp [sampled]

@[simp] theorem pageTable_floatRun (c : Fin 6) (f : FloatLevel) (s : State) :
    pageTable (floatRun c f s).1 = pageTable s := by
  simp [floatRun]

/-! ### Posted reports, FENCE, REST, parameters and the clock -/

@[simp] theorem pageTable_postUsage (body : List Byte) (s : State) : pageTable (postUsage body s) = pageTable s := by
  unfold postUsage
  repeat' split
  all_goals rfl

@[simp] theorem pageTable_releaseFence (s : State) : pageTable (releaseFence s) = pageTable s := rfl

@[simp] theorem pageTable_takeFence (s : State) : pageTable (takeFence s) = pageTable s := by
  unfold takeFence; split <;> rfl

@[simp] theorem pageTable_takeRest (p : Port) (s : State) : pageTable (takeRest p s) = pageTable s := by
  unfold takeRest
  repeat' split
  all_goals rfl

@[simp] theorem pageTable_paramActions (id : ParamId) (s : State) :
    pageTable (paramActions id s).1 = pageTable s := by
  have evaluated := foldl_kept pageTable _ (fun s c => pageTable_evalSupply c s) allChannels s
  unfold paramActions
  split <;> simp [evaluated]

@[simp] theorem pageTable_setParam (body : List Byte) (p : Port) (s : State) :
    pageTable (setParam body p s).1 = pageTable s := by
  unfold setParam
  dsimp only
  split
  · rfl
  · rw [pageTable_paramActions]
    rfl

@[simp] theorem pageTable_linkReset (p : Port) (s : State) : pageTable (linkReset p s).1 = pageTable s := by
  have posted (s : State) : pageTable (resetPosted s) = pageTable s := rfl
  unfold linkReset
  dsimp only
  split <;> simp [posted]

@[simp] theorem pageTable_tick (s : State) : pageTable (tick s) = pageTable s := by
  unfold tick tickTimers
  dsimp only
  repeat' split
  all_goals rfl

@[simp] theorem pageTable_startUp (s : State) : pageTable (startUp s).1 = pageTable s := by
  have scanned (s : State) : pageTable (startScan s).1 = pageTable s := by
    have inserted := foldl_kept pageTable (fun s b => if s.pins.presence.get b then insertBay b true s else s)
      (fun s b => by split <;> simp) allBays s
    unfold startScan
    dsimp only
    split <;> simp [inserted]
  unfold startUp
  simp only [pageTable_andThen, pageTable_beginHoming, scanned]
  rfl

/-! ### Admission, the end of a page and a device reset -/

/-- `t` follows `s` by what keeps the admission table lawful. -/
def PagesPass (s t : State) : Prop := PagesLawful s → PagesLawful t

theorem PagesPass.of_table {s t : State} (h : pageTable t = pageTable s) : PagesPass s t := PagesLawful.of_table h

theorem pagesPass_carries : Carries PagesPass where
  refl _ := id
  trans h h' := h' ∘ h
  taking h := by
    simp only [keptByTaking, Prod.mk.injEq] at h
    exact .of_table (pageTable_of_pages (by simp only [h]))

/-- A table from which entries have gone (R55). -/
theorem PagesPass.of_sublist {s t : State} (h : t.pau.pages.Sublist s.pau.pages) : PagesPass s t := by
  rintro ⟨few, distinct, nonzero, admitted⟩
  exact ⟨h.length_le.trans few, distinct.sublist (h.map _), fun e here => nonzero e (h.subset here),
    fun e here => admitted e (h.tail.subset here)⟩

/-- A table a new ADMITTED entry has joined at the young end (R45). -/
theorem PagesLawful.append {s : State} {e : Page} (lawful : PagesLawful s) (room : s.pau.pages.length < 4)
    (nonzero : e.tag ≠ 0) (fresh : ∀ x ∈ s.pau.pages, x.tag ≠ e.tag) (admitted : e.state = .admitted) :
    PagesLawful { s with pau := { s.pau with pages := s.pau.pages ++ [e] } } := by
  obtain ⟨-, distinct, named, young⟩ := lawful
  refine ⟨?few, ?distinct, ?nonzero, ?young⟩
  case few => simpa [Config.pageDepth] using room
  case distinct =>
    rw [List.map_append]
    refine distinct.append (List.nodup_singleton _) ?_
    simpa [List.disjoint_singleton] using fresh
  case nonzero =>
    intro x here
    rcases List.mem_append.mp here with old | new
    · exact named x old
    · rwa [List.mem_singleton.mp new]
  case young =>
    intro x here
    have place : x ∈ s.pau.pages.tail ++ [e] := by
      revert here
      dsimp only
      cases s.pau.pages with
      | nil => exact fun here => nomatch here
      | cons _ _ => exact id
    rcases List.mem_append.mp place with old | new
    · exact young x old
    · rwa [List.mem_singleton.mp new]

theorem admitPage_pagesPass (p : Port) (body : List Byte) (s : State) : PagesPass s (admitPage p body s).1 := by
  unfold admitPage
  split
  · exact .of_table rfl
  · next e passed =>
    intro lawful
    obtain ⟨src, fresh, rfl⟩ := fresh_of_admitted passed
    have joined := PagesLawful.append (s := answer p .admitPage .ok [] s) (e := (admitFields body).page src)
      (lawful.of_table rfl) fresh.room (fun zero => fresh.good (.inr (.inl zero))) fresh.fresh rfl
    exact joined.of_table (pageTable_checkOverAll _ _)

theorem endPage_pagesPass (e : Page) (aborted : Bool) (s : State) : PagesPass s (endPage e aborted s) := by
  unfold endPage
  dsimp only
  refine pagesPass_carries.trans (.of_sublist ?_) (.of_table (pageTable_checkOverAll _ _))
  split <;> exact List.eraseP_sublist

theorem endPageRun_pagesPass (p : Port) (body : List Byte) (s : State) : PagesPass s (endPageRun p body s).1 := by
  unfold endPageRun
  dsimp only
  split
  · exact .of_table rfl
  · split
    · exact .of_table rfl
    · exact pagesPass_carries.trans (t := answer p .endPage .ok _ s) (.of_table rfl) (endPage_pagesPass _ _ _)

/-- A device reset leaves an empty table, whatever it held before (R41, R174). -/
theorem deviceReset_pagesPass (r : Readings) (s : State) : PagesPass s (deviceReset r s).1 := by
  unfold deviceReset
  exact pagesPass_carries.trans (.of_sublist (List.nil_sublist _)) (.of_table (pageTable_startUp _))

/-! ### Every command and every step -/

theorem settle_pagesPass {s t : State} {r : Run} (h : settle r = .next t) (own : PagesPass s r.1) : PagesPass s t :=
  pagesPass_carries.settle (fun a s => .of_table (pageTable_perform a s)) h own

theorem exec_pagesPass {i : Instr} {s t : State} (h : exec i s = .next t) : PagesPass s t := by
  have hR := pagesPass_carries
  cases i <;> simp only [exec] at h
  case resetNAssert => exact settle_pagesPass h (.of_table rfl)
  case deviceReset r => exact settle_pagesPass h (deviceReset_pagesPass r s)
  case frameError p bytes =>
    unfold execFrameError at h
    split at h
    · exact settle_pagesPass h (hR.transaction (fun s => .of_table rfl) p _ s)
    · exact settle_pagesPass h (hR.event (fun s => .of_table rfl) s)
    · exact settle_pagesPass h (hR.event (fun s => .of_table rfl) s)
  case readReply p body =>
    exact settle_pagesPass h
      (hR.transaction (hR.fitting (fun s => .of_table (pageTable_readReply p body s)) p body) p _ s)
  case linkReset p body =>
    exact settle_pagesPass h (hR.transaction (hR.fitting (fun s => .of_table (pageTable_linkReset p s)) p body) p _ s)
  case usage p body =>
    refine settle_pagesPass h (hR.transaction (hR.fitting (fun s => ?_) p body) p _ s)
    split
    · exact .of_table (pageTable_postUsage body s)
    · exact hR.dispatch hR.refl _ p body s
  case admitPage p body => exact settle_pagesPass h (hR.request (admitPage_pagesPass p body) _ _ _ s)
  case endPage p body => exact settle_pagesPass h (hR.request (endPageRun_pagesPass p body) _ _ _ s)
  case sledMotionTimeout | wiperMotionTimeout | pumpStall | fenceRelease | parkTimerExpiry | idleCapExpiry
      | grantHoldExpiry | fireSyncStrobe | exposureExpiry | feedMotionTimeout =>
    refine settle_pagesPass h (hR.event (fun s => .of_table ?_) s)
    split <;> simp
  case bayPresenceClose | bayPresenceOpen | floatChange | wastePresenceClose | wastePresenceOpen | leadingEdgeChange
      | pathEntryChange | sourceEndSensor | coverSensorOpen | coverSensorClose | sourceEndSensorClear =>
    exact settle_pagesPass h (hR.watched (fun s => .of_table (by simp)) _ _ s)
  case statusPoll | usageApply | busTransactionStart | busAttemptUnacknowledged | chipReadDone | chipReadFail
      | wasteReadDone | wasteReadFail | chipWriteDone | chipWriteFail | strokeComplete | waitInkEnd | sledMotionDone
      | wiperMotionDone | endSensorChangeIdle | pumpRevolution | homeSensorChange | orderTimerExpiry
      | waitingPlacementEntry | detectorSample | arbiterServe | loadMotionDone | unloadMotionDone | advanceDone
      | cutAdvanceDone | manualFeedDone | replyShiftedOut =>
    exact settle_pagesPass h (hR.event (fun s => .of_table (by simp [strokeRun])) s)
  case setDate => exact settle_pagesPass h (hR.request (fun s => .of_table rfl) _ _ _ s)
  all_goals exact settle_pagesPass h (hR.request (fun s => .of_table (by simp)) _ _ _ s)

theorem step_pagesPass {s t : State} (h : step s = .next t) : PagesPass s t := by
  unfold step at h
  split at h
  · unfold idleStep at h
    split at h
    · exact settle_pagesPass h (.of_table (pageTable_startUp s))
    · cases h
      exact .of_table (pageTable_tick s)
  · next c rest _ =>
    have taken : PagesPass s { s with pending := rest } := .of_table rfl
    exact pagesPass_carries.trans taken (exec_pagesPass h)

/-- Settles O56: every step passes the law of the admission table on. -/
theorem pageTableKept : Obligations.PageTableKept := fun _ _ lawful h => step_pagesPass h lawful

end Sys2Proof.Machine
end

