-- ==== Sys2Proof/Proofs/PeripheryKept.lean ====
section
/-!
SUPPORT. What the supply, the page table, the usage account, the order queue, the detector's own record, the feed and
the links leave alone: the station, the cleaning record, the exposure timers, the parameters, the clock and the power
state. One lemma per operation, in the order of the model's files.
-/

namespace Sys2Proof.Machine

/-- The fields that only the Station Controller, the Cleaning Sequencer, the exposure timers, the parameters, the clock,
the power state and the resets write: all but pins, spu, uau, pau, orq, dtu, fdc, liu and evu. -/
def keptByPeriphery (s : State) :=
  ((s.pending, s.freeUsed), s.startup, s.resetLow, s.timeBase, s.date, s.params, s.stc, s.cls, s.ext, s.rsc)

theorem kept_periphery_of_usage {s t : State} (h : keptByUsage t = keptByUsage s) :
    keptByPeriphery t = keptByPeriphery s := by
  simp only [keptByUsage, Prod.mk.injEq] at h
  simp only [keptByPeriphery, h]

theorem kept_periphery_of_supply {s t : State} (h : keptBySupply t = keptBySupply s) :
    keptByPeriphery t = keptByPeriphery s := kept_periphery_of_usage (kept_usage_of_supply h)

theorem stc_of_periphery {s t : State} (h : keptByPeriphery t = keptByPeriphery s) : t.stc = s.stc := by
  simp only [keptByPeriphery, Prod.mk.injEq] at h
  simp only [h]

theorem cls_of_periphery {s t : State} (h : keptByPeriphery t = keptByPeriphery s) : t.cls = s.cls := by
  simp only [keptByPeriphery, Prod.mk.injEq] at h
  simp only [h]

/-! ### Single records -/

@[simp] theorem raise_keptP (k : EventKind) (m : BitVec 16) (d : Option Detail) (s : State) :
    keptByPeriphery (raise k m d s) = keptByPeriphery s := rfl

@[simp] theorem setChan_keptP (s : State) (c : Fin 6) (x : Channel) :
    keptByPeriphery (setChan s c x) = keptByPeriphery s := rfl

@[simp] theorem setBay_keptP (s : State) (b : Fin 12) (x : Bay) :
    keptByPeriphery (setBay s b x) = keptByPeriphery s := rfl

@[simp] theorem onBus_keptP (f : Bus → Bus) (s : State) : keptByPeriphery (onBus f s) = keptByPeriphery s := rfl

@[simp] theorem setDtu_keptP (x : Dtu) (s : State) : keptByPeriphery (setDtu x s) = keptByPeriphery s := rfl

@[simp] theorem setSource_keptP (s : State) (a : Source) (x : SourceRec) :
    keptByPeriphery (setSource s a x) = keptByPeriphery s := rfl

@[simp] theorem setFdc_keptP (x : Fdc) (s : State) : keptByPeriphery (setFdc x s) = keptByPeriphery s := rfl

@[simp] theorem setPath_keptP (x : Path) (s : State) : keptByPeriphery (setPath x s) = keptByPeriphery s := rfl

@[simp] theorem setEngine_keptP (s : State) (p : Port) (x : Engine) :
    keptByPeriphery (setEngine s p x) = keptByPeriphery s := rfl

@[simp] theorem setOrq_keptP (x : Orq) (s : State) : keptByPeriphery (setOrq x s) = keptByPeriphery s := rfl

@[simp] theorem beginTransaction_keptP (p : Port) (s : State) :
    keptByPeriphery (beginTransaction p s) = keptByPeriphery s := rfl

@[simp] theorem answer_keptP (p : Port) (k : Kind) (r : Result) (b : List Byte) (s : State) :
    keptByPeriphery (answer p k r b s) = keptByPeriphery s := rfl

@[simp] theorem done_keptP (s : State) : keptByPeriphery (Run.done s).1 = keptByPeriphery s := rfl

@[simp] theorem reply_keptP (p : Port) (k : Kind) (r : Result) (b : List Byte) (s : State) :
    keptByPeriphery (reply p k r b s).1 = keptByPeriphery s := rfl

@[simp] theorem plus_keptP (r : Run) (acts : List Act) : keptByPeriphery (r.plus acts).1 = keptByPeriphery r.1 := rfl

@[simp] theorem andThen_keptP (r : Run) (f : State → Run) :
    keptByPeriphery (r.andThen f).1 = keptByPeriphery (f r.1).1 := rfl

/-! ### Supply Unit, Page Admission Unit and Usage Accounting Unit -/

@[simp] theorem checkOver_keptP (c : Fin 6) (s : State) :
    keptByPeriphery (checkOver c s) = keptByPeriphery s :=
  kept_periphery_of_supply (checkOver_kept c s)

@[simp] theorem checkOverAll_keptP (cs : List (Fin 6)) (s : State) :
    keptByPeriphery (checkOverAll cs s) = keptByPeriphery s :=
  kept_periphery_of_supply (checkOverAll_kept cs s)

@[simp] theorem pauAdvanceBegins_keptP (tag : Nat) (s : State) :
    keptByPeriphery (pauAdvanceBegins tag s) = keptByPeriphery s :=
  kept_periphery_of_supply (pauAdvanceBegins_kept tag s)

@[simp] theorem pauAdvanceDone_keptP (tag d : Nat) (s : State) :
    keptByPeriphery (pauAdvanceDone tag d s) = keptByPeriphery s :=
  kept_periphery_of_supply (pauAdvanceDone_kept tag d s)

@[simp] theorem pauJam_keptP (s : State) :
    keptByPeriphery (pauJam s) = keptByPeriphery s :=
  kept_periphery_of_supply (pauJam_kept s)

@[simp] theorem joinTable_keptP (e : Page) (s : State) :
    keptByPeriphery (joinTable e s) = keptByPeriphery s :=
  kept_periphery_of_supply (joinTable_kept e s)

@[simp] theorem endPage_keptP (e : Page) (a : Bool) (s : State) :
    keptByPeriphery (endPage e a s) = keptByPeriphery s :=
  kept_periphery_of_supply (endPage_kept e a s)

@[simp] theorem enterStandby_keptP (b : Fin 12) (s : State) :
    keptByPeriphery (enterStandby b s).1 = keptByPeriphery s :=
  kept_periphery_of_supply (enterStandby_kept b s)

@[simp] theorem evalSupply_keptP (c : Fin 6) (s : State) :
    keptByPeriphery (evalSupply c s) = keptByPeriphery s :=
  kept_periphery_of_supply (evalSupply_kept c s)

@[simp] theorem creditTank_keptP (c : Fin 6) (v : Nat) (s : State) :
    keptByPeriphery (creditTank c v s) = keptByPeriphery s :=
  kept_periphery_of_supply (creditTank_kept c v s)

@[simp] theorem refillTestAll_keptP (s : State) :
    keptByPeriphery (refillTestAll s) = keptByPeriphery s :=
  kept_periphery_of_supply (refillTestAll_kept s)

@[simp] theorem switchover_keptP (c : Fin 6) (side : Side) (s : State) :
    keptByPeriphery (switchover c side s) = keptByPeriphery s :=
  kept_periphery_of_supply (switchover_kept c side s)

@[simp] theorem promote_keptP (b : Fin 12) (s : State) :
    keptByPeriphery (promote b s) = keptByPeriphery s :=
  kept_periphery_of_supply (promote_kept b s)

@[simp] theorem insertBay_keptP (b : Fin 12) (scan : Bool) (s : State) :
    keptByPeriphery (insertBay b scan s) = keptByPeriphery s :=
  kept_periphery_of_supply (insertBay_kept b scan s)

@[simp] theorem removeBay_keptP (b : Fin 12) (s : State) :
    keptByPeriphery (removeBay b s) = keptByPeriphery s :=
  kept_periphery_of_supply (removeBay_kept b s)

@[simp] theorem strokeInk_keptP (c : Fin 6) (b : Fin 12) (s : State) :
    keptByPeriphery (strokeInk c b s) = keptByPeriphery s :=
  kept_periphery_of_supply (strokeInk_kept c b s)

@[simp] theorem bayOut_keptP (b : Fin 12) (s : State) :
    keptByPeriphery (bayOut b s) = keptByPeriphery s :=
  kept_periphery_of_supply (bayOut_kept b s)

@[simp] theorem strokeCounted_keptP (c : Fin 6) (s : State) :
    keptByPeriphery (strokeCounted c s) = keptByPeriphery s :=
  kept_periphery_of_supply (strokeCounted_kept c s)

@[simp] theorem strokeNext_keptP (c : Fin 6) (s : State) :
    keptByPeriphery (strokeNext c s) = keptByPeriphery s :=
  kept_periphery_of_supply (strokeNext_kept c s)

@[simp] theorem strokeAfterSwitch_keptP (c : Fin 6) (s : State) :
    keptByPeriphery (strokeAfterSwitch c s) = keptByPeriphery s :=
  kept_periphery_of_supply (strokeAfterSwitch_kept c s)

@[simp] theorem floatTo_keptP (c : Fin 6) (f : FloatLevel) (s : State) :
    keptByPeriphery (floatTo c f s) = keptByPeriphery s :=
  kept_periphery_of_supply (floatTo_kept c f s)

@[simp] theorem clearFault_keptP (c : Fin 6) (s : State) :
    keptByPeriphery (clearFault c s) = keptByPeriphery s :=
  kept_periphery_of_supply (clearFault_kept c s)

@[simp] theorem suctionDebit_keptP (h : Fin 3) (n : Nat) (s : State) :
    keptByPeriphery (suctionDebit h n s).1 = keptByPeriphery s :=
  kept_periphery_of_usage (suctionDebit_keptU h n s)

/-! ### Order Queue -/

@[simp] theorem enterOrder_keptP (b : OrderBody) (o : Origin) (s : State) :
    keptByPeriphery (enterOrder b o s) = keptByPeriphery s := by
  unfold enterOrder; dsimp only; split <;> rfl

@[simp] theorem placeOrder_keptP (w : Placer) (b : OrderBody) (s : State) :
    keptByPeriphery (placeOrder w b s).1 = keptByPeriphery s := by
  unfold placeOrder
  repeat' split
  all_goals simp

theorem enterWaitingFrom_keptP (l : List Placement) :
    ∀ s, keptByPeriphery (enterWaitingFrom l s).1 = keptByPeriphery s := by
  induction l with
  | nil => intro s; rfl
  | cons w ws ih =>
    intro s
    unfold enterWaitingFrom
    split
    · simp [ih]
    · rfl

@[simp] theorem enterWaiting_keptP (s : State) : keptByPeriphery (enterWaiting s).1 = keptByPeriphery s :=
  enterWaitingFrom_keptP _ s

@[simp] theorem placeExposure_keptP (h : Fin 3) (s : State) :
    keptByPeriphery (placeExposure h s) = keptByPeriphery s := by
  unfold placeExposure
  repeat' split
  all_goals simp

@[simp] theorem withdraw_keptP (w : Placer) (s : State) : keptByPeriphery (withdraw w s) = keptByPeriphery s := rfl

@[simp] theorem removeQueued_keptP (o : Origin) (s : State) :
    keptByPeriphery (removeQueued o s).1 = keptByPeriphery s := rfl

@[simp] theorem beginSample_keptP (o : Order) (s : State) : keptByPeriphery (beginSample o s) = keptByPeriphery s := by
  unfold beginSample; split <;> rfl

@[simp] theorem takeOldest_keptP (s : State) : keptByPeriphery (takeOldest s) = keptByPeriphery s := by
  unfold takeOldest; split <;> simp

@[simp] theorem endTaken_keptP (o : Order) (how : OrderEnd) (s : State) :
    keptByPeriphery (endTaken o how s).1 = keptByPeriphery s := rfl

@[simp] theorem orderTimeout_keptP (o : Order) (s : State) :
    keptByPeriphery (orderTimeout o s).1 = keptByPeriphery s := by
  simp [orderTimeout]

@[simp] theorem returnTaken_keptP (s : State) : keptByPeriphery (returnTaken s).1 = keptByPeriphery s := by
  unfold returnTaken
  split
  · rfl
  · split <;> rfl

@[simp] theorem strobe_keptP (e : Edge) (s : State) : keptByPeriphery (strobe e s) = keptByPeriphery s := by
  unfold strobe
  split
  · split <;> rfl
  · rfl

@[simp] theorem takeSample_keptP (i : Bool) (s : State) : keptByPeriphery (takeSample i s) = keptByPeriphery s := by
  unfold takeSample
  split
  · rfl
  · split <;> rfl

/-! ### End sensors -/

@[simp] theorem setEndPin_keptP (e : EndSensor) (b : Bool) (s : State) :
    keptByPeriphery (setEndPin e b s) = keptByPeriphery s := by
  cases e <;> rfl

/-! ### Detector Unit -/

@[simp] theorem dtuReady_keptP (s : State) : keptByPeriphery (dtuReady s).1 = keptByPeriphery s := by
  unfold dtuReady; split <;> rfl

@[simp] theorem dtuSession_keptP (s : State) : keptByPeriphery (dtuSession s).1 = keptByPeriphery s := by
  unfold dtuSession
  dsimp only
  split
  · rfl
  · split <;> simp

@[simp] theorem dtuSledDone_keptP (s : State) : keptByPeriphery (dtuSledDone s).1 = keptByPeriphery s := by
  unfold dtuSledDone; split <;> simp

@[simp] theorem dtuPlace_keptP (s : State) : keptByPeriphery (dtuPlace s).1 = keptByPeriphery s := by
  unfold dtuPlace
  split
  · rfl
  · split <;> simp

@[simp] theorem dtuEntered_keptP (id : Nat) (s : State) : keptByPeriphery (dtuEntered id s) = keptByPeriphery s := rfl

@[simp] theorem dtuAbandon_keptP (s : State) : keptByPeriphery (dtuAbandon s) = keptByPeriphery s := rfl

@[simp] theorem recordRow_keptP (c : Fin 6) (g l : Nat) (seen : List Nat) (s : State) :
    keptByPeriphery (recordRow c g l seen s) = keptByPeriphery s := by
  unfold recordRow; dsimp only; split <;> rfl

@[simp] theorem dtuCheckFor_keptP (rows : List (Fin 6)) (s : State) :
    keptByPeriphery (dtuCheckFor rows s).1 = keptByPeriphery s := rfl

@[simp] theorem dtuEndCheck_keptP (s : State) : keptByPeriphery (dtuEndCheck s) = keptByPeriphery s := by
  unfold dtuEndCheck; split <;> rfl

@[simp] theorem sweepStepDone_keptP (t : Task) (c : Fin 6) (b : Bool) (s : State) :
    keptByPeriphery (sweepStepDone t c b s).1 = keptByPeriphery s := by
  unfold sweepStepDone finishRow nextStep
  dsimp only
  repeat' split
  all_goals rfl

@[simp] theorem dtuOrderDone_keptP (x : Option Sample) (s : State) :
    keptByPeriphery (dtuOrderDone x s).1 = keptByPeriphery s := by
  unfold dtuOrderDone
  dsimp only
  repeat' split
  all_goals simp

/-! ### Feed Controller -/

@[simp] theorem modRemaining_keptP (a : Source) (f : Nat → Nat) (s : State) :
    keptByPeriphery (modRemaining a f s) = keptByPeriphery s := rfl

@[simp] theorem mediaOutTest_keptP (a : Source) (s : State) :
    keptByPeriphery (mediaOutTest a s) = keptByPeriphery s := by
  unfold mediaOutTest; dsimp only; split <;> rfl

@[simp] theorem mediaForward_keptP (d : Nat) (s : State) : keptByPeriphery (mediaForward d s) = keptByPeriphery s := by
  unfold mediaForward; dsimp only; split <;> simp

@[simp] theorem mediaReverse_keptP (d : Nat) (s : State) : keptByPeriphery (mediaReverse d s) = keptByPeriphery s := by
  unfold mediaReverse; dsimp only; split <;> rfl

@[simp] theorem setEndReading_keptP (a : Source) (b : Bool) (s : State) :
    keptByPeriphery (setEndReading a b s) = keptByPeriphery s := by
  cases a <;> rfl

@[simp] theorem endSeen_keptP (a : Source) (s : State) : keptByPeriphery (endSeen a s) = keptByPeriphery s := by
  unfold endSeen; dsimp only; split <;> simp

@[simp] theorem motorFree_keptP (s : State) : keptByPeriphery (motorFree s) = keptByPeriphery s := rfl

@[simp] theorem answerMotion_keptP (m : Motion) (r : Result) (b : List Byte) (s : State) :
    keptByPeriphery (answerMotion m r b s) = keptByPeriphery s := by
  unfold answerMotion; split <;> rfl

@[simp] theorem loadDone_keptP (a : Source) (s : State) : keptByPeriphery (loadDone a s) = keptByPeriphery s := by
  simp [loadDone, apply_ite keptByPeriphery]

@[simp] theorem unloadDone_keptP (d : Nat) (s : State) : keptByPeriphery (unloadDone d s) = keptByPeriphery s := by
  unfold unloadDone
  split
  · rfl
  · simp only [raise_keptP, setPath_keptP]
    split <;> rfl

@[simp] theorem advanceDone_keptP (m : Motion) (tag : Nat) (s : State) :
    keptByPeriphery (advanceDone m tag s) = keptByPeriphery s := by
  simp [advanceDone]

@[simp] theorem cutAdvanceDone_keptP (m : Motion) (s : State) :
    keptByPeriphery (cutAdvanceDone m s).1 = keptByPeriphery s := by
  simp [cutAdvanceDone]

@[simp] theorem jogForwardDone_keptP (m : Motion) (s : State) :
    keptByPeriphery (jogForwardDone m s) = keptByPeriphery s := by
  simp [jogForwardDone]

@[simp] theorem jogReverseDone_keptP (m : Motion) (n d : Nat) (s : State) :
    keptByPeriphery (jogReverseDone m n d s) = keptByPeriphery s := by
  simp [jogReverseDone]

@[simp] theorem motionDone_keptP (m : Motion) (s : State) : keptByPeriphery (motionDone m s).1 = keptByPeriphery s := by
  unfold motionDone; split <;> simp

@[simp] theorem beginMotion_keptP (m : Motion) (st : PathState) (s : State) :
    keptByPeriphery (beginMotion m st s).1 = keptByPeriphery s := by
  unfold beginMotion; dsimp only; split <;> simp

@[simp] theorem beginRequest_keptP (p : Port) (r : MotionReq) (s : State) :
    keptByPeriphery (beginRequest p r s).1 = keptByPeriphery s := by
  unfold beginRequest beginLoad beginUnload beginAdvance beginCut beginManual
  dsimp only
  repeat' split
  all_goals simp

@[simp] theorem serveOne_keptP (p : Port) (r : MotionReq) (s : State) :
    keptByPeriphery (serveOne p r s).1 = keptByPeriphery s := by
  unfold serveOne; dsimp only; split <;> simp

theorem serveLoop_keptP (n : Nat) : ∀ s, keptByPeriphery (serveLoop n s).1 = keptByPeriphery s := by
  induction n with
  | zero => intro s; rfl
  | succ n ih =>
    intro s
    unfold serveLoop
    repeat' split
    all_goals simp [ih]

@[simp] theorem serve_keptP (s : State) : keptByPeriphery (serve s).1 = keptByPeriphery s := serveLoop_keptP 3 s

@[simp] theorem enterMotion_keptP (p : Port) (r : MotionReq) (s : State) :
    keptByPeriphery (enterMotion p r s).1 = keptByPeriphery s := by
  simp [enterMotion]

@[simp] theorem completeMotion_keptP (m : Motion) (s : State) :
    keptByPeriphery (completeMotion m s).1 = keptByPeriphery s := by
  simp [completeMotion]

@[simp] theorem stopMotion_keptP (n : Nat) (s : State) : keptByPeriphery (stopMotion n s) = keptByPeriphery s := by
  unfold stopMotion accountPartial
  repeat' split
  all_goals simp

@[simp] theorem endCut_keptP (s : State) : keptByPeriphery (endCut s) = keptByPeriphery s := by
  unfold endCut; dsimp only; split <;> rfl

@[simp] theorem holdWaiting_keptP (p : Port) (s : State) : keptByPeriphery (holdWaiting p s) = keptByPeriphery s := by
  unfold holdWaiting; split <;> rfl

@[simp] theorem answerHeld_keptP (m : Option Motion) (n : Nat) (s : State) :
    keptByPeriphery (answerHeld m n s) = keptByPeriphery s := by
  unfold answerHeld
  dsimp only
  rw [foldl_kept keptByPeriphery _ (fun s p => holdWaiting_keptP p s)]
  split <;> simp

@[simp] theorem holdPath_keptP (h : PathHold) (s : State) : keptByPeriphery (holdPath h s) = keptByPeriphery s := rfl

@[simp] theorem declareJam_keptP (n : Nat) (s : State) : keptByPeriphery (declareJam n s).1 = keptByPeriphery s := by
  simp [declareJam]

@[simp] theorem openCover_keptP (n : Nat) (s : State) : keptByPeriphery (openCover n s) = keptByPeriphery s := by
  unfold openCover
  dsimp only
  repeat' split
  all_goals simp

@[simp] theorem closeCover_keptP (s : State) : keptByPeriphery (closeCover s) = keptByPeriphery s := by
  unfold closeCover; dsimp only; split <;> rfl

@[simp] theorem edgeTo_keptP (b : Bool) (n : Nat) (s : State) :
    keptByPeriphery (edgeTo b n s).1 = keptByPeriphery s := by
  unfold edgeTo edgeInMotion edgeAtRest
  dsimp only
  repeat' split
  all_goals simp

@[simp] theorem entryTo_keptP (b : Bool) (n : Nat) (s : State) :
    keptByPeriphery (entryTo b n s).1 = keptByPeriphery s := by
  unfold entryTo
  dsimp only
  repeat' split
  all_goals simp

@[simp] theorem sourceEnds_keptP (a : Source) (s : State) : keptByPeriphery (sourceEnds a s) = keptByPeriphery s := by
  unfold sourceEnds; split <;> simp

@[simp] theorem sourceEndClears_keptP (a : Source) (s : State) :
    keptByPeriphery (sourceEndClears a s) = keptByPeriphery s := by
  unfold sourceEndClears; split <;> simp

@[simp] theorem releasePath_keptP (s : State) : keptByPeriphery (releasePath s) = keptByPeriphery s := by
  unfold releasePath; dsimp only; split <;> rfl

@[simp] theorem fdcEntered_keptP (id : Nat) (s : State) : keptByPeriphery (fdcEntered id s) = keptByPeriphery s := by
  unfold fdcEntered; split <;> rfl

@[simp] theorem fdcOrderEnded_keptP (o : Order) (how : OrderEnd) (s : State) :
    keptByPeriphery (fdcOrderEnded o how s) = keptByPeriphery s := by
  unfold fdcOrderEnded
  repeat' split
  all_goals rfl

@[simp] theorem resetFeed_keptP (p : Port) (s : State) : keptByPeriphery (resetFeed p s) = keptByPeriphery s := rfl

/-! ### Agenda and links -/

@[simp] theorem returnOrders_keptP (s : State) : keptByPeriphery (returnOrders s).1 = keptByPeriphery s := by
  unfold returnOrders; dsimp only; split <;> simp

@[simp] theorem readReply_keptP (p : Port) (body : List Byte) (s : State) :
    keptByPeriphery (readReply p body s) = keptByPeriphery s := by
  unfold readReply; dsimp only; split <;> rfl

@[simp] theorem replyShifted_keptP (p : Port) (s : State) : keptByPeriphery (replyShifted p s) = keptByPeriphery s := by
  unfold replyShifted; dsimp only; split <;> rfl

@[simp] theorem resetPort_keptP (p : Port) (s : State) : keptByPeriphery (resetPort p s) = keptByPeriphery s := rfl

/-! ### The requests and events of the other blocks -/

@[simp] theorem readEvents_keptP (body : List Byte) (p : Port) (s : State) :
    keptByPeriphery (readEvents body p s).1 = keptByPeriphery s := by
  unfold readEvents; split <;> simp

@[simp] theorem clearEvents_keptP (body : List Byte) (p : Port) (s : State) :
    keptByPeriphery (clearEvents body p s).1 = keptByPeriphery s := by
  unfold clearEvents; dsimp only; split <;> rfl

@[simp] theorem setEnables_keptP (body : List Byte) (p : Port) (s : State) :
    keptByPeriphery (setEnables body p s).1 = keptByPeriphery s := by
  unfold setEnables; dsimp only; split <;> rfl

@[simp] theorem getParam_keptP (body : List Byte) (p : Port) (s : State) :
    keptByPeriphery (getParam body p s).1 = keptByPeriphery s := by
  unfold getParam; split <;> rfl

@[simp] theorem readByChannel_keptP (k : Kind) (p : Port) (body : List Byte) (make : State → Fin 6 → List Byte)
    (s : State) : keptByPeriphery (readByChannel k p body make s).1 = keptByPeriphery s := by
  unfold readByChannel; split <;> rfl

@[simp] theorem readBay_keptP (p : Port) (body : List Byte) (s : State) :
    keptByPeriphery (readBay p body s).1 = keptByPeriphery s := by
  unfold readBay; split <;> rfl

@[simp] theorem admitPage_keptP (p : Port) (body : List Byte) (s : State) :
    keptByPeriphery (admitPage p body s).1 = keptByPeriphery s := by
  unfold admitPage; split <;> simp

@[simp] theorem endPageRun_keptP (p : Port) (body : List Byte) (s : State) :
    keptByPeriphery (endPageRun p body s).1 = keptByPeriphery s := by
  unfold endPageRun
  dsimp only
  repeat' split
  all_goals simp

@[simp] theorem listPages_keptP (p : Port) (body : List Byte) (s : State) :
    keptByPeriphery (listPages p body s).1 = keptByPeriphery s := by
  unfold listPages; dsimp only; split <;> rfl

@[simp] theorem fetchOrder_keptP (p : Port) (s : State) : keptByPeriphery (fetchOrder p s).1 = keptByPeriphery s := by
  unfold fetchOrder
  repeat' split
  all_goals simp

@[simp] theorem orderDone_keptP (p : Port) (body : List Byte) (s : State) :
    keptByPeriphery (orderDone p body s).1 = keptByPeriphery s := by
  unfold orderDone
  dsimp only
  repeat' split
  all_goals simp

@[simp] theorem readHealth_keptP (p : Port) (body : List Byte) (s : State) :
    keptByPeriphery (readHealth p body s).1 = keptByPeriphery s := by
  unfold readHealth; split <;> rfl

@[simp] theorem clearDegraded_keptP (p : Port) (body : List Byte) (s : State) :
    keptByPeriphery (clearDegraded p body s).1 = keptByPeriphery s := by
  unfold clearDegraded
  split
  · exact foldl_kept keptByPeriphery _ (fun _ _ => by rfl) _ _
  · rfl

@[simp] theorem askMotion_keptP (p : Port) (r : MotionReq) (s : State) :
    keptByPeriphery (askMotion p r s).1 = keptByPeriphery s := by
  unfold askMotion; split <;> simp

@[simp] theorem loadMedia_keptP (p : Port) (body : List Byte) (s : State) :
    keptByPeriphery (loadMedia p body s).1 = keptByPeriphery s := by
  unfold loadMedia
  dsimp only
  repeat' split
  all_goals simp

@[simp] theorem advanceMedia_keptP (p : Port) (body : List Byte) (s : State) :
    keptByPeriphery (advanceMedia p body s).1 = keptByPeriphery s := by
  unfold advanceMedia; dsimp only; split <;> simp

@[simp] theorem manualFeed_keptP (p : Port) (body : List Byte) (s : State) :
    keptByPeriphery (manualFeed p body s).1 = keptByPeriphery s := by
  unfold manualFeed; dsimp only; split <;> simp

@[simp] theorem releaseHold_keptP (p : Port) (s : State) : keptByPeriphery (releaseHold p s).1 = keptByPeriphery s := by
  unfold releaseHold; split <;> simp

@[simp] theorem onMotion_keptP (sel : MotionKind → Bool) (f : Motion → State → Run) (s : State)
    (h : ∀ m, keptByPeriphery (f m s).1 = keptByPeriphery s) :
    keptByPeriphery (onMotion sel f s).1 = keptByPeriphery s := by
  unfold onMotion
  split
  · split
    · exact h _
    · rfl
  · rfl

@[simp] theorem loadArrives_keptP (m : Motion) (s : State) :
    keptByPeriphery (loadArrives m s).1 = keptByPeriphery s := by
  simp [loadArrives]

@[simp] theorem unloadArrives_keptP (n : Nat) (m : Motion) (s : State) :
    keptByPeriphery (unloadArrives n m s).1 = keptByPeriphery s := by
  simp [unloadArrives]

@[simp] theorem orderExpires_keptP (s : State) : keptByPeriphery (orderExpires s).1 = keptByPeriphery s := by
  unfold orderExpires; split <;> simp

@[simp] theorem setWastePresence_keptP (b : Bool) (s : State) :
    keptByPeriphery (setWastePresence b s) = keptByPeriphery s := rfl

@[simp] theorem setPresence_keptP (n : Fin 12) (b : Bool) (s : State) :
    keptByPeriphery (setPresence n b s) = keptByPeriphery s := rfl

/-! ### Commands of the Supply Unit and the bus -/

@[simp] theorem ended_keptP (s : State) : keptByPeriphery (ended s) = keptByPeriphery s := rfl

@[simp] theorem chipReadFails_keptP (s : State) : keptByPeriphery (chipReadFails s) = keptByPeriphery s := by
  unfold chipReadFails
  dsimp only
  repeat' split
  all_goals simp

@[simp] theorem startTrans_keptP (s : State) : keptByPeriphery (startTrans s) = keptByPeriphery s := by
  unfold startTrans
  repeat' split
  all_goals rfl

@[simp] theorem attemptFails_keptP (s : State) : keptByPeriphery (attemptFails s) = keptByPeriphery s := by
  unfold attemptFails; split <;> rfl

@[simp] theorem fitWaste_keptP (r : Vector Byte 6) (s : State) :
    keptByPeriphery (fitWaste r s).1 = keptByPeriphery s := by
  unfold fitWaste
  dsimp only
  split
  · rfl
  · exact kept_periphery_of_usage ((wasteEvent_keptU _ _).trans (setWaste_keptU _ s))

@[simp] theorem wasteRead_keptP (r : Vector Byte 6) (s : State) :
    keptByPeriphery (wasteRead r s).1 = keptByPeriphery s := by
  unfold wasteRead
  dsimp only
  repeat' split
  all_goals simp

@[simp] theorem wasteReadFails_keptP (s : State) : keptByPeriphery (wasteReadFails s).1 = keptByPeriphery s := by
  unfold wasteReadFails
  dsimp only
  repeat' split
  all_goals rfl

@[simp] theorem insertWaste_keptP (s : State) : keptByPeriphery (insertWaste s).1 = keptByPeriphery s := by
  unfold insertWaste; split <;> rfl

@[simp] theorem removeWaste_keptP (s : State) : keptByPeriphery (removeWaste s).1 = keptByPeriphery s := by
  unfold removeWaste; split <;> rfl

@[simp] theorem setStale_keptP (chip : Chip) (stale : Bool) (s : State) :
    keptByPeriphery (setStale chip stale s) = keptByPeriphery s := by
  cases chip <;> rfl

@[simp] theorem chipWritten_keptP (s : State) : keptByPeriphery (chipWritten s) = keptByPeriphery s := by
  unfold chipWritten
  repeat' split
  all_goals simp

@[simp] theorem chipWriteFails_keptP (s : State) : keptByPeriphery (chipWriteFails s) = keptByPeriphery s := by
  unfold chipWriteFails
  repeat' split
  all_goals simp

@[simp] theorem rejectBay_keptP (p : Port) (body : List Byte) (s : State) :
    keptByPeriphery (rejectBay p body s).1 = keptByPeriphery s := by
  unfold rejectBay
  repeat' split
  all_goals simp

@[simp] theorem clearRefill_keptP (p : Port) (body : List Byte) (s : State) :
    keptByPeriphery (clearRefill p body s).1 = keptByPeriphery s := by
  unfold clearRefill
  dsimp only
  repeat' split
  all_goals simp

@[simp] theorem bayGone_keptP (b : Fin 12) (s : State) : keptByPeriphery (bayGone b s).1 = keptByPeriphery s := by
  simp [bayGone]

@[simp] theorem strokeDone_keptP (c : Fin 6) (ink : Bool) (s : State) :
    keptByPeriphery (strokeDone c ink s) = keptByPeriphery s := by
  have sampled (b : Fin 12) :
      keptByPeriphery { s with pins := { s.pins with ink := vset s.pins.ink b ink } } = keptByPeriphery s := rfl
  unfold strokeDone
  dsimp only
  repeat' split
  all_goals simp [sampled]

@[simp] theorem floatRun_keptP (c : Fin 6) (f : FloatLevel) (s : State) :
    keptByPeriphery (floatRun c f s).1 = keptByPeriphery s := by
  simp [floatRun]

/-! ### Posted reports and FENCE -/

@[simp] theorem postUsage_keptP (body : List Byte) (s : State) :
    keptByPeriphery (postUsage body s) = keptByPeriphery s := by
  unfold postUsage
  repeat' split
  all_goals rfl

@[simp] theorem releaseFence_keptP (s : State) : keptByPeriphery (releaseFence s) = keptByPeriphery s := rfl

@[simp] theorem takeFence_keptP (s : State) : keptByPeriphery (takeFence s) = keptByPeriphery s := by
  unfold takeFence; split <;> rfl

end Sys2Proof.Machine
end

