-- ==== Sys2Proof/Proofs/ZoneLaws.lean ====
section
/-!
SUPPORT. The two laws of the service zone, that of the pump and that of the clear zone, as a relation between a state
and a later one; what the laws speak of, and the operations that leave it alone; and the operations of the Station
Controller, each of which passes both laws on.
-/

namespace Sys2Proof.Machine

/-- What the two laws of the zone speak of. -/
def zonePart (s : State) :=
  (s.stc.state, sledIsUp s, sledIsDown s, wiperIsRetracted s, s.stc.selector.isSome, s.stc.pump.running, s.stc.holder,
    s.stc.handingBack, s.cls.stage)

theorem zonePart_of_records {s t : State} (station : t.stc = s.stc) (stage : t.cls.stage = s.cls.stage) :
    zonePart t = zonePart s := by
  simp only [zonePart, sledIsUp, sledIsDown, wiperIsRetracted, station, stage]

theorem zonePart_of_periphery {s t : State} (h : keptByPeriphery t = keptByPeriphery s) : zonePart t = zonePart s :=
  zonePart_of_records (stc_of_periphery h) (congrArg Cls.stage (cls_of_periphery h))

theorem PumpLawful.of_part {s t : State} (h : zonePart t = zonePart s) (law : PumpLawful s) : PumpLawful t := by
  simp only [zonePart, Prod.mk.injEq] at h
  unfold PumpLawful
  simp only [h]
  exact law

theorem ZoneClear.of_part {s t : State} (h : zonePart t = zonePart s) (law : ZoneClear s) : ZoneClear t := by
  simp only [zonePart, Prod.mk.injEq] at h
  unfold ZoneClear
  simp only [h]
  exact law

/-- The clear zone is a matter of the station alone. -/
theorem ZoneClear.of_stc {s t : State} (h : t.stc = s.stc) (law : ZoneClear s) : ZoneClear t := by
  unfold ZoneClear sledIsDown sledIsUp wiperIsRetracted
  rw [h]
  exact law

/-! ### What the laws say of a state -/

/-- The pump is stopped. -/
abbrev Stopped (s : State) : Prop := s.stc.pump.running = false

theorem PumpLawful.of_stopped {s : State} (h : Stopped s) : PumpLawful s := fun running => by
  rw [h] at running
  cases running

theorem PumpLawful.stopped_of_state {s : State} (law : PumpLawful s) (h : s.stc.state ≠ .servicing) : Stopped s :=
  Bool.eq_false_iff.mpr fun running => h (law running).1

theorem PumpLawful.stopped_of_sled {s : State} (law : PumpLawful s) (h : sledIsUp s = false) : Stopped s :=
  Bool.eq_false_iff.mpr fun running => by
    rw [(law running).2.1] at h
    cases h

theorem PumpLawful.stopped_of_holder {s : State} (law : PumpLawful s) (h : s.stc.holder ≠ some .cls) : Stopped s :=
  Bool.eq_false_iff.mpr fun running => h (law running).2.2.2.1

theorem PumpLawful.stopped_of_handBack {s : State} (law : PumpLawful s) (h : s.stc.handingBack = true) : Stopped s :=
  Bool.eq_false_iff.mpr fun running => by
    rw [(law running).2.2.2.2.1] at h
    cases h

theorem PumpLawful.stopped_of_stage {s : State} (law : PumpLawful s) (h : s.cls.stage ≠ .sucking) : Stopped s :=
  Bool.eq_false_iff.mpr fun running => h (law running).2.2.2.2.2

/-- The station homes, serves a session or is in FAULT: the zone need not be clear. -/
def Away (s : State) : Prop := s.stc.state = .homing ∨ s.stc.state = .servicing ∨ s.stc.state = .fault

theorem Away.zoneClear {s : State} (h : Away s) : ZoneClear s := by
  unfold Away at h
  refine ⟨by tauto, ?_, ?_⟩ <;> rcases h with h | h | h <;> simp [h]

/-- The sled is where no state of the station needs it. -/
def SledFree (s : State) : Prop := Away s ∨ s.stc.state = .capping ∨ s.stc.state = .uncapping

/-- A sled that may move leaves the zone clear, whatever the sled does (R58). -/
theorem ZoneClear.of_sledFree {s t : State} (law : ZoneClear s) (free : SledFree s) (state : t.stc.state = s.stc.state)
    (wiper : wiperIsRetracted t = wiperIsRetracted s) : ZoneClear t := by
  obtain ⟨retracted, -, -⟩ := law
  refine ⟨by rwa [state, wiper], ?_, ?_⟩ <;> rw [state] <;> rcases free with (h | h | h) | h | h <;> simp [h]

/-- A zone that is clear with its sled in motion is one in which the sled may move. -/
theorem ZoneClear.sledFree_of_motion {s : State} (law : ZoneClear s) (h : s.stc.sled.motion.isNone = false) :
    SledFree s := by
  obtain ⟨-, down, up⟩ := law
  have notDown : sledIsDown s ≠ true := by simp [sledIsDown, h]
  have notUp : sledIsUp s ≠ true := by simp [sledIsUp, h]
  unfold SledFree Away
  cases state : s.stc.state <;> simp [state] at down up ⊢ <;> contradiction

/-- A zone that is clear with its wiper in motion is one that need not be clear. -/
theorem ZoneClear.away_of_motion {s : State} (law : ZoneClear s) (h : s.stc.wiper.motion.isNone = false) : Away s := by
  rcases law.1 with homing | servicing | fault | retracted
  · exact .inl homing
  · exact .inr (.inl servicing)
  · exact .inr (.inr fault)
  · simp [wiperIsRetracted, h] at retracted

theorem ZoneClear.wiper_of_state {s : State} (law : ZoneClear s) (h : ¬ Away s) : wiperIsRetracted s = true := by
  rcases law.1 with homing | servicing | fault | retracted
  · exact absurd (.inl homing) h
  · exact absurd (.inr (.inl servicing)) h
  · exact absurd (.inr (.inr fault)) h
  · exact retracted

/-! ### Both laws passed on -/

/-- `t` follows `s` by what keeps the pump lawful and the zone clear. -/
structure ZonePass (s t : State) : Prop where
  pump : PumpLawful s → PumpLawful t
  clear : ZoneClear s → ZoneClear t

theorem ZonePass.of_part {s t : State} (h : zonePart t = zonePart s) : ZonePass s t := ⟨.of_part h, .of_part h⟩

theorem ZonePass.of_periphery {s t : State} (h : keptByPeriphery t = keptByPeriphery s) : ZonePass s t :=
  .of_part (zonePart_of_periphery h)

theorem ZonePass.refl (s : State) : ZonePass s s := .of_part rfl

theorem ZonePass.trans {s t u : State} (h : ZonePass s t) (h' : ZonePass t u) : ZonePass s u :=
  ⟨h'.pump ∘ h.pump, h'.clear ∘ h.clear⟩

/-- A later part is related if it keeps what the laws speak of. -/
theorem ZonePass.then_part {s t u : State} (h : ZonePass s t) (h' : zonePart u = zonePart t) : ZonePass s u :=
  h.trans (.of_part h')

/-- The station stands and the pump is stopped: a stage that is entered leaves both laws. -/
theorem ZonePass.of_stc {s t : State} (station : t.stc = s.stc) (stopped : PumpLawful s → Stopped s) : ZonePass s t :=
  ⟨fun law => .of_stopped (by rw [Stopped, station]; exact stopped law), .of_stc station⟩

theorem ZonePass.of_run_ite {s : State} {c : Prop} [Decidable c] {a b : Run} (ha : c → ZonePass s a.1)
    (hb : ¬ c → ZonePass s b.1) : ZonePass s (if c then a else b).1 := by
  split
  · exact ha ‹_›
  · exact hb ‹_›

theorem zonePass_carries : Carries ZonePass where
  refl := .refl
  trans := .trans
  taking h := by
    simp only [keptByTaking, Prod.mk.injEq] at h
    exact .of_part (zonePart_of_records (by simp only [h]) (by simp only [h]))

/-! ### Operations that leave the zone alone -/

@[simp] theorem zonePart_raise (k : EventKind) (m : BitVec 16) (d : Option Detail) (s : State) :
    zonePart (raise k m d s) = zonePart s := rfl
@[simp] theorem zonePart_setEntry (s : State) (h : Fin 3) (x : CleanEntry) :
    zonePart (setEntry s h x) = zonePart s := rfl
@[simp] theorem zonePart_setExposure (s : State) (h : Fin 3) (x : Exposure) :
    zonePart (setExposure s h x) = zonePart s := rfl
@[simp] theorem zonePart_setHealth (s : State) (c : Fin 6) (x : Health) :
    zonePart (setHealth s c x) = zonePart s := rfl
@[simp] theorem zonePart_setDtu (x : Dtu) (s : State) : zonePart (setDtu x s) = zonePart s := rfl
@[simp] theorem zonePart_foldRequest (h : Fin 3) (l : Level) (u : Bool) (o : OriginSet) (s : State) :
    zonePart (foldRequest h l u o s) = zonePart s := rfl
@[simp] theorem zonePart_answer (p : Port) (k : Kind) (r : Result) (b : List Byte) (s : State) :
    zonePart (answer p k r b s) = zonePart s := rfl
@[simp] theorem zonePart_done (s : State) : zonePart (Run.done s).1 = zonePart s := rfl
@[simp] theorem zonePart_reply (p : Port) (k : Kind) (r : Result) (b : List Byte) (s : State) :
    zonePart (reply p k r b s).1 = zonePart s := rfl
@[simp] theorem zonePart_plus (r : Run) (acts : List Act) : zonePart (r.plus acts).1 = zonePart r.1 := rfl

@[simp] theorem zonePart_placeExposure (h : Fin 3) (s : State) : zonePart (placeExposure h s) = zonePart s :=
  zonePart_of_periphery (placeExposure_keptP h s)

@[simp] theorem zonePart_exposureSpit (h : Fin 3) (s : State) : zonePart (exposureSpit h s) = zonePart s := by
  simp [exposureSpit]

@[simp] theorem zonePart_raiseExposed (h : Fin 3) (s : State) : zonePart (raiseExposed h s) = zonePart s := by
  unfold raiseExposed; dsimp only; split <;> rfl

@[simp] theorem zonePart_extEntry (s : State) : zonePart (extEntry s).1 = zonePart s := by
  unfold extEntry
  dsimp only
  split
  case h_1 => exact foldl_kept zonePart _ (fun s h => zonePart_exposureSpit h s) _ s
  case h_2 =>
    split
    · rfl
    · exact foldl_kept zonePart (fun s h => setExposure s h { exposure s h with count := 0, due := false })
        (fun _ _ => rfl) _ s
  case h_3 | h_4 => exact foldl_kept zonePart _ (fun s h => zonePart_raiseExposed h s) _ s
  all_goals rfl

@[simp] theorem zonePart_exposureExpires (h : Fin 3) (s : State) : zonePart (exposureExpires h s).1 = zonePart s := by
  unfold exposureExpires; dsimp only; split <;> simp

@[simp] theorem zonePart_claimActs (u b : Bool) (s : State) : zonePart (claimActs u b s).1 = zonePart s := by
  unfold claimActs; dsimp only; split <;> rfl

@[simp] theorem zonePart_placeClaim (w : Claimant) (u : Bool) (s : State) :
    zonePart (placeClaim w u s).1 = zonePart s := by
  unfold placeClaim
  split
  · rfl
  · rw [zonePart_claimActs]
    rfl

@[simp] theorem zonePart_markUrgent (w : Claimant) (s : State) : zonePart (markUrgent w s).1 = zonePart s := by
  unfold markUrgent
  split
  · rw [zonePart_claimActs]
    rfl
  · rfl

@[simp] theorem zonePart_withdrawClaim (w : Claimant) (s : State) : zonePart (withdrawClaim w s) = zonePart s := rfl

@[simp] theorem zonePart_parkExpires (s : State) : zonePart (parkExpires s) = zonePart s := rfl

@[simp] theorem zonePart_holdExpires (s : State) : zonePart (holdExpires s).1 = zonePart s := rfl

@[simp] theorem zonePart_countRevolved (n : Nat) (t : Option Nat) (s : State) :
    zonePart (setStc { s.stc with pump := { s.stc.pump with revs := n }, stall := t } s) = zonePart s := rfl

/-! ### Sled, wiper, selector and pump (R58, R59) -/

theorem sledCommand_zonePass (e : SledEnd) {s : State} (free : SledFree s) : ZonePass s (sledCommand e s).1 := by
  unfold sledCommand
  split
  · exact .refl s
  · next stopped =>
    exact ⟨fun _ => .of_stopped (Bool.eq_false_iff.mpr stopped), fun law => law.of_sledFree free rfl rfl⟩

theorem wiperCommand_zonePass (e : WiperEnd) {s : State} (away : Away s) : ZonePass s (wiperCommand e s).1 :=
  ⟨fun law => law, fun _ => Away.zoneClear away⟩

theorem holderSled_zonePass (e : SledEnd) (s : State) : ZonePass s (holderSled e s).1 := by
  unfold holderSled
  split
  · next serving => exact sledCommand_zonePass e (.inl (.inr (.inl serving)))
  · exact .refl s

theorem holderWiper_zonePass (e : WiperEnd) (s : State) : ZonePass s (holderWiper e s).1 := by
  unfold holderWiper
  split
  · next serving => exact wiperCommand_zonePass e (.inr (.inl serving))
  · exact .refl s

theorem sledArrives_zonePass (s : State) : ZonePass s (sledArrives s).1 := by
  unfold sledArrives
  split
  · exact .refl s
  · next e n moving =>
    have motion : s.stc.sled.motion.isNone = false := by rw [moving]; rfl
    exact ⟨fun law => .of_stopped (law.stopped_of_sled (by simp [sledIsUp, motion])),
      fun law => law.of_sledFree (law.sledFree_of_motion motion) rfl rfl⟩

theorem wiperArrives_zonePass (s : State) : ZonePass s (wiperArrives s).1 := by
  unfold wiperArrives
  split
  · exact .refl s
  · next e n moving =>
    exact ⟨fun law => law, fun law => Away.zoneClear (law.away_of_motion (by rw [moving]; rfl))⟩

theorem joinSelector_zonePass (h : Fin 3) (s : State) : ZonePass s (joinSelector h s) := by
  unfold joinSelector
  split
  · exact .refl s
  · next stopped => exact ⟨fun _ => .of_stopped (Bool.eq_false_iff.mpr stopped), fun law => law⟩

theorem releaseSelector_zonePass (s : State) : ZonePass s (releaseSelector s) := by
  unfold releaseSelector
  split
  · exact .refl s
  · next stopped => exact ⟨fun _ => .of_stopped (Bool.eq_false_iff.mpr stopped), fun law => law⟩

/-- The pump starts only where its law has it run, in the suction of a cycle (R59, R105). -/
theorem startPump_zonePass (n : Nat) {s : State} (sucking : s.cls.stage = .sucking) : ZonePass s (startPump n s) := by
  unfold startPump
  split
  · next ready =>
    simp only [pumpReady, Bool.and_eq_true, beq_iff_eq, Bool.not_eq_true'] at ready
    obtain ⟨⟨⟨⟨serving, held⟩, keeps⟩, up⟩, joined⟩ := ready
    exact ⟨fun _ _ => ⟨serving, up, joined, held, keeps, sucking⟩, fun law => law⟩
  · exact .refl s

theorem stopPump_zonePass (s : State) : ZonePass s (stopPump s) := ⟨fun _ => .of_stopped rfl, fun law => law⟩

theorem countRevolution_zonePass (s : State) : ZonePass s (countRevolution s).1 := by
  unfold countRevolution
  split
  · dsimp only
    have counted := ZonePass.of_part (zonePart_countRevolved (s.stc.pump.revs + 1) (some 0) s)
    split
    · exact counted.trans (stopPump_zonePass _)
    · exact counted
  · exact .refl s

/-! ### States of the station (R60 to R74) -/

theorem not_away {s : State} {x : StationState} (h : s.stc.state = x) (homing : x ≠ .homing := by decide)
    (serving : x ≠ .servicing := by decide) (fault : x ≠ .fault := by decide) : ¬ Away s := by
  subst h
  rintro (h | h | h) <;> contradiction

/-- Homing begins with the pump stopped and in a state in which the zone need not be clear, whatever was before (R60). -/
theorem beginHoming_zonePass (s t : State) : ZonePass t (beginHoming s).1 :=
  ⟨fun _ => .of_stopped rfl, fun _ => Away.zoneClear (.inl rfl)⟩

theorem enterUnparked_zonePass {s : State} (stopped : PumpLawful s → Stopped s)
    (clear : ZoneClear s → sledIsDown s = true ∧ wiperIsRetracted s = true) : ZonePass s (enterUnparked s).1 := by
  refine ⟨fun law => .of_stopped (stopped law), fun law => ?_⟩
  obtain ⟨down, retracted⟩ := clear law
  exact ⟨.inr (.inr (.inr retracted)), fun _ => down, nofun⟩

theorem enterOpen_zonePass (e : Bool) {s : State} (stopped : PumpLawful s → Stopped s)
    (clear : ZoneClear s → sledIsDown s = true ∧ wiperIsRetracted s = true) : ZonePass s (enterOpen e s).1 := by
  refine ⟨fun law => .of_stopped (stopped law), fun law => ?_⟩
  obtain ⟨down, retracted⟩ := clear law
  exact ⟨.inr (.inr (.inr retracted)), fun _ => down, nofun⟩

theorem enterCapped_zonePass {s : State} (stopped : PumpLawful s → Stopped s)
    (clear : ZoneClear s → sledIsUp s = true ∧ wiperIsRetracted s = true) : ZonePass s (enterCapped s).1 := by
  refine ⟨fun law => .of_stopped (stopped law), fun law => ?_⟩
  obtain ⟨up, retracted⟩ := clear law
  refine ⟨.inr (.inr (.inr retracted)), fun states => ?_, fun _ => up⟩
  rcases states with h | h | h <;> exact StationState.noConfusion h

/-- A station state is entered in which the sled may move, from one with the wiper retracted (R63, R64). -/
theorem setState_zonePass {x : Stc} {s : State} (moves : x.state = .capping ∨ x.state = .uncapping)
    (wiper : x.wiper = s.stc.wiper) (pump : x.pump = s.stc.pump) (stopped : PumpLawful s → Stopped s)
    (retracted : ZoneClear s → wiperIsRetracted s = true) : ZonePass s (setStc x s) := by
  refine ⟨fun law => .of_stopped ?_, fun law => ?_⟩
  · show x.pump.running = false
    rw [pump]
    exact stopped law
  · have still : wiperIsRetracted (setStc x s) = true := by
      rw [← retracted law]
      simp only [wiperIsRetracted, setStc_stc, wiper]
    refine ⟨.inr (.inr (.inr still)), ?_, ?_⟩ <;> rw [setStc_stc] <;> rcases moves with h | h <;> simp [h]

theorem beginCapping_zonePass {s : State} (stopped : PumpLawful s → Stopped s)
    (retracted : ZoneClear s → wiperIsRetracted s = true) : ZonePass s (beginCapping s).1 := by
  unfold beginCapping
  refine .trans ?_ (sledCommand_zonePass _ (.inr (.inl rfl)))
  exact setState_zonePass (.inl rfl) rfl rfl stopped retracted

theorem beginUncapping_zonePass {s : State} (stopped : PumpLawful s → Stopped s)
    (retracted : ZoneClear s → wiperIsRetracted s = true) : ZonePass s (beginUncapping s).1 := by
  unfold beginUncapping
  refine .trans ?_ (sledCommand_zonePass _ (.inr (.inr rfl)))
  exact setState_zonePass (.inr rfl) rfl rfl stopped retracted

theorem askCapping_zonePass (s : State) : ZonePass s (askCapping s).1 := by
  unfold askCapping
  split
  · next opened =>
    split
    · exact .of_part rfl
    · exact beginCapping_zonePass (fun law => law.stopped_of_state (by simp [opened]))
        fun law => law.wiper_of_state (not_away opened)
  · exact .refl s

theorem beginSession_zonePass (who : Claimant) {s : State} (stopped : PumpLawful s → Stopped s) :
    ZonePass s (beginSession who s).1 :=
  ⟨fun law => .of_stopped (stopped law), fun _ => Away.zoneClear (.inr (.inl rfl))⟩

theorem freeMoment_zonePass (e : Bool) (s : State) : ZonePass s (freeMoment e s).1 := by
  unfold freeMoment
  split
  · next acts =>
    have resting : s.stc.state = .opened ∨ s.stc.state = .capped := by
      simp only [arbiterActs, Bool.and_eq_true, Bool.or_eq_true, beq_iff_eq] at acts
      exact acts.1.1
    have stopped (law : PumpLawful s) : Stopped s :=
      law.stopped_of_state (by rcases resting with h | h <;> simp [h])
    have retracted (law : ZoneClear s) : wiperIsRetracted s = true :=
      law.wiper_of_state (by rcases resting with h | h <;> exact not_away h)
    split
    · exact beginSession_zonePass _ stopped
    · split
      · unfold choosePrint
        split
        · exact .of_part rfl
        · exact beginUncapping_zonePass stopped retracted
      · split
        · exact beginSession_zonePass _ stopped
        · split
          · exact beginCapping_zonePass stopped retracted
          · exact .refl s
  · exact .refl s

theorem grantZone_zonePass {s : State} (h : s.stc.state = .opened ∨ s.stc.state = .unparked) :
    ZonePass s (grantZone s).1 := by
  unfold grantZone
  dsimp only
  generalize granted : setStc _ s = t
  have passed : ZonePass s t := by
    subst granted
    refine ⟨fun law => .of_stopped (law.stopped_of_state (by rcases h with h | h <;> simp [h])), fun law => ?_⟩
    have retracted := law.wiper_of_state (by rcases h with h | h <;> exact not_away h)
    exact ⟨.inr (.inr (.inr retracted)), fun _ => law.2.1 (by tauto), nofun⟩
  split
  · exact passed.then_part rfl
  · exact passed

theorem zoneRequest_zonePass (s : State) : ZonePass s (zoneRequest s).2.1 := by
  unfold zoneRequest
  split
  case h_1 opened => exact grantZone_zonePass (.inl opened)
  case h_2 unparked => exact grantZone_zonePass (.inr unparked)
  case h_4 capped =>
    refine ZonePass.trans ?_
      (beginUncapping_zonePass (fun law => law.stopped_of_state (by simp [capped])) fun law =>
        law.wiper_of_state (not_away capped))
    exact .of_part rfl
  all_goals exact .of_part rfl

theorem releaseZone_zonePass {s : State} (granted : s.stc.state = .granted) : ZonePass s (releaseZone s).1 := by
  have stopped (law : PumpLawful s) : Stopped s := law.stopped_of_state (by simp [granted])
  have clear (law : ZoneClear s) : sledIsDown s = true ∧ wiperIsRetracted s = true :=
    ⟨law.2.1 (by tauto), law.wiper_of_state (not_away granted)⟩
  exact .of_run_ite (fun _ => enterOpen_zonePass _ stopped clear) fun _ => enterUnparked_zonePass stopped clear

theorem resetZone_zonePass (s : State) : ZonePass s (resetZone s).1 := by
  unfold resetZone
  dsimp only
  generalize emptied : setStc _ s = t
  have passed : ZonePass s t := by subst emptied; exact .of_part rfl
  split
  · next granted => exact passed.trans (releaseZone_zonePass granted)
  · split <;> exact passed

theorem homeTo_zonePass (b : Bool) (s : State) : ZonePass s (homeTo b s).1 := by
  unfold homeTo
  dsimp only
  split
  · exact .of_part rfl
  · split
    case h_1 unparked =>
      split
      · refine .trans ?_ (enterOpen_zonePass _ (fun law => law.stopped_of_state ?_) fun law => ⟨law.2.1 ?_, ?_⟩)
        · exact .of_part rfl
        · rw [unparked]; decide
        · exact .inr (.inr unparked)
        · exact law.wiper_of_state (not_away unparked)
      · exact .of_part rfl
    case h_2 opened =>
      split
      · exact .of_part rfl
      · refine .trans ?_ (enterUnparked_zonePass (fun law => law.stopped_of_state ?_) fun law => ⟨law.2.1 ?_, ?_⟩)
        · exact .of_part rfl
        · exact fun serving => StationState.noConfusion (opened.symm.trans serving)
        · exact .inl opened
        · exact law.wiper_of_state (not_away opened)
    all_goals exact .of_part rfl

theorem idleExpires_zonePass (s : State) : ZonePass s (idleExpires s).1 := by
  unfold idleExpires
  refine .trans ?_ (askCapping_zonePass _)
  exact .of_part rfl

/-! ### The end of a session, and faults (R61, R74) -/

/-- A holder hands back only what runs no pump (R74, R105). -/
theorem startHandBack_zonePass (who : Claimant) {s : State}
    (stopped : s.stc.holder = some who → PumpLawful s → Stopped s) :
    ZonePass s (startHandBack who s) := by
  unfold startHandBack
  split
  · next held => exact ⟨fun law => .of_stopped (stopped held law), fun law => law⟩
  · exact .refl s

theorem handBack_zonePass (s : State) : ZonePass s (handBack s).1 := by
  unfold handBack
  split
  · next returning =>
    obtain ⟨serving, giving⟩ := returning
    have away : Away s := .inr (.inl serving)
    split
    · exact .refl s
    · split
      · exact wiperCommand_zonePass _ away
      · next retracted =>
        have retracted : wiperIsRetracted s = true := by simpa using retracted
        have ended : ZonePass s (endSession s) :=
          ⟨fun law => .of_stopped (law.stopped_of_handBack giving), fun law => law⟩
        have stopped (law : PumpLawful (endSession s)) : Stopped (endSession s) := law.stopped_of_holder nofun
        split
        · next up => exact ended.trans (enterCapped_zonePass stopped fun _ => ⟨up.2, retracted⟩)
        · split
          · next down =>
            split
            · exact ended.trans (enterOpen_zonePass _ stopped fun _ => ⟨down, retracted⟩)
            · exact ended.trans (enterUnparked_zonePass stopped fun _ => ⟨down, retracted⟩)
          · exact sledCommand_zonePass _ (.inl away)
  · exact .refl s

theorem faultStation_stopped (cause : StationCause) (s : State) : Stopped (faultStation cause s) := by
  unfold faultStation
  dsimp only
  split <;> rfl

theorem faultStation_state (cause : StationCause) (s : State) : (faultStation cause s).stc.state = .fault := by
  unfold faultStation
  dsimp only
  split <;> rfl

theorem faultStation_zonePass (cause : StationCause) (s : State) : ZonePass s (faultStation cause s) :=
  ⟨fun _ => .of_stopped (faultStation_stopped cause s),
    fun _ => Away.zoneClear (.inr (.inr (faultStation_state cause s)))⟩

theorem stcSledDone_zonePass (s : State) : ZonePass s (stcSledDone s).1 := by
  unfold stcSledDone
  split
  case h_1 homing =>
    have stopped (law : PumpLawful s) : Stopped s := law.stopped_of_state (by simp [homing])
    split
    · next settled =>
      obtain ⟨down, retracted⟩ := Bool.and_eq_true_iff.mp settled
      split
      · exact beginCapping_zonePass stopped fun _ => retracted
      · exact enterUnparked_zonePass stopped fun _ => ⟨down, retracted⟩
    · exact .refl s
  case h_2 capping =>
    split
    · next up =>
      exact enterCapped_zonePass (fun law => law.stopped_of_state (by simp [capping])) fun law =>
        ⟨up, law.wiper_of_state (not_away capping)⟩
    · exact .refl s
  case h_3 uncapping =>
    split
    · next down =>
      exact enterOpen_zonePass _ (fun law => law.stopped_of_state (by simp [uncapping])) fun law =>
        ⟨down, law.wiper_of_state (not_away uncapping)⟩
    · exact .refl s
  all_goals exact .refl s

theorem stcWiperDone_zonePass (s : State) : ZonePass s (stcWiperDone s).1 := by
  unfold stcWiperDone
  split
  case h_1 homing =>
    split
    · exact sledCommand_zonePass _ (.inl (.inl homing))
    · exact .refl s
  all_goals exact .refl s

end Sys2Proof.Machine
end

