-- ==== Sys2Proof/Proofs/ZoneLawsServices.lean ====
section
/-!
SUPPORT. The operations of the Detector Unit and the Cleaning Sequencer, and every consequence of the agenda, pass the
two laws of the service zone on. A cycle leaves SUCKING only with the pump stopped, and a session is handed back only by
a holder that runs no pump (R105, R111).
-/

namespace Sys2Proof.Machine

/-! ### Operations that leave the zone alone -/

@[simp] theorem zonePart_placeOrder (w : Placer) (b : OrderBody) (s : State) :
    zonePart (placeOrder w b s).1 = zonePart s := zonePart_of_periphery (placeOrder_keptP w b s)

@[simp] theorem zonePart_withdraw (w : Placer) (s : State) : zonePart (withdraw w s) = zonePart s := rfl

@[simp] theorem zonePart_dtuEndCheck (s : State) : zonePart (dtuEndCheck s) = zonePart s :=
  zonePart_of_periphery (dtuEndCheck_keptP s)

@[simp] theorem zonePart_dtuAbandon (s : State) : zonePart (dtuAbandon s) = zonePart s := rfl

@[simp] theorem zonePart_createTask (k : TaskKind) (cs : List (Fin 6)) (p : Port) (s : State) :
    zonePart (createTask k cs p s).1 = zonePart s := by
  simp [createTask]

@[simp] theorem zonePart_foldSweep (rs : List (Fin 6 × SweepResult)) (s : State) :
    zonePart (foldSweep rs s) = zonePart s :=
  foldl_kept zonePart _ (fun s r => by split <;> rfl) rs s

@[simp] theorem zonePart_closeTask (t : Task) (c : Option CheckCause) (s : State) :
    zonePart (closeTask t c s).1 = zonePart s := by
  simp [closeTask]

@[simp] theorem zonePart_dtuFault (s : State) : zonePart (dtuFault s).1 = zonePart s := by
  unfold dtuFault
  split
  · split <;> simp
  · rfl

@[simp] theorem zonePart_clearEntries (hs : List (Fin 3)) (s : State) :
    zonePart (clearEntries hs s) = zonePart s :=
  foldl_kept zonePart _ (fun _ _ => by rfl) hs s

@[simp] theorem zonePart_dropHeads (hs : List CycleHead) (s : State) :
    zonePart (dropHeads hs s) = zonePart s := by
  unfold dropHeads; split <;> simp

@[simp] theorem zonePart_recordRun (h : Fin 3) (n : Nat) (s : State) : zonePart (recordRun h n s) = zonePart s := rfl

@[simp] theorem zonePart_suctionDebit (h : Fin 3) (n : Nat) (s : State) :
    zonePart (suctionDebit h n s).1 = zonePart s := zonePart_of_periphery (suctionDebit_keptP h n s)

@[simp] theorem zonePart_debitRun (s : State) : zonePart (debitRun s).1 = zonePart s := by
  unfold debitRun; split <;> simp

@[simp] theorem zonePart_markDegraded (cs : List (Fin 6)) (s : State) :
    zonePart (cs.foldl (fun s c => markDegraded c s) s) = zonePart s :=
  foldl_kept zonePart _ (fun _ _ => by rfl) cs s

@[simp] theorem zonePart_setStep (h : Fin 3) (n : Nat) (s : State) : zonePart (setStep h n s) = zonePart s := rfl

@[simp] theorem zonePart_judgeHead (rs : List RowResult) (x : CycleHead) (s : State) :
    zonePart (judgeHead rs x s) = zonePart s := by
  unfold judgeHead
  dsimp only
  repeat' split
  all_goals simp

@[simp] theorem zonePart_zeroDrops (hs : List CycleHead) (s : State) :
    zonePart (zeroDrops hs s) = zonePart s :=
  foldl_kept zonePart _ (fun _ _ => by rfl) hs s

@[simp] theorem zonePart_clearUrgent (s : State) : zonePart (clearUrgent s) = zonePart s :=
  foldl_kept zonePart _ (fun s h => by split <;> rfl) allHeads s

@[simp] theorem zonePart_foldBack (s : State) : zonePart (foldBack s) = zonePart s :=
  foldl_kept zonePart _ (fun _ _ => by rfl) _ s

@[simp] theorem zonePart_closeAborted (c : CleanCause) (s : State) :
    zonePart (closeAborted c s) = zonePart s := by
  unfold closeAborted
  exact (zonePart_of_records rfl rfl).trans (zonePart_foldBack _)

@[simp] theorem zonePart_cleanRequest (hs : List (Fin 3)) (l : Level) (u : Bool) (o : CleanOrigin) (s : State) :
    zonePart (cleanRequest hs l u o s) = zonePart s :=
  foldl_kept zonePart _ (fun _ _ => by rfl) hs s

@[simp] theorem zonePart_cancelEntries (hs : List (Fin 3)) (s : State) :
    zonePart (cancelEntries hs s) = zonePart s := by
  unfold cancelEntries dropHold
  split
  · simp
  · exact zonePart_clearEntries hs s

theorem stage_of_part {s t : State} (h : zonePart t = zonePart s) : t.cls.stage = s.cls.stage := by
  simp only [zonePart, Prod.mk.injEq] at h
  simp only [h]

/-! ### Detector Unit -/

theorem dtuHandBack_zonePass (s : State) : ZonePass s (startHandBack .dtu s) :=
  startHandBack_zonePass .dtu fun held law => law.stopped_of_holder (by simp [held])

theorem dtuFinish_zonePass (s : State) : ZonePass s (dtuFinish s).1 := by
  unfold dtuFinish
  split
  · exact .of_part rfl
  · exact (dtuHandBack_zonePass s).then_part (zonePart_closeTask _ _ _)
  · exact .refl s

theorem dtuOrderFailed_zonePass (s : State) : ZonePass s (dtuOrderFailed s).1 := by
  unfold dtuOrderFailed
  split
  · exact .of_part rfl
  · exact (dtuHandBack_zonePass s).then_part (zonePart_closeTask _ _ _)
  · exact .refl s

theorem dtuOrderEnded_zonePass (o : Order) (how : OrderEnd) (x : Option Sample) (s : State) :
    ZonePass s (dtuOrderEnded o how x s).1 := by
  unfold dtuOrderEnded
  split
  · exact .of_part rfl
  · split
    · have told : ZonePass s (setDtu { s.dtu with outstanding := none } s) := .of_part rfl
      dsimp only
      split
      · exact told.trans (.of_periphery (dtuOrderDone_keptP x _))
      · exact told.trans (dtuOrderFailed_zonePass _)
    · exact .refl s

/-! ### Cleaning Sequencer: the stages of a cycle -/

/-- The cleaning record is written with a new stage while the pump is stopped. -/
theorem setCls_zonePass (x : Cls) {s : State} (stopped : PumpLawful s → Stopped s) : ZonePass s (setCls x s) :=
  .of_stc rfl stopped

theorem clsClaim_zonePass (s : State) : ZonePass s (clsClaim s).1 := by
  unfold clsClaim
  split
  · next claims =>
    have idle : s.cls.stage = .none := by
      simp only [Bool.and_eq_true, beq_iff_eq] at claims
      exact claims.1.1.2
    exact (setCls_zonePass _ fun law => law.stopped_of_stage (by simp [idle])).then_part (zonePart_placeClaim _ _ _)
  · exact .refl s

theorem clsFolded_zonePass (u : Bool) (s : State) : ZonePass s (clsFolded u s).1 := by
  unfold clsFolded
  split
  · exact .of_run_ite (fun _ => .of_part (zonePart_markUrgent _ _)) fun _ => .refl s
  · exact clsClaim_zonePass s

theorem clsHandBack_zonePass {s : State} (stopped : PumpLawful s → Stopped s) : ZonePass s (clsHandBack s).1 := by
  unfold clsHandBack
  dsimp only
  exact .trans (setCls_zonePass _ stopped)
    (startHandBack_zonePass .cls fun _ law => law.stopped_of_stage (by simp))

/-- That the pump is stopped by its law is a matter of what the law speaks of. -/
theorem stopped_of_part {s t : State} (h : zonePart t = zonePart s) (stopped : PumpLawful s → Stopped s) :
    PumpLawful t → Stopped t := by
  intro law
  have still := stopped (law.of_part h.symm)
  simp only [zonePart, Prod.mk.injEq] at h
  simp only [Stopped, h, still]

theorem endDropped_zonePass (hs : List CycleHead) {s : State} (stopped : PumpLawful s → Stopped s) :
    ZonePass s (endDropped hs s).1 := by
  unfold endDropped
  refine .trans ?_ (clsHandBack_zonePass stopped)
  exact .of_part rfl

theorem refuseCycle_zonePass (hs : List CycleHead) (c : CleanCause) {s : State} (stopped : PumpLawful s → Stopped s) :
    ZonePass s (refuseCycle hs c s).1 := by
  unfold refuseCycle
  refine .trans ?_ (clsHandBack_zonePass stopped)
  exact .of_part rfl

theorem startCycle_zonePass (hs : List CycleHead) {s : State} (stopped : PumpLawful s → Stopped s) :
    ZonePass s (startCycle hs s).1 := by
  unfold startCycle
  have cleared := zonePart_clearEntries (hs.map CycleHead.head) s
  exact .trans (.of_part cleared) (setCls_zonePass _ (stopped_of_part cleared stopped))

theorem formCycle_zonePass {s : State} (resting : s.cls.stage ≠ .sucking) : ZonePass s (formCycle s).1 := by
  have stopped (law : PumpLawful s) : Stopped s := law.stopped_of_stage resting
  unfold formCycle
  dsimp only
  split
  · exact refuseCycle_zonePass _ _ stopped
  · have dropped := zonePart_dropHeads ((pendingHeads s).filter fun x => dropsHead s x) s
    split
    · exact .trans (.of_part dropped) (endDropped_zonePass _ (stopped_of_part dropped stopped))
    · exact .trans (.of_part dropped) (startCycle_zonePass _ (stopped_of_part dropped stopped))

theorem waitInkTest_zonePass (s : State) : ZonePass s (waitInkTest s).1 := by
  unfold waitInkTest
  split
  · next waits =>
    have stopped (law : PumpLawful s) : Stopped s := law.stopped_of_stage (by simp [waits.1])
    have dropped := zonePart_dropHeads (s.cls.heads.filter fun x => dropsHead s x) s
    dsimp only
    split
    · exact .trans (.of_part dropped) (endDropped_zonePass _ (stopped_of_part dropped stopped))
    · exact .trans (.of_part dropped) (setCls_zonePass _ (stopped_of_part dropped stopped))
  · exact .refl s

theorem supplyChanged_zonePass (c : Fin 6) (s : State) : ZonePass s (supplyChanged c s).1 :=
  .of_run_ite (fun _ => waitInkTest_zonePass s) fun _ => .refl s

theorem nextSuction_zonePass (s : State) : ZonePass s (nextSuction s).1 := by
  unfold nextSuction
  split
  · exact .refl s
  · next still =>
    split
    · exact setCls_zonePass _ fun _ => Bool.eq_false_iff.mpr still
    · exact .refl s

theorem startRun_zonePass {s : State} (sucking : s.cls.stage = .sucking) : ZonePass s (startRun s) := by
  unfold startRun
  split
  · exact .refl s
  · split
    · exact .refl s
    · refine .trans (.trans ?_ (joinSelector_zonePass _ _)) (startPump_zonePass _ ?_)
      · exact .of_part rfl
      · unfold joinSelector
        split <;> exact sucking

theorem clsPumpDone_zonePass (s : State) : ZonePass s (clsPumpDone s).1 :=
  .of_run_ite (fun _ => .trans (.of_part (zonePart_debitRun s)) (releaseSelector_zonePass _)) fun _ => .refl s

/-- The pump is stopped in every stage but SUCKING, so that such a stage may be left. -/
theorem leaveStage_zonePass (x : Cls) {s : State} (resting : s.cls.stage ≠ .sucking) : ZonePass s (setCls x s) :=
  setCls_zonePass x fun law => law.stopped_of_stage resting

theorem spitsDone_zonePass {s : State} (resting : s.cls.stage ≠ .sucking) : ZonePass s (spitsDone s).1 := by
  unfold spitsDone leaveSpitting
  split
  · split <;> exact leaveStage_zonePass _ resting
  · exact .refl s

theorem nextSpit_zonePass (s : State) : ZonePass s (nextSpit s).1 := by
  unfold nextSpit
  split
  · next spitting =>
    split
    · exact .of_part (zonePart_placeOrder _ _ s)
    · exact spitsDone_zonePass (by simp [spitting.2])
  · exact .refl s

@[simp] theorem zonePart_clsEntered (id : Nat) (s : State) : zonePart (clsEntered id s).1 = zonePart s := by
  unfold clsEntered
  dsimp only
  repeat' split
  all_goals rfl

theorem clsSledDone_zonePass (s : State) : ZonePass s (clsSledDone s).1 := by
  unfold clsSledDone
  split
  · split
    case h_1 sucking =>
      rw [Run.done]
      split
      · exact startRun_zonePass sucking
      · exact .refl s
    case h_2 => split <;> exact .refl s
    case h_3 => split <;> exact .refl s
    all_goals exact .refl s
  · exact .refl s

theorem clsWiperDone_zonePass (s : State) : ZonePass s (clsWiperDone s).1 := by
  unfold clsWiperDone
  split
  · next wiping =>
    split
    · exact .of_part (zonePart_placeOrder _ _ s)
    · exact leaveStage_zonePass _ (by simp [wiping.2])
  · exact .refl s

theorem checkResults_zonePass (rs : List RowResult) (s : State) : ZonePass s (checkResults rs s).1 := by
  unfold checkResults
  split
  · next checking =>
    have judged := foldl_kept zonePart _ (fun s x => zonePart_judgeHead rs x s) (suckedHeads s) s
    exact .trans (.of_part judged) (leaveStage_zonePass _ (by rw [stage_of_part judged, checking.2]; decide))
  · exact .refl s

theorem finishCycle_zonePass {s : State} (finishing : s.cls.stage = .finishing) : ZonePass s (finishCycle s).1 := by
  have stopped (law : PumpLawful s) : Stopped s := law.stopped_of_stage (by simp [finishing])
  have zeroed := zonePart_zeroDrops (suckedHeads s) s
  unfold finishCycle
  dsimp only
  generalize closed : setCls _ (raise .cleanDone _ none _) = t
  have part : zonePart t = zonePart s := by
    subst closed
    exact .trans (zonePart_of_records rfl rfl) zeroed
  have passed : ZonePass s t := .of_part part
  split
  · split
    · exact passed.then_part rfl
    · have cleared := zonePart_clearUrgent t
      exact (passed.then_part cleared).trans (clsHandBack_zonePass (stopped_of_part (cleared.trans part) stopped))
  · exact passed.trans (clsHandBack_zonePass (stopped_of_part part stopped))

theorem stageEntered_zonePass (s : State) : ZonePass s (stageEntered s).1 := by
  unfold stageEntered
  split
  · split
    case h_1 => exact waitInkTest_zonePass s
    case h_2 => exact nextSuction_zonePass s
    case h_4 => exact .of_run_ite (fun _ => nextSpit_zonePass s) fun _ => .refl s
    case h_6 finishing => exact finishCycle_zonePass finishing
    all_goals exact .of_part rfl
  · exact .refl s

/-! ### Cleaning Sequencer: aborts, requests and the session -/

theorem stopRun_zonePass (s : State) : ZonePass s (stopRun s).1 :=
  .of_run_ite (fun _ => (stopPump_zonePass s).then_part (zonePart_debitRun _)) fun _ => .refl s

theorem abortCycle_zonePass (c : CleanCause) (s : State) : ZonePass s (abortCycle c s).1 := by
  unfold abortCycle
  split
  · refine .trans (.of_part ?_) (stopRun_zonePass _)
    exact .trans (zonePart_dtuEndCheck _) rfl
  · exact .refl s

theorem safePoint_zonePass (s : State) : ZonePass s (safePoint s).1 := by
  unfold safePoint
  split
  · exact .refl s
  · split
    · next cause _ safe =>
      have still : Stopped s := Bool.eq_false_iff.mpr safe.2.1
      have released : Stopped (releaseSelector s) := by
        unfold releaseSelector
        split <;> exact still
      have closed := zonePart_closeAborted cause (releaseSelector s)
      exact ((releaseSelector_zonePass s).then_part closed).trans
        (clsHandBack_zonePass (stopped_of_part closed fun _ => released))
    · exact .refl s

theorem clsOrderEnded_zonePass (o : Order) (how : OrderEnd) (s : State) : ZonePass s (clsOrderEnded o how s).1 := by
  unfold clsOrderEnded
  split
  · dsimp only
    generalize told : setCls _ s = t
    have passed : ZonePass s t := by subst told; exact .of_part rfl
    split
    · exact passed
    · split
      · split
        case h_2 spitting => exact passed.trans (spitsDone_zonePass (by simp [spitting]))
        all_goals exact passed
      · exact passed
  · exact .refl s

theorem clsWasteChanged_zonePass (s : State) : ZonePass s (clsWasteChanged s).1 := by
  unfold clsWasteChanged
  split
  · exact abortCycle_zonePass _ s
  · split
    · refine .trans ?_ (clsClaim_zonePass _)
      exact .of_part rfl
    · exact .refl s

theorem clsSession_zonePass (s : State) : ZonePass s (clsSession s).1 :=
  .of_run_ite (fun waits => formCycle_zonePass (by simp [waits])) fun _ => .refl s

theorem nextCycle_zonePass (s : State) : ZonePass s (nextCycle s).1 :=
  .of_run_ite (fun finishing => formCycle_zonePass (by simp [finishing])) fun _ => .refl s

theorem cancelCycle_zonePass (hs : List (Fin 3)) (s : State) : ZonePass s (cancelCycle hs s).1 := by
  unfold cancelCycle
  dsimp only
  split
  case h_1 waits =>
    split
    · exact .refl s
    · exact (leaveStage_zonePass { s.cls with stage := .none } (by simp [waits])).then_part rfl
  case h_7 | h_8 => exact .refl s
  all_goals
    split
    · exact .refl s
    · exact .of_part rfl

/-- A cycle that the fault of the station ends leaves SUCKING with the pump stopped (R61, R113). -/
theorem clsFault_zonePass (run : Option (Fin 3 × Nat)) {s : State} (stopped : Stopped s) :
    ZonePass s (clsFault run s).1 := by
  unfold clsFault
  split
  · dsimp only
    generalize closed : closeAborted _ _ = t
    have part : zonePart t = zonePart s := by
      subst closed
      rw [zonePart_closeAborted, zonePart_withdraw, zonePart_dtuEndCheck]
      split
      · rw [zonePart_suctionDebit, zonePart_recordRun]
      · rfl
    exact .trans (.of_part part) (setCls_zonePass _ (stopped_of_part part fun _ => stopped))
  · exact .refl s

theorem stationFault_zonePass (c : StationCause) (s : State) : ZonePass s (stationFault c s).1 := by
  unfold stationFault
  dsimp only
  have faulted := faultStation_zonePass c s
  split
  · exact faulted.trans (clsFault_zonePass _ (faultStation_stopped c s))
  · exact faulted.then_part (zonePart_dtuFault _)
  · exact faulted

/-! ### The agenda -/

theorem sledDone_zonePass (s : State) : ZonePass s (sledDone s).1 := by
  unfold sledDone
  split
  · split
    · exact handBack_zonePass s
    · split
      · exact clsSledDone_zonePass s
      · exact .of_periphery (dtuSledDone_keptP s)
      · exact .refl s
  · exact stcSledDone_zonePass s

theorem wiperDone_zonePass (s : State) : ZonePass s (wiperDone s).1 := by
  unfold wiperDone
  split
  · split
    · exact handBack_zonePass s
    · split
      · exact clsWiperDone_zonePass s
      all_goals exact .refl s
  · exact stcWiperDone_zonePass s

@[simp] theorem zonePart_enteredFor (w : Placer) (id : Nat) (s : State) :
    zonePart (enteredFor w id s).1 = zonePart s := by
  unfold enteredFor
  split
  · exact zonePart_clsEntered id s
  · exact zonePart_of_periphery (dtuEntered_keptP id s)
  · exact zonePart_of_periphery (fdcEntered_keptP id s)

theorem orderEndedFor_zonePass (o : Order) (how : OrderEnd) (x : Option Sample) (s : State) :
    ZonePass s (orderEndedFor o how x s).1 := by
  unfold orderEndedFor
  split
  · exact .refl s
  · exact clsOrderEnded_zonePass o how s
  · exact dtuOrderEnded_zonePass o how x s
  · exact .of_periphery (fdcOrderEnded_keptP o how s)

theorem wakeEnd_zonePass (s : State) : ZonePass s (wakeEnd s).1 := by
  have tested : ZonePass s (refillTestAll s) := .of_periphery (refillTestAll_keptP s)
  unfold wakeEnd
  dsimp only
  generalize refillTestAll s = t at tested ⊢
  exact tested.trans (homeTo_zonePass t.pins.home t)

/-- Every consequence of a command passes both laws on. -/
theorem perform_zonePass (a : Act) (s : State) : ZonePass s (perform a s).1 := by
  cases a
  case freeMoment e => exact freeMoment_zonePass e s
  case takenEnded => exact freeMoment_zonePass false s
  case askCapping => exact askCapping_zonePass s
  case sessionBegun who =>
    cases who
    · exact clsSession_zonePass s
    · exact .of_periphery (dtuSession_keptP s)
  case handBack => exact handBack_zonePass s
  case sledCommand e => exact holderSled_zonePass e s
  case wiperCommand e => exact holderWiper_zonePass e s
  case sledDone => exact sledDone_zonePass s
  case wiperDone => exact wiperDone_zonePass s
  case pumpDone => exact clsPumpDone_zonePass s
  case orderEnded o how x => exact orderEndedFor_zonePass o how x s
  case clsClaim => exact clsClaim_zonePass s
  case clsFolded u => exact clsFolded_zonePass u s
  case wasteChanged => exact clsWasteChanged_zonePass s
  case supplyChanged c => exact supplyChanged_zonePass c s
  case formCycle => exact nextCycle_zonePass s
  case stageEntered => exact stageEntered_zonePass s
  case nextSpit => exact nextSpit_zonePass s
  case abortCycle c => exact abortCycle_zonePass c s
  case checkFailed => exact abortCycle_zonePass .orderFailed s
  case safePoint => exact safePoint_zonePass s
  case dtuFinish => exact dtuFinish_zonePass s
  case checkResults rs => exact checkResults_zonePass rs s
  case wakeEnd => exact wakeEnd_zonePass s
  case extEntry => exact .of_part (zonePart_extEntry s)
  case entered w id => exact .of_part (zonePart_enteredFor w id s)
  case enterWaiting => exact .of_periphery (enterWaiting_keptP s)
  case place w b => exact .of_periphery (placeOrder_keptP w b s)
  case dtuPlace => exact .of_periphery (dtuPlace_keptP s)
  case returnOrders => exact .of_periphery (returnOrders_keptP s)

end Sys2Proof.Machine
end

