-- ==== Sys2Proof/Proofs/ZoneLawsKept.lean ====
section
/-!
SUPPORT. Every command and every step passes the two laws of the service zone on: the end sensors and the timers, the
commands of the other blocks, the resets and the millisecond. Settles O59 and O60.
-/

namespace Sys2Proof.Machine

/-! ### Reports, cartridges and requests -/

@[simp] theorem zonePart_addDrops (body : List Byte) (h : Fin 3) (s : State) :
    zonePart (addDrops body h s) = zonePart s := by
  unfold addDrops; dsimp only; split <;> simp

@[simp] theorem zonePart_reportService (body : List Byte) (d : Destination) (s : State) :
    zonePart (reportService body d s) = zonePart s := by
  unfold reportService
  dsimp only
  rw [foldl_kept zonePart _ (fun s h => by split <;> rfl)]
  split
  · exact foldl_kept zonePart _ (fun s h => zonePart_addDrops body h s) _ s
  · rfl

@[simp] theorem zonePart_reportInk (body : List Byte) (d : Destination) (s : State) :
    zonePart (reportInk body d s) = zonePart s := by
  unfold reportInk
  dsimp only
  refine zonePart_of_periphery (kept_periphery_of_usage ?_)
  rw [checkOverAll_keptU, pauReport_keptU, chargeAll_keptU]
  split <;> rfl

@[simp] theorem zonePart_applyReport (body : List Byte) (d : Destination) (s : State) :
    zonePart (applyReport body d s).1 = zonePart s := by
  have noted : zonePart (noteReport body s) = zonePart s := rfl
  have tested (t : State) : zonePart (testWaste t).1 = zonePart t :=
    zonePart_of_periphery (kept_periphery_of_usage (testWaste_keptU t))
  unfold applyReport
  dsimp only
  split
  · exact noted
  · cases d <;> simp [noted, tested]

@[simp] theorem zonePart_usageStep (s : State) : zonePart (usageStep s).1 = zonePart s := by
  unfold usageStep
  split
  · rfl
  · dsimp only
    split
    · rfl
    · rw [zonePart_applyReport]
      rfl

@[simp] theorem zonePart_standbyRun (b : Fin 12) (s : State) : zonePart (standbyRun b s).1 = zonePart s := by
  have stood := zonePart_of_periphery (enterStandby_keptP b s)
  unfold standbyRun
  dsimp only
  split <;> simp [stood]

@[simp] theorem zonePart_judgeBay (b : Fin 12) (scan : Bool) (f : ChipFields) (s : State) :
    zonePart (judgeBay b scan f s).1 = zonePart s := by
  have checked (c : Fin 6) (t : State) : zonePart (checkOver c t) = zonePart t :=
    zonePart_of_periphery (checkOver_keptP c t)
  have written (x : Bay) (t : State) : zonePart (setBay t b x) = zonePart t := rfl
  rw [judgeBay_eq]
  unfold judgedAs
  dsimp only
  repeat' split
  all_goals simp [checked, written]

@[simp] theorem zonePart_chipRead (r : Vector Byte 18) (s : State) : zonePart (chipRead r s).1 = zonePart s := by
  have finished (t : State) : zonePart (ended t) = zonePart t := rfl
  unfold chipRead
  dsimp only
  repeat' split
  all_goals simp [finished]

@[simp] theorem zonePart_confirmBay (p : Port) (body : List Byte) (s : State) :
    zonePart (confirmBay p body s).1 = zonePart s := by
  have written (b : Fin 12) (x : Bay) (t : State) : zonePart (setBay t b x) = zonePart t := rfl
  unfold confirmBay
  repeat' split
  all_goals simp [written]

@[simp] theorem zonePart_clean (p : Port) (body : List Byte) (s : State) :
    zonePart (clean p body s).1 = zonePart s := by
  unfold clean
  repeat' split
  all_goals simp

@[simp] theorem zonePart_askTask (k : Kind) (t : TaskKind) (p : Port) (body : List Byte) (s : State) :
    zonePart (askTask k t p body s).1 = zonePart s := by
  unfold askTask
  repeat' split
  all_goals simp

@[simp] theorem zonePart_paramActions (id : ParamId) (s : State) : zonePart (paramActions id s).1 = zonePart s := by
  have evaluated := foldl_kept keptByPeriphery _ (fun s c => evalSupply_keptP c s) allChannels s
  unfold paramActions
  refine zonePart_of_periphery ?_
  split <;> simp [evaluated]

@[simp] theorem zonePart_setParam (body : List Byte) (p : Port) (s : State) :
    zonePart (setParam body p s).1 = zonePart s := by
  unfold setParam
  dsimp only
  split
  · rfl
  · rw [zonePart_paramActions]
    rfl

@[simp] theorem zonePart_takeRest (p : Port) (s : State) : zonePart (takeRest p s) = zonePart s := by
  unfold takeRest
  repeat' split
  all_goals rfl

/-! ### Requests and events of the station -/

theorem takeZoneRequest_zonePass (p : Port) (s : State) : ZonePass s (takeZoneRequest p s).1 :=
  (zoneRequest_zonePass s).then_part rfl

theorem takeZoneRelease_zonePass (p : Port) (s : State) : ZonePass s (takeZoneRelease p s).1 := by
  unfold takeZoneRelease
  split
  · next granted =>
    refine .trans ?_ (releaseZone_zonePass granted)
    exact .of_part rfl
  · exact .of_part rfl

theorem retryStation_zonePass (p : Port) (s : State) : ZonePass s (retryStation p s).1 := by
  unfold retryStation
  split
  · exact beginHoming_zonePass _ s
  · exact .of_part rfl

theorem cancelClean_zonePass (p : Port) (body : List Byte) (s : State) : ZonePass s (cancelClean p body s).1 := by
  unfold cancelClean
  split
  · next h hs _ =>
    have cancelled : ZonePass s (cancelEntries (h :: hs) s) := .of_part (zonePart_cancelEntries _ s)
    refine .trans (cancelled.then_part ?_) (cancelCycle_zonePass _ _)
    rfl
  · exact .of_part rfl

theorem sledEnds_zonePass (s : State) : ZonePass s (sledEnds s).1 := by
  unfold sledEnds
  split
  · next e _ _ =>
    refine .trans ?_ (sledArrives_zonePass (sledPins e s))
    exact .of_part rfl
  · exact .refl s

theorem wiperEnds_zonePass (s : State) : ZonePass s (wiperEnds s).1 := by
  unfold wiperEnds
  split
  · next e _ _ =>
    refine .trans ?_ (wiperArrives_zonePass (wiperPins e s))
    exact .of_part rfl
  · exact .refl s

theorem endSensor_zonePass (e : EndSensor) (b : Bool) (s : State) : ZonePass s (endSensor e b s).1 := by
  have read : ZonePass s (setEndPin e b s) := .of_periphery (setEndPin_keptP e b s)
  unfold endSensor
  dsimp only
  generalize setEndPin e b s = t at read ⊢
  split
  case h_1 | h_2 => exact .of_run_ite (fun _ => read.trans (sledArrives_zonePass t)) fun _ => read
  case h_3 | h_4 => exact .of_run_ite (fun _ => read.trans (wiperArrives_zonePass t)) fun _ => read
  case h_5 => exact read

theorem homeChange_zonePass (b : Bool) (s : State) : ZonePass s (homeChange b s).1 :=
  .of_run_ite (fun _ => .of_part rfl) fun _ => homeTo_zonePass b s

/-! ### Resets and the millisecond -/

theorem linkReset_zonePass (p : Port) (s : State) : ZonePass s (linkReset p s).1 := by
  unfold linkReset
  dsimp only
  split
  · have cleared : ZonePass s (resetPosted (resetFeed p (resetPort p s))) := .of_part rfl
    exact (cleared.trans (resetZone_zonePass _)).then_part rfl
  · exact .of_part rfl

/-- The start-up actions end in homing (R60, R174). -/
theorem startUp_zonePass (s t : State) : ZonePass t (startUp s).1 := by
  unfold startUp Run.andThen
  generalize startScan _ = u
  exact beginHoming_zonePass u.1 t

/-- Motors that are de-energized stand at the end they had reached (R61, R174). -/
theorem assertReset_zonePass (s : State) : ZonePass s (assertReset s) := by
  refine ⟨fun _ => .of_stopped rfl, fun law => ?_⟩
  have down : sledIsDown s = true → sledIsDown (assertReset s) = true := by
    simp +contextual [sledIsDown, assertReset, Moved.halt]
  have up : sledIsUp s = true → sledIsUp (assertReset s) = true := by
    simp +contextual [sledIsUp, assertReset, Moved.halt]
  have retracted : wiperIsRetracted s = true → wiperIsRetracted (assertReset s) = true := by
    simp +contextual [wiperIsRetracted, assertReset, Moved.halt]
  exact ⟨law.1.imp_right (.imp_right (.imp_right retracted)), fun h => down (law.2.1 h), fun h => up (law.2.2 h)⟩

/-- A motion timer one millisecond on leaves a part where it is. -/
theorem tick_motion_isNone {ε : Type} (m : Moved ε) : m.tick.motion.isNone = m.motion.isNone := by
  simp [Moved.tick]

@[simp] theorem zonePart_tick (s : State) : zonePart (tick s) = zonePart s := by
  have timed (t : State) : zonePart (tickTimers t) = zonePart t := by
    simp only [zonePart, sledIsUp, sledIsDown, wiperIsRetracted, tickTimers, tick_motion_isNone]
    rfl
  unfold tick
  split
  · rfl
  · dsimp only
    split
    · rfl
    · exact (timed { s with timeBase := (s.timeBase + 1) % 4294967296 }).trans rfl

/-! ### Every command and every step -/

theorem settle_zonePass {s t : State} {r : Run} (h : settle r = .next t) (own : ZonePass s r.1) : ZonePass s t :=
  zonePass_carries.settle perform_zonePass h own

theorem exec_zonePass {i : Instr} {s t : State} (h : exec i s = .next t) : ZonePass s t := by
  have hR := zonePass_carries
  cases i <;> simp only [exec] at h
  case resetNAssert => exact settle_zonePass h (assertReset_zonePass s)
  case deviceReset r => exact settle_zonePass h (startUp_zonePass _ s)
  case frameError p bytes =>
    unfold execFrameError at h
    split at h
    · exact settle_zonePass h (hR.transaction (fun s => .of_part rfl) p _ s)
    · exact settle_zonePass h (hR.event (fun s => .of_part rfl) s)
    · exact settle_zonePass h (hR.event (fun s => .of_part rfl) s)
  case readReply p body =>
    exact settle_zonePass h
      (hR.transaction (hR.fitting (fun s => .of_periphery (readReply_keptP p body s)) p body) p _ s)
  case linkReset p body =>
    exact settle_zonePass h (hR.transaction (hR.fitting (linkReset_zonePass p) p body) p _ s)
  case usage p body =>
    refine settle_zonePass h (hR.transaction (hR.fitting (fun s => ?_) p body) p _ s)
    split
    · exact .of_periphery (postUsage_keptP body s)
    · exact hR.dispatch hR.refl _ p body s
  case zoneRequest p body => exact settle_zonePass h (hR.request (takeZoneRequest_zonePass p) _ _ _ s)
  case zoneRelease p body => exact settle_zonePass h (hR.request (takeZoneRelease_zonePass p) _ _ _ s)
  case stationRetry p body => exact settle_zonePass h (hR.request (retryStation_zonePass p) _ _ _ s)
  case cancelClean p body => exact settle_zonePass h (hR.request (cancelClean_zonePass p body) _ _ _ s)
  case waitInkEnd => exact settle_zonePass h (hR.event waitInkTest_zonePass s)
  case sledMotionDone => exact settle_zonePass h (hR.event sledEnds_zonePass s)
  case wiperMotionDone => exact settle_zonePass h (hR.event wiperEnds_zonePass s)
  case endSensorChangeIdle e b => exact settle_zonePass h (hR.event (endSensor_zonePass e b) s)
  case pumpRevolution => exact settle_zonePass h (hR.event countRevolution_zonePass s)
  case homeSensorChange b => exact settle_zonePass h (hR.event (homeChange_zonePass b) s)
  case sledMotionTimeout | wiperMotionTimeout | pumpStall =>
    exact settle_zonePass h (hR.event (fun s => .of_run_ite (fun _ => stationFault_zonePass _ s) fun _ => .refl s) s)
  case idleCapExpiry =>
    exact settle_zonePass h (hR.event (fun s => .of_run_ite (fun _ => idleExpires_zonePass s) fun _ => .refl s) s)
  case parkTimerExpiry | grantHoldExpiry | exposureExpiry =>
    refine settle_zonePass h (hR.event (fun s => .of_part ?_) s)
    split <;> simp
  case fenceRelease | fireSyncStrobe | feedMotionTimeout =>
    refine settle_zonePass h (hR.event (fun s => .of_periphery ?_) s)
    split <;> simp
  case usageApply | chipReadDone => exact settle_zonePass h (hR.event (fun s => .of_part (by simp)) s)
  case bayPresenceClose | bayPresenceOpen | floatChange | wastePresenceClose | wastePresenceOpen | leadingEdgeChange
      | pathEntryChange | sourceEndSensor | coverSensorOpen | coverSensorClose | sourceEndSensorClear =>
    exact settle_zonePass h (hR.watched (fun s => .of_periphery (by simp)) _ _ s)
  case statusPoll | busTransactionStart | busAttemptUnacknowledged | chipReadFail | wasteReadDone | wasteReadFail
      | chipWriteDone | chipWriteFail | strokeComplete | orderTimerExpiry | waitingPlacementEntry | detectorSample
      | arbiterServe | loadMotionDone | unloadMotionDone | advanceDone | cutAdvanceDone | manualFeedDone
      | replyShiftedOut =>
    exact settle_zonePass h (hR.event (fun s => .of_periphery (by simp [strokeRun])) s)
  case setDate => exact settle_zonePass h (hR.request (fun s => .of_part rfl) _ _ _ s)
  case setParam | rest | confirmCartridge | clean | checkNozzles | calibrateDetector =>
    exact settle_zonePass h (hR.request (fun s => .of_part (by simp)) _ _ _ s)
  all_goals exact settle_zonePass h (hR.request (fun s => .of_periphery (by simp)) _ _ _ s)

theorem step_zonePass {s t : State} (h : step s = .next t) : ZonePass s t := by
  unfold step at h
  split at h
  · unfold idleStep at h
    split at h
    · exact settle_zonePass h (startUp_zonePass s s)
    · cases h
      exact .of_part (zonePart_tick s)
  · next c rest _ =>
    have taken : ZonePass s { s with pending := rest } := .of_part rfl
    exact taken.trans (exec_zonePass h)

/-- Settles O59: every step passes the law of the pump on. -/
theorem pumpLawKept : Obligations.PumpLawKept := fun _ _ law h => (step_zonePass h).pump law

/-- Settles O60: every step passes the law of the clear zone on. -/
theorem zoneClearKept : Obligations.ZoneClearKept := fun _ _ law h => (step_zonePass h).clear law

end Sys2Proof.Machine
end

