-- ==== Sys2Proof/Proofs/StationMoves.lean ====
section
/-!
SUPPORT. How the station's shared operations come out: a motion command that starts a motor or finds its end sensor
true, the acts of the exposure timers on a state the station enters, and the states entered with nothing due and no
claim waiting.
-/

namespace Sys2Proof.Machine

/-! ### Motion commands (R58) -/

/-- A command to a part at rest away from the end named starts its motor. -/
theorem Moved.command_starts {ε : Type} {m : Moved ε} (e : ε) (rests : m.motion = none) :
    m.command e false = ({ m with motion := some (e, 0) }, false) := by
  simp [Moved.command, rests]

/-- A command to a part at rest at the end named completes at once. -/
theorem Moved.command_arrived {ε : Type} {m : Moved ε} (e : ε) (rests : m.motion = none) :
    m.command e true = ({ m with reached := some e }, true) := by
  simp [Moved.command, rests]

theorem sledCommand_starts {e : SledEnd} {s : State} (still : s.stc.pump.running = false)
    (rests : s.stc.sled.motion = none) (away : sledSensor s e = false) :
    sledCommand e s = (setStc { s.stc with sled := { s.stc.sled with motion := some (e, 0) } } s, []) := by
  rw [sledCommand, if_neg (by simp [still]), away, Moved.command_starts e rests]
  rfl

theorem wiperCommand_starts {e : WiperEnd} {s : State} (rests : s.stc.wiper.motion = none)
    (away : wiperSensor s e = false) :
    wiperCommand e s = (setStc { s.stc with wiper := { s.stc.wiper with motion := some (e, 0) } } s, []) := by
  rw [wiperCommand, away, Moved.command_starts e rests]
  rfl

theorem wiperCommand_arrived {e : WiperEnd} {s : State} (rests : s.stc.wiper.motion = none)
    (there : wiperSensor s e = true) :
    wiperCommand e s = (setStc { s.stc with wiper := { s.stc.wiper with reached := some e } } s, [.wiperDone]) := by
  rw [wiperCommand, there, Moved.command_arrived e rests]
  rfl

/-! ### The exposure timers on a state the station enters (R135) -/

theorem NoneDue.of_ext {s t : State} (due : NoneDue s) (h : t.ext = s.ext) : NoneDue t := fun k => by
  rw [exposure, h]
  exact due k

/-- With no head due the EXT does nothing, whatever the state entered. -/
theorem extEntry_noneDue {s : State} (due : NoneDue s) : perform .extEntry s = (s, []) := by
  have none : (allHeads.filter fun h => (exposure s h).due) = [] := by
    rw [List.filter_eq_nil_iff]
    exact fun h _ => by simp [due h]
  show extEntry s = _
  unfold extEntry
  rw [none]
  cases s.stc.state <;> rfl

theorem stc_exposureSpit (h : Fin 3) (s : State) : (exposureSpit h s).stc = s.stc := by
  unfold exposureSpit placeExposure
  split
  · rfl
  · split
    · unfold enterOrder
      dsimp only
      split <;> rfl
    · rfl

/-- In GRANTED the EXT places its spits and leaves the station alone. -/
theorem extEntry_granted {s : State} (granted : s.stc.state = .granted) :
    ∃ t, perform .extEntry s = (t, []) ∧ t.stc = s.stc := by
  refine ⟨_, ?_, foldl_kept State.stc _ (fun s h => stc_exposureSpit h s)
    (allHeads.filter fun h => (exposure s h).due) s⟩
  show extEntry s = _
  unfold extEntry
  simp only [granted]
  rfl

/-! ### States entered with nothing due (R63, R67, R68, R73, R74) -/

/-- A consequence whose own consequences change nothing. -/
theorem settle_act_inert {s t : State} {a : Act} {acts : List Act} (own : perform a s = (t, acts))
    (inert : ∀ b ∈ acts, perform b t = (t, [])) (few : acts.length ≤ 399) : settle (s, [a]) = .next t := by
  apply settle_of_runActs
  show runActs (399 + 1) (s, [a]) = _
  rw [runActs_cons, own, List.append_nil]
  exact runActs_inert t acts inert 399 few

/-- No placement waits, so that none enters (R81). -/
theorem enterWaiting_empty {s : State} (empty : s.orq.waiting = []) : perform .enterWaiting s = (s, []) := by
  have same : ({ s.orq with waiting := [] } : Orq) = s.orq := by rw [← empty]
  show enterWaitingFrom s.orq.waiting s = _
  rw [empty]
  show (setOrq { s.orq with waiting := [] } s, []) = _
  rw [same]
  rfl

theorem enterUnparked_inert {s : State} (due : NoneDue s) :
    ∀ a ∈ (enterUnparked s).2, perform a (enterUnparked s).1 = ((enterUnparked s).1, []) := by
  intro a here
  rw [List.mem_singleton.mp here]
  exact extEntry_noneDue (due.of_ext rfl)

/-- No claim and no grant waits for the free moment that OPEN is. -/
theorem enterOpen_inert {s : State} (due : NoneDue s) (free : Unclaimed s) :
    ∀ a ∈ (enterOpen false s).2, perform a (enterOpen false s).1 = ((enterOpen false s).1, []) := by
  intro a here
  rcases List.mem_pair.mp here with rfl | rfl
  · exact freeMoment_unclaimed free
  · exact extEntry_noneDue (due.of_ext rfl)

/-- No placement, no claim and no grant waits for the free moment that CAPPED is. -/
theorem enterCapped_inert {s : State} (free : Unclaimed s) (empty : s.orq.waiting = []) :
    ∀ a ∈ (enterCapped s).2, perform a (enterCapped s).1 = ((enterCapped s).1, []) := by
  intro a here
  rcases List.mem_pair.mp here with rfl | rfl
  · exact enterWaiting_empty empty
  · exact freeMoment_unclaimed free

end Sys2Proof.Machine
end

