-- ==== Sys2Proof/Proofs/ZoneRequests.lean ====
section
/-!
SUPPORT. ZONE_REQUEST and ZONE_RELEASE by station state (R64 to R67). Settles O30.
-/

namespace Sys2Proof.Machine

/-! ### What the zone answers (R65) -/

/-- The station's record once the zone is granted (R65). -/
def Stc.granted (x : Stc) : Stc :=
  { x with state := .granted, entry := .none, hold := none, idle := none, park := none, cappingDue := false }

/-- The state in which the zone has just been granted, an urgent claim told (R65, R66). -/
def zoneGranted (s : State) : State :=
  if s.stc.claims.any fun c => c.urgent then raise .pauseForService 0 none (setStc s.stc.granted s)
  else setStc s.stc.granted s

theorem stc_zoneGranted (s : State) : (zoneGranted s).stc = s.stc.granted := by
  unfold zoneGranted
  split <;> rfl

theorem ext_zoneGranted (s : State) : (zoneGranted s).ext = s.ext := by
  unfold zoneGranted
  split <;> rfl

theorem answer_zoneGranted (p : Port) (k : Kind) (r : Result) (b : List Byte) (s : State) :
    answer p k r b (zoneGranted s) = zoneGranted (answer p k r b s) := by
  show _ = if s.stc.claims.any fun c => c.urgent then _ else _
  unfold zoneGranted
  split <;> rfl

theorem zoneRequest_free {s : State} (h : s.stc.state = .opened ∨ s.stc.state = .unparked) :
    zoneRequest s = (.granted, zoneGranted s, [.extEntry]) := by
  rcases h with h | h <;> simp only [zoneRequest, h] <;> rfl

theorem zoneRequest_granted {s : State} (h : s.stc.state = .granted) : zoneRequest s = (.granted, s, []) := by
  simp only [zoneRequest, h]
  rfl

theorem zoneRequest_capped {s : State} (h : s.stc.state = .capped) (still : s.stc.pump.running = false)
    (rests : s.stc.sled.motion = none) (away : s.pins.sledDown = false) :
    zoneRequest s = (.pending, setStc { s.stc with
      state := .uncapping, entry := .waiting, sled := { s.stc.sled with motion := some (.down, 0) } } s, []) := by
  simp only [zoneRequest, h, beginUncapping]
  rw [sledCommand_starts (e := .down) (by exact still) (by exact rests) (by exact away)]
  rfl

theorem zoneRequest_waits {s : State}
    (h : s.stc.state = .uncapping ∨ s.stc.state = .capping ∨ s.stc.state = .servicing) :
    zoneRequest s = (.pending, setStc { s.stc with entry := .waiting } s, []) := by
  rcases h with h | h | h <;> simp only [zoneRequest, h] <;> rfl

theorem zoneRequest_refused {s : State} (h : s.stc.state = .homing ∨ s.stc.state = .fault) :
    zoneRequest s = (.stationFault, s, []) := by
  rcases h with h | h <;> simp only [zoneRequest, h] <;> rfl

/-! ### The commands -/

section
variable {p : Port} {body : List Byte} {s : State}

/-- ZONE_REQUEST as its owner takes it, from what the zone answers. -/
theorem exec_zoneRequest (takes : Takes s .zoneRequest p body) {r : Result} {t : State} {acts : List Act}
    (asked : zoneRequest (heldFor .zoneRequest p s) = (r, t, acts)) :
    exec (.zoneRequest p body) s = settle (answer p .zoneRequest r [] t, acts) := by
  show settle (request _ _ _ _ s) = _
  rw [settle_request takes, takeZoneRequest, asked]

theorem exec_zoneRequest_free (takes : Takes s .zoneRequest p body)
    (h : s.stc.state = .opened ∨ s.stc.state = .unparked) :
    exec (.zoneRequest p body) s = settle (zoneGranted (answered p .zoneRequest .granted [] s), [.extEntry]) := by
  rw [exec_zoneRequest takes (zoneRequest_free (s := heldFor .zoneRequest p s) h), answer_zoneGranted, answer_heldFor]

/-- A ZONE_REQUEST that writes the station's record at most is answered at once. -/
theorem exec_zoneRequest_at_once (takes : Takes s .zoneRequest p body) {r : Result} {x : Stc}
    (asked : zoneRequest (heldFor .zoneRequest p s) = (r, setStc x (heldFor .zoneRequest p s), [])) :
    exec (.zoneRequest p body) s = .next (setStc x (answered p .zoneRequest r [] s)) := by
  rw [exec_zoneRequest takes asked, ← answer_heldFor]
  rfl

theorem exec_zoneRelease (takes : Takes s .zoneRelease p body) (granted : s.stc.state = .granted) :
    exec (.zoneRelease p body) s = settle (releaseZone (answered p .zoneRelease .ok [] s)) := by
  show settle (request _ _ _ _ s) = _
  rw [settle_request takes, takeZoneRelease, if_pos (by exact granted), answer_heldFor]

end

/-- Settles O30, by the station's state. -/
theorem zoneRequestedAndReleased : Obligations.ZoneRequestedAndReleased := by
  intro p body s
  refine ⟨fun takes => ⟨fun free due => ?granted, fun free => ?grantedAnyway, fun held => ?repeated,
    fun capped still rests away => ?uncapped, fun waits => ?waits, fun refused => ?refused⟩,
    fun takes =>
      ⟨fun other => ?badState, fun granted home due => ?unparked, fun granted home due free => ?opened⟩⟩
  case granted =>
    rw [exec_zoneRequest_free takes free]
    exact settle_one (extEntry_noneDue (due.of_ext (ext_zoneGranted _)))
  case grantedAnyway =>
    have stc := stc_zoneGranted (answered p .zoneRequest .granted [] s)
    obtain ⟨t, entered, kept⟩ := extEntry_granted (s := zoneGranted (answered p .zoneRequest .granted [] s))
      (by rw [stc]; rfl)
    exact ⟨t, (exec_zoneRequest_free takes free).trans (settle_one entered), kept.trans stc⟩
  case repeated => exact exec_zoneRequest_at_once takes (x := s.stc) (zoneRequest_granted held)
  case uncapped => exact exec_zoneRequest_at_once takes (zoneRequest_capped capped still rests away)
  case waits => exact exec_zoneRequest_at_once takes (zoneRequest_waits waits)
  case refused => exact exec_zoneRequest_at_once takes (x := s.stc) (zoneRequest_refused refused)
  case badState =>
    show settle (request _ _ _ _ s) = _
    rw [settle_request takes, takeZoneRelease, if_neg (by exact other), reply, answer_heldFor]
    rfl
  case unparked =>
    rw [exec_zoneRelease takes granted, releaseZone, if_neg (by exact Bool.eq_false_iff.mp home)]
    exact settle_inert _ _ (enterUnparked_inert (due.of_ext rfl)) (by decide)
  case opened =>
    rw [exec_zoneRelease takes granted, releaseZone, if_pos (by exact home)]
    exact settle_inert _ _ (enterOpen_inert (due.of_ext rfl) free) (by decide)

end Sys2Proof.Machine
end

