-- ==== Sys2Proof/Proofs/StationMotions.lean ====
section
/-!
SUPPORT. STATION_RETRY with the homing it begins, and the ends of the sled's and the wiper's motions by station state
(R58, R60, R62 to R64). Settles O31 and O32.
-/

namespace Sys2Proof.Machine

/-! ### Homing (R60, R62) -/

/-- The station's record as homing begins: the pump stopped and the selector released (R60). -/
def Stc.homes (x : Stc) : Stc :=
  { x with state := .homing, selector := none, pump := { x.pump with running := false }, stall := none }

theorem beginHoming_eq (s : State) : beginHoming s = wiperCommand .retracted (setStc s.stc.homes s) := rfl

/-- The wiper's end in homing commands the sled DOWN (R60). -/
theorem wiperDone_homing {s : State} (homing : s.stc.state = .homing) (retracted : wiperIsRetracted s = true) :
    perform .wiperDone s = sledCommand .down s := by
  show wiperDone s = _
  rw [wiperDone, if_neg (by simp [homing]), stcWiperDone]
  simp only [homing, retracted, if_true]

section
variable {s : State} (sledRests : s.stc.sled.motion = none) (wiperRests : s.stc.wiper.motion = none)
include wiperRests

theorem settle_beginHoming_out (out : s.pins.wiperRetracted = false) :
    settle (beginHoming s) =
      .next (setStc { s.stc.homes with wiper := { s.stc.wiper with motion := some (.retracted, 0) } } s) := by
  rw [beginHoming_eq, wiperCommand_starts (by exact wiperRests) (by exact out)]
  rfl

include sledRests

theorem settle_beginHoming_retracted (there : s.pins.wiperRetracted = true) (up : s.pins.sledDown = false) :
    settle (beginHoming s) =
      .next (setStc { s.stc.homes with
        wiper := { s.stc.wiper with reached := some .retracted }
        sled := { s.stc.sled with motion := some (.down, 0) } } s) := by
  rw [beginHoming_eq, wiperCommand_arrived (by exact wiperRests) (by exact there)]
  refine settle_one ?_
  rw [wiperDone_homing rfl (by simp [wiperIsRetracted, Stc.homes, wiperRests])]
  exact sledCommand_starts rfl sledRests up

end

theorem exec_stationRetry_fault {p : Port} {body : List Byte} {s : State} (takes : Takes s .stationRetry p body)
    (fault : s.stc.state = .fault) :
    exec (.stationRetry p body) s = settle (beginHoming (answered p .stationRetry .ok [] s)) := by
  show settle (request _ _ _ _ s) = _
  rw [settle_request takes, retryStation, if_pos (by exact fault), answer_heldFor]

/-- Settles O31, by where the wiper stands. -/
theorem stationRetried : Obligations.StationRetried := by
  intro p body s takes
  refine ⟨fun other => ?_, fun fault sledRests wiperRests => ⟨fun out => ?_, fun there up => ?_⟩⟩
  · show settle (request _ _ _ _ s) = _
    rw [settle_request takes, retryStation, if_neg (by exact other), reply, answer_heldFor]
    rfl
  · exact (exec_stationRetry_fault takes fault).trans (settle_beginHoming_out wiperRests out)
  · exact (exec_stationRetry_fault takes fault).trans (settle_beginHoming_retracted sledRests wiperRests there up)

/-! ### The end of a sled motion (R58, R60, R63, R64) -/

/-- The sled at rest at the end it has reached. -/
def sledAt (e : SledEnd) (s : State) : State := setStc { s.stc with sled := Moved.arrive e } (sledPins e s)

/-- The sled's motion ends with no command waiting. -/
theorem exec_sledMotionDone {e : SledEnd} {n : Nat} {s : State} (awake : Awake s)
    (moves : s.stc.sled.motion = some (e, n)) (alone : s.stc.sled.queued = none) :
    exec .sledMotionDone s = settle (sledAt e s, [.sledDone]) := by
  show settle (event sledEnds s) = _
  have arrives : sledArrives (sledPins e s) = (sledAt e s, [.sledDone]) := by
    unfold sledArrives
    rw [show (sledPins e s).stc = s.stc from rfl]
    simp only [moves, alone]
    rfl
  rw [event_awake awake, sledEnds]
  simp only [moves, arrives]

theorem exec_sledMotionDone_rests {s : State} (awake : Awake s) (rests : s.stc.sled.motion = none) :
    exec .sledMotionDone s = .next s := by
  show settle (event sledEnds s) = _
  rw [event_awake awake, sledEnds]
  simp only [rests]
  rfl

/-- Outside a session the sled's end is the Station Controller's. -/
theorem sledDone_station {s : State} (h : s.stc.state ≠ .servicing) : perform .sledDone s = stcSledDone s := if_neg h

/-! ### The end of a wiper motion (R58, R60) -/

/-- The wiper at rest at the end it has reached. -/
def wiperAt (e : WiperEnd) (s : State) : State := setStc { s.stc with wiper := Moved.arrive e } (wiperPins e s)

theorem exec_wiperMotionDone {e : WiperEnd} {n : Nat} {s : State} (awake : Awake s)
    (moves : s.stc.wiper.motion = some (e, n)) (alone : s.stc.wiper.queued = none) :
    exec .wiperMotionDone s = settle (wiperAt e s, [.wiperDone]) := by
  show settle (event wiperEnds s) = _
  have arrives : wiperArrives (wiperPins e s) = (wiperAt e s, [.wiperDone]) := by
    unfold wiperArrives
    rw [show (wiperPins e s).stc = s.stc from rfl]
    simp only [moves, alone]
    rfl
  rw [event_awake awake, wiperEnds]
  simp only [moves, arrives]

theorem exec_wiperMotionDone_rests {s : State} (awake : Awake s) (rests : s.stc.wiper.motion = none) :
    exec .wiperMotionDone s = .next s := by
  show settle (event wiperEnds s) = _
  rw [event_awake awake, wiperEnds]
  simp only [rests]
  rfl

/-! ### What an end brings (R60, R63, R64) -/

section
variable {s : State}

theorem sledDone_capping (capping : s.stc.state = .capping) (up : sledIsUp s = true) :
    perform .sledDone s = enterCapped s := by
  rw [sledDone_station (by simp [capping]), stcSledDone]
  simp only [capping, up, if_true]

theorem sledDone_uncapping (uncapping : s.stc.state = .uncapping) (down : sledIsDown s = true) :
    perform .sledDone s = enterOpen false s := by
  rw [sledDone_station (by simp [uncapping]), stcSledDone]
  simp only [uncapping, down, if_true]

theorem sledDone_homing (homing : s.stc.state = .homing) (down : sledIsDown s = true)
    (retracted : wiperIsRetracted s = true) :
    perform .sledDone s = if s.stc.home then beginCapping s else enterUnparked s := by
  rw [sledDone_station (by simp [homing]), stcSledDone]
  simp only [homing, down, retracted, Bool.and_self, if_true]

end

/-- An end sensor that changes with its part at rest changes its reading alone (R58). -/
theorem exec_endSensorChange_rests {e : EndSensor} {reading : Bool} {s : State} (awake : Awake s)
    (sledRests : s.stc.sled.motion = none) (wiperRests : s.stc.wiper.motion = none) :
    exec (.endSensorChangeIdle e reading) s = .next (setEndPin e reading s) := by
  have stc : (setEndPin e reading s).stc = s.stc := by cases e <;> rfl
  show settle (event (endSensor e reading) s) = _
  rw [event_awake awake]
  unfold endSensor
  simp only [stc, sledRests, wiperRests, Option.any_none, Bool.false_eq_true, if_false]
  split <;> rfl

/-- Settles O32, by the part whose motion ends and the station's state. -/
theorem stationMotionsEnd : Obligations.StationMotionsEnd := by
  intro s awake
  refine ⟨exec_sledMotionDone_rests awake, fun n moves alone capping free empty => ?capped, fun n moves alone =>
    ⟨fun uncapping free due => ?opened, fun homing retracted away due => ?unparked,
      fun homing retracted home still => ?capping⟩, exec_wiperMotionDone_rests awake,
    fun n moves alone homing still rests up => ?lowered, fun e reading => exec_endSensorChange_rests awake⟩
  case capped =>
    rw [exec_sledMotionDone awake moves alone]
    exact settle_act_inert (sledDone_capping (s := sledAt .up s) capping rfl)
      (enterCapped_inert (s := sledAt .up s) free empty) (show 2 ≤ 399 by decide)
  case opened =>
    rw [exec_sledMotionDone awake moves alone]
    exact settle_act_inert (sledDone_uncapping (s := sledAt .down s) uncapping rfl)
      (enterOpen_inert (s := sledAt .down s) (due.of_ext rfl) free) (by decide)
  case unparked =>
    rw [exec_sledMotionDone awake moves alone]
    refine settle_act_inert ((sledDone_homing (s := sledAt .down s) homing rfl retracted).trans (if_neg ?_))
      (enterUnparked_inert (s := sledAt .down s) (due.of_ext rfl)) (by decide)
    exact Bool.eq_false_iff.mp away
  case capping =>
    rw [exec_sledMotionDone awake moves alone]
    refine settle_one ((sledDone_homing (s := sledAt .down s) homing rfl retracted).trans ?_)
    rw [if_pos (by exact home), beginCapping, sledCommand_starts (by exact still) rfl rfl]
    rfl
  case lowered =>
    rw [exec_wiperMotionDone awake moves alone]
    refine settle_one ((wiperDone_homing (s := wiperAt .retracted s) homing rfl).trans ?_)
    exact sledCommand_starts (s := wiperAt .retracted s) still rests up

end Sys2Proof.Machine
end

