-- ==== Sys2Proof/Proofs/HomeAndTimers.lean ====
section
/-!
SUPPORT. The home sensor and the park, idle-cap and hold timers (R63, R68, R69, R71). Settles O34.
-/

namespace Sys2Proof.Machine

/-! ### The home sensor (R68) -/

/-- The home sensor read as `reading`, and recorded. -/
def homeRead (reading : Bool) (s : State) : State :=
  setStc { s.stc with home := reading } { s with pins := { s.pins with home := reading } }

theorem exec_homeSensorChange {reading : Bool} {s : State} (awake : Awake s) :
    exec (.homeSensorChange reading) s = settle (homeTo reading s) := by
  show settle (event (homeChange reading) s) = _
  rw [event_awake awake, homeChange, if_neg (by rw [awake.2]; decide)]

section
variable {s : State}

theorem homeTo_unparked (unparked : s.stc.state = .unparked) (away : s.stc.home = false) :
    homeTo true s = enterOpen false (homeRead true s) := by
  unfold homeTo
  simp only [away, Bool.true_eq_false, if_false, setStc_stc, unparked, if_true]
  rfl

theorem homeTo_opened (opened : s.stc.state = .opened) (home : s.stc.home = true) :
    homeTo false s =
      enterUnparked (setStc { (homeRead false s).stc with
        entry := if s.stc.entry = .ready then .waiting else s.stc.entry, hold := none } (homeRead false s)) := by
  unfold homeTo
  simp only [home, Bool.false_eq_true, if_false, setStc_stc, opened]
  rfl

/-- Elsewhere the reading is recorded and no more. -/
theorem homeTo_elsewhere (reading : Bool) (unparked : s.stc.state ≠ .unparked) (opened : s.stc.state ≠ .opened) :
    homeTo reading s = (homeRead reading s, []) := by
  unfold homeTo
  dsimp only
  split
  · next same => rw [homeRead, same]; rfl
  · split
    case h_1 is => exact absurd is unparked
    case h_2 is => exact absurd is opened
    all_goals rfl

end

/-! ### The timers (R63, R68, R69, R71) -/

/-- A timer that has reached its limit. -/
theorem reached_some (n limit : Nat) : reached (some n) limit = decide (limit ≤ n) := rfl

section
variable {n : Nat} {s : State} (awake : Awake s)
include awake

theorem exec_parkTimerExpiry (timer : s.stc.park = some n) (unparked : s.stc.state = .unparked) :
    exec .parkTimerExpiry s = .next (if s.params.parkTimeout ≤ n then parkExpires s else s) := by
  show settle (event _ s) = _
  rw [event_awake awake]
  simp [unparked, timer, reached_some]

theorem exec_idleCapExpiry (timer : s.stc.idle = some n) (opened : s.stc.state = .opened) :
    exec .idleCapExpiry s = if s.params.idleCapTime ≤ n then settle (idleExpires s) else .next s := by
  show settle (event _ s) = _
  rw [event_awake awake]
  simp only [opened, timer, reached_some, beq_self_eq_true, Bool.true_and, decide_eq_true_eq]
  split <;> rfl

theorem exec_grantHoldExpiry (timer : s.stc.hold = some n) (ready : s.stc.entry = .ready) :
    exec .grantHoldExpiry s = if s.params.grantHoldTime ≤ n then settle (holdExpires s) else .next s := by
  show settle (event _ s) = _
  rw [event_awake awake]
  simp only [ready, timer, reached_some, beq_self_eq_true, Bool.true_and, decide_eq_true_eq]
  split <;> rfl

end

section
variable {s : State} (opened : s.stc.state = .opened)
include opened

/-- A TAKEN order or a READY entry defers the capping the idle-cap timer asks for (R63, R69). -/
theorem idleExpires_deferred (busy : anyTaken s = true ∨ s.stc.entry = .ready) :
    idleExpires s = (setStc { s.stc with idle := none, cappingDue := true } s, []) := by
  rw [idleExpires, askCapping, if_pos (by exact opened), if_pos (by exact busy)]
  rfl

theorem idleExpires_caps (untaken : anyTaken s = false) (unready : s.stc.entry ≠ .ready)
    (still : s.stc.pump.running = false) (rests : s.stc.sled.motion = none) (down : s.pins.sledUp = false) :
    idleExpires s =
      (setStc { s.stc with
        state := .capping, idle := none, cappingDue := false, sled := { s.stc.sled with motion := some (.up, 0) } } s,
        []) := by
  have free : ¬ (anyTaken s = true ∨ s.stc.entry = .ready) := by simp [untaken, unready]
  rw [idleExpires, askCapping, if_pos (by exact opened), if_neg (by exact free), beginCapping,
    sledCommand_starts (by exact still) (by exact rests) (by exact down)]
  rfl

end

/-- Settles O34, by the station's state and each timer's limit. -/
theorem homeSensorAndTimers : Obligations.HomeSensorAndTimers := by
  intro s awake
  refine ⟨fun reading => ⟨fun unparked away parks free due => ?opened, fun opened home leaves due => ?unparked,
      fun unparked opened => ?recorded⟩,
    fun n timer unparked => ⟨fun early => ?parkEarly, fun late => ?parked⟩,
    fun n timer opened =>
      ⟨fun early => ?idleEarly, fun late busy => ?deferred, fun late untaken unready still rests down => ?caps⟩,
    fun n timer ready => ⟨fun early => ?holdEarly, fun late free => ?discarded⟩⟩
  case opened =>
    subst parks
    rw [exec_homeSensorChange awake, homeTo_unparked unparked away]
    exact settle_inert _ _ (enterOpen_inert (s := homeRead true s) (due.of_ext rfl) free) (by decide)
  case unparked =>
    subst leaves
    rw [exec_homeSensorChange awake, homeTo_opened opened home]
    exact settle_inert _ _ (enterUnparked_inert (due.of_ext rfl)) (by decide)
  case recorded =>
    rw [exec_homeSensorChange awake, homeTo_elsewhere reading unparked opened]
    rfl
  case parkEarly => rw [exec_parkTimerExpiry awake timer unparked, if_neg early.not_ge]
  case parked =>
    rw [exec_parkTimerExpiry awake timer unparked, if_pos late]
    rfl
  case idleEarly => rw [exec_idleCapExpiry awake timer opened, if_neg early.not_ge]
  case deferred =>
    rw [exec_idleCapExpiry awake timer opened, if_pos late, idleExpires_deferred opened busy]
    rfl
  case caps =>
    rw [exec_idleCapExpiry awake timer opened, if_pos late, idleExpires_caps opened untaken unready still rests down]
    rfl
  case holdEarly => rw [exec_grantHoldExpiry awake timer ready, if_neg early.not_ge]
  case discarded =>
    rw [exec_grantHoldExpiry awake timer ready, if_pos late]
    exact settle_one (freeMoment_unclaimed ⟨free.1, nofun, free.2.2⟩)

end Sys2Proof.Machine
end

