-- ==== Sys2Proof/Proofs/StationFault.lean ====
section
/-!
SUPPORT. The station's entry to FAULT: what it changes of the station, what a session of the CLS and one of the DTU
become, and what the claims and the exposure timers still do once the station is in FAULT (R61, R113, R127, R135).
-/

namespace Sys2Proof.Machine

/-! ### The station in FAULT (R61) -/

/-- The station's record on the entry to FAULT with cause `c`. -/
def Stc.faulted (x : Stc) (c : StationCause) : Stc :=
  { x with
    state := .fault, sled := x.sled.halt (decide (c = .sled)), wiper := x.wiper.halt (decide (c = .wiper))
    pump := { x.pump with running := false }, stall := none, selector := none, lastFault := some c, holder := none
    handingBack := false, entry := .none, hold := none, idle := none, park := none, cappingDue := false }

theorem faultStation_eq (c : StationCause) (s : State) :
    faultStation c s =
      let t := raise .stationFault 0 (some (.stationCause c)) (setStc (s.stc.faulted c) s)
      if s.stc.entry = .none then t else raise .grantDiscarded 0 none t := by
  unfold faultStation
  by_cases h : s.stc.entry = .none <;> simp only [h, ne_eq, not_true, not_false_eq_true, decide_false, decide_true,
    Bool.false_eq_true, if_false, if_true] <;> rfl

/-- What the entry to FAULT changes. -/
structure StationFaulted (c : StationCause) (s t : State) : Prop where
  stc : t.stc = s.stc.faulted c
  frame : { t with stc := s.stc, evu := s.evu } = s
  told : Told .stationFault 0 (some (.stationCause c)) s t
  untold : ∀ k, k ≠ .stationFault → k ≠ .grantDiscarded → Untold k s t

theorem faultStation_spec (c : StationCause) (s : State) : StationFaulted c s (faultStation c s) := by
  have told := Told.of_evu (u := raise .stationFault 0 (some (.stationCause c)) (setStc (s.stc.faulted c) s))
    (told_raise .stationFault 0 (some (.stationCause c)) s) rfl
  have untold (k : EventKind) (n : k ≠ .stationFault) :=
    Untold.of_evu (u := raise .stationFault 0 (some (.stationCause c)) (setStc (s.stc.faulted c) s))
      (untold_raise 0 (some (.stationCause c)) s n.symm) rfl
  rw [faultStation_eq]
  dsimp only
  split
  · exact ⟨rfl, rfl, told, fun k n _ => untold k n⟩
  · exact ⟨rfl, rfl, told.raise_other 0 none (by decide), fun k n m => (untold k n).raise_other 0 none m.symm⟩

section
variable {c : StationCause} {s : State}

theorem stationFault_unheld (unheld : s.stc.holder = none) :
    stationFault c s = (faultStation c s, [.extEntry]) := by
  unfold stationFault
  simp only [unheld]
  rfl

theorem stationFault_cycle (held : s.stc.holder = some .cls) (still : s.stc.pump.running = false) :
    stationFault c s = (clsFault none (faultStation c s)).plus [.extEntry] := by
  unfold stationFault
  simp only [held, still, Bool.false_eq_true, if_false]
  cases s.stc.selector <;> rfl

theorem stationFault_run {h : Fin 3} (held : s.stc.holder = some .cls) (running : s.stc.pump.running = true)
    (joined : s.stc.selector = some h) :
    stationFault c s = (clsFault (some (h, s.stc.pump.revs)) (faultStation c s)).plus [.extEntry] := by
  unfold stationFault
  simp only [held, running, joined, if_true]

theorem stationFault_task (held : s.stc.holder = some .dtu) :
    stationFault c s = (dtuFault (faultStation c s)).plus [.extEntry] := by
  unfold stationFault
  simp only [held]

end

/-! ### What is still done in FAULT (R72, R101, R112, R135) -/

/-- From `s` to `t` nothing has changed but what claims and exposure timers change in FAULT: the claims, the CLS's hold
and its stage where it claims, the exposure timers, and the events PAUSE_FOR_SERVICE and EXPOSED. -/
structure FaultSettles (s t : State) : Prop where
  stc : t.stc = { s.stc with claims := t.stc.claims }
  cls : t.cls = { s.cls with stage := t.cls.stage, hold := t.cls.hold }
  stage : t.cls.stage = s.cls.stage ∨ t.cls.stage = .waitZone
  frame : { t with stc := s.stc, cls := s.cls, ext := s.ext, evu := s.evu } = s
  untold : ∀ k, k ≠ .pauseForService → k ≠ .exposed → Untold k s t

namespace FaultSettles

theorem refl (s : State) : FaultSettles s s := ⟨rfl, rfl, .inl rfl, rfl, fun k _ _ => Untold.refl k s⟩

theorem trans {s t u : State} (h : FaultSettles s t) (h' : FaultSettles t u) : FaultSettles s u where
  stc := by rw [h'.stc, h.stc]
  cls := by rw [h'.cls, h.cls]
  stage := h'.stage.elim (fun same => by rw [same]; exact h.stage) .inr
  frame := (congrArg (fun x : State => { x with stc := s.stc, cls := s.cls, ext := s.ext, evu := s.evu })
    h'.frame).trans h.frame
  untold k n m := (h.untold k n m).trans (h'.untold k n m)

theorem state {s t : State} (h : FaultSettles s t) : t.stc.state = s.stc.state := by rw [h.stc]

theorem uau {s t : State} (h : FaultSettles s t) : t.uau = s.uau := by
  have uau := congrArg State.uau h.frame
  exact uau

theorem dtu {s t : State} (h : FaultSettles s t) : t.dtu = s.dtu := by
  have dtu := congrArg State.dtu h.frame
  exact dtu

theorem orq {s t : State} (h : FaultSettles s t) : t.orq = s.orq := by
  have orq := congrArg State.orq h.frame
  exact orq

theorem entryOf {s t : State} (h : FaultSettles s t) (k : Fin 3) : entryOf t k = entryOf s k := by
  rw [Machine.entryOf, h.cls]
  rfl

theorem foldl {α : Type} {f : State → α → State} (hf : ∀ s a, FaultSettles s (f s a)) (l : List α) :
    ∀ s, FaultSettles s (l.foldl f s) := by
  induction l with
  | nil => exact refl
  | cons a l ih => exact fun s => (hf s a).trans (ih (f s a))

end FaultSettles

/-- A consequence that brings no other and changes only what is still changed in FAULT. -/
def Quiet (a : Act) (s : State) : Prop := ∃ t, perform a s = (t, []) ∧ FaultSettles s t

theorem placeClaim_quiet {who : Claimant} {urgent : Bool} {s : State} (zone : ZoneTaken s) :
    ∃ t, placeClaim who urgent s = (t, []) ∧ FaultSettles s t := by
  unfold placeClaim
  split
  · exact ⟨s, rfl, .refl s⟩
  · obtain ⟨opened, capped⟩ := zone
    unfold claimActs
    dsimp only
    split
    · exact ⟨_, congrArg _ (if_neg fun free => free.elim opened capped), rfl, rfl, .inl rfl, rfl,
        fun k n _ => (untold_of_evu rfl).trans (untold_raise _ _ _ n.symm)⟩
    · exact ⟨_, congrArg _ (if_neg fun free => free.elim opened capped), rfl, rfl, .inl rfl, rfl,
        fun k _ _ => untold_of_evu rfl⟩

theorem clsClaim_quiet {s : State} (zone : ZoneTaken s) : Quiet .clsClaim s := by
  show ∃ t, clsClaim s = (t, []) ∧ _
  unfold clsClaim
  split
  · obtain ⟨t, placed, claimed⟩ := placeClaim_quiet (who := .cls) (urgent := anyUrgent s)
      (s := setCls { s.cls with stage := .waitZone } s) zone
    have waits : FaultSettles s (setCls { s.cls with stage := .waitZone } s) :=
      ⟨rfl, rfl, .inr rfl, rfl, fun k _ _ => untold_of_evu rfl⟩
    exact ⟨t, placed, waits.trans claimed⟩
  · exact ⟨s, rfl, .refl s⟩

theorem clsFolded_quiet {s : State} (zone : ZoneTaken s) : Quiet (.clsFolded false) s := by
  show ∃ t, clsFolded false s = (t, []) ∧ _
  unfold clsFolded
  split
  · exact ⟨s, rfl, .refl s⟩
  · exact clsClaim_quiet zone

theorem wasteChanged_quiet {s : State} (zone : ZoneTaken s) (resting : s.cls.stage ≠ .sucking) :
    Quiet .wasteChanged s := by
  show ∃ t, clsWasteChanged s = (t, []) ∧ _
  unfold clsWasteChanged
  rw [if_neg fun sucks => resting sucks.2]
  split
  · obtain ⟨t, placed, claimed⟩ := clsClaim_quiet (s := setCls { s.cls with hold := none } s) zone
    have freed : FaultSettles s (setCls { s.cls with hold := none } s) :=
      ⟨rfl, rfl, .inl rfl, rfl, fun k _ _ => untold_of_evu rfl⟩
    exact ⟨t, placed, freed.trans claimed⟩
  · exact ⟨s, rfl, .refl s⟩

theorem raiseExposed_settles (s : State) (h : Fin 3) : FaultSettles s (raiseExposed h s) := by
  unfold raiseExposed
  dsimp only
  split
  · exact .refl s
  · exact ⟨rfl, rfl, .inl rfl, rfl, fun k _ n => (untold_of_evu rfl).trans (untold_raise _ _ _ n.symm)⟩

theorem extEntry_quiet {s : State} (fault : s.stc.state = .fault) : Quiet .extEntry s := by
  refine ⟨_, ?_, FaultSettles.foldl raiseExposed_settles (allHeads.filter fun h => (exposure s h).due) s⟩
  show extEntry s = _
  unfold extEntry
  simp only [fault]
  rfl

/-- An agenda of quiet consequences is worked through. -/
theorem settle_quiet {s : State} {acts : List Act} (quiet : ∀ a ∈ acts, ∀ u, FaultSettles s u → Quiet a u)
    (few : acts.length ≤ Config.cascadeLimit) : ∃ t, settle (s, acts) = .next t ∧ FaultSettles s t := by
  have worked (l : List Act) : (∀ a ∈ l, ∀ u, FaultSettles s u → Quiet a u) → ∀ n, l.length ≤ n →
      ∀ u, FaultSettles s u → ∃ t, runActs n (u, l) = (t, []) ∧ FaultSettles s t := by
    induction l with
    | nil => exact fun _ n _ u here => ⟨u, runActs_nil n u, here⟩
    | cons a l ih =>
      intro quiet n long u here
      obtain ⟨v, own, still⟩ := quiet a (by simp) u here
      cases n with
      | zero => simp at long
      | succ n =>
        rw [runActs_cons, own]
        exact ih (fun b m => quiet b (by simp [m])) n (by simpa using long) v (here.trans still)
  obtain ⟨t, run, settles⟩ := worked acts quiet _ few s (.refl s)
  exact ⟨t, settle_of_runActs run, settles⟩

theorem zoneTaken_of_fault {s : State} (fault : s.stc.state = .fault) : ZoneTaken s := by
  simp [ZoneTaken, fault]

/-! ### A cycle that the fault ends (R113) -/

/-- The cycle closed with cause STATION_FAULT, nothing handed back (R113). -/
def cycleFaulted (s : State) : State :=
  let x := closeAborted .stationFault (withdraw .cls (dtuEndCheck s))
  setCls
    { x.cls with
      stage := .none, heads := [], suckLeft := [], spitLeft := [], outstanding := [], escalated := 0, abort := none } x

section
variable {s : State} (runs : s.cls.stage.running = true)
include runs

theorem clsFault_still : clsFault none s = (cycleFaulted s, [.clsClaim]) := if_pos runs

theorem clsFault_run (h : Fin 3) (n : Nat) :
    clsFault (some (h, n)) s =
      (cycleFaulted (suctionDebit h n (recordRun h n s)).1, (suctionDebit h n (recordRun h n s)).2 ++ [.clsClaim]) :=
  if_pos runs

end

/-- What the close of the cycle changes. -/
structure CycleFaulted (s t : State) : Prop where
  stc : t.stc = s.stc
  uau : t.uau = s.uau
  cls : t.cls = { s.cls.aborted .stationFault s.cls.heads with table := t.cls.table, hold := t.cls.hold }
  folded : FoldedBack s.cls.heads s.cls.cancelled s t
  told : Told .cleanAborted (several (s.cls.heads.map fun x => x.head.val)) (some (.cleanCause .stationFault)) s t
  untold : ∀ k, k ≠ .cleanAborted → Untold k s t

/-- The check of the cycle ended and its placement withdrawn, before the abort is told (R108, R111). -/
theorem unchecked_records (s : State) :
    (withdraw .cls (dtuEndCheck s)).stc = s.stc ∧ (withdraw .cls (dtuEndCheck s)).uau = s.uau ∧
      (withdraw .cls (dtuEndCheck s)).cls = s.cls ∧ (withdraw .cls (dtuEndCheck s)).evu = s.evu := by
  unfold dtuEndCheck
  split <;> exact ⟨rfl, rfl, rfl, rfl⟩

theorem cycleFaulted_spec (s : State) : CycleFaulted s (cycleFaulted s) := by
  obtain ⟨stc, uau, cls, evu⟩ := unchecked_records s
  unfold cycleFaulted closeAborted
  generalize withdraw .cls (dtuEndCheck s) = w at stc uau cls evu
  dsimp only
  have subjects : headSubjects (w.cls.heads.map CycleHead.head) = several (s.cls.heads.map fun x => x.head.val) := by
    rw [headSubjects, List.map_map, cls]
    rfl
  rw [subjects]
  generalize raised : raise .cleanAborted (several (s.cls.heads.map fun x => x.head.val))
    (some (.cleanCause .stationFault)) w = a
  have told : Told .cleanAborted (several (s.cls.heads.map fun x => x.head.val))
      (some (.cleanCause .stationFault)) s a := by
    subst raised
    exact (untold_of_evu evu).raise_self _ _
  have untold (k : EventKind) (n : k ≠ .cleanAborted) : Untold k s a := by
    subst raised
    exact (untold_of_evu evu).raise_other _ _ n.symm
  have acls : a.cls = s.cls := by subst raised; exact cls
  have fold : FoldOnly a (foldBack a) := foldHeads_foldOnly _ a
  have folded := foldBack_foldedBack a
  generalize foldBack a = b at fold folded
  have bevu : b.evu = a.evu := by have kept := congrArg State.evu fold.frame; exact kept
  have cancelled : b.cls.cancelled = s.cls.cancelled := by
    have kept := congrArg Cls.cancelled fold.cls
    exact kept.trans (by rw [acls])
  exact {
    stc := by
      have kept := congrArg State.stc fold.frame
      exact kept.trans (by subst raised; exact stc)
    uau := by
      have kept := congrArg State.uau fold.frame
      exact kept.trans (by subst raised; exact uau)
    cls := by
      rw [setCls_cls, setCls_cls]
      simp only [Cls.aborted, cancelled, cls]
    folded := by
      rw [acls] at folded
      intro h
      exact (folded h).trans (by rw [entryOf, acls]; rfl)
    told := told.of_evu bevu
    untold := fun k n => (untold k n).of_evu bevu }

/-! ### An own task that the fault ends (R122, R127) -/

/-- One row of a sweep folded into its head's entry (R99, R122). -/
def foldRow (s : State) (r : Fin 6 × SweepResult) : State :=
  match sweepLevel r.2 with
  | some l => foldRequest (headOf r.1) l false (OriginSet.of .sweep) s
  | none => s

/-- A row's request as its head's entry takes it (R99). -/
def CleanEntry.sweep (e : CleanEntry) (r : SweepResult) : CleanEntry :=
  match r with
  | .narrow => e.fold .light false (OriginSet.of .sweep)
  | .noSignal => e.fold .normal false (OriginSet.of .sweep)
  | .none | .ok | .clipped => e

theorem entryOf_foldRow (s : State) (r : Fin 6 × SweepResult) (h : Fin 3) :
    entryOf (foldRow s r) h = if headOf r.1 = h then (entryOf s h).sweep r.2 else entryOf s h := by
  obtain ⟨c, result⟩ := r
  by_cases here : headOf c = h
  · subst here
    rw [if_pos rfl]
    cases result with
    | narrow | noSignal => exact (entryOf_foldRequest _ _ _ _ s _).trans (if_pos rfl)
    | none | ok | clipped => rfl
  · rw [if_neg here]
    cases result with
    | narrow | noSignal => exact (entryOf_foldRequest _ _ _ _ s _).trans (if_neg (Ne.symm here))
    | none | ok | clipped => rfl

theorem foldRow_foldOnly (s : State) (r : Fin 6 × SweepResult) : FoldOnly s (foldRow s r) := by
  unfold foldRow
  split <;> exact ⟨rfl, rfl⟩

theorem foldSweep_foldOnly (results : List (Fin 6 × SweepResult)) : ∀ s, FoldOnly s (foldSweep results s) := by
  induction results with
  | nil => exact fun s => ⟨rfl, rfl⟩
  | cons r results ih =>
    intro s
    obtain ⟨frame, cls⟩ := ih (foldRow s r)
    obtain ⟨first, firstCls⟩ := foldRow_foldOnly s r
    exact ⟨(congrArg (fun y : State => { y with cls := s.cls }) frame).trans first,
      (congrArg (fun y : Cls => { y with table := s.cls.table, hold := s.cls.hold }) cls).trans firstCls⟩

theorem foldSweep_sweepFolded (results : List (Fin 6 × SweepResult)) : ∀ s,
    SweepFolded results s (foldSweep results s) := by
  induction results with
  | nil => exact fun s h => rfl
  | cons r results ih =>
    intro s h
    refine (ih (foldRow s r) h).trans ?_
    rw [entryOf_foldRow, List.filter_cons]
    by_cases here : headOf r.1 = h
    · rw [if_pos here, if_pos (by simp [here])]
      rfl
    · rw [if_neg here, if_neg (by simp [here])]

/-- The own task removed, its rows folded and CHECK_DONE raised (R122, R127). -/
def taskClosed (k : Task) (cause : Option CheckCause) (s : State) : State :=
  let t := raise .checkDone (several (k.channels.map Fin.val)) (some (.check k.kind cause)) (foldSweep k.results s)
  setDtu { t.dtu with task := none, machine := .idle, holder := none } t

theorem closeTask_eq (k : Task) (cause : Option CheckCause) (s : State) :
    closeTask k cause s =
      (taskClosed k cause s, if k.results.any fun r => (sweepLevel r.2).isSome then [.clsFolded false] else []) := rfl

/-- What the close of a task with its outstanding order abandoned changes (R122, R127). -/
structure TaskFaulted (k : Task) (s t : State) : Prop where
  stc : t.stc = s.stc
  orq : t.orq = { s.orq with waiting := s.orq.waiting.filter fun w => w.who != .dtu }
  dtu : t.dtu =
    { s.dtu with
      task := none, machine := .idle, holder := none, outstanding := none
      abandoned := s.dtu.abandoned ++ s.dtu.outstanding.toList }
  folded : SweepFolded k.results s t
  told : Told .checkDone (several (k.channels.map Fin.val)) (some (.check k.kind (some .stationFault))) s t
  untold : ∀ e, e ≠ .checkDone → Untold e s t

theorem dtu_dtuAbandon (s : State) :
    (dtuAbandon s).dtu =
      { s.dtu with outstanding := none, abandoned := s.dtu.abandoned ++ s.dtu.outstanding.toList } := by
  unfold dtuAbandon
  cases s.dtu.outstanding with
  | none => exact congrArg (fun l => { s.dtu with outstanding := none, abandoned := l }) (List.append_nil _).symm
  | some id => rfl

theorem taskClosed_spec (k : Task) (s : State) :
    TaskFaulted k s (taskClosed k (some .stationFault) (dtuAbandon s)) := by
  have fold := foldSweep_foldOnly k.results (dtuAbandon s)
  have folded := foldSweep_sweepFolded k.results (dtuAbandon s)
  unfold taskClosed
  generalize foldSweep k.results (dtuAbandon s) = b at fold folded
  have evu : b.evu = s.evu := by have kept := congrArg State.evu fold.frame; exact kept
  exact {
    stc := by have kept := congrArg State.stc fold.frame; exact kept
    orq := by have kept := congrArg State.orq fold.frame; exact kept
    dtu := by
      have kept : b.dtu = (dtuAbandon s).dtu := by have kept := congrArg State.dtu fold.frame; exact kept
      dsimp only
      rw [setDtu_dtu, raise_dtu, kept, dtu_dtuAbandon]
    folded := folded
    told := (untold_of_evu evu).raise_self _ _
    untold := fun e n => (untold_of_evu evu).raise_other _ _ n.symm }

end Sys2Proof.Machine
end

