-- ==== Sys2Proof/Proofs/StationFaults.lean ====
section
/-!
SUPPORT. A sled or wiper motion and a pump that are late, at rest and in a session (R32, R58, R59, R61, R113, R127).
Settles O33.
-/

namespace Sys2Proof.Machine

/-! ### Motions and the pump late (R58, R59) -/

theorem motionLate_of_motion {ε : Type} {m : Moved ε} {e : ε} {n : Nat} (moves : m.motion = some (e, n)) :
    motionLate m = decide (1500 ≤ n) := by
  unfold motionLate
  simp only [moves]
  rfl

section
variable {n : Nat} {s : State} (awake : Awake s)
include awake

theorem exec_sledMotionTimeout {e : SledEnd} (moves : s.stc.sled.motion = some (e, n)) :
    exec .sledMotionTimeout s = if 1500 ≤ n then settle (stationFault .sled s) else .next s := by
  show settle (event _ s) = _
  rw [event_awake awake, motionLate_of_motion moves]
  simp only [decide_eq_true_eq]
  split <;> rfl

theorem exec_wiperMotionTimeout {e : WiperEnd} (moves : s.stc.wiper.motion = some (e, n)) :
    exec .wiperMotionTimeout s = if 1500 ≤ n then settle (stationFault .wiper s) else .next s := by
  show settle (event _ s) = _
  rw [event_awake awake, motionLate_of_motion moves]
  simp only [decide_eq_true_eq]
  split <;> rfl

theorem exec_pumpStall (running : s.stc.pump.running = true) (stall : s.stc.stall = some n) :
    exec .pumpStall s = if 1500 ≤ n then settle (stationFault .pump s) else .next s := by
  show settle (event _ s) = _
  rw [event_awake awake]
  simp only [running, stall, reached_some, Config.motionLimit, Bool.true_and, decide_eq_true_eq]
  split <;> rfl

end

/-! ### A fault with no session (R61) -/

theorem settle_stationFault_unheld {c : StationCause} {s : State} (unheld : s.stc.holder = none) (due : NoneDue s) :
    settle (stationFault c s) = .next (faultStation c s) := by
  have ext : (faultStation c s).ext = s.ext := by
    have kept := congrArg State.ext (faultStation_spec c s).frame
    exact kept
  rw [stationFault_unheld unheld]
  exact settle_one (extEntry_noneDue (due.of_ext ext))

/-! ### A fault in a session (R113, R127) -/

/-- The station in FAULT and no suction under way: what still follows a fault is quiet. -/
structure FaultedAt (s : State) : Prop where
  fault : s.stc.state = .fault
  resting : s.cls.stage ≠ .sucking ∧ s.cls.stage ≠ .waitInk

theorem FaultedAt.settles {s t : State} (h : FaultedAt s) (later : FaultSettles s t) : FaultedAt t where
  fault := later.state.trans h.fault
  resting := later.stage.elim (fun same => by rw [same]; exact h.resting) fun waits => by simp [waits]

/-- The acts that follow the fault of a session of the CLS, behind those of the run it stopped. -/
theorem settle_cycleFaulted {s : State} (ended : FaultedAt s) (u v : State) {waste : List Act}
    (tested : waste = [] ∨ waste = [.wasteChanged]) :
    ∃ t, settle (s, supplyActs u v ++ waste ++ [.clsClaim] ++ [.extEntry]) = .next t ∧ FaultSettles s t := by
  have bound := length_supplyActs_le u v
  have few : waste.length ≤ 1 := by rcases tested with rfl | rfl <;> simp
  refine settle_quiet (fun a here w later => ?_) ?_
  · have now := ended.settles later
    have zone := zoneTaken_of_fault now.fault
    rcases List.mem_append.mp here with before | last
    · rcases List.mem_append.mp before with run | claim
      · rcases List.mem_append.mp run with supply | test
        · exact ⟨w, supplyActs_inert u v now.resting.2 a supply, .refl w⟩
        · rcases tested with rfl | rfl
          · exact absurd test List.not_mem_nil
          · rw [List.mem_singleton.mp test]
            exact wasteChanged_quiet zone now.resting.1
      · rw [List.mem_singleton.mp claim]
        exact clsClaim_quiet zone
    · rw [List.mem_singleton.mp last]
      exact extEntry_quiet now.fault
  · simp only [List.length_append, List.length_singleton, Config.cascadeLimit]
    omega

/-- What a fault leaves of a session of the CLS (R113). -/
structure CycleFaultEnds (c : StationCause) (s t : State) : Prop where
  stc : t.stc = { s.stc.faulted c with claims := t.stc.claims }
  fault : Told .stationFault 0 (some (.stationCause c)) s t
  aborted : Told .cleanAborted (several (s.cls.heads.map fun x => x.head.val)) (some (.cleanCause .stationFault)) s t
  folded : FoldedBack s.cls.heads s.cls.cancelled s t
  heads : t.cls.heads = []
  outstanding : t.cls.outstanding = []
  abort : t.cls.abort = none
  escalated : t.cls.escalated = 0
  last : t.cls.last = ⟨s.cls.heads.map fun x => ⟨x.head, x.level, x.done, none⟩, some .stationFault⟩

theorem CycleFaultEnds.all {c : StationCause} {s t : State} (h : CycleFaultEnds c s t) :
    t.stc = { s.stc.faulted c with claims := t.stc.claims } ∧ Told .stationFault 0 (some (.stationCause c)) s t ∧
      Told .cleanAborted (several (s.cls.heads.map fun x => x.head.val)) (some (.cleanCause .stationFault)) s t ∧
      FoldedBack s.cls.heads s.cls.cancelled s t ∧ t.cls.heads = [] ∧ t.cls.outstanding = [] ∧
      t.cls.abort = none ∧ t.cls.escalated = 0 ∧
      t.cls.last = ⟨s.cls.heads.map fun x => ⟨x.head, x.level, x.done, none⟩, some .stationFault⟩ :=
  ⟨h.stc, h.fault, h.aborted, h.folded, h.heads, h.outstanding, h.abort, h.escalated, h.last⟩

theorem faultedAt_cycleFaulted {s : State} (fault : s.stc.state = .fault) : FaultedAt (cycleFaulted s) where
  fault := by rw [(cycleFaulted_spec s).stc]; exact fault
  resting := ⟨nofun, nofun⟩

/-- The close of the cycle, what a claim and the exposure timers still do left aside. -/
theorem CycleFaulted.settles {s f t : State} (closed : CycleFaulted s f) (later : FaultSettles f t) :
    t.stc = { s.stc with claims := t.stc.claims } ∧ t.uau = s.uau ∧
      t.cls = { s.cls.aborted .stationFault s.cls.heads with
        table := t.cls.table, hold := t.cls.hold, stage := t.cls.stage } := by
  refine ⟨by rw [later.stc, closed.stc], later.uau.trans closed.uau, ?_⟩
  rw [later.cls, closed.cls]

theorem settle_stationFault_cycle {c : StationCause} {s : State} (held : s.stc.holder = some .cls)
    (runs : s.cls.stage.running = true) (still : s.stc.pump.running = false) :
    ∃ t, settle (stationFault c s) = .next t ∧ CycleFaultEnds c s t := by
  have faulted := faultStation_spec c s
  have fault := faultStation_state c s
  rw [stationFault_cycle held still]
  generalize faultStation c s = f at faulted fault
  have cls : f.cls = s.cls := by have kept := congrArg State.cls faulted.frame; exact kept
  have closed := cycleFaulted_spec f
  obtain ⟨t, settled, later⟩ := settle_cycleFaulted (faultedAt_cycleFaulted fault) f f (.inl rfl)
  rw [supplyActs_same fun _ => rfl] at settled
  obtain ⟨stc, -, record⟩ := closed.settles later
  rw [cls] at record
  refine ⟨t, ?_, ?_⟩
  · rw [clsFault_still (by rw [cls]; exact runs)]
    exact settled
  · have aborted := closed.told
    have folded := closed.folded
    rw [cls] at aborted folded
    exact {
      stc := by rw [stc, faulted.stc]
      fault := (faulted.told.trans_untold (closed.untold _ (by decide))).trans_untold
        (later.untold _ (by decide) (by decide))
      aborted := ((faulted.untold _ (by decide) (by decide)).trans_told aborted).trans_untold
        (later.untold _ (by decide) (by decide))
      folded := fun h => (later.entryOf h).trans ((folded h).trans (by rw [entryOf, cls]; rfl))
      heads := by rw [record]; rfl
      outstanding := by rw [record]; rfl
      abort := by rw [record]; rfl
      escalated := by rw [record]; rfl
      last := by rw [record]; rfl }

/-- What a fault leaves of a session of the DTU with its own task `k` (R127). -/
structure TaskFaultEnds (c : StationCause) (k : Task) (s t : State) : Prop where
  stc : t.stc = { s.stc.faulted c with claims := t.stc.claims }
  done : Told .checkDone (several (k.channels.map Fin.val)) (some (.check k.kind (some .stationFault))) s t
  folded : SweepFolded k.results s t
  dtu : t.dtu =
    { s.dtu with
      task := none, machine := .idle, holder := none, outstanding := none
      abandoned := s.dtu.abandoned ++ s.dtu.outstanding.toList }
  orq : t.orq = { s.orq with waiting := s.orq.waiting.filter fun w => w.who != .dtu }

theorem TaskFaultEnds.all {c : StationCause} {k : Task} {s t : State} (h : TaskFaultEnds c k s t) :
    t.stc = { s.stc.faulted c with claims := t.stc.claims } ∧
      Told .checkDone (several (k.channels.map Fin.val)) (some (.check k.kind (some .stationFault))) s t ∧
      SweepFolded k.results s t ∧
      t.dtu =
        { s.dtu with
          task := none, machine := .idle, holder := none, outstanding := none
          abandoned := s.dtu.abandoned ++ s.dtu.outstanding.toList } ∧
      t.orq = { s.orq with waiting := s.orq.waiting.filter fun w => w.who != .dtu } :=
  ⟨h.stc, h.done, h.folded, h.dtu, h.orq⟩

/-- The acts that follow the fault of a session of the DTU. -/
theorem settle_taskFaulted {s : State} (fault : s.stc.state = .fault) {claims : List Act}
    (folded : claims = [] ∨ claims = [.clsFolded false]) :
    ∃ t, settle (s, claims ++ [.extEntry]) = .next t ∧ FaultSettles s t := by
  refine settle_quiet (fun a here u later => ?_) ?_
  · have now : u.stc.state = .fault := later.state.trans fault
    rcases List.mem_append.mp here with claim | last
    · rcases folded with rfl | rfl
      · exact absurd claim List.not_mem_nil
      · rw [List.mem_singleton.mp claim]
        exact clsFolded_quiet (zoneTaken_of_fault now)
    · rw [List.mem_singleton.mp last]
      exact extEntry_quiet now
  · rcases folded with rfl | rfl <;> decide

theorem settle_stationFault_task {c : StationCause} {k : Task} {s : State} (held : s.stc.holder = some .dtu)
    (task : s.dtu.task = some k) (runs : k.phase = .running) :
    ∃ t, settle (stationFault c s) = .next t ∧ TaskFaultEnds c k s t := by
  have faulted := faultStation_spec c s
  have fault := faultStation_state c s
  rw [stationFault_task held]
  generalize faultStation c s = f at faulted fault
  have dtu : f.dtu = s.dtu := by have kept := congrArg State.dtu faulted.frame; exact kept
  have orq : f.orq = s.orq := by have kept := congrArg State.orq faulted.frame; exact kept
  have cls : f.cls = s.cls := by have kept := congrArg State.cls faulted.frame; exact kept
  have closed := taskClosed_spec k f
  have ended : dtuFault f = closeTask k (some .stationFault) (dtuAbandon f) := by
    unfold dtuFault
    rw [dtu, task]
    exact if_pos runs
  rw [ended, closeTask_eq]
  generalize taskClosed k (some .stationFault) (dtuAbandon f) = u at closed
  obtain ⟨t, settled, later⟩ := settle_taskFaulted (s := u) (by rw [closed.stc]; exact fault)
    (claims := if k.results.any fun r => (sweepLevel r.2).isSome then [.clsFolded false] else [])
    (by split <;> simp)
  exact ⟨t, settled, {
    stc := by rw [later.stc, closed.stc, faulted.stc]
    done := ((faulted.untold _ (by decide) (by decide)).trans_told closed.told).trans_untold
      (later.untold _ (by decide) (by decide))
    folded := fun h => (later.entryOf h).trans ((closed.folded h).trans (by rw [entryOf, cls]; rfl))
    dtu := by rw [later.dtu, closed.dtu, dtu]
    orq := by rw [later.orq, closed.orq, orq] }⟩

/-! ### A pump that stalls (R32, R59, R113) -/

/-- A run's debit with the acts it leaves to be done. -/
theorem suctionDebit_acts (h : Fin 3) (revs : Nat) (s : State) :
    ∃ u v waste, (suctionDebit h revs s).2 = supplyActs u v ++ waste ∧
      (waste = [] ∨ waste = [.wasteChanged]) := by
  unfold suctionDebit
  split
  · exact ⟨s, s, [], by rw [supplyActs_same fun _ => rfl]; rfl, .inl rfl⟩
  · exact ⟨_, _, _, rfl, (testWaste_acts _).imp_right And.left⟩

theorem books_suctionDebit (h : Fin 3) (revs : Nat) (s : State) :
    (suctionDebit h revs s).1.uau.books = (suctionPair h revs s).uau.books := by
  unfold suctionDebit
  split
  · next none => rw [none, suctionPair_zero]; rfl
  · exact testWaste_books _

/-- The book of a channel once the stalled run of head `h` has been debited (R32). -/
def stalledBook (h : Fin 3) (revs : Nat) (s : State) (c : Fin 6) : Book :=
  if headOf c = h then
    let amount := revs * s.params.suctionYield.get c
    if amount = 0 then book s c
    else
      { book s c with
        total := (book s c).total + amount, suction := (book s c).suction + amount, waste := (book s c).waste + amount
        overdraw := min ((book s c).overdraw + (amount - (chan s c).estimate)) 4294967295 }
  else book s c

theorem SuctionBooked.stalledBook {h : Fin 3} {revs : Nat} {s t : State} (booked : SuctionBooked h revs s t)
    (c : Fin 6) : book t c = stalledBook h revs s c := by
  have entered := (booked c).2
  unfold Machine.stalledBook
  rw [entered]
  by_cases here : headOf c = h
  · simp only [if_pos here]
    split
    · next nothing => rw [nothing]; rfl
    · rfl
  · simp only [if_neg here, if_true]
    rfl

theorem settle_stationFault_stall {s : State} {h : Fin 3} (lawful : PumpLawful s) (running : s.stc.pump.running = true)
    (joined : s.stc.selector = some h) :
    ∃ t, settle (stationFault .pump s) = .next t ∧ t.stc = { s.stc.faulted .pump with claims := t.stc.claims } ∧
      t.cls.heads = [] ∧ t.cls.abort = none ∧ t.cls.last.cause = some .stationFault ∧
      ∀ c, book t c = stalledBook h s.stc.pump.revs s c := by
  obtain ⟨-, -, -, held, -, sucking⟩ := lawful running
  have faulted := faultStation_spec .pump s
  have fault := faultStation_state .pump s
  rw [stationFault_run held running joined]
  generalize s.stc.pump.revs = revs
  generalize faultStation .pump s = f at faulted fault
  have cls : f.cls = s.cls := by have kept := congrArg State.cls faulted.frame; exact kept
  rw [clsFault_run (by rw [cls, sucking]; rfl)]
  obtain ⟨u, v, waste, acts, tested⟩ := suctionDebit_acts h revs (recordRun h revs f)
  have kept := suctionDebit_keptU h revs (recordRun h revs f)
  have records : (s.uau.books, s.spu.channels, s.params) =
      ((recordRun h revs f).uau.books, (recordRun h revs f).spu.channels, (recordRun h revs f).params) := by
    have kept := congrArg (fun x : State => (x.uau.books, x.spu.channels, x.params)) faulted.frame
    exact kept.symm
  have booked := (suctionPair_booked h revs (recordRun h revs f)).of_records records rfl
  have books := books_suctionDebit h revs (recordRun h revs f)
  rw [acts]
  generalize (suctionDebit h revs (recordRun h revs f)).1 = d at kept books
  have stc : d.stc = f.stc := (stc_of_usage kept).trans rfl
  have ended := faultedAt_cycleFaulted (s := d) (by rw [stc]; exact fault)
  obtain ⟨t, settled, later⟩ := settle_cycleFaulted ended u v tested
  obtain ⟨station, uau, record⟩ := (cycleFaulted_spec d).settles later
  refine ⟨t, settled, by rw [station, stc, faulted.stc], by rw [record]; rfl, by rw [record]; rfl,
    by rw [record]; rfl, fun c => ?_⟩
  rw [← booked.stalledBook c, book, uau, books]
  rfl

/-- Settles O33, by the part that is late and the holder of the session. -/
theorem stationFaults : Obligations.StationFaults := by
  intro s awake
  refine ⟨fun e n moves => ?sled, fun e n moves => ?wiper, fun n running stall => ?pump⟩
  case sled =>
    have expires := exec_sledMotionTimeout awake moves
    refine ⟨fun early => expires.trans (if_neg early.not_ge), fun late unheld due => ?_, fun late =>
      ⟨fun held runs still => ?_, fun k held task runs => ?_⟩⟩
    · rw [expires, if_pos late, settle_stationFault_unheld unheld due, faultStation_eq]
      rfl
    · obtain ⟨t, settled, ends⟩ := settle_stationFault_cycle (c := .sled) held runs still
      exact ⟨t, (expires.trans (if_pos late)).trans settled, ends.all⟩
    · obtain ⟨t, settled, ends⟩ := settle_stationFault_task (c := .sled) held task runs
      exact ⟨t, (expires.trans (if_pos late)).trans settled, ends.all⟩
  case wiper =>
    have expires := exec_wiperMotionTimeout awake moves
    refine ⟨fun early => expires.trans (if_neg early.not_ge), fun late unheld due => ?_, fun late =>
      ⟨fun held runs still => ?_, fun k held task runs => ?_⟩⟩
    · rw [expires, if_pos late, settle_stationFault_unheld unheld due, faultStation_eq]
      rfl
    · obtain ⟨t, settled, ends⟩ := settle_stationFault_cycle (c := .wiper) held runs still
      exact ⟨t, (expires.trans (if_pos late)).trans settled, ends.all⟩
    · obtain ⟨t, settled, ends⟩ := settle_stationFault_task (c := .wiper) held task runs
      exact ⟨t, (expires.trans (if_pos late)).trans settled, ends.all⟩
  case pump =>
    rw [exec_pumpStall awake running stall]
    refine ⟨fun early => if_neg early.not_ge, fun h late lawful joined => ?_⟩
    rw [if_pos late]
    exact settle_stationFault_stall lawful running joined

end Sys2Proof.Machine
end

