-- ==== Sys2Proof/Proofs/OrderQueue.lean ====
section
/-!
SUPPORT. The law of the order queue as one of its list of orders, the ids that are free, and the operations that write
the list: an order enters, is taken, ends, is returned or removed, and each passes the law on (R78 to R90).
-/

namespace Sys2Proof.Machine

/-- The orders in the queue, oldest first: all that the law of the queue speaks of. -/
def orders (s : State) : List Order := s.orq.queue

/-- The law of the order queue (R78), of the list alone. -/
def QueueLawful (q : List Order) : Prop :=
  q.length ≤ Config.orderDepth ∧ (q.map Order.id).Nodup ∧ (∀ o ∈ q.tail, o.state = .queued) ∧
    ∀ h, (q.filter fun o => o.spitsFor h).length ≤ 1

theorem ordersLawful_iff (s : State) : OrdersLawful s ↔ QueueLawful (orders s) := Iff.rfl

/-! ### Lists of orders -/

/-- A queue from which orders have gone (R85 to R89). -/
theorem QueueLawful.sublist {q r : List Order} (lawful : QueueLawful q) (h : r.Sublist q) : QueueLawful r := by
  obtain ⟨few, distinct, young, spits⟩ := lawful
  exact ⟨h.length_le.trans few, distinct.sublist (h.map _), fun o here => young o (h.tail.subset here),
    fun k => (h.filter _).length_le.trans (spits k)⟩

/-- An order but for its state. -/
def Order.untimed (o : Order) : Order := { o with state := .queued }

/-- A queue whose orders change only their states, the young ones staying QUEUED (R83, R84, R90). -/
theorem QueueLawful.retimed {q r : List Order} (lawful : QueueLawful q)
    (same : r.map Order.untimed = q.map Order.untimed) (young : ∀ o ∈ r.tail, o.state = .queued) : QueueLawful r := by
  obtain ⟨few, distinct, -, spits⟩ := lawful
  have ids (l : List Order) : (l.map Order.untimed).map Order.id = l.map Order.id := by
    rw [List.map_map]
    rfl
  have spitters (l : List Order) (h : Fin 3) :
      ((l.map Order.untimed).filter fun o => o.spitsFor h).length = (l.filter fun o => o.spitsFor h).length := by
    rw [List.filter_map, List.length_map]
    rfl
  refine ⟨?_, ?_, young, fun h => ?_⟩
  · have lengths := congrArg List.length same
    rw [List.length_map, List.length_map] at lengths
    exact lengths.trans_le few
  · rwa [← ids r, same, ids q]
  · rw [← spitters r, same, spitters q]
    exact spits h

/-- The state of the oldest order changes (R83, R90). -/
theorem QueueLawful.oldest {o : Order} {os : List Order} (lawful : QueueLawful (o :: os)) (x : OrderState) :
    QueueLawful ({ o with state := x } :: os) :=
  lawful.retimed rfl lawful.2.2.1

/-- A QUEUED order with a free id joins at the young end; an EXPOSURE spit only where its head has none (R79, R80,
R82). -/
theorem QueueLawful.append {q : List Order} {o : Order} (lawful : QueueLawful q) (room : q.length < Config.orderDepth)
    (free : o.id ∉ q.map Order.id) (queued : o.state = .queued)
    (spits : ∀ h, o.spitsFor h = true → ∀ x ∈ q, x.spitsFor h = false) : QueueLawful (q ++ [o]) := by
  obtain ⟨-, distinct, young, single⟩ := lawful
  refine ⟨?few, ?distinct, ?young, fun h => ?single⟩
  case few => rw [List.length_append]; exact room
  case distinct =>
    rw [List.map_append]
    exact distinct.append (List.nodup_singleton _) (List.disjoint_singleton.mpr free)
  case young =>
    intro x here
    have place : x ∈ q.tail ++ [o] := by
      cases q with
      | nil => exact nomatch here
      | cons _ _ => exact here
    rcases List.mem_append.mp place with old | new
    · exact young x old
    · rwa [List.mem_singleton.mp new]
  case single =>
    rw [List.filter_append, List.length_append]
    cases spitting : o.spitsFor h with
    | false => simpa [spitting] using single h
    | true =>
      have none : q.filter (fun x => x.spitsFor h) = [] :=
        List.filter_eq_nil_iff.mpr fun x here => by simp [spits h spitting x here]
      simp [none, spitting]

/-! ### Free ids (R79) -/

/-- The `i`-th id that the search from `n` looks at. -/
def idAfter (n i : Nat) : Nat := if i = 0 then n else (n + i) % 256

theorem idAfter_succ (n i : Nat) : idAfter ((n + 1) % 256) i = idAfter n (i + 1) := by
  unfold idAfter
  split
  · next zero => simp [zero]
  · simp only [Nat.add_eq_zero_iff, one_ne_zero, and_false, if_false]
    omega

theorem idAfter_inj {n i j : Nat} (hi : i < 256) (hj : j < 256) (h : idAfter n i = idAfter n j) : i = j := by
  unfold idAfter at h
  split at h <;> split at h <;> omega

/-- A search that ends at a held id has looked at held ids only. -/
theorem freeId_held {used : List Nat} (k : Nat) : ∀ n, freeId used k n ∈ used → ∀ i ≤ k, idAfter n i ∈ used := by
  induction k with
  | zero =>
    intro n held i le
    rw [Nat.le_zero.mp le]
    exact held
  | succ k ih =>
    intro n held i le
    unfold freeId at held
    by_cases here : n ∈ used
    · rw [if_pos (List.contains_iff_mem.mpr here)] at held
      cases i with
      | zero => exact here
      | succ i =>
        rw [← idAfter_succ]
        exact ih _ held i (Nat.le_of_succ_le_succ le)
    · rw [if_neg (mt List.contains_iff_mem.mp here)] at held
      exact absurd held here

/-- A search as long as the ids held are many ends at a free one, the ids it looks at being distinct. -/
theorem freeId_free {used : List Nat} {k : Nat} (many : used.length ≤ k) (short : k < 256) (n : Nat) :
    freeId used k n ∉ used := by
  intro held
  have seen := freeId_held k n held
  have distinct : ((List.range (k + 1)).map (idAfter n)).Nodup :=
    List.Nodup.map_on (fun i hi j hj => idAfter_inj (by grind) (by grind)) List.nodup_range
  have within : (List.range (k + 1)).map (idAfter n) ⊆ used := by
    intro x here
    obtain ⟨i, hi, rfl⟩ := List.mem_map.mp here
    exact seen i (Nat.le_of_lt_succ (List.mem_range.mp hi))
  have bound := (distinct.subperm within).length_le
  rw [List.length_map, List.length_range] at bound
  omega

/-- With room in the queue the next id is free (R79). -/
theorem nextOrderId_free {s : State} (room : (orders s).length < Config.orderDepth) :
    nextOrderId s ∉ (orders s).map Order.id :=
  freeId_free (by rw [List.length_map]; exact room.le) (by decide) _

/-! ### The relation -/

/-- `t` follows `s` by what keeps the order queue lawful. -/
def OrdersPass (s t : State) : Prop := OrdersLawful s → OrdersLawful t

theorem OrdersPass.of_orders {s t : State} (h : orders t = orders s) : OrdersPass s t := fun lawful => by
  rw [ordersLawful_iff, h]
  exact lawful

theorem OrdersPass.of_sublist {s t : State} (h : (orders t).Sublist (orders s)) : OrdersPass s t :=
  fun lawful => QueueLawful.sublist lawful h

theorem OrdersPass.refl (s : State) : OrdersPass s s := id

theorem OrdersPass.trans {s t u : State} (h : OrdersPass s t) (h' : OrdersPass t u) : OrdersPass s u := h' ∘ h

theorem OrdersPass.then_orders {s t u : State} (h : OrdersPass s t) (h' : orders u = orders t) : OrdersPass s u :=
  h.trans (.of_orders h')

theorem orders_of_usage {s t : State} (h : keptByUsage t = keptByUsage s) : orders t = orders s := by
  simp only [keptByUsage, Prod.mk.injEq] at h
  simp only [orders, h]

theorem orders_of_supply {s t : State} (h : keptBySupply t = keptBySupply s) : orders t = orders s :=
  orders_of_usage (kept_usage_of_supply h)

theorem orders_of_taking {s t : State} (h : keptByTaking t = keptByTaking s) : orders t = orders s := by
  simp only [keptByTaking, Prod.mk.injEq] at h
  simp only [orders, h]

theorem ordersPass_carries : Carries OrdersPass where
  refl := .refl
  trans := .trans
  taking h := .of_orders (orders_of_taking h)

/-! ### Orders that enter (R79 to R82) -/

/-- The record of the queue once an order has entered (R79). -/
theorem orq_enterOrder (b : OrderBody) (o : Origin) (s : State) :
    (enterOrder b o s).orq =
      { s.orq with
        queue := s.orq.queue ++ [⟨nextOrderId s, b, o, .queued⟩], nextId := (nextOrderId s + 1) % 256 } := by
  unfold enterOrder
  dsimp only
  split <;> rfl

theorem enterOrder_ordersPass {b : OrderBody} {o : Origin} {s : State} (room : hasRoom s = true)
    (spits : ∀ h, (⟨nextOrderId s, b, o, .queued⟩ : Order).spitsFor h = true →
      ∀ x ∈ orders s, x.spitsFor h = false) : OrdersPass s (enterOrder b o s) := by
  intro lawful
  have few : (orders s).length < Config.orderDepth := of_decide_eq_true room
  rw [ordersLawful_iff, orders, orq_enterOrder]
  exact QueueLawful.append lawful few (nextOrderId_free few) rfl spits

/-- An order of another origin is no EXPOSURE spit. -/
theorem spitsFor_placed (id : Nat) (b : OrderBody) (who : Placer) (x : OrderState) (h : Fin 3) :
    (⟨id, b, who.origin, x⟩ : Order).spitsFor h = false := by
  cases who <;> rfl

theorem enterPlaced_ordersPass {b : OrderBody} {who : Placer} {s : State} (room : hasRoom s = true) :
    OrdersPass s (enterOrder b who.origin s) :=
  enterOrder_ordersPass room fun h spits => by rw [spitsFor_placed] at spits; cases spits

theorem placeOrder_ordersPass (who : Placer) (b : OrderBody) (s : State) : OrdersPass s (placeOrder who b s).1 := by
  unfold placeOrder
  split
  · exact .refl s
  · split
    · next room => exact enterPlaced_ordersPass room
    · exact .of_orders rfl

theorem enterWaiting_ordersPass (s : State) : OrdersPass s (enterWaiting s).1 := by
  have entered (ws : List Placement) : ∀ s, OrdersPass s (enterWaitingFrom ws s).1 := by
    induction ws with
    | nil => exact fun s => .of_orders rfl
    | cons w ws ih =>
      intro s
      unfold enterWaitingFrom
      split
      · next room => exact (enterPlaced_ordersPass room).trans (ih _)
      · exact .of_orders rfl
  exact entered _ s

theorem placeExposure_ordersPass (h : Fin 3) (s : State) : OrdersPass s (placeExposure h s) := by
  unfold placeExposure
  split
  · exact .refl s
  · next none =>
    split
    · next room =>
      refine enterOrder_ordersPass room fun k spits x here => ?_
      have same : h = k := by simpa [Order.spitsFor] using spits
      have absent : ∀ x ∈ orders s, x.spitsFor h = false := by simpa [orders] using none
      exact same ▸ absent x here
    · exact .refl s

/-! ### Orders taken, ended, returned and removed (R83 to R90) -/

@[simp] theorem orders_withdraw (who : Placer) (s : State) : orders (withdraw who s) = orders s := rfl

theorem removeQueued_ordersPass (o : Origin) (s : State) : OrdersPass s (removeQueued o s).1 :=
  .of_sublist List.filter_sublist

theorem takeOldest_ordersPass (s : State) : OrdersPass s (takeOldest s) := by
  unfold takeOldest
  split
  · exact .refl s
  · next o os queue =>
    intro lawful
    have taken : QueueLawful ({ o with state := .taken 0 (orderLimit s.params o.body) } :: os) :=
      QueueLawful.oldest (by rwa [ordersLawful_iff, orders, queue] at lawful) _
    unfold beginSample
    split <;> exact taken

theorem endTaken_ordersPass (o : Order) (how : OrderEnd) (s : State) : OrdersPass s (endTaken o how s).1 :=
  .of_sublist (List.tail_sublist _)

theorem orderTimeout_ordersPass (o : Order) (s : State) : OrdersPass s (orderTimeout o s).1 := by
  unfold orderTimeout
  refine .trans ?_ (endTaken_ordersPass o _ _)
  exact .of_orders rfl

theorem returnTaken_ordersPass (s : State) : OrdersPass s (returnTaken s).1 := by
  unfold returnTaken
  split
  · exact .refl s
  · next o os queue =>
    split
    · intro lawful
      exact QueueLawful.oldest (by rwa [ordersLawful_iff, orders, queue] at lawful) _
    · exact .refl s

/-- The clock runs the timer of the TAKEN order and leaves QUEUED ones alone (R84). -/
theorem tickOrders_lawful {q : List Order} (lawful : QueueLawful q) : QueueLawful (q.map Order.tick) := by
  have kept (o : Order) : o.tick.untimed = o.untimed := by
    unfold Order.tick
    split <;> rfl
  refine lawful.retimed ?_ fun o here => ?_
  · rw [List.map_map]
    exact List.map_congr_left fun o _ => kept o
  · rw [← List.map_tail] at here
    obtain ⟨x, young, rfl⟩ := List.mem_map.mp here
    have queued := lawful.2.2.1 x young
    unfold Order.tick
    rw [queued]
    exact queued

end Sys2Proof.Machine
end

