-- ==== Sys2Proof/Proofs/OrderQueueServices.lean ====
section
/-!
SUPPORT. The operations of the supply, the usage account, the station, the detector, the cleaning sequencer and the feed
that leave the list of orders alone: one lemma per operation, in the order of the model's files.
-/

namespace Sys2Proof.Machine

/-! ### Single records -/

@[simp] theorem orders_raise (k : EventKind) (m : BitVec 16) (d : Option Detail) (s : State) :
    orders (raise k m d s) = orders s := rfl
@[simp] theorem orders_setEntry (s : State) (h : Fin 3) (x : CleanEntry) :
    orders (setEntry s h x) = orders s := rfl
@[simp] theorem orders_setCls (x : Cls) (s : State) : orders (setCls x s) = orders s := rfl
@[simp] theorem orders_setDtu (x : Dtu) (s : State) : orders (setDtu x s) = orders s := rfl
@[simp] theorem orders_setExposure (s : State) (h : Fin 3) (x : Exposure) :
    orders (setExposure s h x) = orders s := rfl
@[simp] theorem orders_setSource (s : State) (a : Source) (x : SourceRec) :
    orders (setSource s a x) = orders s := rfl
@[simp] theorem orders_setFdc (x : Fdc) (s : State) : orders (setFdc x s) = orders s := rfl
@[simp] theorem orders_setPath (x : Path) (s : State) : orders (setPath x s) = orders s := rfl
@[simp] theorem orders_setEngine (s : State) (p : Port) (x : Engine) :
    orders (setEngine s p x) = orders s := rfl
@[simp] theorem orders_setBay (s : State) (b : Fin 12) (x : Bay) : orders (setBay s b x) = orders s := rfl
@[simp] theorem orders_setStc (x : Stc) (s : State) : orders (setStc x s) = orders s := rfl
@[simp] theorem orders_foldRequest (h : Fin 3) (l : Level) (u : Bool) (o : OriginSet) (s : State) :
    orders (foldRequest h l u o s) = orders s := rfl
@[simp] theorem orders_beginTransaction (p : Port) (s : State) :
    orders (beginTransaction p s) = orders s := rfl
@[simp] theorem orders_answer (p : Port) (k : Kind) (r : Result) (b : List Byte) (s : State) :
    orders (answer p k r b s) = orders s := rfl
@[simp] theorem orders_done (s : State) : orders (Run.done s).1 = orders s := rfl
@[simp] theorem orders_reply (p : Port) (k : Kind) (r : Result) (b : List Byte) (s : State) :
    orders (reply p k r b s).1 = orders s := rfl
@[simp] theorem orders_plus (r : Run) (acts : List Act) : orders (r.plus acts).1 = orders r.1 := rfl
@[simp] theorem orders_andThen (r : Run) (f : State → Run) :
    orders (r.andThen f).1 = orders (f r.1).1 := rfl

/-! ### Supply Unit, Page Admission Unit and Usage Accounting Unit -/

@[simp] theorem orders_checkOver (c : Fin 6) (s : State) : orders (checkOver c s) = orders s :=
  orders_of_supply (checkOver_kept c s)

@[simp] theorem orders_checkOverAll (cs : List (Fin 6)) (s : State) : orders (checkOverAll cs s) = orders s :=
  orders_of_supply (checkOverAll_kept cs s)

@[simp] theorem orders_pauAdvanceBegins (tag : Nat) (s : State) : orders (pauAdvanceBegins tag s) = orders s :=
  orders_of_supply (pauAdvanceBegins_kept tag s)

@[simp] theorem orders_pauAdvanceDone (tag d : Nat) (s : State) : orders (pauAdvanceDone tag d s) = orders s :=
  orders_of_supply (pauAdvanceDone_kept tag d s)

@[simp] theorem orders_pauJam (s : State) : orders (pauJam s) = orders s := orders_of_supply (pauJam_kept s)

@[simp] theorem orders_refillTestAll (s : State) : orders (refillTestAll s) = orders s :=
  orders_of_supply (refillTestAll_kept s)

@[simp] theorem orders_enterStandby (b : Fin 12) (s : State) : orders (enterStandby b s).1 = orders s :=
  orders_of_supply (enterStandby_kept b s)

@[simp] theorem orders_insertBay (b : Fin 12) (scan : Bool) (s : State) : orders (insertBay b scan s) = orders s :=
  orders_of_supply (insertBay_kept b scan s)

@[simp] theorem orders_removeBay (b : Fin 12) (s : State) : orders (removeBay b s) = orders s :=
  orders_of_supply (removeBay_kept b s)

@[simp] theorem orders_creditTank (c : Fin 6) (v : Nat) (s : State) : orders (creditTank c v s) = orders s :=
  orders_of_supply (creditTank_kept c v s)

@[simp] theorem orders_strokeInk (c : Fin 6) (b : Fin 12) (s : State) : orders (strokeInk c b s) = orders s :=
  orders_of_supply (strokeInk_kept c b s)

@[simp] theorem orders_bayOut (b : Fin 12) (s : State) : orders (bayOut b s) = orders s :=
  orders_of_supply (bayOut_kept b s)

@[simp] theorem orders_strokeCounted (c : Fin 6) (s : State) : orders (strokeCounted c s) = orders s :=
  orders_of_supply (strokeCounted_kept c s)

@[simp] theorem orders_strokeNext (c : Fin 6) (s : State) : orders (strokeNext c s) = orders s :=
  orders_of_supply (strokeNext_kept c s)

@[simp] theorem orders_strokeAfterSwitch (c : Fin 6) (s : State) : orders (strokeAfterSwitch c s) = orders s :=
  orders_of_supply (strokeAfterSwitch_kept c s)

@[simp] theorem orders_switchover (c : Fin 6) (side : Side) (s : State) : orders (switchover c side s) = orders s :=
  orders_of_supply (switchover_kept c side s)

@[simp] theorem orders_floatTo (c : Fin 6) (f : FloatLevel) (s : State) : orders (floatTo c f s) = orders s :=
  orders_of_supply (floatTo_kept c f s)

@[simp] theorem orders_clearFault (c : Fin 6) (s : State) : orders (clearFault c s) = orders s :=
  orders_of_supply (clearFault_kept c s)

@[simp] theorem orders_evalSupply (c : Fin 6) (s : State) : orders (evalSupply c s) = orders s :=
  orders_of_supply (evalSupply_kept c s)

@[simp] theorem orders_joinTable (e : Page) (s : State) : orders (joinTable e s) = orders s :=
  orders_of_supply (joinTable_kept e s)

@[simp] theorem orders_endPage (e : Page) (a : Bool) (s : State) : orders (endPage e a s) = orders s :=
  orders_of_supply (endPage_kept e a s)

theorem WasteOnly.orders {s t : State} (h : WasteOnly s t) : orders t = orders s :=
  (congrArg (fun u : State => u.orq.queue) h.frame :)

@[simp] theorem orders_testWaste (s : State) : orders (testWaste s).1 = orders s := (testWaste_wasteOnly s).orders

@[simp] theorem orders_suctionDebit (h : Fin 3) (n : Nat) (s : State) :
    orders (suctionDebit h n s).1 = orders s := orders_of_usage (suctionDebit_keptU h n s)

@[simp] theorem orders_reportInk (body : List Byte) (d : Destination) (s : State) :
    orders (reportInk body d s) = orders s := by
  unfold reportInk
  dsimp only
  refine orders_of_usage ?_
  rw [checkOverAll_keptU, pauReport_keptU, chargeAll_keptU]
  split <;> rfl

@[simp] theorem orders_addDrops (body : List Byte) (h : Fin 3) (s : State) :
    orders (addDrops body h s) = orders s := by
  unfold addDrops; dsimp only; split <;> simp

@[simp] theorem orders_reportService (body : List Byte) (d : Destination) (s : State) :
    orders (reportService body d s) = orders s := by
  unfold reportService
  dsimp only
  rw [foldl_kept orders _ (fun s h => by split <;> rfl)]
  split
  · exact foldl_kept orders _ (fun s h => orders_addDrops body h s) _ s
  · rfl

@[simp] theorem orders_applyReport (body : List Byte) (d : Destination) (s : State) :
    orders (applyReport body d s).1 = orders s := by
  have noted : orders (noteReport body s) = orders s := rfl
  unfold applyReport
  dsimp only
  split
  · exact noted
  · cases d <;> simp [noted]

@[simp] theorem orders_usageStep (s : State) : orders (usageStep s).1 = orders s := by
  unfold usageStep
  split
  · rfl
  · dsimp only
    split
    · rfl
    · rw [orders_applyReport]
      rfl

/-! ### Station Controller and exposure timers -/

@[simp] theorem orders_raiseExposed (h : Fin 3) (s : State) : orders (raiseExposed h s) = orders s := by
  unfold raiseExposed; dsimp only; split <;> rfl

@[simp] theorem orders_sledCommand (e : SledEnd) (s : State) : orders (sledCommand e s).1 = orders s := by
  unfold sledCommand; dsimp only; split <;> rfl

@[simp] theorem orders_wiperCommand (e : WiperEnd) (s : State) :
    orders (wiperCommand e s).1 = orders s := rfl

@[simp] theorem orders_holderSled (e : SledEnd) (s : State) : orders (holderSled e s).1 = orders s := by
  unfold holderSled; split <;> simp

@[simp] theorem orders_holderWiper (e : WiperEnd) (s : State) : orders (holderWiper e s).1 = orders s := by
  unfold holderWiper; split <;> simp

@[simp] theorem orders_sledArrives (s : State) : orders (sledArrives s).1 = orders s := by
  unfold sledArrives; split <;> rfl

@[simp] theorem orders_wiperArrives (s : State) : orders (wiperArrives s).1 = orders s := by
  unfold wiperArrives; split <;> rfl

@[simp] theorem orders_joinSelector (h : Fin 3) (s : State) : orders (joinSelector h s) = orders s := by
  unfold joinSelector; split <;> rfl

@[simp] theorem orders_releaseSelector (s : State) : orders (releaseSelector s) = orders s := by
  unfold releaseSelector; split <;> rfl

@[simp] theorem orders_startPump (n : Nat) (s : State) : orders (startPump n s) = orders s := by
  unfold startPump; split <;> rfl

@[simp] theorem orders_stopPump (s : State) : orders (stopPump s) = orders s := rfl

@[simp] theorem orders_countRevolution (s : State) : orders (countRevolution s).1 = orders s := by
  unfold countRevolution
  dsimp only
  split
  · split <;> rfl
  · rfl

@[simp] theorem orders_beginHoming (s : State) : orders (beginHoming s).1 = orders s := by
  simp [beginHoming]

@[simp] theorem orders_enterUnparked (s : State) : orders (enterUnparked s).1 = orders s := rfl

@[simp] theorem orders_enterOpen (e : Bool) (s : State) : orders (enterOpen e s).1 = orders s := rfl

@[simp] theorem orders_beginCapping (s : State) : orders (beginCapping s).1 = orders s := by
  simp [beginCapping]

@[simp] theorem orders_beginUncapping (s : State) : orders (beginUncapping s).1 = orders s := by
  simp [beginUncapping]

@[simp] theorem orders_askCapping (s : State) : orders (askCapping s).1 = orders s := by
  unfold askCapping
  repeat' split
  all_goals simp

@[simp] theorem orders_freeMoment (e : Bool) (s : State) : orders (freeMoment e s).1 = orders s := by
  unfold freeMoment choosePrint beginSession
  repeat' split
  all_goals simp

@[simp] theorem orders_grantZone (s : State) : orders (grantZone s).1 = orders s := by
  unfold grantZone; dsimp only; split <;> rfl

@[simp] theorem orders_zoneRequest (s : State) : orders (zoneRequest s).2.1 = orders s := by
  unfold zoneRequest; split <;> simp

@[simp] theorem orders_releaseZone (s : State) : orders (releaseZone s).1 = orders s := by
  unfold releaseZone; split <;> rfl

@[simp] theorem orders_resetZone (s : State) : orders (resetZone s).1 = orders s := by
  unfold resetZone
  exact kept_ite orders (orders_releaseZone _) (kept_ite orders rfl rfl)

@[simp] theorem orders_homeTo (b : Bool) (s : State) : orders (homeTo b s).1 = orders s := by
  unfold homeTo
  dsimp only
  repeat' split
  all_goals rfl

@[simp] theorem orders_idleExpires (s : State) : orders (idleExpires s).1 = orders s := by
  simp [idleExpires]

@[simp] theorem orders_claimActs (u b : Bool) (s : State) : orders (claimActs u b s).1 = orders s := by
  unfold claimActs; dsimp only; split <;> rfl

@[simp] theorem orders_placeClaim (w : Claimant) (u : Bool) (s : State) : orders (placeClaim w u s).1 = orders s := by
  unfold placeClaim; split <;> simp

@[simp] theorem orders_markUrgent (w : Claimant) (s : State) : orders (markUrgent w s).1 = orders s := by
  unfold markUrgent; split <;> simp

@[simp] theorem orders_startHandBack (w : Claimant) (s : State) :
    orders (startHandBack w s) = orders s := by
  unfold startHandBack; split <;> rfl

@[simp] theorem orders_faultStation (c : StationCause) (s : State) : orders (faultStation c s) = orders s := by
  unfold faultStation; dsimp only; split <;> rfl

@[simp] theorem orders_stcWiperDone (s : State) : orders (stcWiperDone s).1 = orders s := by
  unfold stcWiperDone
  repeat' split
  all_goals simp

@[simp] theorem orders_setEndPin (e : EndSensor) (b : Bool) (s : State) :
    orders (setEndPin e b s) = orders s := by
  cases e <;> rfl

/-! ### Detector Unit -/

@[simp] theorem orders_createTask (k : TaskKind) (cs : List (Fin 6)) (p : Port) (s : State) :
    orders (createTask k cs p s).1 = orders s := by
  simp [createTask]

@[simp] theorem orders_dtuReady (s : State) : orders (dtuReady s).1 = orders s := by
  unfold dtuReady; split <;> rfl

@[simp] theorem orders_dtuSession (s : State) : orders (dtuSession s).1 = orders s := by
  unfold dtuSession
  dsimp only
  split
  · rfl
  · split <;> simp

@[simp] theorem orders_dtuSledDone (s : State) : orders (dtuSledDone s).1 = orders s := by
  unfold dtuSledDone; split <;> simp

@[simp] theorem orders_dtuEntered (id : Nat) (s : State) : orders (dtuEntered id s) = orders s := rfl

@[simp] theorem orders_dtuAbandon (s : State) : orders (dtuAbandon s) = orders s := rfl

@[simp] theorem orders_recordRow (c : Fin 6) (g l : Nat) (seen : List Nat) (s : State) :
    orders (recordRow c g l seen s) = orders s := by
  unfold recordRow; dsimp only; split <;> rfl

@[simp] theorem orders_foldSweep (rs : List (Fin 6 × SweepResult)) (s : State) :
    orders (foldSweep rs s) = orders s :=
  foldl_kept orders _ (fun s r => by split <;> rfl) rs s

@[simp] theorem orders_closeTask (t : Task) (c : Option CheckCause) (s : State) :
    orders (closeTask t c s).1 = orders s := by
  simp [closeTask]

@[simp] theorem orders_dtuFinish (s : State) : orders (dtuFinish s).1 = orders s := by
  unfold dtuFinish; split <;> simp

@[simp] theorem orders_dtuOrderFailed (s : State) : orders (dtuOrderFailed s).1 = orders s := by
  unfold dtuOrderFailed; split <;> simp

@[simp] theorem orders_dtuFault (s : State) : orders (dtuFault s).1 = orders s := by
  unfold dtuFault
  split
  · split <;> simp
  · rfl

@[simp] theorem orders_dtuCheckFor (rows : List (Fin 6)) (s : State) :
    orders (dtuCheckFor rows s).1 = orders s := rfl

@[simp] theorem orders_dtuEndCheck (s : State) : orders (dtuEndCheck s) = orders s := by
  unfold dtuEndCheck; split <;> rfl

@[simp] theorem orders_sweepStepDone (t : Task) (c : Fin 6) (b : Bool) (s : State) :
    orders (sweepStepDone t c b s).1 = orders s := by
  unfold sweepStepDone finishRow nextStep
  dsimp only
  repeat' split
  all_goals rfl

@[simp] theorem orders_dtuOrderDone (x : Option Sample) (s : State) :
    orders (dtuOrderDone x s).1 = orders s := by
  unfold dtuOrderDone
  dsimp only
  repeat' split
  all_goals simp

@[simp] theorem orders_dtuOrderEnded (o : Order) (how : OrderEnd) (x : Option Sample) (s : State) :
    orders (dtuOrderEnded o how x s).1 = orders s := by
  unfold dtuOrderEnded
  dsimp only
  repeat' split
  all_goals simp

/-! ### Cleaning Sequencer -/

@[simp] theorem orders_clsClaim (s : State) : orders (clsClaim s).1 = orders s := by
  unfold clsClaim; split <;> simp

@[simp] theorem orders_clsFolded (u : Bool) (s : State) : orders (clsFolded u s).1 = orders s := by
  unfold clsFolded
  repeat' split
  all_goals simp

@[simp] theorem orders_clsHandBack (s : State) : orders (clsHandBack s).1 = orders s := by
  simp [clsHandBack]

@[simp] theorem orders_clearEntries (hs : List (Fin 3)) (s : State) :
    orders (clearEntries hs s) = orders s :=
  foldl_kept orders _ (fun _ _ => by rfl) hs s

@[simp] theorem orders_dropHeads (hs : List CycleHead) (s : State) :
    orders (dropHeads hs s) = orders s := by
  unfold dropHeads; split <;> simp

@[simp] theorem orders_endDropped (hs : List CycleHead) (s : State) :
    orders (endDropped hs s).1 = orders s := by
  simp [endDropped]

@[simp] theorem orders_refuseCycle (hs : List CycleHead) (c : CleanCause) (s : State) :
    orders (refuseCycle hs c s).1 = orders s := by
  simp [refuseCycle]

@[simp] theorem orders_startCycle (hs : List CycleHead) (s : State) :
    orders (startCycle hs s).1 = orders s := by
  simp [startCycle]

@[simp] theorem orders_formCycle (s : State) : orders (formCycle s).1 = orders s := by
  unfold formCycle
  dsimp only
  repeat' split
  all_goals simp

@[simp] theorem orders_waitInkTest (s : State) : orders (waitInkTest s).1 = orders s := by
  unfold waitInkTest
  dsimp only
  repeat' split
  all_goals simp

@[simp] theorem orders_supplyChanged (c : Fin 6) (s : State) : orders (supplyChanged c s).1 = orders s := by
  unfold supplyChanged; split <;> simp

@[simp] theorem orders_nextSuction (s : State) : orders (nextSuction s).1 = orders s := by
  unfold nextSuction
  split
  · rfl
  · split <;> rfl

@[simp] theorem orders_startRun (s : State) : orders (startRun s) = orders s := by
  unfold startRun
  repeat' split
  all_goals simp

@[simp] theorem orders_recordRun (h : Fin 3) (n : Nat) (s : State) :
    orders (recordRun h n s) = orders s := rfl

@[simp] theorem orders_spitsDone (s : State) : orders (spitsDone s).1 = orders s := by
  unfold spitsDone leaveSpitting
  repeat' split
  all_goals rfl

@[simp] theorem orders_clsEntered (id : Nat) (s : State) : orders (clsEntered id s).1 = orders s := by
  unfold clsEntered
  dsimp only
  repeat' split
  all_goals rfl

@[simp] theorem orders_clsSledDone (s : State) : orders (clsSledDone s).1 = orders s := by
  unfold clsSledDone
  repeat' split
  all_goals simp

@[simp] theorem orders_markDegraded (cs : List (Fin 6)) (s : State) :
    orders (cs.foldl (fun s c => markDegraded c s) s) = orders s :=
  foldl_kept orders _ (fun _ _ => by rfl) cs s

@[simp] theorem orders_setStep (h : Fin 3) (n : Nat) (s : State) : orders (setStep h n s) = orders s := rfl

@[simp] theorem orders_judgeHead (rs : List RowResult) (x : CycleHead) (s : State) :
    orders (judgeHead rs x s) = orders s := by
  unfold judgeHead
  dsimp only
  repeat' split
  all_goals simp

@[simp] theorem orders_checkResults (rs : List RowResult) (s : State) :
    orders (checkResults rs s).1 = orders s := by
  unfold checkResults
  split
  · exact foldl_kept orders _ (fun s x => orders_judgeHead rs x s) _ s
  · rfl

@[simp] theorem orders_zeroDrops (hs : List CycleHead) (s : State) :
    orders (zeroDrops hs s) = orders s :=
  foldl_kept orders _ (fun _ _ => by rfl) hs s

@[simp] theorem orders_clearUrgent (s : State) : orders (clearUrgent s) = orders s :=
  foldl_kept orders _ (fun s h => by split <;> rfl) allHeads s

@[simp] theorem orders_finishCycle (s : State) : orders (finishCycle s).1 = orders s := by
  unfold finishCycle
  dsimp only
  repeat' split
  all_goals simp

@[simp] theorem orders_foldBack (s : State) : orders (foldBack s) = orders s :=
  foldl_kept orders _ (fun _ _ => by rfl) _ s

@[simp] theorem orders_closeAborted (c : CleanCause) (s : State) :
    orders (closeAborted c s) = orders s := by
  simp [closeAborted]

@[simp] theorem orders_safePoint (s : State) : orders (safePoint s).1 = orders s := by
  unfold safePoint
  repeat' split
  all_goals simp

@[simp] theorem orders_clsOrderEnded (o : Order) (how : OrderEnd) (s : State) :
    orders (clsOrderEnded o how s).1 = orders s := by
  unfold clsOrderEnded
  dsimp only
  repeat' split
  all_goals simp

@[simp] theorem orders_clsSession (s : State) : orders (clsSession s).1 = orders s := by
  unfold clsSession; split <;> simp

@[simp] theorem orders_nextCycle (s : State) : orders (nextCycle s).1 = orders s := by
  unfold nextCycle; split <;> simp

@[simp] theorem orders_cleanRequest (hs : List (Fin 3)) (l : Level) (u : Bool) (o : CleanOrigin) (s : State) :
    orders (cleanRequest hs l u o s) = orders s :=
  foldl_kept orders _ (fun _ _ => by rfl) hs s

@[simp] theorem orders_cancelEntries (hs : List (Fin 3)) (s : State) :
    orders (cancelEntries hs s) = orders s := by
  unfold cancelEntries dropHold; split <;> simp

@[simp] theorem orders_cancelCycle (hs : List (Fin 3)) (s : State) :
    orders (cancelCycle hs s).1 = orders s := by
  unfold cancelCycle
  dsimp only
  repeat' split
  all_goals rfl

@[simp] theorem orders_debitRun (s : State) : orders (debitRun s).1 = orders s := by
  unfold debitRun
  split
  · rfl
  · simp

@[simp] theorem orders_clsPumpDone (s : State) : orders (clsPumpDone s).1 = orders s := by
  unfold clsPumpDone
  dsimp only
  split <;> simp

@[simp] theorem orders_stopRun (s : State) : orders (stopRun s).1 = orders s := by
  unfold stopRun
  split <;> simp

@[simp] theorem orders_abortCycle (c : CleanCause) (s : State) : orders (abortCycle c s).1 = orders s := by
  unfold abortCycle
  dsimp only
  split <;> simp

@[simp] theorem orders_clsWasteChanged (s : State) : orders (clsWasteChanged s).1 = orders s := by
  unfold clsWasteChanged
  repeat' split
  all_goals simp

@[simp] theorem orders_clsFault (run : Option (Fin 3 × Nat)) (s : State) :
    orders (clsFault run s).1 = orders s := by
  unfold clsFault
  dsimp only
  split
  · simp only [orders_setCls, orders_closeAborted, orders_withdraw, orders_dtuEndCheck]
    split <;> simp
  · rfl

@[simp] theorem orders_stationFault (c : StationCause) (s : State) :
    orders (stationFault c s).1 = orders s := by
  unfold stationFault
  dsimp only
  rw [orders_plus]
  split <;> simp

/-! ### Feed Controller -/

@[simp] theorem orders_modRemaining (a : Source) (f : Nat → Nat) (s : State) :
    orders (modRemaining a f s) = orders s := rfl

@[simp] theorem orders_mediaOutTest (a : Source) (s : State) : orders (mediaOutTest a s) = orders s := by
  unfold mediaOutTest; dsimp only; split <;> rfl

@[simp] theorem orders_mediaForward (d : Nat) (s : State) : orders (mediaForward d s) = orders s := by
  unfold mediaForward; dsimp only; split <;> simp

@[simp] theorem orders_mediaReverse (d : Nat) (s : State) : orders (mediaReverse d s) = orders s := by
  unfold mediaReverse; dsimp only; split <;> rfl

@[simp] theorem orders_setEndReading (a : Source) (b : Bool) (s : State) :
    orders (setEndReading a b s) = orders s := by
  cases a <;> rfl

@[simp] theorem orders_endSeen (a : Source) (s : State) : orders (endSeen a s) = orders s := by
  unfold endSeen; dsimp only; split <;> simp

@[simp] theorem orders_motorFree (s : State) : orders (motorFree s) = orders s := rfl

@[simp] theorem orders_answerMotion (m : Motion) (r : Result) (b : List Byte) (s : State) :
    orders (answerMotion m r b s) = orders s := by
  unfold answerMotion; split <;> rfl

@[simp] theorem orders_loadDone (a : Source) (s : State) : orders (loadDone a s) = orders s := by
  simp [loadDone, apply_ite orders]

@[simp] theorem orders_unloadDone (d : Nat) (s : State) : orders (unloadDone d s) = orders s := by
  unfold unloadDone
  split
  · rfl
  · simp only [orders_raise, orders_setPath]
    split <;> rfl

@[simp] theorem orders_advanceDone (m : Motion) (tag : Nat) (s : State) :
    orders (advanceDone m tag s) = orders s := by
  simp [advanceDone]

@[simp] theorem orders_cutAdvanceDone (m : Motion) (s : State) :
    orders (cutAdvanceDone m s).1 = orders s := by
  simp [cutAdvanceDone]

@[simp] theorem orders_jogForwardDone (m : Motion) (s : State) :
    orders (jogForwardDone m s) = orders s := by
  simp [jogForwardDone]

@[simp] theorem orders_jogReverseDone (m : Motion) (n d : Nat) (s : State) :
    orders (jogReverseDone m n d s) = orders s := by
  simp [jogReverseDone]

@[simp] theorem orders_motionDone (m : Motion) (s : State) : orders (motionDone m s).1 = orders s := by
  unfold motionDone; split <;> simp

@[simp] theorem orders_beginMotion (m : Motion) (st : PathState) (s : State) :
    orders (beginMotion m st s).1 = orders s := by
  unfold beginMotion; dsimp only; split <;> simp

@[simp] theorem orders_beginRequest (p : Port) (r : MotionReq) (s : State) :
    orders (beginRequest p r s).1 = orders s := by
  unfold beginRequest beginLoad beginUnload beginAdvance beginCut beginManual
  dsimp only
  repeat' split
  all_goals simp

@[simp] theorem orders_serveOne (p : Port) (r : MotionReq) (s : State) :
    orders (serveOne p r s).1 = orders s := by
  unfold serveOne; dsimp only; split <;> simp

theorem orders_serveLoop (n : Nat) : ∀ s, orders (serveLoop n s).1 = orders s := by
  induction n with
  | zero => intro s; rfl
  | succ n ih =>
    intro s
    unfold serveLoop
    repeat' split
    all_goals simp [ih]

@[simp] theorem orders_serve (s : State) : orders (serve s).1 = orders s := orders_serveLoop 3 s

@[simp] theorem orders_enterMotion (p : Port) (r : MotionReq) (s : State) :
    orders (enterMotion p r s).1 = orders s := by
  simp [enterMotion]

@[simp] theorem orders_completeMotion (m : Motion) (s : State) :
    orders (completeMotion m s).1 = orders s := by
  simp [completeMotion]

@[simp] theorem orders_stopMotion (n : Nat) (s : State) : orders (stopMotion n s) = orders s := by
  unfold stopMotion accountPartial
  repeat' split
  all_goals simp

@[simp] theorem orders_endCut (s : State) : orders (endCut s) = orders s := by
  unfold endCut; dsimp only; split <;> rfl

@[simp] theorem orders_holdWaiting (p : Port) (s : State) : orders (holdWaiting p s) = orders s := by
  unfold holdWaiting; split <;> rfl

@[simp] theorem orders_answerHeld (m : Option Motion) (n : Nat) (s : State) :
    orders (answerHeld m n s) = orders s := by
  unfold answerHeld
  dsimp only
  rw [foldl_kept orders _ (fun s p => orders_holdWaiting p s)]
  split <;> simp

@[simp] theorem orders_holdPath (h : PathHold) (s : State) : orders (holdPath h s) = orders s := rfl

@[simp] theorem orders_openCover (n : Nat) (s : State) : orders (openCover n s) = orders s := by
  unfold openCover
  dsimp only
  repeat' split
  all_goals simp

@[simp] theorem orders_closeCover (s : State) : orders (closeCover s) = orders s := by
  unfold closeCover; dsimp only; split <;> rfl

@[simp] theorem orders_entryTo (b : Bool) (n : Nat) (s : State) : orders (entryTo b n s).1 = orders s := by
  unfold entryTo
  dsimp only
  repeat' split
  all_goals simp

@[simp] theorem orders_sourceEnds (a : Source) (s : State) : orders (sourceEnds a s) = orders s := by
  unfold sourceEnds; split <;> simp

@[simp] theorem orders_sourceEndClears (a : Source) (s : State) :
    orders (sourceEndClears a s) = orders s := by
  unfold sourceEndClears; split <;> simp

@[simp] theorem orders_releasePath (s : State) : orders (releasePath s) = orders s := by
  unfold releasePath; dsimp only; split <;> rfl

@[simp] theorem orders_fdcEntered (id : Nat) (s : State) : orders (fdcEntered id s) = orders s := by
  unfold fdcEntered; split <;> rfl

@[simp] theorem orders_fdcOrderEnded (o : Order) (how : OrderEnd) (s : State) :
    orders (fdcOrderEnded o how s) = orders s := by
  unfold fdcOrderEnded
  repeat' split
  all_goals rfl

@[simp] theorem orders_resetFeed (p : Port) (s : State) : orders (resetFeed p s) = orders s := rfl

/-! ### Agenda and links -/

@[simp] theorem orders_enteredFor (w : Placer) (id : Nat) (s : State) :
    orders (enteredFor w id s).1 = orders s := by
  unfold enteredFor; split <;> simp

@[simp] theorem orders_orderEndedFor (o : Order) (how : OrderEnd) (x : Option Sample) (s : State) :
    orders (orderEndedFor o how x s).1 = orders s := by
  unfold orderEndedFor; split <;> simp

@[simp] theorem orders_wakeEnd (s : State) : orders (wakeEnd s).1 = orders s := by
  simp [wakeEnd]

end Sys2Proof.Machine
end

