-- ==== Sys2Proof/Proofs/OrderQueueKept.lean ====
section
/-!
SUPPORT. Every consequence, command and step passes the law of the order queue on: the commands that leave the list
alone, the operations that enter, end or remove orders, and the cascade. Settles O57.
-/

namespace Sys2Proof.Machine

/-! ### Commands that leave the list alone -/

@[simp] theorem orders_readReply (p : Port) (body : List Byte) (s : State) :
    orders (readReply p body s) = orders s := by
  unfold readReply; dsimp only; split <;> rfl

@[simp] theorem orders_parkExpires (s : State) : orders (parkExpires s) = orders s := rfl

@[simp] theorem orders_holdExpires (s : State) : orders (holdExpires s).1 = orders s := rfl

@[simp] theorem orders_strobe (e : Edge) (s : State) : orders (strobe e s) = orders s := by
  unfold strobe
  split
  · split <;> rfl
  · rfl

@[simp] theorem orders_takeSample (i : Bool) (s : State) : orders (takeSample i s) = orders s := by
  unfold takeSample
  split
  · rfl
  · split <;> rfl

@[simp] theorem orders_replyShifted (p : Port) (s : State) : orders (replyShifted p s) = orders s := by
  unfold replyShifted; dsimp only; split <;> rfl

@[simp] theorem orders_readEvents (body : List Byte) (p : Port) (s : State) :
    orders (readEvents body p s).1 = orders s := by
  unfold readEvents; split <;> simp

@[simp] theorem orders_clearEvents (body : List Byte) (p : Port) (s : State) :
    orders (clearEvents body p s).1 = orders s := by
  unfold clearEvents; dsimp only; split <;> rfl

@[simp] theorem orders_setEnables (body : List Byte) (p : Port) (s : State) :
    orders (setEnables body p s).1 = orders s := by
  unfold setEnables; dsimp only; split <;> rfl

@[simp] theorem orders_getParam (body : List Byte) (p : Port) (s : State) :
    orders (getParam body p s).1 = orders s := by
  unfold getParam; split <;> rfl

@[simp] theorem orders_readByChannel (k : Kind) (p : Port) (body : List Byte) (make : State → Fin 6 → List Byte)
    (s : State) : orders (readByChannel k p body make s).1 = orders s := by
  unfold readByChannel; split <;> rfl

@[simp] theorem orders_readBay (p : Port) (body : List Byte) (s : State) :
    orders (readBay p body s).1 = orders s := by
  unfold readBay; split <;> rfl

@[simp] theorem orders_listPages (p : Port) (body : List Byte) (s : State) :
    orders (listPages p body s).1 = orders s := by
  unfold listPages; dsimp only; split <;> rfl

@[simp] theorem orders_takeZoneRequest (p : Port) (s : State) :
    orders (takeZoneRequest p s).1 = orders s := by
  simp [takeZoneRequest]

@[simp] theorem orders_takeZoneRelease (p : Port) (s : State) :
    orders (takeZoneRelease p s).1 = orders s := by
  unfold takeZoneRelease; split <;> simp

@[simp] theorem orders_retryStation (p : Port) (s : State) : orders (retryStation p s).1 = orders s := by
  unfold retryStation; split <;> simp

@[simp] theorem orders_clean (p : Port) (body : List Byte) (s : State) :
    orders (clean p body s).1 = orders s := by
  unfold clean
  repeat' split
  all_goals simp

@[simp] theorem orders_cancelClean (p : Port) (body : List Byte) (s : State) :
    orders (cancelClean p body s).1 = orders s := by
  unfold cancelClean; split <;> simp

@[simp] theorem orders_askTask (k : Kind) (t : TaskKind) (p : Port) (body : List Byte) (s : State) :
    orders (askTask k t p body s).1 = orders s := by
  unfold askTask
  repeat' split
  all_goals simp

@[simp] theorem orders_readHealth (p : Port) (body : List Byte) (s : State) :
    orders (readHealth p body s).1 = orders s := by
  unfold readHealth; split <;> rfl

@[simp] theorem orders_clearDegraded (p : Port) (body : List Byte) (s : State) :
    orders (clearDegraded p body s).1 = orders s := by
  unfold clearDegraded
  split
  · exact foldl_kept orders _ (fun _ _ => by rfl) _ _
  · rfl

@[simp] theorem orders_askMotion (p : Port) (r : MotionReq) (s : State) :
    orders (askMotion p r s).1 = orders s := by
  unfold askMotion; split <;> simp

@[simp] theorem orders_loadMedia (p : Port) (body : List Byte) (s : State) :
    orders (loadMedia p body s).1 = orders s := by
  unfold loadMedia
  dsimp only
  repeat' split
  all_goals simp

@[simp] theorem orders_advanceMedia (p : Port) (body : List Byte) (s : State) :
    orders (advanceMedia p body s).1 = orders s := by
  unfold advanceMedia; dsimp only; split <;> simp

@[simp] theorem orders_manualFeed (p : Port) (body : List Byte) (s : State) :
    orders (manualFeed p body s).1 = orders s := by
  unfold manualFeed; dsimp only; split <;> simp

@[simp] theorem orders_releaseHold (p : Port) (s : State) : orders (releaseHold p s).1 = orders s := by
  unfold releaseHold; split <;> simp

@[simp] theorem orders_onMotion (sel : MotionKind → Bool) (f : Motion → State → Run) (s : State)
    (h : ∀ m, orders (f m s).1 = orders s) : orders (onMotion sel f s).1 = orders s := by
  unfold onMotion
  split
  · split
    · exact h _
    · rfl
  · rfl

@[simp] theorem orders_loadArrives (m : Motion) (s : State) : orders (loadArrives m s).1 = orders s := by
  simp [loadArrives]

@[simp] theorem orders_unloadArrives (n : Nat) (m : Motion) (s : State) :
    orders (unloadArrives n m s).1 = orders s := by
  simp [unloadArrives]

@[simp] theorem orders_sledEnds (s : State) : orders (sledEnds s).1 = orders s := by
  unfold sledEnds
  split
  · exact orders_sledArrives _
  · rfl

@[simp] theorem orders_wiperEnds (s : State) : orders (wiperEnds s).1 = orders s := by
  unfold wiperEnds
  split
  · exact orders_wiperArrives _
  · rfl

@[simp] theorem orders_endSensor (e : EndSensor) (b : Bool) (s : State) :
    orders (endSensor e b s).1 = orders s := by
  unfold endSensor
  dsimp only
  repeat' split
  all_goals simp

@[simp] theorem orders_homeChange (b : Bool) (s : State) : orders (homeChange b s).1 = orders s := by
  unfold homeChange
  split
  · rfl
  · simp

@[simp] theorem orders_setWastePresence (b : Bool) (s : State) :
    orders (setWastePresence b s) = orders s := rfl

@[simp] theorem orders_setPresence (n : Fin 12) (b : Bool) (s : State) :
    orders (setPresence n b s) = orders s := rfl

@[simp] theorem orders_ended (s : State) : orders (ended s) = orders s := rfl

@[simp] theorem orders_standbyRun (b : Fin 12) (s : State) : orders (standbyRun b s).1 = orders s := by
  have stood := orders_enterStandby b s
  unfold standbyRun
  dsimp only
  split <;> simp [stood]

@[simp] theorem orders_judgeBay (b : Fin 12) (scan : Bool) (f : ChipFields) (s : State) :
    orders (judgeBay b scan f s).1 = orders s := by
  rw [judgeBay_eq]
  unfold judgedAs
  dsimp only
  repeat' split
  all_goals simp

@[simp] theorem orders_chipRead (r : Vector Byte 18) (s : State) : orders (chipRead r s).1 = orders s := by
  unfold chipRead
  dsimp only
  repeat' split
  all_goals simp

@[simp] theorem orders_chipReadFails (s : State) : orders (chipReadFails s) = orders s := by
  unfold chipReadFails
  dsimp only
  repeat' split
  all_goals simp

@[simp] theorem orders_startTrans (s : State) : orders (startTrans s) = orders s := by
  unfold startTrans
  repeat' split
  all_goals rfl

@[simp] theorem orders_attemptFails (s : State) : orders (attemptFails s) = orders s := by
  unfold attemptFails; split <;> rfl

@[simp] theorem orders_fitWaste (r : Vector Byte 6) (s : State) : orders (fitWaste r s).1 = orders s := by
  unfold fitWaste
  dsimp only
  split
  · rfl
  · exact ((setWaste_wasteOnly _ s).trans (wasteEvent_wasteOnly _ _)).orders

@[simp] theorem orders_wasteRead (r : Vector Byte 6) (s : State) : orders (wasteRead r s).1 = orders s := by
  unfold wasteRead
  dsimp only
  repeat' split
  all_goals simp

@[simp] theorem orders_wasteReadFails (s : State) : orders (wasteReadFails s).1 = orders s := by
  unfold wasteReadFails
  dsimp only
  repeat' split
  all_goals rfl

@[simp] theorem orders_insertWaste (s : State) : orders (insertWaste s).1 = orders s := by
  unfold insertWaste; split <;> rfl

@[simp] theorem orders_removeWaste (s : State) : orders (removeWaste s).1 = orders s := by
  unfold removeWaste; split <;> rfl

@[simp] theorem orders_setStale (chip : Chip) (stale : Bool) (s : State) :
    orders (setStale chip stale s) = orders s := by
  cases chip <;> rfl

@[simp] theorem orders_chipWritten (s : State) : orders (chipWritten s) = orders s := by
  unfold chipWritten
  repeat' split
  all_goals simp

@[simp] theorem orders_chipWriteFails (s : State) : orders (chipWriteFails s) = orders s := by
  unfold chipWriteFails
  repeat' split
  all_goals simp

@[simp] theorem orders_confirmBay (p : Port) (body : List Byte) (s : State) :
    orders (confirmBay p body s).1 = orders s := by
  unfold confirmBay
  repeat' split
  all_goals simp

@[simp] theorem orders_rejectBay (p : Port) (body : List Byte) (s : State) :
    orders (rejectBay p body s).1 = orders s := by
  unfold rejectBay
  repeat' split
  all_goals simp

@[simp] theorem orders_clearRefill (p : Port) (body : List Byte) (s : State) :
    orders (clearRefill p body s).1 = orders s := by
  unfold clearRefill
  dsimp only
  repeat' split
  all_goals simp

@[simp] theorem orders_bayGone (b : Fin 12) (s : State) : orders (bayGone b s).1 = orders s := by
  simp [bayGone]

@[simp] theorem orders_strokeDone (c : Fin 6) (ink : Bool) (s : State) :
    orders (strokeDone c ink s) = orders s := by
  have sampled (b : Fin 12) :
      orders { s with pins := { s.pins with ink := vset s.pins.ink b ink } } = orders s := rfl
  unfold strokeDone
  dsimp only
  repeat' split
  all_goals simp [sampled]

@[simp] theorem orders_floatRun (c : Fin 6) (f : FloatLevel) (s : State) :
    orders (floatRun c f s).1 = orders s := by
  simp [floatRun]

@[simp] theorem orders_postUsage (body : List Byte) (s : State) : orders (postUsage body s) = orders s := by
  unfold postUsage
  repeat' split
  all_goals rfl

@[simp] theorem orders_releaseFence (s : State) : orders (releaseFence s) = orders s := rfl

@[simp] theorem orders_takeFence (s : State) : orders (takeFence s) = orders s := by
  unfold takeFence; split <;> rfl

@[simp] theorem orders_takeRest (p : Port) (s : State) : orders (takeRest p s) = orders s := by
  unfold takeRest
  repeat' split
  all_goals rfl

@[simp] theorem orders_paramActions (id : ParamId) (s : State) :
    orders (paramActions id s).1 = orders s := by
  have evaluated := foldl_kept orders _ (fun s c => orders_evalSupply c s) allChannels s
  unfold paramActions
  split <;> simp [evaluated]

@[simp] theorem orders_setParam (body : List Byte) (p : Port) (s : State) :
    orders (setParam body p s).1 = orders s := by
  unfold setParam
  dsimp only
  split
  · rfl
  · rw [orders_paramActions]
    rfl

@[simp] theorem orders_admitPage (p : Port) (body : List Byte) (s : State) :
    orders (admitPage p body s).1 = orders s := by
  unfold admitPage
  split
  · rfl
  · simp

@[simp] theorem orders_endPageRun (p : Port) (body : List Byte) (s : State) :
    orders (endPageRun p body s).1 = orders s := by
  unfold endPageRun
  dsimp only
  repeat' split
  all_goals simp

/-! ### Operations that enter, end or remove orders -/

theorem OrdersPass.of_run_ite {s : State} {c : Prop} [Decidable c] {a b : Run} (ha : c → OrdersPass s a.1)
    (hb : ¬ c → OrdersPass s b.1) : OrdersPass s (if c then a else b).1 := by
  split
  · exact ha ‹_›
  · exact hb ‹_›

theorem exposureSpit_ordersPass (h : Fin 3) (s : State) : OrdersPass s (exposureSpit h s) := by
  unfold exposureSpit
  refine .trans ?_ (placeExposure_ordersPass h _)
  exact .of_orders rfl

theorem extEntry_ordersPass (s : State) : OrdersPass s (extEntry s).1 := by
  have reset := foldl_kept orders (fun s h => setExposure s h { exposure s h with count := 0, due := false })
    (fun s h => orders_setExposure s h _)
  have raised := foldl_kept orders (fun s h => raiseExposed h s) (fun s h => orders_raiseExposed h s)
  unfold extEntry
  dsimp only
  split
  case h_1 => exact ordersPass_carries.foldl (fun s h => exposureSpit_ordersPass h s) _ s
  case h_2 => exact .of_run_ite (fun _ => .refl s) fun _ => .of_orders (reset _ s)
  case h_3 | h_4 => exact .of_orders (raised _ s)
  all_goals exact .refl s

theorem exposureExpires_ordersPass (h : Fin 3) (s : State) : OrdersPass s (exposureExpires h s).1 := by
  unfold exposureExpires
  dsimp only
  split
  case h_1 => exact exposureSpit_ordersPass h s
  all_goals exact .of_orders (by simp)

theorem enterCapped_ordersPass (s : State) : OrdersPass s (enterCapped s).1 := by
  unfold enterCapped
  refine .trans ?_ (removeQueued_ordersPass .exposure _)
  exact .of_orders rfl

theorem handBack_ordersPass (s : State) : OrdersPass s (handBack s).1 := by
  have ended : OrdersPass s (endSession s) := .of_orders rfl
  unfold handBack
  refine .of_run_ite (fun _ => ?_) fun _ => .refl s
  refine .of_run_ite (fun _ => .refl s) fun _ => ?_
  refine .of_run_ite (fun _ => .of_orders (orders_wiperCommand _ s)) fun _ => ?_
  refine .of_run_ite (fun _ => ended.trans (enterCapped_ordersPass _)) fun _ => ?_
  refine .of_run_ite (fun _ => ?_) fun _ => .of_orders (orders_sledCommand _ s)
  exact .of_run_ite (fun _ => ended.then_orders (orders_enterOpen _ _)) fun _ =>
    ended.then_orders (orders_enterUnparked _)

theorem stcSledDone_ordersPass (s : State) : OrdersPass s (stcSledDone s).1 := by
  unfold stcSledDone
  split
  case h_2 => exact .of_run_ite (fun _ => enterCapped_ordersPass s) fun _ => .refl s
  case h_1 =>
    refine .of_orders ?_
    repeat' split
    all_goals simp
  case h_3 => exact .of_orders (by split <;> simp)
  all_goals exact .refl s

theorem nextSpit_ordersPass (s : State) : OrdersPass s (nextSpit s).1 := by
  unfold nextSpit
  refine .of_run_ite (fun _ => ?_) fun _ => .refl s
  split
  · exact placeOrder_ordersPass _ _ s
  · exact .of_orders (orders_spitsDone s)

theorem stageEntered_ordersPass (s : State) : OrdersPass s (stageEntered s).1 := by
  unfold stageEntered
  refine .of_run_ite (fun _ => ?_) fun _ => .refl s
  split
  case h_4 => exact .of_run_ite (fun _ => nextSpit_ordersPass s) fun _ => .refl s
  all_goals exact .of_orders (by simp)

theorem clsWiperDone_ordersPass (s : State) : OrdersPass s (clsWiperDone s).1 := by
  unfold clsWiperDone
  refine .of_run_ite (fun _ => ?_) fun _ => .refl s
  exact .of_run_ite (fun _ => placeOrder_ordersPass _ _ s) fun _ => .of_orders rfl

theorem dtuPlace_ordersPass (s : State) : OrdersPass s (dtuPlace s).1 := by
  unfold dtuPlace
  refine .of_run_ite (fun _ => .refl s) fun _ => ?_
  split
  · exact placeOrder_ordersPass _ _ s
  · exact .refl s

theorem sledDone_ordersPass (s : State) : OrdersPass s (sledDone s).1 := by
  unfold sledDone
  refine .of_run_ite (fun _ => ?_) fun _ => stcSledDone_ordersPass s
  refine .of_run_ite (fun _ => handBack_ordersPass s) fun _ => ?_
  split
  all_goals exact .of_orders (by simp)

theorem wiperDone_ordersPass (s : State) : OrdersPass s (wiperDone s).1 := by
  unfold wiperDone
  refine .of_run_ite (fun _ => ?_) fun _ => .of_orders (orders_stcWiperDone s)
  refine .of_run_ite (fun _ => handBack_ordersPass s) fun _ => ?_
  split
  case h_1 => exact clsWiperDone_ordersPass s
  all_goals exact .refl s

/-- A JAM removes the QUEUED orders of the feed (R88, R148). -/
theorem declareJam_ordersPass (n : Nat) (s : State) : OrdersPass s (declareJam n s).1 := by
  have stopped : OrdersPass s (withdraw .fdc (pauJam (holdPath .jam (stopMotion n s)))) := .of_orders (by simp)
  unfold declareJam
  refine (stopped.trans (removeQueued_ordersPass .feed _)).then_orders ?_
  simp

theorem edgeTo_ordersPass (media : Bool) (n : Nat) (s : State) : OrdersPass s (edgeTo media n s).1 := by
  unfold edgeTo
  refine .of_run_ite (fun _ => .refl s) fun _ => ?_
  have read : OrdersPass s (setPath { s.fdc.path with leadingEdge := media } s) := .of_orders rfl
  refine read.trans ?_
  generalize setPath { s.fdc.path with leadingEdge := media } s = t
  dsimp only
  split
  · next m _ =>
    unfold edgeInMotion
    split
    case h_3 | h_4 | h_5 => exact .of_run_ite (fun _ => .refl t) fun _ => declareJam_ordersPass n t
    all_goals
      refine .of_orders ?_
      repeat' split
      all_goals simp
  · unfold edgeAtRest
    split
    case h_3 | h_4 => exact .of_run_ite (fun _ => .refl t) fun _ => declareJam_ordersPass 0 t
    all_goals
      refine .of_orders ?_
      repeat' split
      all_goals simp

theorem returnOrders_ordersPass (s : State) : OrdersPass s (returnOrders s).1 := by
  unfold returnOrders
  refine (returnTaken_ordersPass s).then_orders ?_
  dsimp only
  split <;> rfl

theorem fetchOrder_ordersPass (p : Port) (s : State) : OrdersPass s (fetchOrder p s).1 := by
  unfold fetchOrder
  split
  · exact .of_orders rfl
  · split
    · exact .of_orders rfl
    · exact (takeOldest_ordersPass s).then_orders rfl

theorem orderDone_ordersPass (p : Port) (body : List Byte) (s : State) : OrdersPass s (orderDone p body s).1 := by
  unfold orderDone
  refine .of_run_ite (fun _ => .of_orders rfl) fun _ => ?_
  split
  · refine .of_run_ite (fun _ => .trans ?_ (endTaken_ordersPass _ _ _)) fun _ => .of_orders rfl
    exact .of_orders rfl
  · exact .of_orders rfl

theorem orderExpires_ordersPass (s : State) : OrdersPass s (orderExpires s).1 := by
  unfold orderExpires
  split
  · exact orderTimeout_ordersPass _ s
  · exact .refl s

/-! ### Resets and the millisecond -/

@[simp] theorem orders_linkReset (p : Port) (s : State) : orders (linkReset p s).1 = orders s := by
  have posted (s : State) : orders (resetPosted s) = orders s := rfl
  have cleared (s : State) : orders (resetPort p s) = orders s := rfl
  unfold linkReset
  dsimp only
  split <;> simp [posted, cleared]

@[simp] theorem orders_startUp (s : State) : orders (startUp s).1 = orders s := by
  have scanned (s : State) : orders (startScan s).1 = orders s := by
    have inserted := foldl_kept orders (fun s b => if s.pins.presence.get b then insertBay b true s else s)
      (fun s b => by split <;> simp) allBays s
    unfold startScan
    dsimp only
    split <;> simp [inserted]
  unfold startUp
  simp only [orders_andThen, orders_beginHoming, scanned]
  rfl

/-- A device reset leaves an empty queue, whatever it held before (R78, R174). -/
theorem deviceReset_ordersPass (r : Readings) (s : State) : OrdersPass s (deviceReset r s).1 := by
  unfold deviceReset
  exact .trans (t := { State.resetWith r with pending := s.pending }) (.of_sublist (List.nil_sublist _))
    (.of_orders (orders_startUp _))

theorem tick_ordersPass (s : State) : OrdersPass s (tick s) := by
  have timed : OrdersPass s (tickTimers { s with timeBase := (s.timeBase + 1) % 4294967296 }) := tickOrders_lawful
  unfold tick
  split
  · exact .refl s
  · dsimp only
    split
    · exact .of_orders rfl
    · exact timed.then_orders rfl

/-! ### Every command and every step -/

theorem perform_ordersPass (a : Act) (s : State) : OrdersPass s (perform a s).1 := by
  cases a
  case extEntry => exact extEntry_ordersPass s
  case handBack => exact handBack_ordersPass s
  case sledDone => exact sledDone_ordersPass s
  case wiperDone => exact wiperDone_ordersPass s
  case enterWaiting => exact enterWaiting_ordersPass s
  case place who b => exact placeOrder_ordersPass who b s
  case stageEntered => exact stageEntered_ordersPass s
  case nextSpit => exact nextSpit_ordersPass s
  case dtuPlace => exact dtuPlace_ordersPass s
  case returnOrders => exact returnOrders_ordersPass s
  case sessionBegun who => cases who <;> exact .of_orders (by simp [perform])
  all_goals exact .of_orders (by simp [perform])

theorem settle_ordersPass {s t : State} {r : Run} (h : settle r = .next t) (own : OrdersPass s r.1) : OrdersPass s t :=
  ordersPass_carries.settle perform_ordersPass h own

theorem exec_ordersPass {i : Instr} {s t : State} (h : exec i s = .next t) : OrdersPass s t := by
  have hR := ordersPass_carries
  cases i <;> simp only [exec] at h
  case resetNAssert => exact settle_ordersPass h (.of_orders rfl)
  case deviceReset r => exact settle_ordersPass h (deviceReset_ordersPass r s)
  case frameError p bytes =>
    unfold execFrameError at h
    split at h
    · exact settle_ordersPass h (hR.transaction (fun s => .of_orders rfl) p _ s)
    · exact settle_ordersPass h (hR.event (fun s => .of_orders rfl) s)
    · exact settle_ordersPass h (hR.event (fun s => .of_orders rfl) s)
  case readReply p body =>
    exact settle_ordersPass h
      (hR.transaction (hR.fitting (fun s => .of_orders (orders_readReply p body s)) p body) p _ s)
  case linkReset p body =>
    exact settle_ordersPass h
      (hR.transaction (hR.fitting (fun s => .of_orders (orders_linkReset p s)) p body) p _ s)
  case usage p body =>
    refine settle_ordersPass h (hR.transaction (hR.fitting (fun s => ?_) p body) p _ s)
    split
    · exact .of_orders (orders_postUsage body s)
    · exact hR.dispatch hR.refl _ p body s
  case fetchOrder p body => exact settle_ordersPass h (hR.request (fetchOrder_ordersPass p) _ _ _ s)
  case orderDone p body => exact settle_ordersPass h (hR.request (orderDone_ordersPass p body) _ _ _ s)
  case orderTimerExpiry => exact settle_ordersPass h (hR.event orderExpires_ordersPass s)
  case waitingPlacementEntry => exact settle_ordersPass h (hR.event enterWaiting_ordersPass s)
  case exposureExpiry k =>
    exact settle_ordersPass h
      (hR.event (fun s => .of_run_ite (fun _ => exposureExpires_ordersPass k s) fun _ => .refl s) s)
  case feedMotionTimeout n =>
    exact settle_ordersPass h
      (hR.event (fun s => .of_run_ite (fun _ => declareJam_ordersPass n s) fun _ => .refl s) s)
  case leadingEdgeChange media n => exact settle_ordersPass h (hR.watched (edgeTo_ordersPass media n) _ _ s)
  case sledMotionTimeout | wiperMotionTimeout | pumpStall | fenceRelease | parkTimerExpiry | idleCapExpiry
      | grantHoldExpiry | fireSyncStrobe =>
    refine settle_ordersPass h (hR.event (fun s => .of_orders ?_) s)
    split <;> simp
  case bayPresenceClose | bayPresenceOpen | floatChange | wastePresenceClose | wastePresenceOpen | pathEntryChange
      | sourceEndSensor | coverSensorOpen | coverSensorClose | sourceEndSensorClear =>
    exact settle_ordersPass h (hR.watched (fun s => .of_orders (by simp)) _ _ s)
  case statusPoll | usageApply | busTransactionStart | busAttemptUnacknowledged | chipReadDone | chipReadFail
      | wasteReadDone | wasteReadFail | chipWriteDone | chipWriteFail | strokeComplete | waitInkEnd | sledMotionDone
      | wiperMotionDone | endSensorChangeIdle | pumpRevolution | homeSensorChange | detectorSample | arbiterServe
      | loadMotionDone | unloadMotionDone | advanceDone | cutAdvanceDone | manualFeedDone | replyShiftedOut =>
    exact settle_ordersPass h (hR.event (fun s => .of_orders (by simp [strokeRun])) s)
  case setDate => exact settle_ordersPass h (hR.request (fun s => .of_orders rfl) _ _ _ s)
  all_goals exact settle_ordersPass h (hR.request (fun s => .of_orders (by simp)) _ _ _ s)

theorem step_ordersPass {s t : State} (h : step s = .next t) : OrdersPass s t := by
  unfold step at h
  split at h
  · unfold idleStep at h
    split at h
    · exact settle_ordersPass h (.of_orders (orders_startUp s))
    · cases h
      exact tick_ordersPass s
  · next c rest _ =>
    have taken : OrdersPass s { s with pending := rest } := .of_orders rfl
    exact taken.trans (exec_ordersPass h)

/-- Settles O57: every step passes the law of the order queue on. -/
theorem orderQueueKept : Obligations.OrderQueueKept := fun _ _ lawful h => step_ordersPass h lawful

end Sys2Proof.Machine
end

