-- ==== Sys2Proof/Proofs/OrdersFetched.lean ====
section
/-!
SUPPORT. The oldest order as FETCH_ORDER and ORDER_DONE look at it, the layout of the reply, and what a waiting
placement does as it enters. Settles O36 and O38.
-/

namespace Sys2Proof.Machine

/-! ### The TAKEN order (R83) -/

theorem takenOrder_nil {s : State} (queue : s.orq.queue = []) : takenOrder s = none := by
  simp only [takenOrder, queue]

theorem takenOrder_cons {s : State} {o : Order} {os : List Order} (queue : s.orq.queue = o :: os) :
    takenOrder s = if o.isTaken then some o else none := by
  simp only [takenOrder, queue]

theorem takenOrder_taken {s : State} {o : Order} {os : List Order} (queue : s.orq.queue = o :: os)
    (taken : o.isTaken = true) : takenOrder s = some o := (takenOrder_cons queue).trans (if_pos taken)

theorem isTaken_of_queued {o : Order} (h : o.state = .queued) : o.isTaken = false := by
  simp only [Order.isTaken, h]

theorem isTaken_of_taken {o : Order} {n limit : Nat} (h : o.state = .taken n limit) : o.isTaken = true := by
  simp only [Order.isTaken, h]

/-! ### FETCH_ORDER (R83, R84) -/

theorem exec_fetchOrder {p : Port} {body : List Byte} {s : State} (h : Takes s .fetchOrder p body) :
    exec (.fetchOrder p body) s = settle (fetchOrder p (heldFor .fetchOrder p s)) := settle_request h _

theorem fetchOrder_none {p : Port} {s : State} (queue : s.orq.queue = []) :
    fetchOrder p s = reply p .fetchOrder .noOrder (fetchBody s none false) s := by
  simp only [fetchOrder, takenOrder_nil queue, queue]

theorem fetchOrder_taken {p : Port} {s : State} {o : Order} {os : List Order} (queue : s.orq.queue = o :: os)
    (taken : o.isTaken = true) : fetchOrder p s = reply p .fetchOrder .ok (fetchBody s (some o) true) s := by
  simp only [fetchOrder, takenOrder_taken queue taken]

theorem fetchOrder_queued {p : Port} {s : State} {o : Order} {os : List Order} (queue : s.orq.queue = o :: os)
    (queued : o.state = .queued) :
    fetchOrder p s = reply p .fetchOrder .ok (fetchBody s (some o) false) (takeOldest s) := by
  simp only [fetchOrder, takenOrder_cons queue, isTaken_of_queued queued, Bool.false_eq_true, if_false, queue]

/-- The oldest order becomes TAKEN, its limit by its kind (R84); a CHECK_FIRE's record begins empty (R91, R116). -/
theorem takeOldest_eq {s : State} {o : Order} {os : List Order} (queue : s.orq.queue = o :: os) :
    takeOldest s = beginSample o
      (setOrq { s.orq with queue := { o with state := .taken 0 (orderLimit s.params o.body) } :: os } s) := by
  simp only [takeOldest, queue]

theorem orderLimit_eq (q : Params) (b : OrderBody) :
    orderLimit q b = if b = .cutPass then q.cutPassTimeout else q.orderTimeout := by
  cases b <;> simp [orderLimit]

/-- Settles O36, by what stands at the head of the queue. -/
theorem orderFetched : Obligations.OrderFetched := by
  intro p body s takes fields opening order
  have layout (b : OrderBody) : orderParams b = fields b := by cases b <;> rfl
  have named : leOr 1 0xFF s.orq.lastTimedOut = le 1 (match s.orq.lastTimedOut with | some n => n | none => 0xFF) := by
    cases s.orq.lastTimedOut <;> rfl
  have absent : fetchBody s none false = opening false false ++ (le 1 0xFF ++ le 7 0) := by
    rw [fetchBody, named]
    rfl
  have given (o : Order) (again : Bool) : fetchBody s (some o) again = opening true again ++ order o := by
    rw [fetchBody, named, layout]
    rfl
  refine ⟨fun empty => ?absent, fun o os queue => ⟨fun taken => ?repeated, fun queued => ?first⟩⟩
  case absent =>
    rw [exec_fetchOrder takes, fetchOrder_none (s := heldFor .fetchOrder p s) empty, reply, answer_heldFor]
    exact congrArg (fun b => settle (Run.done (answered p .fetchOrder .noOrder b s))) absent
  case repeated =>
    rw [exec_fetchOrder takes, fetchOrder_taken (s := heldFor .fetchOrder p s) queue taken, reply, answer_heldFor]
    exact congrArg (fun b => settle (Run.done (answered p .fetchOrder .ok b s))) (given o true)
  case first =>
    intro limit t
    rw [exec_fetchOrder takes, fetchOrder_queued (s := heldFor .fetchOrder p s) queue queued,
      takeOldest_eq (s := heldFor .fetchOrder p s) queue, orderLimit_eq]
    have told : answer p .fetchOrder .ok (fetchBody s (some o) false) (heldFor .fetchOrder p s) =
        answered p .fetchOrder .ok (opening true false ++ order o) s := by rw [answer_heldFor, given]
    unfold beginSample
    split
    · exact congrArg (fun u : State => Host.Outcome.next
        { setOrq t.orq u with dtu := { s.dtu with sample := some ⟨edgeOf s.params, 0, [], []⟩ } }) told
    · exact congrArg (fun u : State => Host.Outcome.next (setOrq t.orq u)) told

/-! ### A waiting placement enters (R79 to R81) -/

theorem exec_waitingPlacementEntry {s : State} (awake : Awake s) :
    exec .waitingPlacementEntry s = settle (enterWaiting s) := congrArg settle (event_awake awake)

theorem enterWaiting_full {s : State} (full : 16 ≤ s.orq.queue.length) : enterWaiting s = (s, []) := by
  have noRoom : hasRoom s = false := decide_eq_false full.not_gt
  unfold enterWaiting
  cases waiting : s.orq.waiting with
  | nil => exact (congrArg (enterWaitingFrom · s) waiting.symm).trans (enterWaiting_empty waiting)
  | cons w ws =>
    rw [enterWaitingFrom, if_neg (by simp [noRoom]), ← waiting]
    rfl

/-- The only waiting placement enters, and the next consequence is that its unit is told (R81). -/
theorem enterWaiting_single {s : State} {w : Placement} (waiting : s.orq.waiting = [w])
    (room : s.orq.queue.length < 16) :
    enterWaiting s =
      (setOrq { (enterOrder w.body w.who.origin s).orq with waiting := [] } (enterOrder w.body w.who.origin s),
        [.entered w.who (nextOrderId s)]) := by
  have hasRoom : hasRoom s = true := decide_eq_true room
  unfold enterWaiting
  rw [waiting, enterWaitingFrom, if_pos hasRoom]
  rfl

@[simp] theorem fdc_enterOrder (b : OrderBody) (o : Origin) (s : State) : (enterOrder b o s).fdc = s.fdc := by
  unfold enterOrder
  dsimp only
  split <;> rfl

/-- Settles O38: the FDC's CUT_PASS enters and the cut is told its id. -/
theorem waitingPlacementEnters : Obligations.WaitingPlacementEnters := by
  intro s awake
  refine ⟨?nothing, ?enters, fun room o here same => nextOrderId_free room (same ▸ List.mem_map_of_mem here)⟩
  case nothing =>
    rintro (empty | full)
    · exact (exec_waitingPlacementEntry awake).trans (congrArg settle (enterWaiting_empty empty))
    · rw [exec_waitingPlacementEntry awake, enterWaiting_full full]
      rfl
  case enters =>
    intro waiting room cut id t
    rw [exec_waitingPlacementEntry awake, enterWaiting_single waiting room]
    have told : perform (.entered .fdc id) (setOrq { (enterOrder .cutPass .feed s).orq with waiting := [] }
        (enterOrder .cutPass .feed s)) = (if s.orq.queue.isEmpty then raise .ordersPending 0 none t else t, []) := by
      have still : (enterOrder .cutPass .feed s).fdc = s.fdc := fdc_enterOrder _ _ s
      show (fdcEntered id _, []) = _
      rw [fdcEntered, if_pos (by exact (congrArg (fun x : Fdc => x.path.cut) still).trans cut)]
      unfold enterOrder
      dsimp only
      split <;> rfl
    exact settle_one told

end Sys2Proof.Machine
end

