-- ==== Sys2Proof/Proofs/CyclesEnded.lean ====
section
/-!
SUPPORT. Agendas worked off one consequence at a time; an order that ends, a cycle that finishes or is aborted, and the
zone it gives back (R74, R85, R109 to R112).
-/

namespace Sys2Proof.Machine

/-! ### Agendas -/

/-- The agenda of `r` is worked off in `k` consequences, and leaves `t`. -/
def WorkedOff (k : Nat) (r : Run) (t : State) : Prop :=
  ∀ n rest, runActs (n + k) (r.1, r.2 ++ rest) = runActs n (t, rest)

theorem WorkedOff.nil (s : State) : WorkedOff 0 (s, []) s := fun _ _ => rfl

theorem WorkedOff.cons {k : Nat} {s t u : State} {a : Act} {acts rest : List Act} (own : perform a s = (t, acts))
    (later : WorkedOff k (t, acts ++ rest) u) : WorkedOff (k + 1) (s, a :: rest) u := fun n more => by
  show runActs (n + k + 1) (s, a :: (rest ++ more)) = _
  rw [runActs_cons, own, ← List.append_assoc]
  exact later n more

theorem WorkedOff.append {j k : Nat} {s t u : State} {acts rest : List Act} (first : WorkedOff k (s, acts) t)
    (later : WorkedOff j (t, rest) u) : WorkedOff (j + k) (s, acts ++ rest) u := fun n more => by
  show runActs (n + (j + k)) (s, acts ++ rest ++ more) = _
  rw [← Nat.add_assoc, List.append_assoc]
  exact (first (n + j) (rest ++ more)).trans (later n more)

theorem WorkedOff.settle {k : Nat} {r : Run} {t : State} (h : WorkedOff k r t) (few : k ≤ 400) :
    settle r = .next t := by
  apply settle_of_runActs
  have run := h (400 - k) []
  rw [Nat.sub_add_cancel few, List.append_nil, runActs_nil] at run
  exact run

/-! ### The end of a TAKEN order (R85, R86) -/

/-- The TAKEN order gone from the queue, and its sample record with it. -/
def orderGone (os : List Order) (s : State) : State :=
  { s with orq := { s.orq with queue := os }, dtu := { s.dtu with sample := none } }

theorem takenEnded_zoneTaken {s : State} (zone : ZoneTaken s) : perform .takenEnded s = (s, []) := by
  obtain ⟨opened, capped⟩ := zone
  have idle : arbiterActs s = false := by simp [arbiterActs, opened, capped]
  show freeMoment false s = _
  rw [freeMoment, idle]
  rfl

theorem zoneTaken_of_servicing {s : State} (servicing : s.stc.state = .servicing) : ZoneTaken s := by
  simp [ZoneTaken, servicing]

/-- The unit whose order it was is told, and what follows in it is worked off before the arbiter and the waiting
placements, which find nothing to do. -/
theorem settle_endTaken {k : Nat} {s t u : State} {o : Order} {os : List Order} {how : OrderEnd} {acts : List Act}
    (queue : s.orq.queue = o :: os)
    (ends : orderEndedFor o how (if o.body.isCheckFire then s.dtu.sample else none) (orderGone os s) = (u, acts))
    (later : WorkedOff k (u, acts) t) (few : k ≤ 390) (free : perform .takenEnded t = (t, []))
    (empty : t.orq.waiting = []) : settle (endTaken o how s) = .next t := by
  have began : endTaken o how s = (orderGone os s,
      [.orderEnded o how (if o.body.isCheckFire then s.dtu.sample else none), .takenEnded, .enterWaiting]) := by
    simp only [endTaken, queue]
    rfl
  have last : WorkedOff 2 (t, [.takenEnded, .enterWaiting]) t := .cons free (.cons (enterWaiting_empty empty) (.nil t))
  rw [began]
  exact (WorkedOff.cons (a := .orderEnded o how _) ends (later.append last)).settle (by omega)

theorem exec_orderDone {p : Port} {body : List Byte} {s : State} (h : Takes s .orderDone p body) :
    exec (.orderDone p body) s = settle (orderDone p body (heldFor .orderDone p s)) := settle_request h _

/-- ORDER_DONE that names the TAKEN order (R85). -/
theorem exec_orderDone_taken {p : Port} {body : List Byte} {s : State} {o : Order} {os : List Order}
    (h : Takes s .orderDone p body) (flag : field body 1 1 ≤ 1) (queue : s.orq.queue = o :: os)
    (taken : o.isTaken = true) (named : field body 0 1 = o.id) :
    exec (.orderDone p body) s =
      settle (endTaken o (.done (field body 1 1 == 1)) (answered p .orderDone .ok (orderDoneBody s o) s)) := by
  have order : takenOrder (heldFor .orderDone p s) = some o := takenOrder_taken queue taken
  rw [exec_orderDone h]
  simp only [orderDone]
  rw [if_neg flag.not_gt, order]
  dsimp only
  rw [if_pos named.symm, answer_heldFor]
  rfl

theorem exec_orderDone_late {p : Port} {body : List Byte} {s : State} (h : Takes s .orderDone p body)
    (flag : field body 1 1 ≤ 1) (other : ∀ o, takenOrder s = some o → o.id ≠ field body 0 1) :
    exec (.orderDone p body) s = .next (answered p .orderDone .late [] s) := by
  have told : settle (reply p .orderDone .late [] (heldFor .orderDone p s)) =
      .next (answered p .orderDone .late [] s) := by
    rw [reply, answer_heldFor]
    rfl
  have same : takenOrder (heldFor .orderDone p s) = takenOrder s := rfl
  rw [exec_orderDone h, ← told]
  simp only [orderDone]
  rw [if_neg flag.not_gt, same]
  cases order : takenOrder s with
  | none => rfl
  | some o => exact congrArg settle (if_neg (other o order))

theorem exec_orderTimerExpiry {s : State} (awake : Awake s) : exec .orderTimerExpiry s = settle (orderExpires s) :=
  congrArg settle (event_awake awake)

/-- The order that the timer finds at its limit (R86). -/
theorem lateOrder_taken {s : State} {o : Order} {os : List Order} {n limit : Nat} (queue : s.orq.queue = o :: os)
    (taken : o.state = .taken n limit) : lateOrder s = if limit ≤ n then some o else none := by
  rw [lateOrder, takenOrder_taken queue (isTaken_of_taken taken)]
  simp only [taken]

/-- The timeout counted and told (R86). -/
def timeoutTold (o : Order) (s : State) : State :=
  raise .orderTimeout 0 (some (.orderId o.id))
    (setOrq { s.orq with timeouts := sat Config.u16Max (s.orq.timeouts + 1), lastTimedOut := some o.id } s)

theorem exec_orderTimerExpiry_late {s : State} {o : Order} {os : List Order} {n limit : Nat} (awake : Awake s)
    (queue : s.orq.queue = o :: os) (taken : o.state = .taken n limit) (late : limit ≤ n) :
    exec .orderTimerExpiry s = settle (endTaken o .timeout (timeoutTold o s)) := by
  rw [exec_orderTimerExpiry awake, orderExpires, lateOrder_taken queue taken, if_pos late]
  rfl

/-! ### The zone handed back (R74) -/

/-- A handback that finds the sled DOWN, the wiper RETRACTED and the carriage out of park ends at once. -/
theorem handBack_unparks {s : State} (servicing : s.stc.state = .servicing) (handing : s.stc.handingBack = true)
    (unparked : HandsBackUnparked s) : perform .handBack s = (setStc s.stc.handedBack s, [.extEntry]) := by
  obtain ⟨down, retracted, away, -⟩ := unparked
  have rests : ¬ (s.stc.sled.motion.isSome = true ∨ s.stc.wiper.motion.isSome = true) := by
    simp only [sledIsDown, wiperIsRetracted, Bool.and_eq_true, Option.isNone_iff_eq_none] at down retracted
    simp [down.1, retracted.1]
  show handBack s = _
  unfold handBack
  rw [if_pos ⟨servicing, handing⟩, if_neg rests, if_neg (by simp [retracted]), if_neg (by simp [away]), if_pos down,
    if_neg (by simp [away])]
  rfl

theorem workedOff_handBack {s : State} (servicing : s.stc.state = .servicing) (handing : s.stc.handingBack = true)
    (unparked : HandsBackUnparked s) : WorkedOff 2 (s, [.handBack]) (setStc s.stc.handedBack s) :=
  .cons (handBack_unparks servicing handing unparked)
    (.cons (extEntry_noneDue (unparked.2.2.2.of_ext rfl)) (.nil _))

/-- The wiper is commanded RETRACTED first where it is not (R74). -/
theorem handBack_wiper {s : State} (servicing : s.stc.state = .servicing) (handing : s.stc.handingBack = true)
    (sled : s.stc.sled.motion = none) (wiper : s.stc.wiper.motion = none) (out : wiperIsRetracted s = false)
    (pin : s.pins.wiperRetracted = false) :
    perform .handBack s =
      (setStc { s.stc with wiper := { s.stc.wiper with motion := some (.retracted, 0) } } s, []) := by
  show handBack s = _
  unfold handBack
  rw [if_pos ⟨servicing, handing⟩, if_neg (by simp [sled, wiper]), if_pos (by simp [out]),
    wiperCommand_starts (e := .retracted) wiper pin]

/-- The cycle's record as the CLS gives the zone back (R112). -/
def Cls.idle (x : Cls) : Cls :=
  { x with
    stage := .none, heads := [], suckLeft := [], spitLeft := [], outstanding := [], escalated := 0, abort := none }

theorem clsHandBack_held {s : State} (holder : s.stc.holder = some .cls) :
    clsHandBack s =
      ({ s with cls := s.cls.idle, stc := { s.stc with handingBack := true } }, [.clsClaim, .handBack]) :=
  congrArg (fun t : State => ((t, [.clsClaim, .handBack]) : Run)) (startHandBack_held (s := setCls s.cls.idle s) holder)

theorem clsClaim_none {s : State} (idle : anyPending s = false) : perform .clsClaim s = (s, []) := by
  show clsClaim s = _
  rw [clsClaim, idle]
  rfl

theorem clsClaim_hold {s : State} (hold : s.cls.hold ≠ none) : perform .clsClaim s = (s, []) := by
  show clsClaim s = _
  rw [clsClaim, if_neg (by simp [Option.isNone_iff_eq_none, hold])]
  rfl

/-- A zone given back with no entry pending goes to UNPARKED where the motors stand as it needs. -/
theorem workedOff_clsHandBack {s : State} (servicing : s.stc.state = .servicing) (holder : s.stc.holder = some .cls)
    (idle : anyPending s = false) (unparked : HandsBackUnparked s) :
    WorkedOff 3 (clsHandBack s) { s with cls := s.cls.idle, stc := s.stc.handedBack } := by
  rw [clsHandBack_held holder]
  exact .cons (clsClaim_none idle) (workedOff_handBack (s := { s with cls := _, stc := _ }) servicing rfl unparked)

theorem anyPending_eq_false {s : State} : anyPending s = false ↔ ∀ h, (entryOf s h).level = none := by
  simp [anyPending, allHeads, Fin.forall_fin_succ]

/-! ### A cycle that finishes (R109, R110) -/

/-- The cycle's record and CLEAN_DONE, before the zone is given back. -/
def cycleDone (s : State) : State :=
  let t := zeroDrops (suckedHeads s) s
  setCls { t.cls with last := ⟨lastHeads t.cls.heads, none⟩ }
    (raise .cleanDone (headSubjects (t.cls.heads.map CycleHead.head)) none t)

theorem finishCycle_eq (s : State) :
    finishCycle s =
      if ((cycleDone s).cls.heads.any fun x => x.outcome == some .escalated) ∧ anyPending (cycleDone s) then
        if (cycleDone s).cls.escalated < Config.escalationLimit then
          (setCls { (cycleDone s).cls with escalated := (cycleDone s).cls.escalated + 1 } (cycleDone s), [.formCycle])
        else clsHandBack (clearUrgent (cycleDone s))
      else clsHandBack (cycleDone s) := rfl

theorem headSubjects_heads (hs : List CycleHead) :
    headSubjects (hs.map CycleHead.head) = several (hs.map fun x => x.head.val) := by
  rw [headSubjects, List.map_map]
  rfl

/-- An entry whose head has been sucked (R109). -/
def CleanEntry.sucked (e : CleanEntry) : CleanEntry := { e with drops := 0, dropPlaced := false }

/-- From `s` to `t` nothing has changed but the cleaning table. -/
structure TableOnly (s t : State) : Prop where
  frame : { t with cls := s.cls } = s
  cls : t.cls = { s.cls with table := t.cls.table }

theorem TableOnly.refl (s : State) : TableOnly s s := ⟨rfl, rfl⟩

theorem TableOnly.trans {s t u : State} (h : TableOnly s t) (h' : TableOnly t u) : TableOnly s u where
  frame := (congrArg (fun y : State => { y with cls := s.cls }) h'.frame).trans h.frame
  cls := h'.cls.trans (congrArg (fun y : Cls => { y with table := u.cls.table }) h.cls)

theorem setEntry_tableOnly (s : State) (h : Fin 3) (e : CleanEntry) : TableOnly s (setEntry s h e) := ⟨rfl, rfl⟩

theorem zeroDrops_tableOnly (hs : List CycleHead) : ∀ s, TableOnly s (zeroDrops hs s) := by
  induction hs with
  | nil => exact .refl
  | cons x hs ih => exact fun s => (setEntry_tableOnly s x.head (entryOf s x.head).sucked).trans (ih _)

theorem entryOf_zeroDrops (hs : List CycleHead) (h : Fin 3) : ∀ s,
    entryOf (zeroDrops hs s) h = if ∃ x ∈ hs, x.head = h then (entryOf s h).sucked else entryOf s h := by
  induction hs with
  | nil => exact fun s => by simp [zeroDrops]
  | cons x hs ih =>
    intro s
    have rest := ih (setEntry s x.head (entryOf s x.head).sucked)
    refine rest.trans ?_
    by_cases here : x.head = h
    · subst here
      rw [entryOf_setEntry, if_pos (c := ∃ y ∈ x :: hs, y.head = x.head) ⟨x, List.mem_cons_self .., rfl⟩]
      split <;> rfl
    · rw [entryOf_setEntry_other _ _ here]
      simp [here]

/-- What the finish changes. -/
structure CycleDone (s t : State) : Prop where
  frame : { t with cls := s.cls, evu := s.evu } = s
  cls : t.cls = { s.cls with table := t.cls.table, last := ⟨lastHeads s.cls.heads, none⟩ }
  entries : ∀ h, entryOf t h = if ∃ x ∈ suckedHeads s, x.head = h then (entryOf s h).sucked else entryOf s h
  told : Told .cleanDone (several (s.cls.heads.map fun x => x.head.val)) none s t
  untold : ∀ k, k ≠ .cleanDone → Untold k s t

theorem cycleDone_spec (s : State) : CycleDone s (cycleDone s) := by
  obtain ⟨frame, cls⟩ := zeroDrops_tableOnly (suckedHeads s) s
  have evu : (zeroDrops (suckedHeads s) s).evu = s.evu := (congrArg State.evu frame :)
  have heads : (zeroDrops (suckedHeads s) s).cls.heads = s.cls.heads := by rw [cls]
  have quiet (k : EventKind) : Untold k s (zeroDrops (suckedHeads s) s) := untold_of_evu evu
  exact {
    frame := (congrArg (fun y : State => { y with evu := s.evu }) frame).trans rfl
    cls := by
      show ({ (zeroDrops (suckedHeads s) s).cls with last := _ } : Cls) = _
      rw [heads]
      exact congrArg (fun y : Cls => { y with last := ⟨lastHeads s.cls.heads, none⟩ }) cls
    entries := fun h => entryOf_zeroDrops (suckedHeads s) h s
    told := by
      rw [← headSubjects_heads, ← heads]
      exact ((quiet _).raise_self _ _).of_evu rfl
    untold := fun k n => ((quiet k).raise_other _ _ n.symm).of_evu rfl }

/-- A cycle none of whose heads is escalated gives the zone back as it finishes. -/
theorem finishCycle_plain {s : State} (unescalated : ∀ x ∈ s.cls.heads, x.outcome ≠ some .escalated) :
    finishCycle s = clsHandBack (cycleDone s) := by
  have heads : (cycleDone s).cls.heads = s.cls.heads := by rw [(cycleDone_spec s).cls]
  have plain : ((cycleDone s).cls.heads.any fun x => x.outcome == some .escalated) = false := by
    rw [heads, List.any_eq_false]
    exact fun x here => by simpa using unescalated x here
  rw [finishCycle_eq, plain]
  exact if_neg (by simp)

/-! ### A cycle that is aborted (R111, R112) -/

/-- What the close of an aborted cycle changes. -/
structure ClosedAborted (cause : CleanCause) (s t : State) : Prop where
  frame : { t with cls := s.cls, evu := s.evu } = s
  cls : t.cls =
    { s.cls with
      table := t.cls.table, hold := t.cls.hold
      last := ⟨s.cls.heads.map fun x => ⟨x.head, x.level, x.done, none⟩, some cause⟩ }
  hold : ∀ h, cause.abortHold = some h → t.cls.hold = some h
  folded : FoldedBack s.cls.heads s.cls.cancelled s t
  told : Told .cleanAborted (several (s.cls.heads.map fun x => x.head.val)) (some (.cleanCause cause)) s t

/-- The abort told (R111). -/
def abortToldAs (cause : CleanCause) (s : State) : State :=
  raise .cleanAborted (headSubjects (s.cls.heads.map CycleHead.head)) (some (.cleanCause cause)) s

theorem closeAborted_spec (cause : CleanCause) (s : State) : ClosedAborted cause s (closeAborted cause s) := by
  obtain ⟨frame, cls⟩ : FoldOnly (abortToldAs cause s) (foldBack (abortToldAs cause s)) := foldHeads_foldOnly _ _
  have evu : (foldBack (abortToldAs cause s)).evu = (abortToldAs cause s).evu := (congrArg State.evu frame :)
  have told : Told .cleanAborted (headSubjects (s.cls.heads.map CycleHead.head)) (some (.cleanCause cause)) s
      (abortToldAs cause s) := told_raise _ _ _ s
  exact {
    frame := (congrArg (fun y : State => { y with evu := s.evu }) frame).trans rfl
    cls := congrArg (fun y : Cls =>
      { y with
        table := (closeAborted cause s).cls.table, hold := (closeAborted cause s).cls.hold
        last := ⟨s.cls.heads.map fun x : CycleHead => ⟨x.head, x.level, x.done, none⟩, some cause⟩ }) cls
    hold := fun h holds => by
      unfold closeAborted
      rw [holds]
      rfl
    folded := foldBack_foldedBack (abortToldAs cause s)
    told := by
      rw [← headSubjects_heads]
      exact told.of_evu evu }

/-- At the safe point, the pump stopped and no order of the cycle TAKEN, the cycle closes and gives the zone back. -/
theorem safePoint_closesAs {s : State} {cause : CleanCause} (abort : s.cls.abort = some cause)
    (running : s.cls.stage.running = true) (stopped : s.stc.pump.running = false)
    (untaken : cycleOrderTaken s = false) :
    perform .safePoint s = clsHandBack (closeAborted cause (setStc { s.stc with selector := none } s)) := by
  have released : releaseSelector s = setStc { s.stc with selector := none } s := if_neg (by simp [stopped])
  show safePoint s = _
  simp only [safePoint, abort]
  rw [if_pos (by simp [running, stopped, untaken]), released]

/-- A cycle that is aborted with no check, no run and no placement of its own (R111). -/
theorem abortCycle_marks {s : State} {st : Stage} (cause : CleanCause) (cycle : CycleIn s st)
    (running : st.running = true) (unchecked : s.dtu.clsCheck = none) (stopped : s.stc.pump.running = false)
    (empty : s.orq.waiting = []) :
    perform (.abortCycle cause) s = (setCls { s.cls with abort := some cause } s, [.safePoint]) := by
  obtain ⟨stage, unaborted, -⟩ := cycle
  have runs : cycleRuns s = true := by simp [cycleRuns, stage, unaborted, running]
  have withdrawn : withdraw .cls (setCls { s.cls with abort := some cause } s) =
      setCls { s.cls with abort := some cause } s := by
    have kept : s.orq.waiting.filter (fun w => w.who != .cls) = s.orq.waiting := by rw [empty]; rfl
    show setOrq { s.orq with waiting := s.orq.waiting.filter _ } _ = _
    rw [kept]
    rfl
  show abortCycle cause s = _
  unfold abortCycle
  rw [if_pos runs]
  dsimp only
  rw [withdrawn, show dtuEndCheck (setCls _ s) = setCls _ s from if_neg (by simp [setCls, unchecked]), stopRun,
    if_neg (by exact (by simp [stopped] : ¬ s.stc.pump.running = true))]
  rfl

end Sys2Proof.Machine
end

