-- ==== Sys2Proof/Proofs/OrdersEnded.lean ====
section
/-!
SUPPORT. What the units do as an order of theirs ends: the FDC closes its cut, the CLS retracts its wiper, leaves
SPITTING or aborts (R106 to R112, R134, R159). Settles O37.
-/

namespace Sys2Proof.Machine

/-! ### The ends of orders, by their origin (R85, R86) -/

theorem orderDoneBody_other {o : Order} (s : State) (other : o.body.isCheckFire = false) : orderDoneBody s o = [] :=
  if_neg (by simp [other])

/-- ORDER_DONE of an order that is no CHECK_FIRE, its consequences worked off. -/
theorem exec_orderDone_worked {k : Nat} {p : Port} {body : List Byte} {s t u : State} {o : Order} {os : List Order}
    {acts : List Act} (h : Takes s .orderDone p body) (flag : field body 1 1 ≤ 1) (queue : s.orq.queue = o :: os)
    (taken : o.isTaken = true) (named : field body 0 1 = o.id) (other : o.body.isCheckFire = false)
    (ends : ∀ x, orderEndedFor o (.done (field body 1 1 == 1)) x (orderGone os (answered p .orderDone .ok [] s)) =
      (u, acts))
    (later : WorkedOff k (u, acts) t) (few : k ≤ 390) (free : perform .takenEnded t = (t, []))
    (empty : t.orq.waiting = []) : exec (.orderDone p body) s = .next t := by
  rw [exec_orderDone_taken h flag queue taken named, orderDoneBody_other s other]
  exact settle_endTaken (s := answered p .orderDone .ok [] s) queue (ends _) later few free empty

/-- The timer's end of an order, its consequences worked off. -/
theorem exec_orderTimerExpiry_worked {k : Nat} {s t u : State} {o : Order} {os : List Order} {n limit : Nat}
    {acts : List Act} (awake : Awake s) (queue : s.orq.queue = o :: os) (taken : o.state = .taken n limit)
    (late : limit ≤ n) (ends : ∀ x, orderEndedFor o .timeout x (orderGone os (timeoutTold o s)) = (u, acts))
    (later : WorkedOff k (u, acts) t) (few : k ≤ 390) (free : perform .takenEnded t = (t, []))
    (empty : t.orq.waiting = []) : exec .orderTimerExpiry s = .next t := by
  rw [exec_orderTimerExpiry_late awake queue taken late]
  exact settle_endTaken (s := timeoutTold o s) queue (ends _) later few free empty

theorem untold_timeoutTold {k : EventKind} (o : Order) (s : State) (other : k ≠ .orderTimeout) :
    Untold k s (timeoutTold o s) := by
  have counted : Untold k s
      (setOrq { s.orq with timeouts := sat Config.u16Max (s.orq.timeouts + 1), lastTimedOut := some o.id } s) :=
    untold_of_evu rfl
  exact counted.raise_other _ _ other.symm

theorem stc_timeoutTold (o : Order) (s : State) : (timeoutTold o s).stc = s.stc := raise_stc ..

theorem cls_timeoutTold (o : Order) (s : State) : (timeoutTold o s).cls = s.cls := raise_cls ..

theorem dtu_timeoutTold (o : Order) (s : State) : (timeoutTold o s).dtu = s.dtu := raise_dtu ..

theorem orq_timeoutTold (o : Order) (s : State) :
    (timeoutTold o s).orq =
      { s.orq with timeouts := sat Config.u16Max (s.orq.timeouts + 1), lastTimedOut := some o.id } := raise_orq ..

theorem pins_timeoutTold (o : Order) (s : State) : (timeoutTold o s).pins = s.pins := raise_pins ..

theorem orderEndedFor_exposure {o : Order} (origin : o.origin = .exposure) (how : OrderEnd) (x : Option Sample)
    (s : State) : orderEndedFor o how x s = (s, []) := by
  simp only [orderEndedFor, origin]
  rfl

theorem orderEndedFor_feed {o : Order} (origin : o.origin = .feed) (how : OrderEnd) (x : Option Sample) (s : State) :
    orderEndedFor o how x s = (fdcOrderEnded o how s, []) := by
  simp only [orderEndedFor, origin]
  rfl

theorem orderEndedFor_cleaning {o : Order} (origin : o.origin = .cleaning) (how : OrderEnd) (x : Option Sample)
    (s : State) : orderEndedFor o how x s = clsOrderEnded o how s := by
  simp only [orderEndedFor, origin]

theorem fdcOrderEnded_done {o : Order} {s : State} (cut : s.fdc.path.cut = some (.orderOut o.id)) :
    fdcOrderEnded o (.done false) s =
      raise .cutDone 0 none
        (setPath { s.fdc.path with position := 0, residue := 0, cut := none, state := .ready } s) := if_pos cut

theorem fdcOrderEnded_faulted {o : Order} {s : State} (cut : s.fdc.path.cut = some (.orderOut o.id)) :
    fdcOrderEnded o (.done true) s =
      raise .cutFailed 0 none (setPath { s.fdc.path with cut := none, state := .ready } s) := if_pos cut

theorem fdcOrderEnded_kept (o : Order) (how : OrderEnd) (s : State) :
    (fdcOrderEnded o how s).stc = s.stc ∧ (fdcOrderEnded o how s).orq = s.orq := by
  unfold fdcOrderEnded
  repeat' split
  all_goals exact ⟨rfl, rfl⟩

/-- ORDER_DONE of a cut's order (R159). -/
theorem exec_orderDone_fed {p : Port} {body : List Byte} {s : State} {o : Order} {os : List Order}
    (h : Takes s .orderDone p body) (flag : field body 1 1 ≤ 1) (queue : s.orq.queue = o :: os)
    (taken : o.isTaken = true) (named : field body 0 1 = o.id) (other : o.body.isCheckFire = false)
    (origin : o.origin = .feed) (empty : s.orq.waiting = []) (free : Unclaimed s) :
    exec (.orderDone p body) s =
      .next (fdcOrderEnded o (.done (field body 1 1 == 1)) (orderGone os (answered p .orderDone .ok [] s))) := by
  obtain ⟨stc, orq⟩ :=
    fdcOrderEnded_kept o (.done (field body 1 1 == 1)) (orderGone os (answered p .orderDone .ok [] s))
  exact exec_orderDone_worked h flag queue taken named other (fun x => orderEndedFor_feed origin _ x _) (.nil _)
    (by decide) (freeMoment_unclaimed (by rw [Unclaimed, stc]; exact free)) (by rw [orq]; exact empty)

/-! ### A cleaning order (R106, R107) -/

/-- The order gone from those outstanding. -/
def orderIn (o : Order) (s : State) : State :=
  setCls { s.cls with outstanding := s.cls.outstanding.filter fun n => n != o.id } s

section
variable {o : Order} {s : State} {st : Stage} (cycle : CycleIn s st) (mem : o.id ∈ s.cls.outstanding)
include cycle mem

theorem clsOrderEnded_wiped (wiping : st = .wiping) :
    clsOrderEnded o (.done false) s = (orderIn o s, [.wiperCommand .retracted]) := by
  obtain ⟨stage, unaborted, -⟩ := cycle
  simp [clsOrderEnded, orderIn, setCls, stage, wiping, unaborted, mem, Stage.running, OrderEnd.carriedOut]

theorem clsOrderEnded_spat (spitting : st = .spitting) :
    clsOrderEnded o (.done false) s = spitsDone (orderIn o s) := by
  obtain ⟨stage, unaborted, -⟩ := cycle
  simp [clsOrderEnded, orderIn, setCls, stage, spitting, unaborted, mem, Stage.running, OrderEnd.carriedOut]

theorem clsOrderEnded_failed {how : OrderEnd} (running : st.running = true) (failed : how.carriedOut = false) :
    clsOrderEnded o how s = (orderIn o s, [.abortCycle .orderFailed]) := by
  obtain ⟨stage, unaborted, -⟩ := cycle
  simp [clsOrderEnded, orderIn, setCls, stage, unaborted, mem, running, failed]

end

/-- The wiper, RAISED for the pass, is commanded RETRACTED (R106). -/
theorem workedOff_retract {s : State} (servicing : s.stc.state = .servicing) (rests : s.stc.wiper.motion = none)
    (away : s.pins.wiperRetracted = false) :
    WorkedOff 1 (s, [.wiperCommand .retracted])
      (setStc { s.stc with wiper := { s.stc.wiper with motion := some (.retracted, 0) } } s) :=
  .cons ((if_pos servicing).trans (wiperCommand_starts (e := .retracted) rests away)) (.nil _)

theorem spitsDone_more {s : State} (more : s.cls.outstanding ≠ [] ∨ s.cls.spitLeft ≠ []) : spitsDone s = (s, []) := by
  rw [spitsDone, if_neg]
  · rfl
  · rintro ⟨spits, orders⟩
    exact more.elim (· (List.isEmpty_iff.mp orders)) (· (List.isEmpty_iff.mp spits))

theorem spitsDone_last {s : State} (orders : s.cls.outstanding = []) (spits : s.cls.spitLeft = []) :
    spitsDone s = leaveSpitting s := if_pos (by simp [orders, spits])

/-! ### SPITTING left (R107, R108) -/

/-- The cycle in CHECKING, the heads that were not sucked UNCHECKED. -/
def toChecking (s : State) : State :=
  setCls { s.cls with
    stage := .checking
    heads := s.cls.heads.map fun y => if y.sucked then y else { y with outcome := some .unchecked } } s

/-- The cycle at its finish with every head UNCHECKED. -/
def toFinishing (s : State) : State :=
  setCls { s.cls with
    stage := .finishing, heads := s.cls.heads.map fun y => { y with outcome := some .unchecked } } s

theorem leaveSpitting_checks {s : State} (auto : s.params.autoCheck = 1) (sucked : suckedHeads s ≠ []) :
    leaveSpitting s = (toChecking s, [.stageEntered]) := if_pos ⟨auto, by simpa using sucked⟩

theorem leaveSpitting_finishes {s : State} (plain : s.params.autoCheck ≠ 1 ∨ suckedHeads s = []) :
    leaveSpitting s = (toFinishing s, [.stageEntered]) := by
  refine if_neg ?_
  rintro ⟨auto, sucked⟩
  exact plain.elim (· auto) fun none => sucked (by simp [none])

theorem suckedHeads_map {s t : State} {f : CycleHead → CycleHead} (heads : t.cls.heads = s.cls.heads.map f)
    (kept : ∀ x, (f x).sucked = x.sucked) : suckedHeads t = (suckedHeads s).map f := by
  rw [suckedHeads, suckedHeads, heads, List.filter_map]
  congr 1
  exact List.filter_congr fun x _ => kept x

theorem suckedHeads_toChecking (s : State) : suckedHeads (toChecking s) = suckedHeads s := by
  rw [suckedHeads_map (s := s) rfl fun x => by split <;> rfl]
  refine (List.map_congr_left fun x here => ?_).trans (List.map_id _)
  exact if_pos (List.mem_filter.mp here).2

/-! ### The DTU's orders (R108, R118) -/

/-- The DTU's order in the queue, and the DTU told. -/
def orderPlaced (b : OrderBody) (s : State) : State := dtuEntered (nextOrderId s) (enterOrder b .check s)

theorem workedOff_dtuPlace {s : State} {b : OrderBody} (machine : s.dtu.machine ≠ .idle) (order : dtuOrder s = some b)
    (empty : s.orq.waiting = []) (room : s.orq.queue.length < 16) :
    WorkedOff 2 (s, [.dtuPlace]) (orderPlaced b s) := by
  have places : perform .dtuPlace s = (enterOrder b .check s, [.entered .dtu (nextOrderId s)]) := by
    show dtuPlace s = _
    rw [dtuPlace, if_neg machine, order]
    exact (if_neg (by simp [isWaiting, empty])).trans (if_pos (decide_eq_true room))
  exact .cons places (.cons rfl (.nil _))

/-- The state but for ORDERS_PENDING, which a queue that was empty raises (R78). -/
theorem orderPlaced_eq (b : OrderBody) (s : State) :
    let u : State :=
      { s with
        dtu := { s.dtu with outstanding := some (nextOrderId s) }
        orq := { s.orq with
          queue := s.orq.queue ++ [⟨nextOrderId s, b, .check, .queued⟩], nextId := (nextOrderId s + 1) % 256 } }
    orderPlaced b s = if s.orq.queue.isEmpty then raise .ordersPending 0 none u else u := by
  unfold orderPlaced enterOrder
  dsimp only
  split <;> rfl

theorem stc_orderPlaced (b : OrderBody) (s : State) : (orderPlaced b s).stc = s.stc := by
  rw [orderPlaced_eq]
  split <;> rfl

theorem waiting_orderPlaced (b : OrderBody) (s : State) : (orderPlaced b s).orq.waiting = s.orq.waiting := by
  rw [orderPlaced_eq]
  split <;> rfl

/-- The cycle's check begun for its rows (R108, R118). -/
def checkBegun (rows : List (Fin 6)) (s : State) : State :=
  setDtu { s.dtu with
    machine := .checking, holder := some .cls
    clsCheck := some ⟨rows, s.params.groupCount, s.params.passLimit, []⟩ } s

/-- CHECKING entered: the check of the cycle begins and its first CHECK_FIRE is placed. -/
theorem workedOff_checking {s : State} {x : CycleHead} {xs : List CycleHead} (stage : s.cls.stage = .checking)
    (unaborted : s.cls.abort = none) (sucked : suckedHeads s = x :: xs) (empty : s.orq.waiting = [])
    (room : s.orq.queue.length < 16) :
    let c := firstChannel x.head
    WorkedOff 3 (s, [.stageEntered])
      (orderPlaced (.checkFire c 0 (s.params.groupCount - 1) (health s c).delay) (checkBegun (checkRows s) s)) := by
  have enters : perform .stageEntered s = (checkBegun (checkRows s) s, [.dtuPlace]) := by
    show stageEntered s = _
    rw [stageEntered, if_pos (by simp [cycleRuns, stage, unaborted, Stage.running]), stage]
    rfl
  have rows : checkRows s = firstChannel x.head :: secondChannel x.head ::
      xs.flatMap fun y => [firstChannel y.head, secondChannel y.head] := by
    rw [checkRows, sucked]
    rfl
  refine .cons enters (workedOff_dtuPlace nofun ?_ empty room)
  rw [rows]
  rfl

/-! ### The finish (R109, R110) -/

/-- A cycle at its finish with no head escalated and no entry pending: recorded, told and the zone handed back. -/
theorem workedOff_finishing {s : State} (cycle : CycleIn s .finishing)
    (plain : ∀ x ∈ s.cls.heads, x.outcome ≠ some .escalated) (idle : anyPending (cycleDone s) = false)
    (unparked : HandsBackUnparked s) :
    WorkedOff 4 (s, [.stageEntered]) { cycleDone s with cls := (cycleDone s).cls.idle, stc := s.stc.handedBack } := by
  obtain ⟨stage, unaborted, servicing, holder, -⟩ := cycle
  have stc : (cycleDone s).stc = s.stc := (congrArg State.stc (cycleDone_spec s).frame :)
  have stands : HandsBackUnparked (cycleDone s) := by
    have pins : (cycleDone s).pins = s.pins := (congrArg State.pins (cycleDone_spec s).frame :)
    have ext : (cycleDone s).ext = s.ext := (congrArg State.ext (cycleDone_spec s).frame :)
    obtain ⟨down, retracted, away, due⟩ := unparked
    exact ⟨by rwa [sledIsDown, stc], by rwa [wiperIsRetracted, stc], by rwa [stc], due.of_ext ext⟩
  have enters : perform .stageEntered s = clsHandBack (cycleDone s) := by
    show stageEntered s = _
    rw [stageEntered, if_pos (by simp [cycleRuns, stage, unaborted, Stage.running]), stage]
    exact finishCycle_plain plain
  have handed := workedOff_clsHandBack (s := cycleDone s) (by rw [stc]; exact servicing) (by rw [stc]; exact holder)
    idle stands
  rw [stc] at handed
  exact .cons enters (by rw [List.append_nil]; exact handed)

theorem cycleDone_levels {s : State} (levels : ∀ h, (entryOf s h).level = none) : anyPending (cycleDone s) = false := by
  refine anyPending_eq_false.mpr fun h => ?_
  rw [(cycleDone_spec s).entries]
  split <;> exact levels h

/-- What the finish of a cycle that is not checked changes, its zone handed back to UNPARKED. -/
structure CycleUnchecked (s u : State) : Prop where
  told : Told .cleanDone (several (s.cls.heads.map fun x => x.head.val)) none s u
  entries : ∀ h, entryOf u h =
    if ∃ x ∈ suckedHeads s, x.head = h then { entryOf s h with drops := 0, dropPlaced := false } else entryOf s h
  cls : u.cls =
    { s.cls with
      table := u.cls.table, stage := .none, heads := [], suckLeft := [], spitLeft := [], outstanding := []
      escalated := 0, abort := none
      last := ⟨s.cls.heads.map fun x => ⟨x.head, x.level, x.done, some .unchecked⟩, none⟩ }
  stc : u.stc = s.stc.handedBack
  frame : { u with cls := s.cls, stc := s.stc, evu := s.evu } = s

theorem workedOff_unchecked {s : State} {st : Stage} (cycle : CycleIn s st) (levels : ∀ h, (entryOf s h).level = none)
    (unparked : HandsBackUnparked s) : ∃ u, WorkedOff 4 (toFinishing s, [.stageEntered]) u ∧ CycleUnchecked s u := by
  have finishing : CycleIn (toFinishing s) .finishing := ⟨rfl, cycle.2⟩
  have plain : ∀ x ∈ (toFinishing s).cls.heads, x.outcome ≠ some .escalated := by
    intro x here
    obtain ⟨y, -, rfl⟩ := List.mem_map.mp here
    nofun
  have worked := workedOff_finishing finishing plain (cycleDone_levels (s := toFinishing s) levels) unparked
  obtain ⟨frame, cls, entries, told, -⟩ := cycleDone_spec (toFinishing s)
  refine ⟨_, worked, ?_⟩
  exact {
    told := by
      have heads : ((toFinishing s).cls.heads.map fun x => x.head.val) = s.cls.heads.map fun x => x.head.val :=
        List.map_map ..
      rw [heads] at told
      exact told
    entries := fun h => by
      have sucked := suckedHeads_map (s := s) (t := toFinishing s) rfl fun _ => rfl
      refine (entries h).trans ?_
      rw [sucked]
      simp only [List.mem_map, exists_exists_and_eq_and]
      rfl
    cls := by
      have last : lastHeads (toFinishing s).cls.heads =
          s.cls.heads.map fun x => ⟨x.head, x.level, x.done, some .unchecked⟩ := List.map_map ..
      show (cycleDone (toFinishing s)).cls.idle = _
      rw [cls, last]
      rfl
    stc := rfl
    frame := congrArg (fun y : State => { y with cls := s.cls, stc := s.stc, evu := s.evu }) frame }

/-! ### A cleaning order that fails (R111, R112) -/

/-- What the abort of a cycle in WIPING or SPITTING comes to, the zone handed back once the wiper is RETRACTED. -/
structure CycleFailed (s t : State) : Prop where
  orq : t.orq = s.orq
  cls : t.cls =
    { s.cls with
      table := t.cls.table, stage := .none, heads := [], suckLeft := [], spitLeft := [], outstanding := []
      escalated := 0, abort := none, hold := some .orderFailed
      last := ⟨s.cls.heads.map fun x => ⟨x.head, x.level, x.done, none⟩, some .orderFailed⟩ }
  stc : t.stc =
    { s.stc with
      selector := none, handingBack := true
      wiper := { s.stc.wiper with motion := some (.retracted, 0) } }
  folded : FoldedBack s.cls.heads s.cls.cancelled s t
  told : Told .cleanAborted (several (s.cls.heads.map fun x => x.head.val)) (some (.cleanCause .orderFailed)) s t

theorem cycleOrderTaken_untaken {s : State} (untaken : ∀ y ∈ s.orq.queue, y.isTaken = false) :
    cycleOrderTaken s = false := by
  rw [cycleOrderTaken, List.any_eq_false]
  intro y here
  simp [untaken y here]

theorem workedOff_orderFailed {s : State} {st : Stage} (cycle : CycleIn s st) (running : st.running = true)
    (untaken : ∀ y ∈ s.orq.queue, y.isTaken = false) (unchecked : s.dtu.clsCheck = none)
    (stopped : s.stc.pump.running = false) (sled : s.stc.sled.motion = none) (wiper : s.stc.wiper.motion = none)
    (out : wiperIsRetracted s = false) (pin : s.pins.wiperRetracted = false) (empty : s.orq.waiting = []) :
    ∃ t, WorkedOff 4 (s, [.abortCycle .orderFailed]) t ∧ CycleFailed s t := by
  have marks := abortCycle_marks .orderFailed cycle running unchecked stopped empty
  obtain ⟨stage, -, servicing, holder, -⟩ := cycle
  obtain ⟨c, closes, closed⟩ : ∃ c,
      perform .safePoint (setCls { s.cls with abort := some .orderFailed } s) = clsHandBack c ∧
        ClosedAborted .orderFailed
          (setStc { s.stc with selector := none } (setCls { s.cls with abort := some .orderFailed } s)) c :=
    ⟨_, safePoint_closesAs rfl (stage ▸ running) stopped (cycleOrderTaken_untaken untaken), closeAborted_spec _ _⟩
  have stc : c.stc = { s.stc with selector := none } := (congrArg State.stc closed.frame :)
  have pins : c.pins = s.pins := (congrArg State.pins closed.frame :)
  have orq : c.orq = s.orq := (congrArg State.orq closed.frame :)
  have hold : c.cls.hold = some .orderFailed := closed.hold _ rfl
  have held : c.cls.idle.hold ≠ none := hold ▸ nofun
  rw [clsHandBack_held (by rw [stc]; exact holder), stc] at closes
  have hands := handBack_wiper
    (s := { c with cls := c.cls.idle, stc := { s.stc with selector := none, handingBack := true } })
    servicing rfl sled wiper out (by rw [pins]; exact pin)
  refine ⟨_, .cons marks (.cons closes (.cons (clsClaim_hold held) (.cons hands (.nil _)))), ?_⟩
  exact {
    orq := orq
    cls := by
      show c.cls.idle = _
      rw [closed.cls, hold]
      rfl
    stc := rfl
    folded := closed.folded
    told := closed.told }

/-! ### The statement -/

theorem CycleIn.zoneTaken {s : State} {st : Stage} (cycle : CycleIn s st) : ZoneTaken s :=
  zoneTaken_of_servicing cycle.2.2.1

/-- `w` is what is left of `s` once a cleaning order has gone from the queue and from those outstanding. -/
structure OrderOut (o : Order) (os : List Order) (s w : State) : Prop where
  cls : w.cls = { s.cls with outstanding := s.cls.outstanding.filter fun n => n != o.id }
  stc : w.stc = s.stc
  pins : w.pins = s.pins
  queue : w.orq.queue = os
  waiting : w.orq.waiting = s.orq.waiting
  check : w.dtu.clsCheck = s.dtu.clsCheck
  untold : Untold .cleanAborted s w

theorem orderOut_done (p : Port) (o : Order) (os : List Order) (s : State) :
    OrderOut o os s (orderIn o (orderGone os (answered p .orderDone .ok [] s))) :=
  ⟨rfl, rfl, rfl, rfl, rfl, rfl, untold_of_evu rfl⟩

theorem orderOut_late (o : Order) (os : List Order) (s : State) :
    OrderOut o os s (orderIn o (orderGone os (timeoutTold o s))) :=
  have untold : Untold .cleanAborted s (timeoutTold o s) := untold_timeoutTold o s (by decide)
  { cls := congrArg (fun y : Cls => { y with outstanding := y.outstanding.filter fun n => n != o.id })
      (cls_timeoutTold o s)
    stc := stc_timeoutTold o s
    pins := pins_timeoutTold o s
    queue := rfl
    waiting := (congrArg Orq.waiting (orq_timeoutTold o s) :)
    check := (congrArg Dtu.clsCheck (dtu_timeoutTold o s) :)
    untold := untold.of_evu rfl }

/-- A cleaning order failed, and the cycle aborted for it. -/
theorem cycleFailed_ends {s w : State} {o : Order} {os : List Order} {st : Stage} {i : Instr} (cycle : CycleIn s st)
    (running : st.running = true) (untaken : ∀ y ∈ os, y.isTaken = false) (unchecked : s.dtu.clsCheck = none)
    (stopped : s.stc.pump.running = false) (sled : s.stc.sled.motion = none) (wiper : s.stc.wiper.motion = none)
    (out : wiperIsRetracted s = false) (pin : s.pins.wiperRetracted = false) (empty : s.orq.waiting = [])
    (left : OrderOut o os s w)
    (ends : ∀ t, WorkedOff 4 (w, [.abortCycle .orderFailed]) t → perform .takenEnded t = (t, []) →
      t.orq.waiting = [] → exec i s = .next t) :
    ∃ u, exec i s = .next u ∧
      Told .cleanAborted (several (s.cls.heads.map fun x => x.head.val)) (some (.cleanCause .orderFailed)) s u ∧
      FoldedBack s.cls.heads s.cls.cancelled s u ∧
      u.cls =
        { s.cls with
          table := u.cls.table, stage := .none, heads := [], suckLeft := [], spitLeft := [], outstanding := []
          escalated := 0, hold := some .orderFailed
          last := ⟨s.cls.heads.map fun x => ⟨x.head, x.level, x.done, none⟩, some .orderFailed⟩ } ∧
      u.orq.queue = os ∧
      u.stc =
        { s.stc with
          selector := none, handingBack := true
          wiper := { s.stc.wiper with motion := some (.retracted, 0) } } := by
  obtain ⟨cls, stc, pins, queue, waiting, check, untold⟩ := left
  obtain ⟨stage, unaborted, servicing, holder, handing⟩ := cycle
  have cycle : CycleIn w st := by
    rw [CycleIn, cls, stc]
    exact ⟨stage, unaborted, servicing, holder, handing⟩
  obtain ⟨t, works, failed⟩ := workedOff_orderFailed cycle running (queue ▸ untaken) (check.trans unchecked)
    (by rwa [stc]) (by rwa [stc]) (by rwa [stc]) (by rwa [wiperIsRetracted, stc]) (by rwa [pins]) (waiting.trans empty)
  have zone : ZoneTaken t := zoneTaken_of_servicing (by rw [failed.stc, stc]; exact servicing)
  have told := failed.told
  have folded := failed.folded
  have closed := failed.cls
  rw [cls] at told folded closed
  refine ⟨t, ends t works (takenEnded_zoneTaken zone) (by rw [failed.orq, waiting, empty]), untold.trans_told told,
    fun h => ?_, ?_, by rw [failed.orq, queue], by rw [failed.stc, stc]⟩
  · have entry : entryOf w h = entryOf s h := by rw [entryOf, cls]; rfl
    rw [folded h, entry]
  · rw [closed, ← unaborted]

/-- Settles O37, by the unit whose order has ended. -/
theorem orderEnded : Obligations.OrderEnded := by
  refine ⟨fun p body s => ⟨fun takes => ⟨fun bad => ?bad, exec_orderDone_late takes, ?units⟩, ?timer⟩, ?cycles⟩
  case bad =>
    rw [exec_orderDone takes, orderDone, if_pos bad, reply, answer_heldFor]
    rfl
  case units =>
    intro o os flag queue taken named other empty free t
    refine ⟨fun origin => ?exposure, fun origin cut => ⟨fun done => ?cut, fun faulted => ?jammed⟩⟩
    case exposure =>
      exact exec_orderDone_worked takes flag queue taken named.symm other
        (fun x => orderEndedFor_exposure origin _ x _) (.nil _) (by decide) (freeMoment_unclaimed free) empty
    case cut =>
      rw [exec_orderDone_fed takes flag queue taken named.symm other origin empty free, done]
      exact congrArg Host.Outcome.next (fdcOrderEnded_done (named ▸ cut))
    case jammed =>
      rw [exec_orderDone_fed takes flag queue taken named.symm other origin empty free, faulted]
      exact congrArg Host.Outcome.next (fdcOrderEnded_faulted (named ▸ cut))
  case timer =>
    intro awake o os n limit queue taken
    refine ⟨fun early => ?early, fun late origin empty free => ?late⟩
    case early =>
      rw [exec_orderTimerExpiry awake, orderExpires, lateOrder_taken queue taken, if_neg early.not_ge]
      rfl
    case late =>
      exact exec_orderTimerExpiry_worked awake queue taken late (fun x => orderEndedFor_exposure origin _ x _) (.nil _)
        (by decide) (freeMoment_unclaimed free) empty
  case cycles =>
    intro s o os st queue empty origin other mem cycle left sucked
    refine ⟨fun p body takes taken named done => ?done,
      fun stage untaken unchecked stopped sled wiper out pin => ?failed⟩
    case done =>
      intro t
      have spat (spitting : st = .spitting) (x : Option Sample) :
          orderEndedFor o (.done (field body 1 1 == 1)) x (orderGone os (answered p .orderDone .ok [] s)) =
            spitsDone t := by
        rw [orderEndedFor_cleaning origin, done]
        exact clsOrderEnded_spat (s := orderGone os (answered p .orderDone .ok [] s)) cycle mem spitting
      have ends {k : Nat} {v u : State} {acts : List Act} :=
        exec_orderDone_worked (k := k) (t := v) (u := u) (acts := acts) takes (by omega) queue taken named other
      refine ⟨fun wiping rests away => ?wiped, fun spitting more => ?more,
        fun x xs spitting last spits auto first room => ?checks, fun spitting last spits plain levels unparked => ?ends⟩
      case wiped =>
        refine ends (fun x => ?_) (workedOff_retract (s := t) cycle.2.2.1 rests away) (by decide)
          (takenEnded_zoneTaken cycle.zoneTaken) empty
        rw [orderEndedFor_cleaning origin, done]
        exact clsOrderEnded_wiped (s := orderGone os (answered p .orderDone .ok [] s)) cycle mem wiping
      case more =>
        exact ends (fun x => (spat spitting x).trans (spitsDone_more more)) (.nil _) (by decide)
          (takenEnded_zoneTaken cycle.zoneTaken) empty
      case checks =>
        have leaves := (spitsDone_last (s := t) last spits).trans
          (leaveSpitting_checks auto (by rw [show suckedHeads t = x :: xs from first]; nofun))
        have works := workedOff_checking (s := toChecking t) rfl cycle.2.1 ((suckedHeads_toChecking t).trans first)
          empty room
        have checked := ends (fun y => (spat spitting y).trans leaves) works (by decide)
          (takenEnded_zoneTaken (zoneTaken_of_servicing (by rw [stc_orderPlaced]; exact cycle.2.2.1)))
          (by rw [waiting_orderPlaced]; exact empty)
        intro c id u
        rw [checked, orderPlaced_eq, checkRows, suckedHeads_toChecking]
        rfl
      case ends =>
        have leaves := (spitsDone_last (s := t) last spits).trans (leaveSpitting_finishes plain)
        obtain ⟨u, works, unchecked⟩ := workedOff_unchecked (s := t) cycle levels unparked
        have orq : u.orq = t.orq := (congrArg State.orq unchecked.frame :)
        have zone : ZoneTaken u := by rw [ZoneTaken, unchecked.stc]; exact ⟨nofun, nofun⟩
        have ended := ends (fun y => (spat spitting y).trans leaves) works (by decide) (takenEnded_zoneTaken zone)
          (by rw [orq]; exact empty)
        refine ⟨u, ended, ?told, unchecked.entries, ?cls, unchecked.stc, unchecked.frame⟩
        case told => exact (untold_of_evu (k := .cleanDone) (t := t) rfl).trans_told unchecked.told
        case cls =>
          have cls := unchecked.cls
          rw [show t.cls = { s.cls with outstanding := [], abort := none } by rw [← cycle.2.1, ← last]] at cls ⊢
          exact cls
    case failed =>
      intro failed
      have running : st.running = true := by rcases stage with rfl | rfl <;> rfl
      refine ⟨fun p body takes taken named faulted => ?_, fun n limit awake taken late => ?_⟩
      · refine cycleFailed_ends cycle running untaken unchecked stopped sled wiper out pin empty
          (orderOut_done p o os s) fun t works =>
            exec_orderDone_worked takes (by omega) queue taken named other (fun x => ?_) works (by decide)
        rw [orderEndedFor_cleaning origin, faulted]
        exact clsOrderEnded_failed (s := orderGone os (answered p .orderDone .ok [] s)) cycle mem running rfl
      · refine cycleFailed_ends cycle running untaken unchecked stopped sled wiper out pin empty (orderOut_late o os s)
          fun t works => exec_orderTimerExpiry_worked awake queue taken late (fun x => ?_) works (by decide)
        rw [orderEndedFor_cleaning origin]
        exact clsOrderEnded_failed (s := orderGone os (timeoutTold o s)) cycle mem running rfl

end Sys2Proof.Machine
end

