-- ==== Sys2Proof/Proofs/DetectorRows.lean ====
section
/-!
SUPPORT. The strobes and samples of a CHECK_FIRE, and the row of a cycle's check that its end records (R85, R91, R108,
R116, R118, R123).
-/

namespace Sys2Proof.Machine

/-! ### Strobes and samples (R91, R116) -/

theorem exec_fireSyncStrobe {s : State} (awake : Awake s) (edge : Edge) :
    exec (.fireSyncStrobe edge) s = .next (strobe edge s) := by
  have runs : ¬ s.rsc.power = .rest := by simp [awake.2]
  refine (congrArg settle (event_awake awake)).trans ?_
  rw [if_neg runs]
  rfl

theorem exec_detectorSample {s : State} (awake : Awake s) (interrupted : Bool) :
    exec (.detectorSample interrupted) s = .next (takeSample interrupted s) := congrArg settle (event_awake awake)

theorem takenGroups_none {s : State} (untaken : takenOrder s = none) : takenGroups s = none := by
  simp only [takenGroups, untaken]

theorem takenGroups_checkFire {s : State} {o : Order} {c : Fin 6} {first last delay : Nat}
    (taken : takenOrder s = some o) (body : o.body = .checkFire c first last delay) :
    takenGroups s = some (first, last) := by
  simp only [takenGroups, taken, body]

theorem strobe_none {s : State} (edge : Edge) (none : takenGroups s = none) : strobe edge s = s := by
  simp only [strobe, none]

theorem strobe_groups {s : State} {first last : Nat} {r : Sample} (edge : Edge)
    (groups : takenGroups s = some (first, last)) (sample : s.dtu.sample = some r) :
    strobe edge s =
      if edge = r.edge then
        setDtu { s.dtu with
          sample := some { r with
            strobes := r.strobes + 1
            scheduled := if first + r.strobes ≤ last then r.scheduled ++ [first + r.strobes] else r.scheduled } } s
      else s := by
  simp only [strobe, groups, sample]
  rfl

theorem takeSample_none {s : State} (interrupted : Bool) (none : s.dtu.sample = none) :
    takeSample interrupted s = s := by
  simp only [takeSample, none]

theorem takeSample_scheduled {s : State} {r : Sample} {g : Nat} {gs : List Nat} (interrupted : Bool)
    (sample : s.dtu.sample = some r) (scheduled : r.scheduled = g :: gs) :
    takeSample interrupted s =
      setDtu { s.dtu with
        sample := some { r with
          scheduled := gs, detected := if interrupted then r.detected ++ [g] else r.detected } } s := by
  simp only [takeSample, sample, scheduled]
  rfl

/-! ### The record of a row (R123) -/

/-- From `s` to `t` nothing has changed but the health records, and no event is told but HEALTH_CHANGED. -/
structure HealthOnly (s t : State) : Prop where
  frame : { t with dtu := s.dtu, evu := s.evu } = s
  dtu : t.dtu = { s.dtu with health := t.dtu.health }
  untold : ∀ k, k ≠ .healthChanged → Untold k s t

theorem recordRow_healthOnly (c : Fin 6) (g limit : Nat) (seen : List Nat) (s : State) :
    HealthOnly s (recordRow c g limit seen s) := by
  unfold recordRow
  dsimp only
  split
  · exact ⟨rfl, rfl, fun k n => (untold_of_evu rfl).raise_other _ _ n.symm⟩
  · exact ⟨rfl, rfl, fun k _ => untold_of_evu rfl⟩

/-- What a row's record finds of the groups seen. -/
theorem checked_eq (x : Health) (g limit : Nat) (seen : List Nat) (now : Nat) :
    x.checked g limit seen now =
      let failed := (List.range g).filter fun n => !seen.contains n
      { x with
        groupCount := g, failed := failed, check := if failed.length ≤ limit then .pass else .fail
        degraded := x.degraded && decide (limit < failed.length), time := some now } := by
  have missed (n : Nat) : (!decide (n ≤ limit)) = decide (limit < n) := by
    rw [← decide_not, decide_eq_decide, Nat.not_le]
  have passes (n : Nat) : (if decide (n ≤ limit) then CheckResult.pass else .fail) =
      if n ≤ limit then .pass else .fail := by simp only [decide_eq_true_eq]
  dsimp only
  rw [← missed, ← passes]
  rfl

theorem health_recordRow (c : Fin 6) (g limit : Nat) (seen : List Nat) (s : State) (d : Fin 6) :
    health (recordRow c g limit seen s) d =
      health (setHealth s c ((health s c).checked g limit seen s.timeBase)) d := by
  unfold recordRow
  dsimp only
  split <;> rfl

theorem recordRow_recorded (c : Fin 6) (g limit : Nat) (seen : List Nat) (s : State) :
    RowRecorded c g limit seen s (recordRow c g limit seen s) := by
  refine ⟨?own, fun d other => ?others, fun changed => ?told, fun failed count => ?untold⟩
  case own => rw [health_recordRow, health_setHealth, checked_eq]
  case others => rw [health_recordRow, health_setHealth_other _ _ other.symm]
  case told =>
    have same : Untold .healthChanged s (setHealth s c ((health s c).checked g limit seen s.timeBase)) :=
      untold_of_evu rfl
    unfold recordRow
    dsimp only
    rw [if_pos (by rw [checked_eq]; exact changed)]
    exact same.raise_self _ _
  case untold =>
    unfold recordRow
    dsimp only
    rw [if_neg (by rw [checked_eq]; exact fun changed => changed.elim (· failed) (· count))]
    exact untold_of_evu rfl

/-- A row's record is a matter of the health records, the clock and HEALTH_CHANGED. -/
theorem RowRecorded.of_records {c : Fin 6} {g limit : Nat} {seen : List Nat} {s w t u : State}
    (h : RowRecorded c g limit seen w t) (before : w.dtu.health = s.dtu.health) (clock : w.timeBase = s.timeBase)
    (events : w.evu = s.evu) (after : u.dtu.health = t.dtu.health) (untold : Untold .healthChanged t u) :
    RowRecorded c g limit seen s u := by
  have first (d : Fin 6) : health w d = health s d := by rw [health, before]; rfl
  have last (d : Fin 6) : health u d = health t d := by rw [health, after]; rfl
  have opened : Untold .healthChanged s w := untold_of_evu events
  obtain ⟨own, others, told, quiet⟩ := h
  rw [first, clock] at own
  rw [first] at told quiet
  exact ⟨(last c).trans own, fun d n => by rw [last, others d n, first],
    fun changed => (opened.trans_told (told changed)).trans_untold untold,
    fun failed count => (opened.trans (quiet failed count)).trans untold⟩

/-! ### The end of a row's order (R85, R118) -/

theorem orderEndedFor_check {o : Order} (origin : o.origin = .check) (how : OrderEnd) (x : Option Sample)
    (s : State) : orderEndedFor o how x s = dtuOrderEnded o how x s := by
  simp only [orderEndedFor, origin]

theorem dtuOrderEnded_abandoned {o : Order} {s : State} (how : OrderEnd) (x : Option Sample)
    (abandoned : o.id ∈ s.dtu.abandoned) :
    dtuOrderEnded o how x s =
      (setDtu { s.dtu with abandoned := s.dtu.abandoned.filter fun n => n != o.id } s, []) :=
  if_pos (List.contains_iff_mem.mpr abandoned)

theorem orderDoneBody_sample {s : State} {o : Order} {r : Sample} (fire : o.body.isCheckFire = true)
    (sample : s.dtu.sample = some r) :
    orderDoneBody s o = le 2 (min r.strobes 65535) ++ le 1 r.detected.length ++ r.detected.flatMap (le 1) := by
  rw [orderDoneBody, if_pos fire, sample]
  show le 2 _ ++ (le 1 (r.detected.map byte).length ++ (r.detected.map byte).flatten) = _
  rw [List.length_map, List.append_assoc]
  rfl

/-- ORDER_DONE of a CHECK_FIRE, its consequences worked off. -/
theorem exec_orderDone_fired {k : Nat} {p : Port} {body : List Byte} {s t u : State} {o : Order} {os : List Order}
    {r : Sample} {reply : List Byte} {acts : List Act} (h : Takes s .orderDone p body) (flag : field body 1 1 ≤ 1)
    (queue : s.orq.queue = o :: os) (taken : o.isTaken = true) (named : field body 0 1 = o.id)
    (fire : o.body.isCheckFire = true) (sample : s.dtu.sample = some r) (told : orderDoneBody s o = reply)
    (ends : orderEndedFor o (.done (field body 1 1 == 1)) (some r)
      (orderGone os (answered p .orderDone .ok reply s)) = (u, acts))
    (later : WorkedOff k (u, acts) t) (few : k ≤ 390) (free : perform .takenEnded t = (t, []))
    (empty : t.orq.waiting = []) : exec (.orderDone p body) s = .next t := by
  rw [exec_orderDone_taken h flag queue taken named, told]
  refine settle_endTaken (s := answered p .orderDone .ok reply s) queue ?_ later few free empty
  rw [if_pos fire]
  exact (congrArg (orderEndedFor o _ · _) sample).trans ends

/-- The result of a row of a check (R108, R123). -/
def rowResult (c : Fin 6) (k : ClsCheck) (seen : List Nat) (s : State) : RowResult :=
  ⟨c, decide (((List.range k.groupCount).filter fun n => !seen.contains n).length ≤ k.passLimit), (health s c).degraded⟩

/-- The row recorded and its result added to those of the cycle's check. -/
def rowDone (k : ClsCheck) (c : Fin 6) (rows : List (Fin 6)) (seen : List Nat) (s : State) : State :=
  let t := recordRow c k.groupCount k.passLimit seen (setDtu { s.dtu with outstanding := none } s)
  setDtu { t.dtu with clsCheck := some { k with rows := rows, results := k.results ++ [rowResult c k seen s] } } t

theorem dtuOrderDone_row {s : State} {k : ClsCheck} {c : Fin 6} {rows : List (Fin 6)} (r : Sample)
    (check : s.dtu.clsCheck = some k) (row : k.rows = c :: rows) :
    let t := recordRow c k.groupCount k.passLimit r.detected s
    dtuOrderDone (some r) s =
      (setDtu
        { t.dtu with
          clsCheck := some { k with
            rows := rows
            results := k.results ++ [⟨c, decide ((health t c).check = .pass), (health s c).degraded⟩] } } t,
        [if rows.isEmpty then .dtuFinish else .dtuPlace]) := by
  unfold dtuOrderDone
  simp only [check, row]
  rfl

/-- A row passes by its record as it passes by the groups missed. -/
theorem passes_recordRow (c : Fin 6) (g limit : Nat) (seen : List Nat) (s : State) :
    decide ((health (recordRow c g limit seen s) c).check = .pass) =
      decide (((List.range g).filter fun n => !seen.contains n).length ≤ limit) := by
  rw [health_recordRow, health_setHealth, checked_eq]
  dsimp only
  split <;> simp_all

theorem dtuOrderEnded_row {s : State} {o : Order} {k : ClsCheck} {c : Fin 6} {rows : List (Fin 6)} (r : Sample)
    (kept : o.id ∉ s.dtu.abandoned) (own : s.dtu.outstanding = some o.id) (check : s.dtu.clsCheck = some k)
    (row : k.rows = c :: rows) :
    dtuOrderEnded o (.done false) (some r) s =
      (rowDone k c rows r.detected s, [if rows.isEmpty then .dtuFinish else .dtuPlace]) := by
  rw [dtuOrderEnded, if_neg (mt List.contains_iff_mem.mp kept), if_pos own]
  refine (dtuOrderDone_row (s := setDtu { s.dtu with outstanding := none } s) r check row).trans ?_
  dsimp only
  rw [passes_recordRow]
  rfl

/-- What the end of a row's order changes. -/
structure RowDone (k : ClsCheck) (c : Fin 6) (rows : List (Fin 6)) (seen : List Nat) (s t : State) : Prop where
  frame : { t with dtu := s.dtu, evu := s.evu } = s
  dtu : t.dtu =
    { s.dtu with
      health := t.dtu.health, outstanding := none
      clsCheck := some { k with rows := rows, results := k.results ++ [rowResult c k seen s] } }
  row : RowRecorded c k.groupCount k.passLimit seen s t
  untold : ∀ e, e ≠ .healthChanged → Untold e s t

theorem rowDone_spec (k : ClsCheck) (c : Fin 6) (rows : List (Fin 6)) (seen : List Nat) (s : State) :
    RowDone k c rows seen s (rowDone k c rows seen s) := by
  have recorded := recordRow_recorded c k.groupCount k.passLimit seen (setDtu { s.dtu with outstanding := none } s)
  obtain ⟨frame, dtu, untold⟩ :=
    recordRow_healthOnly c k.groupCount k.passLimit seen (setDtu { s.dtu with outstanding := none } s)
  exact {
    frame := (congrArg (fun y : State => { y with dtu := s.dtu }) frame).trans rfl
    dtu := congrArg (fun y : Dtu =>
      { y with clsCheck := some { k with rows := rows, results := k.results ++ [rowResult c k seen s] } }) dtu
    row := recorded.of_records rfl rfl rfl rfl (untold_of_evu rfl)
    untold := fun e n => (untold e n).of_evu rfl }

end Sys2Proof.Machine
end

