-- ==== Sys2Proof/Proofs/HeadsJudged.lean ====
section
/-!
SUPPORT. The order of a check's next row, and a head judged by the rows of its channels: passed, degraded or escalated
(R108, R109, R118, R125).
-/

namespace Sys2Proof.Machine

/-! ### The next row's order (R118) -/

theorem dtu_orderPlaced (b : OrderBody) (s : State) :
    (orderPlaced b s).dtu = { s.dtu with outstanding := some (nextOrderId s) } := by
  rw [orderPlaced_eq]
  split <;> rfl

theorem orq_orderPlaced (b : OrderBody) (s : State) :
    (orderPlaced b s).orq =
      { s.orq with
        queue := s.orq.queue ++ [⟨nextOrderId s, b, .check, .queued⟩], nextId := (nextOrderId s + 1) % 256 } := by
  rw [orderPlaced_eq]
  split <;> rfl

theorem frame_orderPlaced (b : OrderBody) (s : State) :
    { orderPlaced b s with dtu := s.dtu, orq := s.orq, evu := s.evu } = s := by
  rw [orderPlaced_eq]
  split <;> rfl

theorem untold_orderPlaced {k : EventKind} (b : OrderBody) (s : State) (other : k ≠ .ordersPending) :
    Untold k s (orderPlaced b s) := by
  rw [orderPlaced_eq]
  split
  · exact (untold_of_evu rfl).raise_other _ _ other.symm
  · exact untold_of_evu rfl

/-! ### A head judged (R108, R109, R125) -/

/-- What judging the head `x` may change: its entry, a hold, the health records and DEGRADED. -/
structure JudgeOnly (x : CycleHead) (s t : State) : Prop where
  frame : { t with cls := s.cls, dtu := s.dtu, evu := s.evu } = s
  cls : { t.cls with table := s.cls.table, hold := s.cls.hold } = s.cls
  dtu : { t.dtu with health := s.dtu.health } = s.dtu
  others : ∀ h, h ≠ x.head → entryOf t h = entryOf s h
  untold : ∀ k, k ≠ .degraded → Untold k s t

theorem JudgeOnly.refl (x : CycleHead) (s : State) : JudgeOnly x s s :=
  ⟨rfl, rfl, rfl, fun _ _ => rfl, fun k _ => Untold.refl k s⟩

theorem JudgeOnly.trans {x : CycleHead} {s t u : State} (h : JudgeOnly x s t) (h' : JudgeOnly x t u) :
    JudgeOnly x s u where
  frame := (congrArg (fun y : State => { y with cls := s.cls, dtu := s.dtu, evu := s.evu }) h'.frame).trans h.frame
  cls := (congrArg (fun y : Cls => { y with table := s.cls.table, hold := s.cls.hold }) h'.cls).trans h.cls
  dtu := (congrArg (fun y : Dtu => { y with health := s.dtu.health }) h'.dtu).trans h.dtu
  others k n := (h'.others k n).trans (h.others k n)
  untold k n := (h.untold k n).trans (h'.untold k n)

theorem setEntry_judgeOnly (x : CycleHead) (e : CleanEntry) (s : State) : JudgeOnly x s (setEntry s x.head e) :=
  ⟨rfl, rfl, rfl, fun _ other => entryOf_setEntry_other _ _ other.symm, fun _ _ => untold_of_evu rfl⟩

theorem foldRequest_judgeOnly (x : CycleHead) (l : Level) (urgent : Bool) (o : OriginSet) (s : State) :
    JudgeOnly x s (foldRequest x.head l urgent o s) :=
  ⟨rfl, rfl, rfl, fun h other => by rw [entryOf_foldRequest, if_neg other], fun _ _ => untold_of_evu rfl⟩

theorem markAll_judgeOnly (x : CycleHead) (cs : List (Fin 6)) : ∀ s,
    JudgeOnly x s (cs.foldl (fun s c => markDegraded c s) s) := by
  induction cs with
  | nil => exact .refl x
  | cons c cs ih =>
    intro s
    have marked : JudgeOnly x s (markDegraded c s) := ⟨rfl, rfl, rfl, fun _ _ => rfl, fun _ _ => untold_of_evu rfl⟩
    exact marked.trans (ih _)

theorem raise_judgeOnly (x : CycleHead) (m : BitVec 16) (d : Option Detail) (s : State) :
    JudgeOnly x s (raise .degraded m d s) :=
  ⟨rfl, rfl, rfl, fun _ _ => rfl, fun _ n => untold_raise _ _ _ n.symm⟩

theorem setStep_judgeOnly (x : CycleHead) (n : Nat) (s : State) : JudgeOnly x s (setStep x.head n s) :=
  setEntry_judgeOnly x _ s

section
variable {rs : List RowResult} {x : CycleHead} {s : State}

theorem judgeHead_pass (out : outcomeOf x.level (failRows rs x.head) = .pass) :
    judgeHead rs x s = setStep x.head 0 s := by
  simp only [judgeHead, out]

theorem judgeHead_stale (out : outcomeOf x.level (failRows rs x.head) = .degraded)
    (stale : ¬ ∃ y ∈ failRows rs x.head, y.wasDegraded = false) : judgeHead rs x s = setStep x.head 0 s := by
  simp only [judgeHead, out]
  rw [if_neg (by simpa using stale)]

/-- The rows marked and DEGRADED told. -/
def rowsMarked (fails : List RowResult) (x : CycleHead) (s : State) : State :=
  let rows := fails.map RowResult.channel
  raise .degraded (several (rows.map Fin.val)) (some (.head x.head)) (rows.foldl (fun s c => markDegraded c s) s)

theorem judgeHead_degraded (out : outcomeOf x.level (failRows rs x.head) = .degraded)
    (fresh : ∃ y ∈ failRows rs x.head, y.wasDegraded = false) :
    let t := rowsMarked (failRows rs x.head) x s
    judgeHead rs x s = setStep x.head 0 (setEntry t x.head (entryOf t x.head).cleared) := by
  simp only [judgeHead, out]
  rw [if_pos (by simpa using fresh)]
  rfl

theorem judgeHead_escalated (out : outcomeOf x.level (failRows rs x.head) = .escalated) :
    judgeHead rs x s =
      setStep x.head (sat Config.u8Max ((entryOf s x.head).step + 1))
        (foldRequest x.head x.level.next false (OriginSet.of .escalation) s) := by
  simp only [judgeHead, out]

end

theorem rowsMarked_judgeOnly (fails : List RowResult) (x : CycleHead) (s : State) :
    JudgeOnly x s (rowsMarked fails x s) := (markAll_judgeOnly x _ s).trans (raise_judgeOnly x _ _ _)

theorem judgeHead_judgeOnly (rs : List RowResult) (x : CycleHead) (s : State) : JudgeOnly x s (judgeHead rs x s) := by
  cases out : outcomeOf x.level (failRows rs x.head) with
  | pass =>
    rw [judgeHead_pass out]
    exact setStep_judgeOnly x 0 s
  | unchecked =>
    simp only [judgeHead, out]
    exact .refl x s
  | escalated =>
    rw [judgeHead_escalated out]
    exact (foldRequest_judgeOnly x _ _ _ s).trans (setStep_judgeOnly x _ _)
  | degraded =>
    by_cases fresh : ∃ y ∈ failRows rs x.head, y.wasDegraded = false
    · rw [judgeHead_degraded out fresh]
      exact (rowsMarked_judgeOnly _ x s).trans ((setEntry_judgeOnly x _ _).trans (setStep_judgeOnly x 0 _))
    · rw [judgeHead_stale out fresh]
      exact setStep_judgeOnly x 0 s

/-- A row once marked stays marked, whatever rows are marked after it. -/
theorem degraded_markAll (cs : List (Fin 6)) (c : Fin 6) : ∀ s, c ∈ cs ∨ (health s c).degraded = true →
    (health (cs.foldl (fun s c => markDegraded c s) s) c).degraded = true := by
  induction cs with
  | nil => exact fun s marked => marked.resolve_left (List.not_mem_nil)
  | cons d cs ih =>
    intro s marked
    refine ih (markDegraded d s) ?_
    by_cases same : d = c
    · subst same
      exact .inr (by rw [markDegraded, health_setHealth])
    · have apart : health (markDegraded d s) c = health s c := health_setHealth_other _ _ same
      rw [apart]
      exact marked.imp_left fun here => (List.mem_cons.mp here).resolve_left (Ne.symm same)

/-! ### The outcomes (R108) -/

theorem outcomeOf_pass {l : Level} {fails : List RowResult} (passed : fails = []) : outcomeOf l fails = .pass :=
  if_pos (by simp [passed])

theorem outcomeOf_stale {l : Level} {fails : List RowResult} (failed : fails ≠ [])
    (stale : ¬ ∃ y ∈ fails, y.wasDegraded = false) : outcomeOf l fails = .degraded := by
  rw [outcomeOf, if_neg (by simpa using failed), if_neg (by simpa using stale)]

theorem outcomeOf_fresh {l : Level} {fails : List RowResult} (fresh : ∃ y ∈ fails, y.wasDegraded = false) :
    outcomeOf l fails = if l = .strong then .degraded else .escalated := by
  have failed : fails ≠ [] := by
    obtain ⟨y, here, -⟩ := fresh
    exact List.ne_nil_of_mem here
  rw [outcomeOf, if_neg (by simpa using failed), if_pos (by simpa using fresh)]

end Sys2Proof.Machine
end

