-- ==== Sys2Proof/Proofs/DetectorSamples.lean ====
section
/-!
SUPPORT. The check of a cycle of one head closed with its last row, and the cycle at its end (R108 to R110, R125).
Settles O39.
-/

namespace Sys2Proof.Machine

/-! ### The check closed (R108) -/

/-- The check gone from the DTU, its results handed to the cycle. -/
def checkClosed (s : State) : State := setDtu { s.dtu with clsCheck := none, machine := .idle, holder := none } s

theorem dtuFinish_check {s : State} {k : ClsCheck} (check : s.dtu.clsCheck = some k) :
    perform .dtuFinish s = (checkClosed s, [.checkResults k.results]) := by
  show dtuFinish s = _
  simp only [dtuFinish, check]
  rfl

/-- The outcome of a cycle's head by the rows of its check. -/
def outcomeBy (rs : List RowResult) (x : CycleHead) : HeadOutcome := outcomeOf x.level (failRows rs x.head)

/-- The only head of the cycle judged, and the cycle at its finish. -/
def headJudged (rs : List RowResult) (x : CycleHead) (s : State) : State :=
  setCls { (judgeHead rs x s).cls with stage := .finishing, heads := [{ x with outcome := some (outcomeBy rs x) }] }
    (judgeHead rs x s)

theorem checkResults_single {s : State} {rs : List RowResult} {x : CycleHead} (cycle : CycleIn s .checking)
    (heads : s.cls.heads = [x]) (sucked : x.sucked = true) :
    perform (.checkResults rs) s = (headJudged rs x s, [.stageEntered]) := by
  obtain ⟨stage, unaborted, -⟩ := cycle
  have judged : suckedHeads s = [x] := by rw [suckedHeads, heads]; exact List.filter_cons_of_pos sucked
  have kept : (judgeHead rs x s).cls.heads = [x] :=
    (congrArg Cls.heads (judgeHead_judgeOnly rs x s).cls :).trans heads
  show checkResults rs s = _
  rw [checkResults, if_pos ⟨by simp [cycleRuns, stage, unaborted, Stage.running], stage⟩, judged]
  dsimp only [List.foldl_cons, List.foldl_nil]
  rw [kept, List.map_cons, List.map_nil, if_pos sucked]
  rfl

/-! ### The cycle at its end (R109, R110) -/

/-- The cycle of the head `x` ended with `outcome`: what follows the judgement `s`, but for the head's own entry. -/
structure CheckEnded (x : CycleHead) (outcome : HeadOutcome) (s u : State) : Prop where
  dtu : u.dtu = s.dtu
  waiting : u.orq.waiting = s.orq.waiting
  last : u.cls.last = ⟨[⟨x.head, x.level, x.done, some outcome⟩], none⟩
  heads : u.cls.heads = []
  escalated : u.cls.escalated = 0
  stc : u.stc = { s.stc.handedBack with claims := u.stc.claims }
  told : Told .cleanDone (one x.head.val) none s u
  untold : ∀ k, k ≠ .cleanDone → Untold k s u
  others : ∀ h, h ≠ x.head → (entryOf s h).level = none → entryOf u h = entryOf s h

section
variable {s : State} {rs : List RowResult} {x : CycleHead}

/-- Judged, the cycle is at its finish, where its zone stands. -/
theorem headJudged_cycle (cycle : CycleIn s .checking) : CycleIn (headJudged rs x s) .finishing := by
  obtain ⟨-, unaborted, servicing, holder, handing⟩ := cycle
  have judged := judgeHead_judgeOnly rs x s
  have stc : (headJudged rs x s).stc = s.stc := (congrArg State.stc judged.frame :)
  have abort : (headJudged rs x s).cls.abort = s.cls.abort := (congrArg Cls.abort judged.cls :)
  rw [CycleIn, stc, abort]
  exact ⟨rfl, unaborted, servicing, holder, handing⟩

theorem headJudged_unparked (unparked : HandsBackUnparked s) : HandsBackUnparked (headJudged rs x s) := by
  have judged := judgeHead_judgeOnly rs x s
  have stc : (headJudged rs x s).stc = s.stc := (congrArg State.stc judged.frame :)
  have ext : (headJudged rs x s).ext = s.ext := (congrArg State.ext judged.frame :)
  obtain ⟨down, retracted, away, due⟩ := unparked
  exact ⟨by rwa [sledIsDown, stc], by rwa [wiperIsRetracted, stc], by rwa [stc], due.of_ext ext⟩

theorem several_singleton (n : Nat) : several [n] = one n := BitVec.zero_or

/-- The finish of the cycle leaves its judged head's record, and tells CLEAN_DONE for it. -/
theorem cycleDone_single (sucked : x.sucked = true) :
    let t := cycleDone (headJudged rs x s)
    { t with cls := (judgeHead rs x s).cls, evu := (judgeHead rs x s).evu } = judgeHead rs x s ∧
      t.cls =
        { (headJudged rs x s).cls with
          table := t.cls.table, last := ⟨[⟨x.head, x.level, x.done, some (outcomeBy rs x)⟩], none⟩ } ∧
      entryOf t x.head = (entryOf (judgeHead rs x s) x.head).sucked ∧
      (∀ h, h ≠ x.head → entryOf t h = entryOf (judgeHead rs x s) h) ∧
      Told .cleanDone (one x.head.val) none (judgeHead rs x s) t ∧
      ∀ k, k ≠ .cleanDone → Untold k (judgeHead rs x s) t := by
  obtain ⟨frame, cls, entries, told, untold⟩ := cycleDone_spec (headJudged rs x s)
  have alone : suckedHeads (headJudged rs x s) = [{ x with outcome := some (outcomeBy rs x) }] :=
    List.filter_cons_of_pos (l := []) sucked
  have subject : several ((headJudged rs x s).cls.heads.map fun y => y.head.val) = one x.head.val :=
    several_singleton _
  rw [subject] at told
  refine ⟨?_, cls, ?_, fun h other => ?_, told, untold⟩
  · exact congrArg (fun y : State => { y with cls := (judgeHead rs x s).cls, evu := (judgeHead rs x s).evu }) frame
  · exact (entries x.head).trans (if_pos (by rw [alone]; exact ⟨_, List.mem_singleton_self _, rfl⟩))
  · refine (entries h).trans (if_neg ?_)
    rw [alone]
    rintro ⟨y, here, same⟩
    rw [List.mem_singleton.mp here] at same
    exact other same.symm

/-- A head that has passed or is DEGRADED ends the cycle with no request left. -/
theorem workedOff_plain (cycle : CycleIn s .checking) (sucked : x.sucked = true) (unparked : HandsBackUnparked s)
    (plain : outcomeBy rs x ≠ .escalated) (levels : ∀ h, (entryOf (judgeHead rs x s) h).level = none) :
    ∃ u, WorkedOff 4 (headJudged rs x s, [.stageEntered]) u ∧
      CheckEnded x (outcomeBy rs x) (judgeHead rs x s) u ∧
      entryOf u x.head = (entryOf (judgeHead rs x s) x.head).sucked ∧ u.cls.stage = .none := by
  have plainly : ∀ y ∈ (headJudged rs x s).cls.heads, y.outcome ≠ some .escalated := by
    intro y here
    rw [List.mem_singleton.mp here]
    exact fun escalated => plain (Option.some.inj escalated)
  have worked := workedOff_finishing (headJudged_cycle cycle) plainly (cycleDone_levels (s := headJudged rs x s) levels)
    (headJudged_unparked unparked)
  obtain ⟨frame, cls, entry, others, told, untold⟩ := cycleDone_single (s := s) (rs := rs) sucked
  refine ⟨_, worked, ?_, entry, rfl⟩
  exact {
    dtu := (congrArg State.dtu frame :)
    waiting := (congrArg (fun y : State => y.orq.waiting) frame :)
    last := (congrArg Cls.last cls :)
    heads := rfl
    escalated := rfl
    stc := rfl
    told := told.of_evu rfl
    untold := fun k n => (untold k n).of_evu rfl
    others := fun h other _ => others h other }

end

/-! ### A head that is escalated once too often (R110) -/

/-- A request that is no longer urgent. -/
def CleanEntry.calmed (e : CleanEntry) : CleanEntry := { e with urgent := if e.level.isSome then false else e.urgent }

theorem CleanEntry.calmed_of_none {e : CleanEntry} (blank : e.level = none) : e.calmed = e := by
  unfold calmed
  rw [blank]
  exact congrArg (fun l : Option Level => { e with level := l }) blank.symm

theorem clearUrgent_tableOnly (s : State) : TableOnly s (clearUrgent s) := by
  have cleared (l : List (Fin 3)) : ∀ s, TableOnly s (l.foldl (fun s h =>
      if (entryOf s h).level.isSome then setEntry s h { entryOf s h with urgent := false } else s) s) := by
    induction l with
    | nil => exact .refl
    | cons h l ih =>
      intro s
      have first : TableOnly s
          (if (entryOf s h).level.isSome then setEntry s h { entryOf s h with urgent := false } else s) := by
        split
        · exact setEntry_tableOnly s h _
        · exact .refl s
      exact first.trans (ih _)
  exact cleared allHeads s

theorem entryOf_clearUrgent (s : State) (h : Fin 3) : entryOf (clearUrgent s) h = (entryOf s h).calmed := by
  refine (foldl_at (Q := fun _ => True) (π := entryOf) (F := fun s h => (entryOf s h).calmed) (fun _ _ _ => trivial)
    (fun s h _ => ?same) (fun s h k other _ => ?other) h (l := allHeads) (by decide) trivial).trans (if_pos ?all)
  case same =>
    unfold CleanEntry.calmed
    split
    · rw [entryOf_setEntry]
    · rfl
  case other =>
    have kept :
        entryOf (if (entryOf s h).level.isSome then setEntry s h { entryOf s h with urgent := false } else s) k =
          entryOf s k := by
      split
      · exact entryOf_setEntry_other _ _ other
      · rfl
    exact ⟨kept, congrArg CleanEntry.calmed kept⟩
  case all => fin_cases h <;> decide

/-- Once cleared, no entry is both pending and urgent. -/
theorem anyUrgent_clearUrgent (s : State) : anyUrgent (clearUrgent s) = false := by
  rw [anyUrgent, List.any_eq_false]
  intro h _
  rw [entryOf_clearUrgent]
  cases level : (entryOf s h).level <;> simp [CleanEntry.calmed, level]

/-- The CLS with a request pending and no session claims the zone (R72, R101). -/
theorem clsClaim_places {s : State} (pending : anyPending s = true) (calm : anyUrgent s = false)
    (stage : s.cls.stage = .none) (handing : s.stc.handingBack = true) (hold : s.cls.hold = none)
    (servicing : s.stc.state = .servicing) (fresh : ∀ y ∈ s.stc.claims, y.who ≠ .cls) :
    perform .clsClaim s =
      ({ s with
          cls := { s.cls with stage := .waitZone }
          stc := { s.stc with claims := s.stc.claims ++ [⟨.cls, false⟩] } }, []) := by
  have absent : ¬ (s.stc.claims.any fun y => y.who == .cls) = true := by simpa using fresh
  show clsClaim s = _
  rw [clsClaim, if_pos (by simp [pending, stage, holdsSession, handing, hold]), calm]
  refine (if_neg absent).trans ?_
  simp [claimActs, setCls, setStc, servicing]

section
variable {s : State} {rs : List RowResult} {x : CycleHead}

/-- The state `g` in which an escalated cycle gives the zone back for the last time, its judgement being that of `s`. -/
structure EscalatedOut (rs : List RowResult) (x : CycleHead) (s g : State) : Prop where
  stc : g.stc = s.stc
  ext : g.ext = s.ext
  dtu : g.dtu = (judgeHead rs x s).dtu
  waiting : g.orq.waiting = (judgeHead rs x s).orq.waiting
  hold : g.cls.hold = (judgeHead rs x s).cls.hold
  last : g.cls.last = ⟨[⟨x.head, x.level, x.done, some .escalated⟩], none⟩
  pending : anyPending g = true
  calm : anyUrgent g = false
  entry : entryOf g x.head = (entryOf (judgeHead rs x s) x.head).sucked.calmed
  others : ∀ h, h ≠ x.head → entryOf g h = (entryOf (judgeHead rs x s) h).calmed
  told : Told .cleanDone (one x.head.val) none (judgeHead rs x s) g
  untold : ∀ k, k ≠ .cleanDone → Untold k (judgeHead rs x s) g

theorem anyPending_eq_true {s : State} : anyPending s = true ↔ ∃ h, (entryOf s h).level ≠ none := by
  rw [← Bool.not_eq_false, anyPending_eq_false, not_forall]

/-- A head is escalated with three escalated cycles before it: the requests are no longer urgent, and the zone is given
back (R110). -/
theorem finish_escalated (cycle : CycleIn s .checking) (sucked : x.sucked = true) (out : outcomeBy rs x = .escalated)
    (three : s.cls.escalated = 3) (pending : (entryOf (judgeHead rs x s) x.head).level ≠ none) :
    ∃ g, perform .stageEntered (headJudged rs x s) = clsHandBack g ∧ EscalatedOut rs x s g := by
  obtain ⟨stage, unaborted, -⟩ := headJudged_cycle (rs := rs) (x := x) cycle
  obtain ⟨frame, cls, entry, others, told, untold⟩ := cycleDone_single (s := s) (rs := rs) sucked
  obtain ⟨frame', cls'⟩ := clearUrgent_tableOnly (cycleDone (headJudged rs x s))
  have judged := judgeHead_judgeOnly rs x s
  have left : (cycleDone (headJudged rs x s)).cls.escalated = 3 :=
    (congrArg Cls.escalated cls :).trans ((congrArg Cls.escalated judged.cls :).trans three)
  have remains : anyPending (cycleDone (headJudged rs x s)) = true :=
    anyPending_eq_true.mpr ⟨x.head, by rw [entry]; exact pending⟩
  have escalates : ((cycleDone (headJudged rs x s)).cls.heads.any fun y => y.outcome == some .escalated) = true := by
    rw [(congrArg Cls.heads cls :), headJudged, out]
    rfl
  refine ⟨clearUrgent (cycleDone (headJudged rs x s)), ?_, ?_⟩
  · show stageEntered (headJudged rs x s) = _
    rw [stageEntered, if_pos (by simp [cycleRuns, stage, unaborted, Stage.running]), stage]
    show finishCycle (headJudged rs x s) = _
    rw [finishCycle_eq, if_pos ⟨escalates, remains⟩, left]
    rfl
  · have entries := entryOf_clearUrgent (cycleDone (headJudged rs x s))
    have evu : (clearUrgent (cycleDone (headJudged rs x s))).evu = (cycleDone (headJudged rs x s)).evu :=
      (congrArg State.evu frame' :)
    have own : entryOf (clearUrgent (cycleDone (headJudged rs x s))) x.head =
        (entryOf (judgeHead rs x s) x.head).sucked.calmed := by rw [entries, entry]
    have whole : { clearUrgent (cycleDone (headJudged rs x s)) with
        cls := (judgeHead rs x s).cls, evu := (judgeHead rs x s).evu } = judgeHead rs x s :=
      (congrArg (fun y : State => { y with cls := (judgeHead rs x s).cls, evu := (judgeHead rs x s).evu })
        frame').trans frame
    exact {
      stc := (congrArg State.stc whole :).trans (congrArg State.stc judged.frame :)
      ext := (congrArg State.ext whole :).trans (congrArg State.ext judged.frame :)
      dtu := (congrArg State.dtu whole :)
      waiting := (congrArg (fun y : State => y.orq.waiting) whole :)
      hold := (congrArg Cls.hold cls' :).trans (congrArg Cls.hold cls :)
      last := by rw [cls', cls, out]
      pending := anyPending_eq_true.mpr ⟨x.head, by rw [own]; exact pending⟩
      calm := anyUrgent_clearUrgent _
      entry := own
      others := fun h other => by rw [entries, others h other]
      told := told.of_evu evu
      untold := fun k n => (untold k n).of_evu evu }

/-- With three escalated cycles behind it the cycle ends, its heads' requests no longer urgent, and the CLS claims
again. -/
theorem workedOff_escalated (cycle : CycleIn s .checking) (sucked : x.sucked = true) (unparked : HandsBackUnparked s)
    (out : outcomeBy rs x = .escalated) (three : s.cls.escalated = 3) (fresh : ∀ y ∈ s.stc.claims, y.who ≠ .cls)
    (pending : (entryOf (judgeHead rs x s) x.head).level ≠ none) (hold : (judgeHead rs x s).cls.hold = none) :
    ∃ u, WorkedOff 4 (headJudged rs x s, [.stageEntered]) u ∧
      CheckEnded x .escalated (judgeHead rs x s) u ∧
      entryOf u x.head = (entryOf (judgeHead rs x s) x.head).sucked.calmed ∧ u.cls.stage = .waitZone ∧
      u.stc.claims = s.stc.claims ++ [⟨.cls, false⟩] := by
  obtain ⟨g, enters, ends⟩ := finish_escalated cycle sucked out three pending
  have stc : g.stc = s.stc := ends.stc
  obtain ⟨-, -, servicing, holder, -⟩ := cycle
  obtain ⟨down, retracted, away, due⟩ := unparked
  rw [clsHandBack_held (by rw [stc]; exact holder), stc] at enters
  have claims := clsClaim_places (s := { g with cls := g.cls.idle, stc := { s.stc with handingBack := true } })
    ends.pending ends.calm rfl rfl (ends.hold.trans hold) servicing fresh
  refine ⟨_, .cons enters (.cons claims (workedOff_handBack servicing rfl
    ⟨down, retracted, away, due.of_ext ends.ext⟩)), ?_, ends.entry, rfl, rfl⟩
  have judged : (judgeHead rs x s).stc = s.stc := (congrArg State.stc (judgeHead_judgeOnly rs x s).frame :)
  exact {
    dtu := ends.dtu
    waiting := ends.waiting
    last := ends.last
    heads := rfl
    escalated := rfl
    stc := by rw [judged]; rfl
    told := ends.told.of_evu rfl
    untold := fun k n => (ends.untold k n).of_evu rfl
    others := fun h other blank => (ends.others h other).trans (CleanEntry.calmed_of_none blank) }

end

/-! ### The judgements (R109, R125) -/

section
variable {s : State} {rs : List RowResult} {x : CycleHead}

theorem entryOf_setStep (h : Fin 3) (n : Nat) (s : State) :
    entryOf (setStep h n s) h = { entryOf s h with step := n } := entryOf_setEntry ..

theorem cls_rowsMarked (fails : List RowResult) (x : CycleHead) (s : State) : (rowsMarked fails x s).cls = s.cls :=
  foldl_kept State.cls (fun s c => markDegraded c s) (fun _ _ => rfl) _ s

theorem told_rowsMarked (fails : List RowResult) (x : CycleHead) (s : State) :
    Told .degraded (several (fails.map fun y => y.channel.val)) (some (.head x.head)) s (rowsMarked fails x s) := by
  have events := foldl_kept State.evu (fun s c => markDegraded c s) (fun _ _ => rfl) (fails.map RowResult.channel) s
  have subjects : (fails.map RowResult.channel).map Fin.val = fails.map fun y => y.channel.val := List.map_map ..
  rw [← subjects]
  exact (untold_of_evu events).raise_self _ _

theorem entryOf_judged_degraded (out : outcomeOf x.level (failRows rs x.head) = .degraded)
    (fresh : ∃ y ∈ failRows rs x.head, y.wasDegraded = false) :
    entryOf (judgeHead rs x s) x.head = { (entryOf s x.head).cleared with step := 0 } := by
  have same : entryOf (rowsMarked (failRows rs x.head) x s) x.head = entryOf s x.head := by
    rw [entryOf, cls_rowsMarked]
    rfl
  rw [judgeHead_degraded out fresh, entryOf_setStep, entryOf_setEntry, same]

theorem entryOf_judged_escalated (out : outcomeOf x.level (failRows rs x.head) = .escalated) :
    entryOf (judgeHead rs x s) x.head =
      { (entryOf s x.head).fold x.level.next false (OriginSet.of .escalation) with
        step := min ((entryOf s x.head).step + 1) 255 } := by
  rw [judgeHead_escalated out, entryOf_setStep, entryOf_foldRequest, if_pos rfl]
  rfl

/-- A request folded into an entry without one is its level. -/
theorem CleanEntry.level_fold {e : CleanEntry} (blank : e.level = none) (l : Level) (urgent : Bool)
    (o : OriginSet) : (e.fold l urgent o).level = some l := by
  rw [CleanEntry.fold, blank]
  cases l <;> rfl

/-- No head but the one judged has a request of its own. -/
theorem judged_levels (levels : ∀ h, (entryOf s h).level = none)
    (own : (entryOf (judgeHead rs x s) x.head).level = none) (h : Fin 3) :
    (entryOf (judgeHead rs x s) h).level = none := by
  by_cases here : h = x.head
  · rw [here, own]
  · rw [(judgeHead_judgeOnly rs x s).others h here, levels h]

end

/-! ### The last row of a cycle's check (R108, R110) -/

theorem CycleIn.of_records {s t : State} {st : Stage} (cycle : CycleIn s st) (stc : t.stc = s.stc)
    (cls : t.cls = s.cls) : CycleIn t st := by
  rwa [CycleIn, stc, cls]

theorem HandsBackUnparked.of_records {s t : State} (unparked : HandsBackUnparked s) (stc : t.stc = s.stc)
    (ext : t.ext = s.ext) : HandsBackUnparked t := by
  obtain ⟨down, retracted, away, due⟩ := unparked
  exact ⟨by rwa [sledIsDown, stc], by rwa [wiperIsRetracted, stc], by rwa [stc], due.of_ext ext⟩

/-- The last row recorded and the check closed: what `v` has of `s`. -/
structure RowTaken (k : ClsCheck) (c : Fin 6) (seen : List Nat) (s v : State) : Prop where
  stc : v.stc = s.stc
  cls : v.cls = s.cls
  ext : v.ext = s.ext
  waiting : v.orq.waiting = s.orq.waiting
  dtu : v.dtu =
    { s.dtu with
      sample := none, health := v.dtu.health, outstanding := none, clsCheck := none, machine := .idle, holder := none }
  row : RowRecorded c k.groupCount k.passLimit seen s v
  untold : ∀ e, e ≠ .healthChanged → Untold e s v

theorem rowTaken (p : Port) (reply : List Byte) (os : List Order) (k : ClsCheck) (c : Fin 6) (rows : List (Fin 6))
    (seen : List Nat) (s : State) :
    RowTaken k c seen s (checkClosed (rowDone k c rows seen (orderGone os (answered p .orderDone .ok reply s)))) := by
  obtain ⟨frame, dtu, row, untold⟩ := rowDone_spec k c rows seen (orderGone os (answered p .orderDone .ok reply s))
  have opened (e : EventKind) : Untold e s (orderGone os (answered p .orderDone .ok reply s)) := untold_of_evu rfl
  exact {
    stc := (congrArg State.stc frame :)
    cls := (congrArg State.cls frame :)
    ext := (congrArg State.ext frame :)
    waiting := (congrArg (fun y : State => y.orq.waiting) frame :)
    dtu := congrArg (fun y : Dtu => { y with clsCheck := none, machine := .idle, holder := none }) dtu
    row := row.of_records rfl rfl rfl rfl (untold_of_evu rfl)
    untold := fun e n => ((opened e).trans (untold e n)).of_evu rfl }

section
variable {k : ClsCheck} {c : Fin 6} {seen : List Nat} {s v u : State} {rs : List RowResult} {x : CycleHead}
  {outcome : HeadOutcome}

theorem RowTaken.entryOf (taken : RowTaken k c seen s v) (h : Fin 3) : entryOf v h = entryOf s h := by
  rw [Machine.entryOf, taken.cls]
  rfl

/-- What a cycle of one head ends with, whatever the judgement. -/
theorem RowTaken.ends (taken : RowTaken k c seen s v) (levels : ∀ h, (Machine.entryOf s h).level = none)
    (ended : CheckEnded x outcome (judgeHead rs x v) u) :
    u.dtu =
        { s.dtu with
          sample := none, health := u.dtu.health, outstanding := none, clsCheck := none, machine := .idle
          holder := none } ∧
      u.cls.last = ⟨[⟨x.head, x.level, x.done, some outcome⟩], none⟩ ∧ u.cls.heads = [] ∧ u.cls.escalated = 0 ∧
      Told .cleanDone (one x.head.val) none s u ∧ u.stc = { s.stc.handedBack with claims := u.stc.claims } ∧
      ∀ h, h ≠ x.head → Machine.entryOf u h = Machine.entryOf s h := by
  have judged := judgeHead_judgeOnly rs x v
  have stc : (judgeHead rs x v).stc = s.stc := (congrArg State.stc judged.frame :).trans taken.stc
  refine ⟨?dtu, ended.last, ended.heads, ended.escalated, ?told, stc ▸ ended.stc, fun h other => ?others⟩
  case dtu =>
    have same := congrArg (fun y : Dtu => { y with health := u.dtu.health }) judged.dtu
    rw [taken.dtu] at same
    rw [← ended.dtu] at same
    exact same
  case told =>
    exact ((taken.untold _ (by decide)).trans (judged.untold _ (by decide))).trans_told ended.told
  case others =>
    have kept : Machine.entryOf (judgeHead rs x v) h = Machine.entryOf s h :=
      (judged.others h other).trans (taken.entryOf h)
    rw [ended.others h other (by rw [kept]; exact levels h), kept]

/-- The closeds record stands where the judgement marks no row. -/
theorem RowTaken.recorded (taken : RowTaken k c seen s v) (ended : CheckEnded x outcome (judgeHead rs x v) u)
    (unmarked : (judgeHead rs x v).dtu = v.dtu) : RowRecorded c k.groupCount k.passLimit seen s u :=
  taken.row.of_records rfl rfl rfl (by rw [ended.dtu, unmarked])
    (((judgeHead_judgeOnly rs x v).untold _ (by decide)).trans (ended.untold _ (by decide)))

/-! ### The cycle's end by its outcome -/

variable (taken : RowTaken k c seen s v) (cycle : CycleIn s .checking) (sucked : x.sucked = true)
  (unparked : HandsBackUnparked s) (levels : ∀ h, (Machine.entryOf s h).level = none)
include taken cycle sucked unparked levels

theorem RowTaken.plain (plain : outcomeBy rs x ≠ .escalated)
    (idle : (Machine.entryOf (judgeHead rs x v) x.head).level = none) :
    ∃ u, WorkedOff 4 (headJudged rs x v, [.stageEntered]) u ∧
      CheckEnded x (outcomeBy rs x) (judgeHead rs x v) u ∧
      Machine.entryOf u x.head = (Machine.entryOf (judgeHead rs x v) x.head).sucked ∧ u.cls.stage = .none :=
  workedOff_plain (cycle.of_records taken.stc taken.cls) sucked (unparked.of_records taken.stc taken.ext) plain
    (judged_levels (fun h => by rw [taken.entryOf, levels]) idle)

/-- The head has passed, or every FAIL row of it was degraded: its step is 0 and no more is told. -/
theorem RowTaken.stepped (plain : outcomeBy rs x ≠ .escalated) (judge : judgeHead rs x v = setStep x.head 0 v) :
    ∃ u, WorkedOff 4 (headJudged rs x v, [.stageEntered]) u ∧
      CheckEnded x (outcomeBy rs x) (judgeHead rs x v) u ∧
      RowRecorded c k.groupCount k.passLimit seen s u ∧
      Machine.entryOf u x.head = { Machine.entryOf s x.head with drops := 0, dropPlaced := false, step := 0 } ∧
      u.cls.stage = .none ∧ Untold .degraded s u := by
  have judged : Machine.entryOf (judgeHead rs x v) x.head = { Machine.entryOf s x.head with step := 0 } := by
    rw [judge, entryOf_setStep, taken.entryOf]
  have untold : Untold .degraded v (judgeHead rs x v) := by rw [judge]; exact untold_of_evu rfl
  obtain ⟨u, works, ended, entry, stage⟩ :=
    taken.plain cycle sucked unparked levels plain (by rw [judged]; exact levels x.head)
  exact ⟨u, works, ended, taken.recorded ended (by rw [judge]; rfl), by rw [entry, judged]; rfl, stage,
    ((taken.untold _ (by decide)).trans untold).trans (ended.untold _ (by decide))⟩

/-- A STRONG head with a fresh FAIL row: its rows are marked, DEGRADED is told and its request ends. -/
theorem RowTaken.degraded (fresh : ∃ y ∈ failRows rs x.head, y.wasDegraded = false) (strong : x.level = .strong) :
    ∃ u, WorkedOff 4 (headJudged rs x v, [.stageEntered]) u ∧ CheckEnded x .degraded (judgeHead rs x v) u ∧
      Machine.entryOf u x.head =
        { (Machine.entryOf s x.head).cleared with drops := 0, dropPlaced := false, step := 0 } ∧
      u.cls.stage = .none ∧ (∀ y ∈ failRows rs x.head, (health u y.channel).degraded = true) ∧
      Told .degraded (several ((failRows rs x.head).map fun y => y.channel.val)) (some (.head x.head)) s u := by
  have out : outcomeBy rs x = .degraded := (outcomeOf_fresh fresh).trans (if_pos strong)
  have judge := judgeHead_degraded (s := v) out fresh
  have judged := entryOf_judged_degraded (s := v) out fresh
  have told : Told .degraded (several ((failRows rs x.head).map fun y => y.channel.val)) (some (.head x.head)) v
      (judgeHead rs x v) := by
    rw [judge]
    exact (told_rowsMarked _ x v).of_evu rfl
  obtain ⟨u, works, ended, entry, stage⟩ :=
    taken.plain cycle sucked unparked levels (by rw [out]; nofun) (by rw [judged]; rfl)
  rw [out] at ended
  refine ⟨u, works, ended, by rw [entry, judged, taken.entryOf]; rfl, stage, fun y here => ?_,
    ((taken.untold _ (by decide)).trans_told told).trans_untold (ended.untold _ (by decide))⟩
  rw [health, ended.dtu, judge]
  exact degraded_markAll _ _ v (.inl (List.mem_map_of_mem here))

/-- A head below STRONG with a fresh FAIL row: a request one level higher, and the CLS claims for it. -/
theorem RowTaken.escalated (fresh : ∃ y ∈ failRows rs x.head, y.wasDegraded = false) (weak : x.level ≠ .strong)
    (three : s.cls.escalated = 3) (unclaimed : ∀ y ∈ s.stc.claims, y.who ≠ .cls) :
    ∃ u, WorkedOff 4 (headJudged rs x v, [.stageEntered]) u ∧ CheckEnded x .escalated (judgeHead rs x v) u ∧
      RowRecorded c k.groupCount k.passLimit seen s u ∧
      Machine.entryOf u x.head =
        { (Machine.entryOf s x.head).fold x.level.next false (OriginSet.of .escalation) with
          drops := 0, dropPlaced := false, step := min ((Machine.entryOf s x.head).step + 1) 255, urgent := false } ∧
      u.cls.stage = .waitZone ∧ u.stc.claims = s.stc.claims ++ [⟨.cls, false⟩] := by
  have out : outcomeBy rs x = .escalated := (outcomeOf_fresh fresh).trans (if_neg weak)
  have judge := judgeHead_escalated (s := v) out
  have judged := entryOf_judged_escalated (s := v) out
  have level := CleanEntry.level_fold (levels x.head) x.level.next false (OriginSet.of .escalation)
  rw [taken.entryOf] at judged
  obtain ⟨u, works, ended, entry, stage, claims⟩ := workedOff_escalated (cycle.of_records taken.stc taken.cls) sucked
    (unparked.of_records taken.stc taken.ext) out (by rw [taken.cls]; exact three) (by rw [taken.stc]; exact unclaimed)
    (by rw [judged]; exact level ▸ nofun) (by rw [judge]; rfl)
  refine ⟨u, works, ended, taken.recorded ended (by rw [judge]; rfl), ?_, stage, by rw [claims, taken.stc]⟩
  rw [entry, judged, CleanEntry.sucked, CleanEntry.calmed]
  dsimp only
  rw [level]
  rfl

end

/-! ### ORDER_DONE of a CHECK_FIRE (R85, R126) -/

theorem dtuOrder_check {s : State} {k : ClsCheck} {c : Fin 6} {rows : List (Fin 6)} (check : s.dtu.clsCheck = some k)
    (row : k.rows = c :: rows) : dtuOrder s = some (.checkFire c 0 (k.groupCount - 1) (health s c).delay) := by
  simp only [dtuOrder, check, row]

section
variable {p : Port} {body : List Byte} {s : State} {o : Order} {os : List Order} {r : Sample} {k : ClsCheck} {c : Fin 6}
  {rows : List (Fin 6)} {reply : List Byte} (h : Takes s .orderDone p body) (queue : s.orq.queue = o :: os)
  (taken : o.isTaken = true) (origin : o.origin = .check) (fire : o.body.isCheckFire = true)
  (sample : s.dtu.sample = some r) (told : orderDoneBody s o = reply) (named : field body 0 1 = o.id)
include h queue taken origin fire sample told named

/-- ORDER_DONE of an abandoned order (R126). -/
theorem exec_orderDone_abandoned (flag : field body 1 1 ≤ 1) (empty : s.orq.waiting = [])
    (abandoned : o.id ∈ s.dtu.abandoned) (free : Unclaimed s) :
    let t := orderGone os (answered p .orderDone .ok reply s)
    exec (.orderDone p body) s =
      .next (setDtu { t.dtu with abandoned := s.dtu.abandoned.filter fun n => n != o.id } t) :=
  exec_orderDone_fired h flag queue taken named fire sample told
    ((orderEndedFor_check origin ..).trans (dtuOrderEnded_abandoned _ _ abandoned)) (.nil _) (by decide)
    (freeMoment_unclaimed free) empty

variable (kept : o.id ∉ s.dtu.abandoned) (own : s.dtu.outstanding = some o.id) (check : s.dtu.clsCheck = some k)
  (row : k.rows = c :: rows) (done : field body 1 1 = 0)
include kept own check row done

/-- ORDER_DONE of a row of a cycle's check, the row recorded (R85, R108). -/
theorem exec_orderDone_row {n : Nat} {u : State}
    (later : WorkedOff n (rowDone k c rows r.detected (orderGone os (answered p .orderDone .ok reply s)),
      [if rows.isEmpty then .dtuFinish else .dtuPlace]) u) (few : n ≤ 390) (zone : ZoneTaken u)
    (empty : u.orq.waiting = []) : exec (.orderDone p body) s = .next u := by
  refine exec_orderDone_fired h (by omega) queue taken named fire sample told ?_ later few (takenEnded_zoneTaken zone)
    empty
  rw [orderEndedFor_check origin, done]
  exact dtuOrderEnded_row (s := orderGone os (answered p .orderDone .ok reply s)) r kept own check row

/-- With a row left its order is placed (R118). -/
theorem exec_orderDone_nextRow {d : Fin 6} {ds : List (Fin 6)} (left : rows = d :: ds) (room : os.length < 16)
    (machine : s.dtu.machine ≠ .idle) (cycle : CycleIn s .checking) (empty : s.orq.waiting = []) :
    let y := rowDone k c rows r.detected (orderGone os (answered p .orderDone .ok reply s))
    exec (.orderDone p body) s =
      .next (orderPlaced (.checkFire d 0 (k.groupCount - 1) (health y d).delay) y) := by
  intro y
  obtain ⟨frame, dtu, -, -⟩ := rowDone_spec k c rows r.detected (orderGone os (answered p .orderDone .ok reply s))
  have stc : y.stc = s.stc := (congrArg State.stc frame :)
  have orq : y.orq = { s.orq with queue := os } := (congrArg State.orq frame :)
  have running : y.dtu.machine ≠ .idle := (congrArg Dtu.machine dtu :).trans_ne machine
  have order := dtuOrder_check (congrArg Dtu.clsCheck dtu) left
  have placed := workedOff_dtuPlace running order (by rw [orq]; exact empty) (by rw [orq]; exact room)
  refine exec_orderDone_row h queue taken origin fire sample told named kept own check row done (n := 2) ?_ (by decide)
    (zoneTaken_of_servicing (by rw [stc_orderPlaced, stc]; exact cycle.2.2.1))
    (by rw [waiting_orderPlaced, orq]; exact empty)
  rw [if_neg (by simp [left])]
  exact placed

/-- With the last row the check is closed and the cycle's head judged (R108). -/
theorem exec_orderDone_lastRow {x : CycleHead} {outcome : HeadOutcome} {u : State} (last : rows = [])
    (cycle : CycleIn s .checking) (heads : s.cls.heads = [x]) (sucked : x.sucked = true) (empty : s.orq.waiting = []) :
    let t := orderGone os (answered p .orderDone .ok reply s)
    let results := k.results ++ [rowResult c k r.detected t]
    let v := checkClosed (rowDone k c rows r.detected t)
    WorkedOff 4 (headJudged results x v, [.stageEntered]) u → CheckEnded x outcome (judgeHead results x v) u →
      exec (.orderDone p body) s = .next u := by
  intro t results v later ended
  have closed := rowTaken p reply os k c rows r.detected s
  have dtu := (rowDone_spec k c rows r.detected t).dtu
  have judged := judgeHead_judgeOnly results x v
  have closes : perform .dtuFinish (rowDone k c rows r.detected t) = (v, [.checkResults results]) :=
    dtuFinish_check (congrArg Dtu.clsCheck dtu)
  have judges := checkResults_single (rs := results) (cycle.of_records closed.stc closed.cls)
    (by rw [closed.cls]; exact heads) sucked
  have waiting : (judgeHead results x v).orq.waiting = v.orq.waiting :=
    (congrArg (fun y : State => y.orq.waiting) judged.frame :)
  refine exec_orderDone_row h queue taken origin fire sample told named kept own check row done (n := 6) ?_ (by decide)
    ?_ ?_
  · rw [last]
    exact .cons (last ▸ closes) (.cons judges later)
  · rw [ZoneTaken, ended.stc]
    exact ⟨nofun, nofun⟩
  · rw [ended.waiting, waiting, closed.waiting]
    exact empty

end

/-- The closeds order in the queue: what the statement says of the next row (R108, R118). -/
theorem nextRow_placed {k : ClsCheck} {c d : Fin 6} {rows : List (Fin 6)} {seen : List Nat} {s w : State}
    (records : w.dtu.health = s.dtu.health) (clock : w.timeBase = s.timeBase) (events : w.evu = s.evu) :
    let y := rowDone k c rows seen w
    let u := orderPlaced (.checkFire d 0 (k.groupCount - 1) (health y d).delay) y
    let id := nextOrderId w
    RowRecorded c k.groupCount k.passLimit seen s u ∧
      u.dtu =
        { w.dtu with
          health := u.dtu.health, outstanding := some id
          clsCheck := some { k with rows := rows, results := k.results ++ [rowResult c k seen w] } } ∧
      u.orq =
        { w.orq with
          queue := w.orq.queue ++ [⟨id, .checkFire d 0 (k.groupCount - 1) (health s d).delay, .check, .queued⟩]
          nextId := (id + 1) % 256 } ∧
      { u with dtu := w.dtu, orq := w.orq, evu := w.evu } = w := by
  intro y u id
  obtain ⟨frame, dtu, row, -⟩ := rowDone_spec k c rows seen w
  have queue : y.orq = w.orq := (congrArg State.orq frame :)
  have same : nextOrderId y = id := by rw [nextOrderId, orderIds, queue]; rfl
  have recorded : RowRecorded c k.groupCount k.passLimit seen s y :=
    row.of_records records clock events rfl (Untold.refl _ _)
  have delay : (health y d).delay = (health s d).delay := by
    obtain ⟨own, others, -⟩ := recorded
    by_cases here : d = c
    · rw [here, own]
    · rw [others d here]
  refine ⟨?row, ?dtu, ?orq, ?frame⟩
  case row =>
    exact recorded.of_records rfl rfl rfl (by rw [dtu_orderPlaced]) (untold_orderPlaced _ _ (by decide))
  case dtu =>
    rw [dtu_orderPlaced, same]
    exact congrArg (fun x : Dtu => { x with outstanding := some id }) dtu
  case orq => rw [orq_orderPlaced, same, queue, delay]
  case frame =>
    have placed := congrArg (fun x : State => { x with dtu := w.dtu, orq := w.orq, evu := w.evu })
      (frame_orderPlaced (.checkFire d 0 (k.groupCount - 1) (health y d).delay) y)
    exact placed.trans ((congrArg (fun x : State => { x with orq := w.orq }) frame).trans rfl)

/-- Settles O39, by what each strobe, sample and end of a CHECK_FIRE brings. -/
theorem detectorSamples : Obligations.DetectorSamples := by
  refine ⟨fun s awake => ⟨?strobes, fun untaken edge => ?untaken, ?samples, fun absent interrupted => ?absent⟩,
    fun p body s o os r takes queue taken origin fire sample named flag empty => ?ends⟩
  case strobes =>
    intro o os c first last delay r edge queue taken body sample
    rw [exec_fireSyncStrobe awake,
      strobe_groups edge (takenGroups_checkFire (takenOrder_taken queue taken) body) sample]
    exact ⟨fun other => by rw [if_neg other], fun same => by rw [if_pos same]⟩
  case untaken => rw [exec_fireSyncStrobe awake, strobe_none edge (takenGroups_none untaken)]
  case samples =>
    intro r g gs interrupted sample scheduled
    rw [exec_detectorSample awake, takeSample_scheduled interrupted sample scheduled]
  case absent => rw [exec_detectorSample awake, takeSample_none interrupted absent]
  case ends =>
    intro reply t
    have told : orderDoneBody s o = reply := orderDoneBody_sample fire sample
    refine ⟨exec_orderDone_abandoned takes queue taken origin fire sample told named flag empty, ?_⟩
    intro k c rows kept own check row machine cycle done missed results
    refine ⟨fun d ds left room => ?next, fun x last heads sucked unparked levels => ?last⟩
    case next =>
      intro id
      exact ⟨_, exec_orderDone_nextRow takes queue taken origin fire sample told named kept own check row done left room
        machine cycle empty, nextRow_placed rfl rfl rfl⟩
    case last =>
      intro fails fresh ends counted
      obtain ⟨v, closed, run⟩ : ∃ v, RowTaken k c r.detected s v ∧ ∀ outcome u,
          WorkedOff 4 (headJudged results x v, [.stageEntered]) u →
            CheckEnded x outcome (judgeHead results x v) u → exec (.orderDone p body) s = .next u :=
        ⟨_, rowTaken p reply os k c rows r.detected s, fun outcome u => exec_orderDone_lastRow takes queue taken origin
          fire sample told named kept own check row done last cycle heads sucked empty⟩
      have ending {outcome : HeadOutcome} {u : State} (works : WorkedOff 4 (headJudged results x v, [.stageEntered]) u)
          (ended : CheckEnded x outcome (judgeHead results x v) u) : ends outcome u :=
        ⟨run outcome u works ended, closed.ends levels ended⟩
      refine ⟨fun passed => ?passed, fun failed stale => ?stale, fun fresh strong => ?degraded,
        fun fresh weak three unclaimed => ?escalated⟩
      case passed =>
        have out : outcomeBy results x = .pass := outcomeOf_pass passed
        obtain ⟨u, works, ended, row, entry, stage, -⟩ :=
          closed.stepped cycle sucked unparked levels (by rw [out]; nofun) (judgeHead_pass out)
        exact ⟨u, ending works (out ▸ ended), row, entry, stage⟩
      case stale =>
        have out : outcomeBy results x = .degraded := outcomeOf_stale failed stale
        obtain ⟨u, works, ended, rest⟩ :=
          closed.stepped cycle sucked unparked levels (by rw [out]; nofun) (judgeHead_stale out stale)
        exact ⟨u, ending works (out ▸ ended), rest⟩
      case degraded =>
        obtain ⟨u, works, ended, rest⟩ := closed.degraded cycle sucked unparked levels fresh strong
        exact ⟨u, ending works ended, rest⟩
      case escalated =>
        obtain ⟨u, works, ended, rest⟩ := closed.escalated cycle sucked unparked levels fresh weak three unclaimed
        exact ⟨u, ending works ended, rest⟩

end Sys2Proof.Machine
end

