-- ==== Sys2Proof/Proofs/SuctionRuns.lean ====
section
/-!
SUPPORT. The debit of a suction run with whatever waste cartridge is fitted, and the consequences it leaves to be taken
(R32, R36, R37, R100).
-/

namespace Sys2Proof.Machine

/-! ### The waste of a run (R32, R36) -/

theorem suckInk_waste (revs : Nat) (c : Fin 6) (s : State) :
    (suckInk revs c s).uau.waste = s.uau.waste ∧ (suckInk revs c s).uau.orphan = s.uau.orphan := by
  have drawn : (checkOver c (debitTank c (suctionAmount s revs c) s)).uau = s.uau := by
    rw [checkOver_uau, uau_of_supply (debitTank_kept c _ s)]
  exact ⟨by rw [suckInk, setBook_uau, drawn], by rw [suckInk, setBook_uau, drawn]⟩

theorem chargeSuction_added (revs : Nat) (c : Fin 6) (s : State) :
    WasteAdded (suctionAmount s revs c) s (chargeSuction revs c s) := by
  by_cases h : suctionAmount s revs c = 0
  · rw [chargeSuction_nothing h, h]
    exact .of_same rfl rfl
  · rw [chargeSuction_draws h]
    obtain ⟨waste, orphan⟩ := suckInk_waste revs c s
    have added := (WasteAdded.of_same waste orphan).trans (wasteDebit_added (suctionAmount s revs c) _)
    rwa [Nat.zero_add] at added

theorem suctionPair_added (h : Fin 3) (revs : Nat) (s : State) :
    WasteAdded (revs * (s.params.suctionYield.get (firstChannel h) + s.params.suctionYield.get (secondChannel h))) s
      (suctionPair h revs s) := by
  have params := (chargeSuction_debitsOnly revs (firstChannel h) s).params
  have added := (chargeSuction_added revs (firstChannel h) s).trans (chargeSuction_added revs (secondChannel h) _)
  rw [suctionAmount, suctionAmount, params, ← Nat.mul_add] at added
  exact added

/-! ### The debit as a whole (R32, R36, R37, R39) -/

theorem suctionDebit_runs (h : Fin 3) {revs : Nat} (s : State) (some : revs ≠ 0) :
    suctionDebit h revs s =
      ((testWaste (suctionPair h revs s)).1,
        supplyActs s (suctionPair h revs s) ++ (testWaste (suctionPair h revs s)).2) := if_neg some

theorem suctionDebit_still (h : Fin 3) (s : State) : suctionDebit h 0 s = (s, []) := rfl

theorem suctionDebit_booked (h : Fin 3) (revs : Nat) (s : State) :
    SuctionBooked h revs s (suctionDebit h revs s).1 := by
  by_cases some : revs = 0
  · rw [some]
    exact .nothing h s
  · rw [suctionDebit_runs h s some]
    have tested := (testWaste_wasteOnly (suctionPair h revs s)).frame
    have books : (testWaste (suctionPair h revs s)).1.uau.books = (suctionPair h revs s).uau.books :=
      (congrArg (fun x : State => x.uau.books) tested :)
    have channels : (testWaste (suctionPair h revs s)).1.spu.channels = (suctionPair h revs s).spu.channels :=
      (congrArg (fun x : State => x.spu.channels) tested :)
    exact (suctionPair_booked h revs s).of_records rfl (by rw [books, channels])

theorem suctionDebit_taken (h : Fin 3) {revs : Nat} (s : State) (some : revs ≠ 0) :
    WasteTaken (revs * (s.params.suctionYield.get (firstChannel h) + s.params.suctionYield.get (secondChannel h))) s
      (suctionDebit h revs s).1 := by
  rw [suctionDebit_runs h s some]
  have debits := suctionPair_debitsOnly h revs s
  exact testWaste_taken (suctionPair_added h revs s) debits.bus (debits.untold _ nofun nofun)
    (debits.untold _ nofun nofun)

/-- A run's debit tells of its channels and of the waste account only. -/
theorem suctionDebit_untold (h : Fin 3) (revs : Nat) (s : State) {k : EventKind} (starved : k ≠ .channelStarved)
    (exceeded : k ≠ .overcommitted) (near : k ≠ .wasteNearFull) (full : k ≠ .wasteFull) :
    Untold k s (suctionDebit h revs s).1 := by
  by_cases some : revs = 0
  · rw [some]
    exact .refl k s
  · rw [suctionDebit_runs h s some]
    exact ((suctionPair_debitsOnly h revs s).untold k starved exceeded).trans
      ((testWaste_wasteOnly _).untold k near full)

/-- A run's debit brings a change of the waste state only where the cartridge is still fitted (R37). -/
theorem suctionDebit_fitted (h : Fin 3) (revs : Nat) (s : State) :
    ∃ u v waste, (suctionDebit h revs s).2 = supplyActs u v ++ waste ∧
      (waste = [] ∨ waste = [.wasteChanged] ∧ (suctionDebit h revs s).1.uau.waste.state ≠ .absent) := by
  by_cases some : revs = 0
  · refine ⟨s, s, [], ?_, .inl rfl⟩
    rw [some, suctionDebit_still, supplyActs_same fun _ => rfl]
    rfl
  · rw [suctionDebit_runs h s some]
    exact ⟨_, _, _, rfl, testWaste_acts _⟩

/-! ### What follows a run's debit (R100) -/

theorem WorkedOff.inert {s : State} {acts : List Act} (h : ∀ a ∈ acts, perform a s = (s, [])) :
    WorkedOff acts.length (s, acts) s := fun n rest => by
  rw [Nat.add_comm]
  exact runActs_inert_append rest n h

/-- The CLS's record with its hold set to `hold`. -/
def withHold (hold : Option CleanHold) (s : State) : State := setCls { s.cls with hold := hold } s

/-- While a cycle runs, a change of the waste state with the cartridge fitted at most ends a hold. -/
theorem wasteChanged_cycle {s : State} (running : s.cls.stage.running = true) (present : s.uau.waste.state ≠ .absent) :
    ∃ hold, perform .wasteChanged s = (withHold hold s, []) ∧
      (s.cls.hold ≠ some .wasteFull → s.cls.hold ≠ some .wasteAbsent → hold = s.cls.hold) := by
  by_cases held : s.cls.hold = some .wasteFull ∨ s.cls.hold = some .wasteAbsent
  · refine ⟨none, ?_, fun full absent => (held.elim full absent).elim⟩
    have busy : s.cls.stage ≠ .none := fun none => by rw [none] at running; cases running
    show clsWasteChanged s = _
    rw [clsWasteChanged, if_neg fun gone => present gone.1, if_pos held, clsClaim, if_neg (by simp [setCls, busy])]
    rfl
  · obtain ⟨full, absent⟩ := not_or.mp held
    exact ⟨s.cls.hold, wasteChanged_inert (fun gone => present gone.1) full absent, fun _ _ => rfl⟩

/-- The consequences of a run's debit, taken while a cycle runs past WAIT_INK. -/
theorem workedOff_suctionDebit {s t : State} (h : Fin 3) (revs : Nat) (running : t.cls.stage.running = true)
    (past : t.cls.stage ≠ .waitInk) (waste : t.uau.waste = (suctionDebit h revs s).1.uau.waste) :
    ∃ k hold, k ≤ 7 ∧ WorkedOff k (t, (suctionDebit h revs s).2) (withHold hold t) ∧
      (t.cls.hold ≠ some .wasteFull → t.cls.hold ≠ some .wasteAbsent → hold = t.cls.hold) := by
  obtain ⟨u, v, more, acts, change⟩ := suctionDebit_fitted h revs s
  have supply := WorkedOff.inert (supplyActs_inert u v past)
  have few := length_supplyActs_le u v
  rw [acts]
  rcases change with rfl | ⟨rfl, present⟩
  · exact ⟨_, t.cls.hold, by omega, supply.append (.nil t), fun _ _ => rfl⟩
  · obtain ⟨hold, changes, kept⟩ := wasteChanged_cycle running (waste ▸ present)
    exact ⟨_, hold, by omega, supply.append (.cons changes (.nil _)), kept⟩

end Sys2Proof.Machine
end

