-- ==== Sys2Proof/Proofs/SuctionStages.lean ====
section
/-!
SUPPORT. A cycle from WAIT_INK through its suction runs and its wipe to the first spit, each step with what it commands
(R58, R59, R103 to R107). Settles O42.
-/

namespace Sys2Proof.Machine

/-! ### The stages as they are entered (R104 to R106) -/

theorem sledCommand_arrived {e : SledEnd} {s : State} (still : s.stc.pump.running = false)
    (rests : s.stc.sled.motion = none) (there : sledSensor s e = true) :
    sledCommand e s = (setStc { s.stc with sled := { s.stc.sled with reached := some e } } s, [.sledDone]) := by
  rw [sledCommand, if_neg (by simp [still]), there, Moved.command_arrived e rests]
  rfl

section
variable {s : State} {st : Stage} (cycle : CycleIn s st)
include cycle

theorem CycleIn.runs (running : st.running = true) : cycleRuns s = true := by
  obtain ⟨stage, unaborted, -⟩ := cycle
  simp [cycleRuns, stage, unaborted, running]

theorem holderSled_cycle (e : SledEnd) : perform (.sledCommand e) s = sledCommand e s := if_pos cycle.2.2.1

theorem holderWiper_cycle (e : WiperEnd) : perform (.wiperCommand e) s = wiperCommand e s := if_pos cycle.2.2.1

theorem sledDone_cycle : perform .sledDone s = clsSledDone s := by
  obtain ⟨-, -, servicing, holder, handing⟩ := cycle
  show sledDone s = _
  rw [sledDone, if_pos servicing, if_neg (by simp [handing])]
  simp only [holder]

theorem wiperDone_cycle : perform .wiperDone s = clsWiperDone s := by
  obtain ⟨-, -, servicing, holder, handing⟩ := cycle
  show wiperDone s = _
  rw [wiperDone, if_pos servicing, if_neg (by simp [handing])]
  simp only [holder]

end

theorem stageEntered_sucking {s : State} (cycle : CycleIn s .sucking) : perform .stageEntered s = nextSuction s := by
  show stageEntered s = _
  rw [stageEntered, if_pos (cycle.runs rfl), cycle.1]

theorem stageEntered_wiping {s : State} (cycle : CycleIn s .wiping) :
    perform .stageEntered s = (s, [.sledCommand .down]) := by
  show stageEntered s = _
  rw [stageEntered, if_pos (cycle.runs rfl), cycle.1]

theorem stageEntered_spitting {s : State} (cycle : CycleIn s .spitting) :
    perform .stageEntered s = if sledIsDown s then nextSpit s else (s, [.sledCommand .down]) := by
  show stageEntered s = _
  rw [stageEntered, if_pos (cycle.runs rfl), cycle.1]

/-! ### WAIT_INK (R103, R104) -/

theorem exec_waitInkEnd {s : State} (awake : Awake s) : exec .waitInkEnd s = settle (waitInkTest s) :=
  congrArg settle (event_awake awake)

theorem waitInkTest_stays {s : State} (stays : s.cls.stage ≠ .waitInk ∨ s.cls.abort ≠ none ∨ inkWaits s = true) :
    waitInkTest s = Run.done s := by
  refine if_neg ?_
  rintro ⟨stage, unaborted, served⟩
  rcases stays with other | aborted | waits
  · exact other stage
  · exact aborted unaborted
  · exact served waits

/-- SUCKING entered with the heads that stand in the cycle. -/
def suctionEntered (xs : List CycleHead) (s : State) : State :=
  setCls { s.cls with
    stage := .sucking, suckLeft := xs.map CycleHead.head, spitLeft := s.cls.heads.map CycleHead.head } s

theorem waitInkTest_sucks {s : State} {x : CycleHead} {xs : List CycleHead} (stage : s.cls.stage = .waitInk)
    (unaborted : s.cls.abort = none) (served : inkWaits s = false) (kept : ∀ y ∈ s.cls.heads, dropsHead s y = false)
    (sucked : s.cls.heads.filter CycleHead.sucked = x :: xs) :
    waitInkTest s = (suctionEntered (x :: xs) s, [.stageEntered]) := by
  have undropped : s.cls.heads.filter (fun y => dropsHead s y) = [] := by
    rw [List.filter_eq_nil_iff]
    exact fun y here => by simp [kept y here]
  have all : s.cls.heads.filter (fun y => !dropsHead s y) = s.cls.heads := by
    rw [List.filter_eq_self]
    exact fun y here => by simp [kept y here]
  have some : s.cls.heads.isEmpty = false := by
    cases heads : s.cls.heads with
    | nil => rw [heads] at sucked; cases sucked
    | cons => rfl
  unfold waitInkTest
  rw [if_pos ⟨stage, unaborted, by simp [served]⟩, undropped, all]
  dsimp only
  rw [some, sucked]
  rfl

theorem nextSuction_up {s : State} {h : Fin 3} {hs : List (Fin 3)} (still : s.stc.pump.running = false)
    (left : s.cls.suckLeft = h :: hs) : nextSuction s = (s, [.sledCommand .up]) := by
  rw [nextSuction, if_neg (by simp [still]), left]

/-! ### A suction run begins (R59, R105) -/

/-- The selector joined to head `h` and the pump started for its target. -/
def runStarted (h : Fin 3) (hs : List (Fin 3)) (s : State) : State :=
  setStc { s.stc with selector := some h, pump := ⟨true, targetOf s h, 0⟩, stall := some 0 }
    (setCls { s.cls with suckLeft := hs } s)

theorem startRun_starts {s : State} {h : Fin 3} {hs : List (Fin 3)} (cycle : CycleIn s .sucking)
    (up : sledIsUp s = true) (still : s.stc.pump.running = false) (left : s.cls.suckLeft = h :: hs) :
    startRun s = runStarted h hs s := by
  obtain ⟨-, -, servicing, holder, handing⟩ := cycle
  have joined : joinSelector h (setCls { s.cls with suckLeft := hs } s) =
      setStc { s.stc with selector := some h } (setCls { s.cls with suckLeft := hs } s) :=
    if_neg (by simp [setCls, still])
  have ready :
      pumpReady (setStc { s.stc with selector := some h } (setCls { s.cls with suckLeft := hs } s)) = true := by
    have stands : sledIsUp (setStc { s.stc with selector := some h } (setCls { s.cls with suckLeft := hs } s)) = true :=
      up
    rw [pumpReady, stands]
    simp [setStc, servicing, holder, handing]
  unfold startRun
  simp only [left]
  rw [if_neg (by simp [still]), joined, startPump, if_pos ready]
  rfl

theorem sledDone_starts {s : State} {h : Fin 3} {hs : List (Fin 3)} (cycle : CycleIn s .sucking)
    (up : sledIsUp s = true) (still : s.stc.pump.running = false) (left : s.cls.suckLeft = h :: hs) :
    perform .sledDone s = (runStarted h hs s, []) := by
  rw [sledDone_cycle cycle, clsSledDone, if_pos (cycle.runs rfl), cycle.1]
  dsimp only
  rw [if_pos up, startRun_starts cycle up still left]
  rfl

/-! ### Revolutions (R59, R105) -/

theorem exec_pumpRevolution {s : State} (awake : Awake s) : exec .pumpRevolution s = settle (countRevolution s) :=
  congrArg settle (event_awake awake)

theorem countRevolution_still {s : State} (still : s.stc.pump.running = false) : countRevolution s = Run.done s :=
  if_neg (by simp [still])

theorem countRevolution_counts {s : State} (running : s.stc.pump.running = true)
    (more : s.stc.pump.revs + 1 < s.stc.pump.target) :
    countRevolution s =
      Run.done (setStc { s.stc with pump := { s.stc.pump with revs := s.stc.pump.revs + 1 }, stall := some 0 } s) := by
  rw [countRevolution, if_pos running]
  exact if_neg more.not_ge

/-- The pump stopped at its target. -/
def targetReached (s : State) : State :=
  setStc { s.stc with pump := ⟨false, s.stc.pump.target, s.stc.pump.target⟩, stall := none } s

theorem countRevolution_last {s : State} (running : s.stc.pump.running = true)
    (last : s.stc.pump.revs + 1 = s.stc.pump.target) : countRevolution s = (targetReached s, [.pumpDone]) := by
  rw [countRevolution, if_pos running, last]
  exact if_pos le_rfl

/-- The run of head `h` completed, its debit taken and the selector released, before what follows. -/
def runDebited (h : Fin 3) (s : State) : State :=
  setStc { s.stc with selector := none } (suctionDebit h s.stc.pump.revs (recordRun h s.stc.pump.revs s)).1

theorem pins_of_usage {s t : State} (h : keptByUsage t = keptByUsage s) : t.pins = s.pins := by
  simp only [keptByUsage, Prod.mk.injEq] at h
  obtain ⟨-, -, -, -, -, -, pins, -⟩ := h
  exact pins

/-- What the completed run leaves (R32, R36, R105). -/
structure RunDebited (h : Fin 3) (s t : State) : Prop where
  pins : t.pins = s.pins
  stc : t.stc = { s.stc with selector := none }
  cls : t.cls = { s.cls with heads := t.cls.heads }
  booked : SuctionBooked h s.stc.pump.revs s t
  taken : s.stc.pump.revs ≠ 0 → WasteTaken (s.stc.pump.revs
    * (s.params.suctionYield.get (firstChannel h) + s.params.suctionYield.get (secondChannel h))) s t

theorem runDebited_spec (h : Fin 3) (s : State) : RunDebited h s (runDebited h s) := by
  have kept := suctionDebit_keptU h s.stc.pump.revs (recordRun h s.stc.pump.revs s)
  have cls : (runDebited h s).cls = (recordRun h s.stc.pump.revs s).cls := (cls_of_usage kept :)
  exact {
    pins := (pins_of_usage kept :)
    stc := rfl
    cls := by rw [cls]; rfl
    booked := (suctionDebit_booked h s.stc.pump.revs (recordRun h s.stc.pump.revs s) :)
    taken := fun some => (suctionDebit_taken h (recordRun h s.stc.pump.revs s) some :) }

theorem pumpDone_debits {s : State} {h : Fin 3} (cycle : CycleIn s .sucking) (still : s.stc.pump.running = false)
    (joined : s.stc.selector = some h) :
    perform .pumpDone s = (runDebited h s,
      (suctionDebit h s.stc.pump.revs (recordRun h s.stc.pump.revs s)).2 ++ [.stageEntered]) := by
  have stc : (suctionDebit h s.stc.pump.revs (recordRun h s.stc.pump.revs s)).1.stc = s.stc :=
    (stc_of_usage (suctionDebit_keptU h s.stc.pump.revs (recordRun h s.stc.pump.revs s)) :)
  have debits : debitRun s = suctionDebit h s.stc.pump.revs (recordRun h s.stc.pump.revs s) := by
    simp only [debitRun, joined]
  show clsPumpDone s = _
  rw [clsPumpDone, if_pos ⟨cycle.runs rfl, cycle.1⟩, debits]
  dsimp only
  rw [releaseSelector, if_neg (by simp [stc, still]), runDebited, stc]

/-- WIPING entered after the last run, the sled sent DOWN. -/
theorem workedOff_wipes {s : State} (cycle : CycleIn s .sucking) (still : s.stc.pump.running = false)
    (emptied : s.cls.suckLeft = []) (rests : s.stc.sled.motion = none) (away : s.pins.sledDown = false) :
    WorkedOff 3 (s, [.stageEntered])
      (setStc { s.stc with sled := { s.stc.sled with motion := some (.down, 0) } }
        (setCls { s.cls with stage := .wiping } s)) := by
  have enters : perform .stageEntered s = (setCls { s.cls with stage := .wiping } s, [.stageEntered]) := by
    rw [stageEntered_sucking cycle, nextSuction, if_neg (by simp [still]), emptied]
  have wiping : CycleIn (setCls { s.cls with stage := .wiping } s) .wiping := ⟨rfl, cycle.2⟩
  have lowers := (holderSled_cycle wiping .down).trans (sledCommand_starts (e := .down) still rests away)
  exact .cons enters (.cons (stageEntered_wiping wiping) (.cons lowers (.nil _)))

/-- The pump done with the cycle's last run: the run debited and the cycle gone on to WIPING. -/
theorem workedOff_lastRun {s : State} {h : Fin 3} (cycle : CycleIn s .sucking) (still : s.stc.pump.running = false)
    (joined : s.stc.selector = some h) (emptied : s.cls.suckLeft = []) (rests : s.stc.sled.motion = none)
    (away : s.pins.sledDown = false) :
    ∃ k hold t, k ≤ 11 ∧ RunDebited h s t ∧
      WorkedOff k (s, [.pumpDone])
        (setStc { t.stc with sled := { t.stc.sled with motion := some (.down, 0) } }
          (setCls { (withHold hold t).cls with stage := .wiping } (withHold hold t))) := by
  have ended := pumpDone_debits cycle still joined
  have debited := runDebited_spec h s
  have running : (runDebited h s).cls.stage = .sucking := (congrArg Cls.stage debited.cls).trans cycle.1
  obtain ⟨k, hold, few, debits, -⟩ := workedOff_suctionDebit (t := runDebited h s) (s := recordRun h s.stc.pump.revs s)
    h s.stc.pump.revs (by rw [running]; rfl) (by rw [running]; nofun) rfl
  generalize runDebited h s = t at ended debited debits
  have ⟨pins, stc, cls, _, _⟩ := debited
  obtain ⟨stage, unaborted, servicing, holder, handing⟩ := cycle
  have left : CycleIn (withHold hold t) .sucking := by
    refine ⟨(congrArg Cls.stage cls).trans stage, (congrArg Cls.abort cls).trans unaborted, ?_⟩
    show t.stc.state = _ ∧ t.stc.holder = _ ∧ t.stc.handingBack = _
    rw [stc]
    exact ⟨servicing, holder, handing⟩
  have wipes := workedOff_wipes left ((congrArg (fun x : Stc => x.pump.running) stc).trans still)
    ((congrArg Cls.suckLeft cls).trans emptied) ((congrArg (fun x : Stc => x.sled.motion) stc).trans rests)
    ((congrArg Pins.sledDown pins).trans away)
  exact ⟨3 + k + 1, hold, t, by omega, debited, .cons ended (by rw [List.append_nil]; exact debits.append wipes)⟩

/-- The last revolution of a cycle's last run. -/
theorem exec_pumpRevolution_last {s : State} (awake : Awake s) (running : s.stc.pump.running = true)
    (last : s.stc.pump.revs + 1 = s.stc.pump.target) (lawful : PumpLawful s) (unaborted : s.cls.abort = none)
    (emptied : s.cls.suckLeft = []) (away : s.pins.sledDown = false) :
    ∃ h t, s.stc.selector = some h ∧ exec .pumpRevolution s = .next t ∧ t.cls.stage = .wiping ∧
      t.stc = { s.stc with
        pump := ⟨false, s.stc.pump.target, s.stc.pump.target⟩, stall := none, selector := none
        sled := ⟨some .up, some (.down, 0), s.stc.sled.queued⟩ } ∧
      SuctionBooked h s.stc.pump.target s t ∧
      WasteTaken (s.stc.pump.target
        * (s.params.suctionYield.get (firstChannel h) + s.params.suctionYield.get (secondChannel h))) s t := by
  obtain ⟨servicing, up, joined, holder, handing, sucking⟩ := lawful running
  obtain ⟨h, joined⟩ := Option.isSome_iff_exists.mp joined
  simp only [sledIsUp, Bool.and_eq_true, Option.isNone_iff_eq_none, beq_iff_eq] at up
  obtain ⟨rests, up⟩ := up
  obtain ⟨k, hold, t, few, ⟨-, stc, -, booked, taken⟩, works⟩ := workedOff_lastRun (s := targetReached s) (h := h)
    ⟨sucking, unaborted, servicing, holder, handing⟩ rfl joined emptied rests away
  have ends := works.settle (by omega)
  rw [← countRevolution_last running last, ← exec_pumpRevolution awake] at ends
  refine ⟨h, _, joined, ends, rfl, ?_, booked, taken (by show s.stc.pump.target ≠ 0; omega)⟩
  show ({ t.stc with sled := _ } : Stc) = _
  rw [stc]
  show ({ s.stc with pump := _, stall := _, selector := _, sled := ⟨s.stc.sled.reached, _, _⟩ } : Stc) = _
  rw [up]
  rfl

/-! ### The wipe and the spit (R106, R107) -/

/-- The state but for ORDERS_PENDING once the cycle's next order `b` has entered the queue (R78, R106, R107). -/
def cycleOrder (b : OrderBody) (s : State) : State :=
  let id := nextOrderId s
  let u : State :=
    { s with
      orq := { s.orq with queue := s.orq.queue ++ [⟨id, b, .cleaning, .queued⟩], nextId := (id + 1) % 256 }
      cls := { s.cls with outstanding := s.cls.outstanding ++ [id] } }
  if s.orq.queue.isEmpty then raise .ordersPending 0 none u else u

theorem placeOrder_enters {who : Placer} {b : OrderBody} {s : State} (empty : s.orq.waiting = [])
    (room : s.orq.queue.length < 16) :
    placeOrder who b s = (enterOrder b who.origin s, [.entered who (nextOrderId s)]) :=
  (if_neg (by simp [isWaiting, empty])).trans (if_pos (decide_eq_true room))

theorem cycleOrder_eq (b : OrderBody) (s : State) :
    setCls { s.cls with outstanding := s.cls.outstanding ++ [nextOrderId s] } (enterOrder b .cleaning s) =
      cycleOrder b s := by
  unfold enterOrder cycleOrder
  dsimp only
  split <;> rfl

theorem cls_enterOrder (b : OrderBody) (o : Origin) (s : State) : (enterOrder b o s).cls = s.cls := by
  unfold enterOrder
  dsimp only
  split <;> rfl

theorem entered_wiping {s : State} (b : OrderBody) (wiping : s.cls.stage = .wiping) :
    perform (.entered .cls (nextOrderId s)) (enterOrder b .cleaning s) = (cycleOrder b s, []) := by
  show clsEntered _ _ = _
  rw [clsEntered, cls_enterOrder, if_pos (by rw [wiping]; rfl), ← cycleOrder_eq]
  exact if_neg (by simp [setCls, wiping])

theorem clsWiperDone_raised {s : State} (cycle : CycleIn s .wiping) (raised : s.stc.wiper.reached = some .raised)
    (empty : s.orq.waiting = []) (room : s.orq.queue.length < 16) :
    WorkedOff 2 (s, [.wiperDone]) (cycleOrder (.wipePass ((suckedHeads s).map CycleHead.head)) s) := by
  have places : perform .wiperDone s =
      (enterOrder (.wipePass ((suckedHeads s).map CycleHead.head)) .cleaning s, [.entered .cls (nextOrderId s)]) := by
    rw [wiperDone_cycle cycle, clsWiperDone, if_pos ⟨cycle.runs rfl, cycle.1⟩, if_pos raised,
      placeOrder_enters empty room]
    rfl
  exact .cons places (.cons (entered_wiping _ cycle.1) (.nil _))

theorem cls_cycleOrder (b : OrderBody) (s : State) :
    (cycleOrder b s).cls = { s.cls with outstanding := s.cls.outstanding ++ [nextOrderId s] } := by
  unfold cycleOrder
  dsimp only
  split <;> rfl

theorem enterOrder_setCls (b : OrderBody) (o : Origin) (x : Cls) (s : State) :
    enterOrder b o (setCls x s) = setCls x (enterOrder b o s) := by
  unfold enterOrder
  dsimp only
  rw [apply_ite (setCls x)]
  rfl

theorem entered_lastSpit {s : State} {h : Fin 3} (b : OrderBody) (spitting : s.cls.stage = .spitting)
    (left : s.cls.spitLeft = [h]) :
    perform (.entered .cls (nextOrderId s)) (enterOrder b .cleaning s) =
      (cycleOrder b (setCls { s.cls with spitLeft := [] } s), [.nextSpit]) := by
  have tail : s.cls.spitLeft.tail = [] := by rw [left]; rfl
  have told : setCls { s.cls with outstanding := s.cls.outstanding ++ [nextOrderId s], spitLeft := [] }
      (enterOrder b .cleaning s) = cycleOrder b (setCls { s.cls with spitLeft := [] } s) := by
    rw [← cycleOrder_eq, enterOrder_setCls]
    rfl
  show clsEntered _ _ = _
  rw [clsEntered, cls_enterOrder, if_pos (by rw [spitting]; rfl), ← told, ← tail]
  exact if_pos spitting

theorem nextSpit_waits {s : State} (spits : s.cls.spitLeft = [])
    (out : s.cls.outstanding ≠ []) : perform .nextSpit s = (s, []) := by
  show nextSpit s = _
  rw [nextSpit]
  split
  · simp only [spits]
    exact spitsDone_more (.inl out)
  · rfl

/-- SPITTING entered with the sled DOWN and one head left: its spit is placed and waited for. -/
theorem workedOff_lastSpit {s : State} {h : Fin 3} (cycle : CycleIn s .spitting) (down : sledIsDown s = true)
    (empty : s.orq.waiting = []) (room : s.orq.queue.length < 16) (left : s.cls.spitLeft = [h]) :
    WorkedOff 3 (s, [.stageEntered])
      (cycleOrder (.spit h s.params.postWipeSpitDrops) (setCls { s.cls with spitLeft := [] } s)) := by
  have places : perform .stageEntered s =
      (enterOrder (.spit h s.params.postWipeSpitDrops) .cleaning s, [.entered .cls (nextOrderId s)]) := by
    rw [stageEntered_spitting cycle, if_pos down, nextSpit, if_pos ⟨cycle.runs rfl, cycle.1⟩, left]
    exact placeOrder_enters empty room
  refine .cons places (.cons (entered_lastSpit _ cycle.1 left) (.cons (nextSpit_waits ?_ ?_) (.nil _)))
  all_goals rw [cls_cycleOrder]
  · rfl
  · exact List.concat_ne_nil _ _

/-- The wiper RETRACTED after the pass: SPITTING entered with its last head's spit placed. -/
theorem clsWiperDone_retracted {s : State} {h : Fin 3} (cycle : CycleIn s .wiping)
    (retracted : s.stc.wiper.reached = some .retracted) (down : sledIsDown s = true) (empty : s.orq.waiting = [])
    (room : s.orq.queue.length < 16) (left : s.cls.spitLeft = [h]) :
    WorkedOff 4 (s, [.wiperDone])
      (cycleOrder (.spit h s.params.postWipeSpitDrops)
        (setCls { s.cls with stage := .spitting, spitLeft := [] } s)) := by
  have enters : perform .wiperDone s = (setCls { s.cls with stage := .spitting } s, [.stageEntered]) := by
    rw [wiperDone_cycle cycle, clsWiperDone, if_pos ⟨cycle.runs rfl, cycle.1⟩, if_neg (by simp [retracted])]
  exact .cons enters
    (workedOff_lastSpit (s := setCls { s.cls with stage := .spitting } s) ⟨rfl, cycle.2⟩ down empty room left)

/-! ### The statement -/

/-- Settles O42, stage by stage of the cycle. -/
theorem suctionBeginsAndEnds : Obligations.SuctionBeginsAndEnds := by
  refine ⟨fun s awake => ⟨fun stays => ?stays, ?sucks⟩, fun s awake => ⟨fun still => ?still, ?counts, ?last⟩,
    fun s awake => ⟨?starts, ?lowered, ?raised, ?retracted⟩⟩
  case stays => rw [exec_waitInkEnd awake, waitInkTest_stays stays, settle_done]
  case sucks =>
    intro x xs stage unaborted served kept sucked servicing holder handing rests still
    have sucking : CycleIn (suctionEntered (x :: xs) s) .sucking := ⟨rfl, unaborted, servicing, holder, handing⟩
    have enters : perform .stageEntered (suctionEntered (x :: xs) s) =
        (suctionEntered (x :: xs) s, [.sledCommand .up]) :=
      (stageEntered_sucking sucking).trans (nextSuction_up (h := x.head) (hs := xs.map CycleHead.head) still rfl)
    rw [exec_waitInkEnd awake, waitInkTest_sucks stage unaborted served kept sucked]
    refine ⟨fun there => ?there, fun away => ?away⟩
    case there =>
      have arrives := (holderSled_cycle sucking .up).trans (sledCommand_arrived (e := .up) still rests there)
      have starts := sledDone_starts (s := setStc { s.stc with sled := { s.stc.sled with reached := some .up } }
        (suctionEntered (x :: xs) s)) (h := x.head) (hs := xs.map CycleHead.head) sucking
        (by simp [sledIsUp, setStc, rests]) still rfl
      exact (WorkedOff.cons enters (.cons arrives (.cons starts (.nil _)))).settle (by decide)
    case away =>
      have moves := (holderSled_cycle sucking .up).trans (sledCommand_starts (e := .up) still rests away)
      exact (WorkedOff.cons enters (.cons moves (.nil _))).settle (by decide)
  case still => rw [exec_pumpRevolution awake, countRevolution_still still, settle_done]
  case counts =>
    intro running more
    rw [exec_pumpRevolution awake, countRevolution_counts running more, settle_done]
  case last =>
    intro running last lawful unaborted emptied away
    obtain ⟨h, t, joined, ends, wiping, stc, booked, taken⟩ :=
      exec_pumpRevolution_last awake running last lawful unaborted emptied away
    refine ⟨t, ends, wiping, stc, fun c => ?_, fun h' joined' => ?_⟩
    · rw [(booked c).2, joined]
      simp only [Option.some.injEq, eq_comm]
    · rw [joined] at joined'
      cases joined'
      exact taken
  case starts =>
    intro h hs n cycle moves alone still left
    have starts := sledDone_starts (s := sledAt .up s) ⟨cycle.1, cycle.2⟩ rfl still left
    rw [exec_sledMotionDone awake moves alone]
    exact settle_one starts
  case lowered =>
    intro n cycle moves alone rests away
    have wiping : CycleIn (sledAt .down s) .wiping := ⟨cycle.1, cycle.2⟩
    have reached : perform .sledDone (sledAt .down s) = (sledAt .down s, [.wiperCommand .raised]) := by
      rw [sledDone_cycle wiping, clsSledDone, if_pos (wiping.runs rfl), wiping.1]
      rfl
    have raises := (holderWiper_cycle wiping .raised).trans (wiperCommand_starts (e := .raised) rests away)
    rw [exec_sledMotionDone awake moves alone]
    exact (WorkedOff.cons reached (.cons raises (.nil _))).settle (by decide)
  case raised =>
    intro n cycle moves alone empty room
    rw [exec_wiperMotionDone awake moves alone]
    exact (clsWiperDone_raised (s := wiperAt .raised s) ⟨cycle.1, cycle.2⟩ rfl empty room).settle (by decide)
  case retracted =>
    intro h n cycle moves alone empty room down left
    rw [exec_wiperMotionDone awake moves alone]
    exact (clsWiperDone_retracted (s := wiperAt .retracted s) ⟨cycle.1, cycle.2⟩ rfl down empty room left).settle
      (by decide)

end Sys2Proof.Machine
end
